-- ==== Sys2Proof/Word.lean ====
section
/-! DEFINITION. The two widths the block has: bytes of a byte space and 32-bit words (`XLEN` = 32, R8). -/

namespace Sys2Proof

/-- One byte of `IN`, `OUT` or `BSB`. -/
abbrev Byte := BitVec 8

/-- A register, a command word, an entry of `FREQ`, `XSYM` or `UNIT` (`XLEN` = 32, R8, R20). -/
abbrev Word := BitVec 32

/-- The 32-bit pattern of -1 (R9, R176): `NONE32` of the Pyr unit, `NO_VALUE` of the Huffman unit,
the "no match" index of `DICT.FIND`. -/
abbrev none32 : Word := 0xFFFFFFFF#32

/-- A natural number as a register shows it: `zext_32` (R10) of a value that fits 32 bits (R25). -/
abbrev toWord (n : Nat) : Word := BitVec.ofNat 32 n

end Sys2Proof
end

