-- ==== Sys2Proof/Syntax.lean ====
section
/-! DEFINITION. The commands of the block, one constructor per row of the opcode table (R83). -/

namespace Sys2Proof

/-- The 25 commands. The operand of a format-B command is its immediate `imm8`, an unsigned number
used as it stands (R82); all other operands travel in registers (R80, R84). -/
inductive Instr where
  | sysNop
  | sysClrerr
  | sysReset
  | sysXchg
  | bsClear
  | bsGetpos
  | bsSetpos
  | bsRead (n : Nat)
  | bsPeek (n : Nat)
  | bsWrite (n : Nat)
  | bsAlign
  | bsReadbyte
  | bsWritebyte
  | dictClear (sel : Nat)
  | dictInsert
  | dictFind
  | dictFree
  | pyrCompress
  | pyrExpand
  | pyrMatchdec
  | hufBuild
  | hufEncode
  | hufDecode
  | rle0Compress
  | rle0Decompress
deriving DecidableEq, Repr

end Sys2Proof
end

