-- ==== Sys2Proof/WellFormed.lean ====
section
/-! DEFINITION. Which terms of `Instr` a command word can carry. -/

namespace Sys2Proof

/-- The immediate of a format-B command is eight bits wide (R82). Values that are legal in the
encoding but not for the command (R86) are well formed: the command itself raises. -/
def Instr.immFits (imm : Nat) : Bool := decide (imm < 256)

/-- A command is well formed when its operand fits its field. -/
def Instr.wellFormed : Instr → Bool
  | .sysNop | .sysClrerr | .sysReset | .sysXchg => true
  | .bsClear | .bsGetpos | .bsSetpos | .bsAlign | .bsReadbyte | .bsWritebyte => true
  | .bsRead n => Instr.immFits n
  | .bsPeek n => Instr.immFits n
  | .bsWrite n => Instr.immFits n
  | .dictClear sel => Instr.immFits sel
  | .dictInsert | .dictFind | .dictFree => true
  | .pyrCompress | .pyrExpand | .pyrMatchdec => true
  | .hufBuild | .hufEncode | .hufDecode => true
  | .rle0Compress | .rle0Decompress => true

end Sys2Proof
end

