-- ==== Sys2Proof/Decode.lean ====
section
/-! DEFINITION. The command decoder (R80 to R86) and the encoder written from the same table. -/

namespace Sys2Proof

/-- Why a word is illegal (R85). -/
inductive Illegal where
  /-- bits 31:24 hold none of the 25 opcodes -/
  | unknownOpcode
  /-- a listed opcode with a non-zero must-be-zero bit -/
  | mustBeZero
deriving DecidableEq, Repr

/-- Bits 31:24 of a command word (R80). -/
def opcodeOf (w : Word) : Nat := (w.extractLsb' 24 8).toNat

/-- `imm8`, bits 7:0 of a format-B word (R82). -/
def immOf (w : Word) : Nat := (w.extractLsb' 0 8).toNat

/-- Format N (R81): bits 23:0 must be zero. -/
def decodeN (w : Word) (i : Instr) : Except Illegal Instr :=
  if w.extractLsb' 0 24 = 0#24 then .ok i else .error .mustBeZero

/-- Format B (R82): bits 23:8 must be zero, bits 7:0 are the immediate. -/
def decodeB (w : Word) (i : Nat → Instr) : Except Illegal Instr :=
  if w.extractLsb' 8 16 = 0#16 then .ok (i (immOf w)) else .error .mustBeZero

/-- The decoder of R83, total: every word is a command or is rejected by name. -/
def decode (w : Word) : Except Illegal Instr :=
  match opcodeOf w with
  | 0x00 => decodeN w .sysNop
  | 0x01 => decodeN w .sysClrerr
  | 0x02 => decodeN w .sysReset
  | 0x03 => decodeN w .sysXchg
  | 0x10 => decodeN w .bsClear
  | 0x11 => decodeN w .bsGetpos
  | 0x12 => decodeN w .bsSetpos
  | 0x13 => decodeB w .bsRead
  | 0x14 => decodeB w .bsPeek
  | 0x15 => decodeB w .bsWrite
  | 0x16 => decodeN w .bsAlign
  | 0x17 => decodeN w .bsReadbyte
  | 0x18 => decodeN w .bsWritebyte
  | 0x20 => decodeB w .dictClear
  | 0x21 => decodeN w .dictInsert
  | 0x22 => decodeN w .dictFind
  | 0x23 => decodeN w .dictFree
  | 0x30 => decodeN w .pyrCompress
  | 0x31 => decodeN w .pyrExpand
  | 0x32 => decodeN w .pyrMatchdec
  | 0x40 => decodeN w .hufBuild
  | 0x41 => decodeN w .hufEncode
  | 0x42 => decodeN w .hufDecode
  | 0x50 => decodeN w .rle0Compress
  | 0x51 => decodeN w .rle0Decompress
  | _ => .error .unknownOpcode

/-- The opcode column of R83. -/
def opcode : Instr → Nat
  | .sysNop => 0x00
  | .sysClrerr => 0x01
  | .sysReset => 0x02
  | .sysXchg => 0x03
  | .bsClear => 0x10
  | .bsGetpos => 0x11
  | .bsSetpos => 0x12
  | .bsRead _ => 0x13
  | .bsPeek _ => 0x14
  | .bsWrite _ => 0x15
  | .bsAlign => 0x16
  | .bsReadbyte => 0x17
  | .bsWritebyte => 0x18
  | .dictClear _ => 0x20
  | .dictInsert => 0x21
  | .dictFind => 0x22
  | .dictFree => 0x23
  | .pyrCompress => 0x30
  | .pyrExpand => 0x31
  | .pyrMatchdec => 0x32
  | .hufBuild => 0x40
  | .hufEncode => 0x41
  | .hufDecode => 0x42
  | .rle0Compress => 0x50
  | .rle0Decompress => 0x51

/-- The immediate a command carries in bits 7:0; a format-N command has zero there. -/
def immediate : Instr → Nat
  | .bsRead n => n
  | .bsPeek n => n
  | .bsWrite n => n
  | .dictClear sel => sel
  | _ => 0

/-- The encoder: `opcode ‖ 16 zero bits ‖ imm8` (R81, R82). -/
def encode (i : Instr) : Word :=
  BitVec.ofNat 8 (opcode i) ++ 0#16 ++ BitVec.ofNat 8 (immediate i)

/-- The decoder read on a row of `spec/opcode_table.json`. A command is one 32-bit word (R80) and a
register has no byte order (R64), so the word's bits are the row's bits; bits the row does not give
are zero. -/
def decodeTableWord (nbits w : Nat) : Option Instr :=
  match decode (BitVec.ofNat 32 (w % 2 ^ nbits)) with
  | .ok i => some i
  | .error _ => none

end Sys2Proof
end

