-- ==== Sys2Proof/Config.lean ====
section
/-! DEFINITION. The implementation parameters of R8 and the free values of R55. -/

namespace Sys2Proof

/-- The parameters R8 leaves to an implementation (`BUF_CAP`, `HUF_XMAX`) and the ones a model takes
as arguments though the source fixes them, so that tests can use smaller values (`CAP`, `T12`, `T16`, `MAXBITS`;
93 P6). -/
structure Config where
  bufCap  : Nat
  hufXmax : Nat
  cap     : Nat
  t12     : Nat
  t16     : Nat
  maxBits : Nat
deriving DecidableEq, Repr

/-- R8's constraint on any configuration a model is run with. `MAXBITS` may be reduced only (93 P6; log 22): a
larger count would not fit a register. -/
def Config.wf (c : Config) : Bool :=
  decide (1 ≤ c.bufCap) && decide (c.bufCap ≤ 2 ^ 28) && decide (c.hufXmax ≤ 65280) &&
  decide (0 < c.t12) && decide (c.t12 ≤ 256) && decide (c.t12 < c.t16) && decide (c.t16 ≤ 4096) &&
  decide (0 < c.cap) && decide (c.cap ≤ 65536) && decide (c.maxBits ≤ 31)

/-- The source's fixed values (`CAP`, `T12`, `T16`, `MAXBITS`) with the two open ones at the top of their range
(DESIGN CHOICE for `bufCap` and `hufXmax`; log 2). -/
def Config.standard : Config :=
  { bufCap := 2 ^ 28, hufXmax := 65280, cap := 65536, t12 := 256, t16 := 4096, maxBits := 31 }

/-- The largest Huffman symbol (R250). -/
abbrev Config.maxSymbol : Nat := 65535

/-- The free value of a byte that nothing has written since reset (R55, 93 U2, U4: any value): a
fixed but unknown byte for each memory (`seed`) and address. No body: nothing is known of it. Log 3. -/
opaque Config.unwrittenByte (seed addr : Nat) : Byte

/-- The free value of an `XSYM` or `UNIT` word that nothing has written since reset. Log 3. -/
opaque Config.unwrittenWord (seed addr : Nat) : Word

end Sys2Proof
end

