-- ==== Sys2Proof/Machine/State.lean ====
section
/-! DEFINITION. The state of the block (10_state.md), plain data, and its value after reset (R54). -/

namespace Sys2Proof.Machine

/-- The five errors of R302. -/
inductive ErrKind where
  | invalidArgument
  | illegalCommand
  | unexpectedEnd
  | data
  | capacity
deriving DecidableEq, Repr

/-- One of the byte spaces `IN`, `OUT`, `BSB`: the bytes written since reset, addresses strictly
rising, and the family of free values its other bytes have (R55; log 3, log 4). -/
structure ByteBuf where
  cells : List Host.Cell
  seed  : Nat
deriving DecidableEq, Repr

/-- A word space whose reset contents are unspecified (`UNIT`, `XSYM`), in the same form. -/
structure WordBuf where
  cells : List (Nat × Word)
  seed  : Nat
deriving DecidableEq, Repr

/-- The value of `DSEL`: which space is `DATA` (R29, R44). -/
inductive DataSel where
  | inSpace
  | outSpace
deriving DecidableEq, Repr

/-- A map byte -> node of the dictionary (`ROOTS`, or the `children` of a node; R40, R43, R160):
the sibling nodes in rising order of their keys, each with its own children. A node's label is held
by value (R41) together with the offset in `DATA` of the window the hardware would hold (R153); the
window's length is the label's. The parent link of R40 is the nesting. Logs 5, 13, 14. -/
inductive Trie where
  | nil
  | node (off : Nat) (label : List Byte) (index : Option Nat) (prio : Nat) (children : Trie) (next : Trie)
deriving DecidableEq, Repr

/-- The token dictionary (R43, R45, R29). -/
structure Dict where
  roots     : Trie
  count     : Nat
  prio      : Nat
  freeValid : Bool
  freeIdx   : Nat
  dsel      : DataSel
deriving DecidableEq, Repr

/-- The Huffman tree (R50). A leaf has a symbol value; an inner node has both children and no value
(the source's sentinel `NONE`). -/
inductive HufTree where
  | leaf (value freq : Nat)
  | inner (freq : Nat) (left right : HufTree)
deriving DecidableEq, Repr

/-- The byte spaces as a host names them (R60). -/
inductive ByteSpace where
  | inp
  | out
  | bsb
deriving DecidableEq, Repr

/-- The 32-bit word spaces as a host names them (R60). -/
inductive WordSpace where
  | freq
  | xsym
  | unit
deriving DecidableEq, Repr

/-- What a host can do between two commands (R61, R20, R340). A command is issued by writing its
word to register 0, `CMD` (R80). -/
inductive HostMove where
  | regWrite (n : Nat) (v : Word)
  | regRead (n : Nat)
  | byteWrite (sp : ByteSpace) (a : Nat) (v : Byte)
  | byteRead (sp : ByteSpace) (a : Nat)
  | wordWrite (sp : WordSpace) (a : Nat) (v : Word)
  | wordRead (sp : WordSpace) (a : Nat)
  | hcodeWrite (sym : Nat) (v : Word)
  | hcodeRead (sym : Nat)
  | hardReset
deriving DecidableEq, Repr

/-- What a host read returned. An entry of `HCODE` is shown as the pair itself: its bit string, whose
length is `len` (R63, R51; log 10). -/
inductive HostReply where
  | none
  | word (v : Word)
  | byte (v : Byte)
  | code (c : Option (List Bool))
deriving DecidableEq, Repr

/-- The state of the block: 10_state.md R20 to R54, the spaces of 20_memory.md R60, and the model's
own fields. Widths and reset values are listed in INVENTORY.md. -/
structure State where
  /-- implementation parameters (R8; no step changes them; log 2) -/
  cfg      : Config
  /-- `STATUS.ERR` (R24) -/
  err      : Bool
  /-- `STATUS.HALT` (R24) -/
  halt     : Bool
  /-- `STATUS.ERRCODE` (R24) -/
  errCode  : Byte
  errInfo0 : Word
  errInfo1 : Word
  arg0     : Word
  arg1     : Word
  res0     : Word
  res1     : Word
  /-- `IN` and `IN_LEN` (R33, R27) -/
  inb      : ByteBuf
  inLen    : Nat
  /-- `OUT` and `OUT_LEN` -/
  outb     : ByteBuf
  outLen   : Nat
  /-- `BSB`, `BS_LEN` and the bit cursor (R28) -/
  bsb      : ByteBuf
  bsLen    : Nat
  bsByte   : Nat
  bsBit    : Nat
  /-- the token dictionary (R43) -/
  dict     : Dict
  /-- the unit record and its transition points (R35, R203) -/
  unit     : WordBuf
  unitLen  : Nat
  pyrT12   : Word
  pyrT16   : Word
  /-- Huffman inputs (R52): `FREQ` lists only its non-zero counts -/
  freq     : List (Nat × Word)
  xsym     : WordBuf
  hufNx    : Word
  /-- Huffman tree, code table and `HUF_INFO` (R50, R51, R31); `HCODE` lists only its codes -/
  hroot    : Option HufTree
  hcode    : List (Nat × List Bool)
  hufInfo  : Word
  /-- the model's own: host moves not yet performed, oldest first (log 1) -/
  pending  : List HostMove
  /-- the model's own: what the last host read returned (log 9) -/
  reply    : HostReply
  /-- the model's own: the next unused family of free values (log 3) -/
  nextSeed : Nat
deriving DecidableEq, Repr

/-- Why the machine stops. -/
inductive Fault where
  /-- Raised by a host read of `IN`, `OUT`, `BSB`, `FREQ`, `XSYM` or `UNIT` and a host write to `IN`, `BSB`, `FREQ`
  or `XSYM` at an address beyond the size of the space (R60): such an address has no cell and the spec gives
  the access no effect. No command raises it. Safe: the model stops. Log 8. -/
  | hostAddressOutsideSpace (addr : Nat)
deriving DecidableEq, Repr

/-- Why an instruction has no meaning. -/
inductive Refusal where
  /-- Raised only by an arm of `exec` whose instruction has no meaning yet; there is none. Safe. -/
  | notModelled (mnemonic : String)
deriving DecidableEq, Repr

/-- An empty dictionary over `sel`: the reset state (R54) and the result of `DICT.CLEAR` (R164). -/
def Dict.empty (sel : DataSel) : Dict :=
  { roots := .nil, count := 0, prio := 0, freeValid := false, freeIdx := 0, dsel := sel }

/-- Every item of the block's state at its reset value (R54), for a given implementation; `seed` is
the first unused family of free values: the contents of the five memories are unspecified (R55). -/
def State.resetWith (cfg : Config) (seed : Nat) : State where
  cfg      := cfg
  err      := false
  halt     := false
  errCode  := 0
  errInfo0 := 0
  errInfo1 := 0
  arg0     := 0
  arg1     := 0
  res0     := 0
  res1     := 0
  inb      := { cells := [], seed := seed }
  inLen    := 0
  outb     := { cells := [], seed := seed + 1 }
  outLen   := 0
  bsb      := { cells := [], seed := seed + 2 }
  bsLen    := 0
  bsByte   := 0
  bsBit    := 0
  dict     := Dict.empty .inSpace
  unit     := { cells := [], seed := seed + 3 }
  unitLen  := 0
  pyrT12   := none32
  pyrT16   := none32
  freq     := []
  xsym     := { cells := [], seed := seed + 4 }
  hufNx    := 0
  hroot    := none
  hcode    := []
  hufInfo  := 0
  pending  := []
  reply    := .none
  nextSeed := seed + 5

/-- The machine right after hardware reset (R340), with nothing asked of it yet. -/
def State.reset : State := State.resetWith Config.standard 0

end Sys2Proof.Machine
end

