-- ==== Sys2Proof/Machine/Flags.lean ====
section
/-! DEFINITION. The flag and field registers: error classes and codes (R301, R302), `STATUS` (R24),
`DICT_CTL` (R29), `HUF_INFO` (R31), `PYR_W` (R204). The block has no arithmetic flags (R23). -/

namespace Sys2Proof.Machine

/-- `STATUS.ERRCODE` of an error (R302). -/
def errorCode : ErrKind → Byte
  | .invalidArgument => 1
  | .illegalCommand => 2
  | .unexpectedEnd => 3
  | .data => 4
  | .capacity => 5

/-- Class D (data) errors set `ERR`; the others, class P (programmer), set `HALT` (R301, R302). -/
def isClassD : ErrKind → Bool
  | .invalidArgument => false
  | .illegalCommand => false
  | .unexpectedEnd => true
  | .data => true
  | .capacity => true

/-- An error is latched (R311). -/
def latched (s : State) : Bool := s.err || s.halt

/-- `STATUS` as the host reads it (R24): `ERRCODE` in 15:8, `HALT` in 2, `ERR` in 1, `BUSY` in 0; a
model reads `BUSY` as 0 always. -/
def statusWord (s : State) : Word :=
  0#16 ++ s.errCode ++ 0#5 ++ BitVec.ofBool s.halt ++ BitVec.ofBool s.err ++ 0#1

/-- `DSEL` as a bit: 0 = `IN`, 1 = `OUT` (R29). -/
def dselBit : DataSel → Bool
  | .inSpace => false
  | .outSpace => true

/-- `DICT_CTL` as the host reads it (R29): `FREEIDX` in 31:16, `FREEVALID` in 1, `DSEL` in 0. -/
def dictCtlWord (d : Dict) : Word :=
  BitVec.ofNat 16 d.freeIdx ++ 0#14 ++ BitVec.ofBool d.freeValid ++ BitVec.ofBool (dselBit d.dsel)

/-- The word `HUF.BUILD` puts into `HUF_INFO` (R251, R31): `NLEAF` in 16:0, `TREEVALID` in 31. -/
def hufInfoWord (nleaf : Nat) : Word :=
  BitVec.ofBool (decide (1 ≤ nleaf)) ++ 0#14 ++ BitVec.ofNat 17 nleaf

/-- The token field width `W(c)` for a live node count (R204). -/
def fieldWidth (cfg : Config) (count : Nat) : Nat :=
  if count ≤ cfg.t12 then 8 else if count ≤ cfg.t16 then 12 else 16

/-- `PYR_W`: the width in force, a function of `DICT_COUNT` alone (R20, R204). -/
def widthNow (s : State) : Nat := fieldWidth s.cfg s.dict.count

end Sys2Proof.Machine
end

