-- ==== Sys2Proof/Machine/Ops.lean ====
section
/-! DEFINITION. The named operations over memories and registers: the sparse canonical maps, the
spaces of R60, raising an error (R310) and returning from one (R291), the bit cursor (R28), `Append`
(R13) and the two bit-stream helpers (R130). -/

namespace Sys2Proof.Machine

/-! ### Sparse maps: (address, value) pairs, addresses strictly rising -/

/-- What the map lists at an address. -/
def cellGet? {α : Type} : List (Nat × α) → Nat → Option α
  | [], _ => none
  | (k, v) :: r, a => if k = a then some v else cellGet? r a

/-- The map with a value listed at an address. -/
def cellSet {α : Type} : List (Nat × α) → Nat → α → List (Nat × α)
  | [], a, v => [(a, v)]
  | (k, w) :: r, a, v =>
    if a < k then (a, v) :: (k, w) :: r
    else if a = k then (a, v) :: r
    else (k, w) :: cellSet r a v

/-- The map with nothing listed at an address. -/
def cellErase {α : Type} : List (Nat × α) → Nat → List (Nat × α)
  | [], _ => []
  | (k, w) :: r, a => if a = k then r else (k, w) :: cellErase r a

/-- The canonical form: addresses strictly rising. -/
def cellsSorted {α : Type} : List (Nat × α) → Bool
  | [] => true
  | (k, _) :: r =>
    (match r with
     | [] => true
     | (k', _) :: _ => decide (k < k')) && cellsSorted r

/-- `x[i]` on a space with unspecified reset contents: the byte last written, else the free value of
that cell (R55, 93 U2). This is the one place that says what an unlisted address reads as. -/
def bufRead (b : ByteBuf) (a : Nat) : Byte :=
  (cellGet? b.cells a).getD (Config.unwrittenByte b.seed a)

/-- A byte store. -/
def bufWrite (b : ByteBuf) (a : Nat) (v : Byte) : ByteBuf :=
  { b with cells := cellSet b.cells a v }

/-- The same for a word space (`UNIT`, `XSYM`). -/
def wordRead (b : WordBuf) (a : Nat) : Word :=
  (cellGet? b.cells a).getD (Config.unwrittenWord b.seed a)

/-- A word store. -/
def wordWrite (b : WordBuf) (a : Nat) (v : Word) : WordBuf :=
  { b with cells := cellSet b.cells a v }

/-- `FREQ[a]`: counts are 0 after reset (R54), and only non-zero counts are listed. -/
def freqRead (f : List (Nat × Word)) (a : Nat) : Word := (cellGet? f a).getD 0

/-- A store to `FREQ`; storing 0 removes the entry, so that equal tables are equal lists. -/
def freqWrite (f : List (Nat × Word)) (a : Nat) (v : Word) : List (Nat × Word) :=
  if v = 0 then cellErase f a else cellSet f a v

/-- `MemRead(S, a, n)` (R13): `n` bytes in ascending address order. -/
def slice (b : ByteBuf) (a : Nat) : Nat → List Byte
  | 0 => []
  | n + 1 => bufRead b a :: slice b (a + 1) n

/-- A byte space by name (R60). -/
def byteSpace (sp : ByteSpace) (s : State) : ByteBuf :=
  match sp with
  | .inp => s.inb
  | .out => s.outb
  | .bsb => s.bsb

/-! ### Errors -/

/-- How a command ends: with a result, or by raising one error in the state its pseudocode had
reached (R300, R313). -/
inductive Res (α : Type) where
  | ok (a : α)
  | raised (e : ErrKind) (info : Nat) (s : State)
deriving DecidableEq, Repr

/-- Go on unless an error was raised. -/
def Res.bind {α β : Type} (r : Res α) (f : α → Res β) : Res β :=
  match r with
  | .ok a => f a
  | .raised e info s => .raised e info s

/-- TAKING AN EXCEPTION: the effect of `raise E(info)` by the command word `w` (R310). `RES0`, `RES1`
and everything else stay as the state `s` of the raise has them. -/
def raise (e : ErrKind) (info : Nat) (w : Word) (s : State) : State :=
  { s with
    errInfo0 := toWord info
    errInfo1 := w
    errCode := errorCode e
    err := s.err || isClassD e
    halt := s.halt || !isClassD e }

/-- RETURNING FROM ONE: `SYS.CLRERR`'s effect when the block is not halted (R291, R314). The
diagnostic registers keep their values (R26). -/
def clearError (s : State) : State := { s with err := false, errCode := 0 }

/-- The outcome of a command whose word is `w`: either end is a next state (R300). -/
def finish (w : Word) (r : Res State) : Host.Outcome State Fault Refusal :=
  match r with
  | .ok s => .next s
  | .raised e info s => .next (raise e info w s)

/-! ### Bit cursor and bit stream -/

/-- `pos = BS_BYTE·8 + BS_BIT` (R28). -/
def bitPos (s : State) : Nat := s.bsByte * 8 + s.bsBit

/-- `pos <- p`: `BS_BYTE <- p div 8`, `BS_BIT <- p mod 8`. -/
def setPos (p : Nat) (s : State) : State := { s with bsByte := p / 8, bsBit := p % 8 }

/-- The position rounded up to a byte boundary (R138, R139). -/
def alignedPos (s : State) : Nat := (bitPos s + 7) / 8 * 8

/-- `GetBit(p) = BSB[p div 8][7 - (p mod 8)]` (R130): stream bit 0 of a byte is its most significant
bit (R11). -/
def getBit (s : State) (p : Nat) : Bool := (bufRead s.bsb (p / 8)).getLsbD (7 - p % 8)

/-- The loop of `OrBit`: `n` zero bytes are added at the end of `BSB` (R130, R62). -/
def growZero : Nat → State → State
  | 0, s => s
  | n + 1, s => growZero n { s with bsb := bufWrite s.bsb s.bsLen 0, bsLen := s.bsLen + 1 }

/-- A byte with a single bit in stream position `k`: `b << (7 - k)`. -/
def streamBit (k : Nat) (b : Bool) : Byte := (BitVec.ofBool b).setWidth 8 <<< (7 - k)

/-- `OrBit(p, b)` (R130): grows `BSB` with zero bytes up to and including byte `p div 8`, then ORs the
bit in; it never clears a bit. -/
def orBit (p : Nat) (b : Bool) (s : State) : Res State :=
  if s.cfg.bufCap ≤ p / 8 then .raised .capacity p s
  else
    let s1 := growZero (p / 8 + 1 - s.bsLen) s
    .ok { s1 with bsb := bufWrite s1.bsb (p / 8) (bufRead s1.bsb (p / 8) ||| streamBit (p % 8) b) }

/-- The write loop of `BS.WRITE`, `BS.WRITEBYTE` and `HUF.ENCODE` (R136, R139, R258): each bit in
turn is OR-ed in at the position, which then advances by one. -/
def writeBits : List Bool → State → Res State
  | [], s => .ok s
  | b :: bs, s => (orBit (bitPos s) b s).bind fun s1 => writeBits bs (setPos (bitPos s1 + 1) s1)

/-- The read loop of `BS.READ` and `BS.PEEK` (R134): `n` bits from position `p`, the first bit read
the most significant of the result. -/
def readBits (s : State) (p : Nat) : Nat → Word
  | 0 => 0
  | n + 1 => readBits s p n <<< 1 ||| (BitVec.ofBool (getBit s (p + n))).setWidth 32

/-- Bits `n-1` down to 0 of a word, in that order (R136, R139). -/
def bitsOf (v : Word) : Nat → List Bool
  | 0 => []
  | n + 1 => v.getLsbD n :: bitsOf v n

/-! ### Appending to `OUT` -/

/-- `Append(OUT, v)` for one byte (R13): raises `Capacity(BUF_CAP)` when the new length would exceed
`BUF_CAP` (R306, R303), else the length grows and the byte is stored (R62). -/
def append (v : Byte) (s : State) : Res State :=
  if s.cfg.bufCap < s.outLen + 1 then .raised .capacity s.cfg.bufCap s
  else .ok { s with outb := bufWrite s.outb s.outLen v, outLen := s.outLen + 1 }

/-- `Append` of each byte in turn. -/
def appendAll : List Byte → State → Res State
  | [], s => .ok s
  | v :: vs, s => (append v s).bind fun s1 => appendAll vs s1

end Sys2Proof.Machine
end

