-- ==== Sys2Proof/Machine/Operands.lean ====
section
/-! DEFINITION. Where commands take their operands and put their results (R84), the backing array
`DATA` (R44), the input bytes of the stream commands, and the register file as a host reads and
writes it (R20). -/

namespace Sys2Proof.Machine

/-- `ARG0` as an unsigned number (R9). -/
def argNat0 (s : State) : Nat := s.arg0.toNat

/-- `ARG1` as an unsigned number. -/
def argNat1 (s : State) : Nat := s.arg1.toNat

/-- `RES0 <- n`. -/
def setRes0 (n : Nat) (s : State) : State := { s with res0 := toWord n }

/-- `RES0 <- m`, `RES1 <- n`. -/
def setRes (m n : Nat) (s : State) : State := { s with res0 := toWord m, res1 := toWord n }

/-- `IN[0:IN_LEN]`, the input of a stream command. -/
def inputBytes (s : State) : List Byte := slice s.inb 0 s.inLen

/-- `OUT[0:OUT_LEN]`. -/
def outputBytes (s : State) : List Byte := slice s.outb 0 s.outLen

/-- `BSB[0:BS_LEN]`. -/
def streamBytes (s : State) : List Byte := slice s.bsb 0 s.bsLen

/-- `DATA` (R44). -/
def dataBuf (s : State) : ByteBuf :=
  match s.dict.dsel with
  | .inSpace => s.inb
  | .outSpace => s.outb

/-- `DLEN`, the length register of `DATA` (R44). -/
def dataLen (s : State) : Nat :=
  match s.dict.dsel with
  | .inSpace => s.inLen
  | .outSpace => s.outLen

/-- A register as the host reads it (R20): `CMD` and register numbers above 19 read zero. -/
def readReg (n : Nat) (s : State) : Word :=
  match n with
  | 1 => statusWord s
  | 2 => s.errInfo0
  | 3 => s.errInfo1
  | 4 => s.arg0
  | 5 => s.arg1
  | 6 => s.res0
  | 7 => s.res1
  | 8 => toWord s.inLen
  | 9 => toWord s.outLen
  | 10 => toWord s.bsLen
  | 11 => toWord (bitPos s)
  | 12 => toWord s.dict.count
  | 13 => dictCtlWord s.dict
  | 14 => toWord (widthNow s)
  | 15 => s.pyrT12
  | 16 => s.pyrT16
  | 17 => toWord s.unitLen
  | 18 => s.hufInfo
  | 19 => s.hufNx
  | _ => 0

/-- A host write to a register other than `CMD` (R20): the five RW registers take the value, `IN_LEN`
and `BS_LEN` only a legal one (R27, 93 U6); every other write is ignored (93 U5). -/
def writeReg (n : Nat) (v : Word) (s : State) : State :=
  match n with
  | 4 => { s with arg0 := v }
  | 5 => { s with arg1 := v }
  | 8 => if v.toNat ≤ s.cfg.bufCap then { s with inLen := v.toNat } else s
  | 10 => if v.toNat ≤ s.cfg.bufCap then { s with bsLen := v.toNat } else s
  | 19 => { s with hufNx := v }
  | _ => s

end Sys2Proof.Machine
end

