-- ==== Sys2Proof/Machine/BitStream.lean ====
section
/-! DEFINITION. The bit-stream unit: the nine `BS` commands (R131 to R140). -/

namespace Sys2Proof.Machine

/-- `BS.CLEAR` (R131): the bytes of `BSB` keep their values but are no longer valid. -/
def execBsClear (s : State) : Host.Outcome State Fault Refusal :=
  .next (setPos 0 { s with bsLen := 0 })

/-- `BS.GETPOS` (R132). -/
def execBsGetpos (s : State) : Host.Outcome State Fault Refusal :=
  .next (setRes0 (bitPos s) s)

/-- `BS.SETPOS` (R133): any position up to the end of the space, also beyond the data. -/
def bsSetpos (s : State) : Res State :=
  if 8 * s.cfg.bufCap < argNat0 s then .raised .invalidArgument (argNat0 s) s
  else .ok (setPos (argNat0 s) s)

/-- `BS.SETPOS` (R133). -/
def execBsSetpos (s : State) : Host.Outcome State Fault Refusal :=
  finish (encode .bsSetpos) (bsSetpos s)

/-- The checks and the result shared by `BS.READ` and `BS.PEEK` (R134, R135, R140): the count, then
whether the bits are there; `n = 0` succeeds everywhere with result 0. -/
def bsFetch (n : Nat) (s : State) : Res State :=
  if s.cfg.maxBits < n then .raised .invalidArgument n s
  else if n = 0 then .ok { s with res0 := 0 }
  else if 8 * s.bsLen < bitPos s + n then .raised .unexpectedEnd (bitPos s) s
  else .ok { s with res0 := readBits s (bitPos s) n }

/-- `BS.READ n` (R134): the fetched bits, and the position moves past them. -/
def execBsRead (n : Nat) (s : State) : Host.Outcome State Fault Refusal :=
  finish (encode (.bsRead n)) ((bsFetch n s).bind fun s1 => .ok (setPos (bitPos s1 + n) s1))

/-- `BS.PEEK n` (R135): `BS.READ` without the final move. -/
def execBsPeek (n : Nat) (s : State) : Host.Outcome State Fault Refusal :=
  finish (encode (.bsPeek n)) (bsFetch n s)

/-- `BS.WRITE n` (R136): both checks precede the first bit; bits 31:n of `ARG0` are ignored. -/
def bsWrite (n : Nat) (s : State) : Res State :=
  if s.cfg.maxBits < n then .raised .invalidArgument n s
  else if 8 * s.cfg.bufCap < bitPos s + n then .raised .capacity (bitPos s) s
  else writeBits (bitsOf s.arg0 n) s

/-- `BS.WRITE n` (R136). -/
def execBsWrite (n : Nat) (s : State) : Host.Outcome State Fault Refusal :=
  finish (encode (.bsWrite n)) (bsWrite n s)

/-- `BS.ALIGN` (R137): the cursor alone moves, to the next byte boundary. -/
def execBsAlign (s : State) : Host.Outcome State Fault Refusal :=
  .next (if s.bsBit = 0 then s else { s with bsByte := s.bsByte + 1, bsBit := 0 })

/-- `BS.READBYTE` (R138): aligns first; on an error the position does not move. -/
def bsReadbyte (s : State) : Res State :=
  if 8 * s.bsLen < alignedPos s + 8 then .raised .unexpectedEnd (bitPos s) s
  else .ok (setPos (alignedPos s + 8) { s with res0 := (bufRead s.bsb (alignedPos s / 8)).setWidth 32 })

/-- `BS.READBYTE` (R138). -/
def execBsReadbyte (s : State) : Host.Outcome State Fault Refusal :=
  finish (encode .bsReadbyte) (bsReadbyte s)

/-- `BS.WRITEBYTE` (R139): `BS.WRITE 8` at the aligned position; bits 31:8 of `ARG0` are ignored. -/
def bsWritebyte (s : State) : Res State :=
  if 8 * s.cfg.bufCap < alignedPos s + 8 then .raised .capacity (bitPos s) s
  else writeBits (bitsOf s.arg0 8) (setPos (alignedPos s) s)

/-- `BS.WRITEBYTE` (R139). -/
def execBsWritebyte (s : State) : Host.Outcome State Fault Refusal :=
  finish (encode .bsWritebyte) (bsWritebyte s)

end Sys2Proof.Machine
end

