-- ==== Sys2Proof/Machine/Huffman.lean ====
section
/-! DEFINITION. The Huffman unit (R250 to R261): `HUF.BUILD`, `HUF.ENCODE`, `HUF.DECODE`. -/

namespace Sys2Proof.Machine

/-- The weight of a node (R50). -/
def hufFreq : HufTree → Nat
  | .leaf _ f => f
  | .inner f _ _ => f

/-- The byte leaves from byte `b` on, for `n` bytes, ascending: weight `count·(count+1)`, and no leaf
for a count of 0 (R252). -/
def byteLeaves (f : List (Nat × Word)) (b : Nat) : Nat → List HufTree
  | 0 => []
  | n + 1 =>
    let c := (freqRead f b).toNat
    if c = 0 then byteLeaves f (b + 1) n else .leaf b (c * (c + 1)) :: byteLeaves f (b + 1) n

/-- `XSYM[i : i+n]` as values. -/
def xsymValues (x : WordBuf) (i : Nat) : Nat → List Nat
  | 0 => []
  | n + 1 => (wordRead x i).toNat :: xsymValues x (i + 1) n

/-- The first bad entry of the extra-symbol list, counted from `i`: not above 255, above 65535, or
already in the list (R253). -/
def badExtra (i : Nat) (seen : List Nat) : List Nat → Option Nat
  | [] => none
  | v :: vs =>
    if v ≤ 255 ∨ Config.maxSymbol < v ∨ v ∈ seen then some i else badExtra (i + 1) (v :: seen) vs

/-- `CheckExtras()` (R253): the `info` of the error, if one is raised. -/
def checkExtras (s : State) : Option Nat :=
  if s.cfg.hufXmax < s.hufNx.toNat then some s.hufNx.toNat
  else badExtra 0 [] (xsymValues s.xsym 0 s.hufNx.toNat)

/-- Insertion into the working list: behind every node whose weight is not larger, before the first
whose weight is larger (R255). -/
def insertByFreq (t : HufTree) : List HufTree → List HufTree
  | [] => [t]
  | u :: us => if hufFreq u ≤ hufFreq t then u :: insertByFreq t us else t :: u :: us

/-- The stable ascending sort of R254: each leaf in turn goes behind its equals. -/
def sortByFreq (l : List HufTree) : List HufTree := l.foldl (fun acc t => insertByFreq t acc) []

/-- `Leaves()` (R252, R254): the byte leaves in byte order, then the extra leaves in host order with
weight `value²`, stably sorted. -/
def hufLeaves (s : State) : List HufTree :=
  sortByFreq (byteLeaves s.freq 0 256 ++
    (xsymValues s.xsym 0 s.hufNx.toNat).map fun v => .leaf v (v * v))

/-- `while |list| > 1: Merge(list)` (R251, R255): the first node removed is the left child. Each merge
shortens the list by one. -/
def mergeAll : Nat → List HufTree → Option HufTree
  | 0, l => l.head?
  | _ + 1, [] => none
  | _ + 1, [t] => some t
  | fuel + 1, x :: y :: rest =>
    mergeAll fuel (insertByFreq (.inner (hufFreq x + hufFreq y) x y) rest)

/-- `Assign(n, code)` (R256): depth first, 0 to the left, 1 to the right, into the code table. -/
def assignCodes : HufTree → List Bool → List (Nat × List Bool) → List (Nat × List Bool)
  | .leaf v _, code, tbl => cellSet tbl v code
  | .inner _ l r, code, tbl => assignCodes r (code ++ [true]) (assignCodes l (code ++ [false]) tbl)

/-- `HUF.BUILD` (R251, R257). -/
def hufBuild (s : State) : Res State :=
  match checkExtras s with
  | some i => .raised .invalidArgument i s
  | none =>
    let leaves := hufLeaves s
    let nleaf := leaves.length
    let root := mergeAll nleaf leaves
    let tbl := match root with
      | none => []
      | some t => assignCodes t [] []
    .ok (setRes0 nleaf { s with hroot := root, hcode := tbl, hufInfo := hufInfoWord nleaf })

/-- `HUF.BUILD` (R251). -/
def execHufBuild (s : State) : Host.Outcome State Fault Refusal :=
  finish (encode .hufBuild) (hufBuild s)

/-- `HUF.ENCODE` (R258): the code of the symbol `ARG0` goes to `BSB` as `BS.WRITE` would put it, with no
limit on its length; both errors precede the first bit. -/
def hufEncode (s : State) : Res State :=
  if Config.maxSymbol < argNat0 s then .raised .invalidArgument (argNat0 s) s
  else
    match cellGet? s.hcode (argNat0 s) with
    | none => .raised .invalidArgument (argNat0 s) s
    | some bits =>
      if 8 * s.cfg.bufCap < bitPos s + bits.length then .raised .capacity (bitPos s) s
      else (writeBits bits s).bind fun s1 => .ok (setRes0 bits.length s1)

/-- `HUF.ENCODE` (R258). -/
def execHufEncode (s : State) : Host.Outcome State Fault Refusal :=
  finish (encode .hufEncode) (hufEncode s)

/-- The decode walk (R259) from stream position `p`: the symbol, or `none` when the stream is exhausted
first; and the position after the bits read. -/
def hufWalk (s : State) : HufTree → Nat → Option Nat × Nat
  | .leaf v _, p => (some v, p)
  | .inner _ l r, p =>
    if 8 * s.bsLen ≤ p then (none, p)
    else if getBit s p then hufWalk s r (p + 1) else hufWalk s l (p + 1)

/-- `HUF.DECODE` (R259): the symbol or `NO_VALUE`, and the bits consumed. It raises nothing. -/
def execHufDecode (s : State) : Host.Outcome State Fault Refusal :=
  match s.hroot with
  | none => .next { s with res0 := none32, res1 := 0 }
  | some t =>
    match hufWalk s t (bitPos s) with
    | (some v, p) => .next (setRes v (p - bitPos s) (setPos p s))
    | (none, p) => .next { setPos p s with res0 := none32, res1 := toWord (p - bitPos s) }

end Sys2Proof.Machine
end

