-- ==== Sys2Proof/Machine/Window.lean ====
section
/-! DEFINITION. The ByteWindow data type (R150 to R152): an immutable, non-copying view of a byte
space. No command takes or returns one; the dictionary's labels are windows into `DATA` (R153). -/

namespace Sys2Proof.Machine

/-- The triple `(S, off, len)`. -/
structure ByteWindow where
  sp  : ByteSpace
  off : Nat
  len : Nat
deriving DecidableEq, Repr

/-- `len(S)` (R13). -/
def spaceLen (sp : ByteSpace) (s : State) : Nat :=
  match sp with
  | .inp => s.inLen
  | .out => s.outLen
  | .bsb => s.bsLen

/-- The invariant `off + len ≤ len(S)`, with `S` one of `IN`, `OUT` (R150). -/
def windowValid (w : ByteWindow) (s : State) : Bool :=
  decide (w.sp ≠ .bsb) && decide (w.off + w.len ≤ spaceLen w.sp s)

/-- The bytes a window shows now: `MemRead(S, off, len)`. -/
def windowBytes (w : ByteWindow) (s : State) : List Byte := slice (byteSpace w.sp s) w.off w.len

/-- `split(n)`: the windows covering `[0,n)` and `[n,len)` (R151). `n > len` is a contract violation
of the caller, here `none`. -/
def windowSplit (w : ByteWindow) (n : Nat) : Option (ByteWindow × ByteWindow) :=
  if n ≤ w.len then
    some ({ w with len := n }, { w with off := w.off + n, len := w.len - n })
  else none

/-- `skip(n)`: the second part of `split(n)` (R152). -/
def windowSkip (w : ByteWindow) (n : Nat) : Option ByteWindow :=
  (windowSplit w n).map fun p => p.2

/-- The space `DATA` is, as a window's base (R44). -/
def dataSpace : DataSel → ByteSpace
  | .inSpace => .inp
  | .outSpace => .out

/-- The window the hardware holds for a node's label: into `DATA`, of the label's length (R41, R153). -/
def labelWindow (sel : DataSel) (off : Nat) (label : List Byte) : ByteWindow :=
  { sp := dataSpace sel, off := off, len := label.length }

end Sys2Proof.Machine
end

