-- ==== Sys2Proof/Machine/Trie.lean ====
section
/-! DEFINITION. The trie of the token dictionary (R160 to R188): walk, touch, placement, eviction.
Every function follows the map of one branch point along `next` and descends into `children`. -/

namespace Sys2Proof.Machine

/-- `lcp(s, t)` (R12). -/
def lcp : List Byte → List Byte → Nat
  | a :: s, b :: t => if a = b then lcp s t + 1 else 0
  | _, _ => 0

/-- The node's key is the first byte of the string (R41, R161): `MapOf(P)[rest[0]]` is this node. -/
def keyMatches (label s : List Byte) : Bool := label.head? == s.head?

/-- What stopped a walk (R161). -/
inductive Stop where
  | exact
  | noChild
  | partMatch
deriving DecidableEq, Repr

/-- `Walk(s)` below a branch point at depth `d` (R161): for each fully matched node, root first, its
index and its depth `|path(N)|`; and what stopped the walk. -/
def walk (d : Nat) : Trie → List Byte → List (Option Nat × Nat) × Stop
  | .nil, s => ([], if s = [] then .exact else .noChild)
  | .node _ label index _ children next, s =>
    if s = [] then ([], .exact)
    else if keyMatches label s then
      if label.isPrefixOf s then
        let (chain, stop) := walk (d + label.length) children (s.drop label.length)
        ((index, d + label.length) :: chain, stop)
      else ([], .partMatch)
    else walk d next s

/-- `touch(N)` for every node of `Walk(s)`'s chain, in order (R163): the trie afterwards and the
priority counter. -/
def touchWalk : Trie → List Byte → Nat → Trie × Nat
  | .nil, _, p => (.nil, p)
  | .node off label index prio children next, s, p =>
    if s = [] then (.node off label index prio children next, p)
    else if keyMatches label s then
      if label.isPrefixOf s then
        let (ch, p') := touchWalk children (s.drop label.length) (p + 1)
        (.node off label index p ch next, p')
      else (.node off label index prio children next, p)
    else
      let (nx, p') := touchWalk next s p
      (.node off label index prio children nx, p')

/-- The last indexed node of a chain: its index and depth (R175). -/
def lastIndexed : List (Option Nat × Nat) → Option (Nat × Nat)
  | [] => none
  | (index, d) :: rest =>
    match lastIndexed rest with
    | some r => some r
    | none => index.map fun i => (i, d)

/-- The index of the last node of a chain, when it has one (R167). -/
def lastIndex : List (Option Nat × Nat) → Option Nat
  | [] => none
  | [(index, _)] => index
  | _ :: rest => lastIndex rest

/-- Whether a node's key comes before the key of a string in the order siblings are kept in. -/
def keyBefore (label s : List Byte) : Bool :=
  match label, s with
  | a :: _, b :: _ => decide (a.toNat < b.toNat)
  | _, _ => false

/-- `Split(N, c, rest, idx)` (R170): the new parent `U` takes `N`'s place in its map; `N` keeps index,
children and priority and is not touched. Windows by R153. -/
def splitNode (off : Nat) (label : List Byte) (index : Option Nat) (prio : Nat) (children next : Trie)
    (soff : Nat) (s : List Byte) (idx p : Nat) : Trie × Nat :=
  let c := lcp label s
  let lower := fun nx => Trie.node (off + c) (label.drop c) index prio children nx
  if s.length = c then
    (.node off (label.take c) (some idx) p (lower .nil) next, p + 1)
  else
    let leaf := fun nx => Trie.node (soff + c) (s.drop c) (some idx) (p + 1) .nil nx
    let two :=
      if keyBefore (label.drop c) (s.drop c) then lower (leaf .nil) else leaf (lower .nil)
    (.node off (label.take c) none p two next, p + 2)

/-- `Place(s, idx)` (R169) below a branch point, for the string `s` whose bytes start at `DATA[soff]`:
touches the fully matched nodes in walk order, then gives the exact node the index, or links a new
leaf (`NOCHILD`), or splits (`PARTIAL`). Returns the trie and the priority counter. -/
def place : Trie → Nat → List Byte → Nat → Nat → Trie × Nat
  | .nil, soff, s, idx, p => (.node soff s (some idx) p .nil .nil, p + 1)
  | .node off label index prio children next, soff, s, idx, p =>
    if keyMatches label s then
      if label.isPrefixOf s then
        if s.length = label.length then (.node off label (some idx) p children next, p + 1)
        else
          let (ch, p') := place children (soff + label.length) (s.drop label.length) idx (p + 1)
          (.node off label index p ch next, p')
      else splitNode off label index prio children next soff s idx p
    else if keyBefore label s then
      let (nx, p') := place next soff s idx p
      (.node off label index prio children nx, p')
    else (.node soff s (some idx) p .nil (.node off label index prio children next), p + 1)

/-- Of two candidates the one of smaller priority, the first on a tie (priorities are distinct, R45). -/
def minCand {α : Type} : Option (Nat × α) → Option (Nat × α) → Option (Nat × α)
  | none, b => b
  | a, none => a
  | some a, some b => if b.1 < a.1 then some b else some a

/-- The leaf of smallest priority in a subtree forest (R182): its priority and its index. -/
def minLeaf : Trie → Option (Nat × Option Nat)
  | .nil => none
  | .node _ _ index prio children next =>
    minCand (if children = .nil then some (prio, index) else minLeaf children) (minLeaf next)

/-- The eviction candidate `M` (R181), the indexed node of smallest priority, with the index of the
victim it leads to (R182): itself when it is a leaf, else the lowest leaf beneath it. -/
def candidate : Trie → Option (Nat × Option Nat)
  | .nil => none
  | .node _ _ index prio children next =>
    let own : Option (Nat × Option Nat) :=
      if index = none then none
      else if children = .nil then some (prio, index)
      else some (prio, (minLeaf children).bind fun v => v.2)
    minCand own (minCand (candidate children) (candidate next))

/-- `Victim()` (R181, R182): the token index the eviction frees. -/
def victimIndex (t : Trie) : Option Nat := (candidate t).bind fun v => v.2

/-- `Normalise(P)` (R184) for the parent `P` of an unlinked node: an un-indexed parent left with no
child goes too (then its own parent lost a child), one left with a single child is merged into it.
Answers what stands in `P`'s place in its map before `next`, and whether `P` went. -/
def normalise (off : Nat) (label : List Byte) (index : Option Nat) (prio : Nat) (children next : Trie) :
    Trie × Bool :=
  match index, children with
  | none, .nil => (next, true)
  | none, .node off' label' index' prio' children' .nil =>
    (.node (off' - label.length) (label ++ label') index' prio' children' next, false)
  | _, _ => (.node off label index prio children next, false)

/-- The deletion of `FreeIndex` (R180): the leaf with token index `t` is unlinked and destroyed, and its
parent normalised. The flag says that the map of this branch point lost a node. -/
def removeLeaf (t : Nat) : Trie → Trie × Bool
  | .nil => (.nil, false)
  | .node off label index prio children next =>
    if index = some t ∧ children = .nil then (next, true)
    else
      let (ch, lost) := removeLeaf t children
      if lost then normalise off label index prio ch next
      else
        let (nx, gone) := removeLeaf t next
        (.node off label index prio ch nx, gone)

/-- `path(PIDX[t])` (R42, R43, R188): the path string of the node that holds index `t`. -/
def pathOf (t : Nat) : Trie → Option (List Byte)
  | .nil => none
  | .node _ label index _ children next =>
    if index = some t then some label
    else
      match pathOf t children with
      | some s => some (label ++ s)
      | none => pathOf t next

/-- The entries of `PIDX` (R43) with their path strings and priorities: the triples of R187. -/
def entries (pre : List Byte) : Trie → List (Nat × List Byte × Nat)
  | .nil => []
  | .node _ label index prio children next =>
    (match index with
     | some i => [(i, pre ++ label, prio)]
     | none => []) ++ entries (pre ++ label) children ++ entries pre next

end Sys2Proof.Machine
end

