-- ==== Sys2Proof/Machine/Dictionary.lean ====
section
/-! DEFINITION. The token dictionary: `Find`, `Insert`, `FreeIndex`, `LookupToken` and the four `DICT`
commands (R164 to R188). -/

namespace Sys2Proof.Machine

/-- `touch` of the chain of `Walk(s)` (R163). -/
def dictTouch (s : List Byte) (d : Dict) : Dict :=
  let (t, p) := touchWalk d.roots s d.prio
  { d with roots := t, prio := p }

/-- `FreeIndex()` (R180): the freed index and the dictionary without its victim. It requires an indexed
node; without one (no run reaches that at a full dictionary) nothing changes and 0 is answered. -/
def freeIndex (d : Dict) : Dict × Nat :=
  match victimIndex d.roots with
  | none => (d, 0)
  | some f =>
    ({ d with roots := (removeLeaf f d.roots).1, count := d.count - 1, freeValid := true, freeIdx := f }, f)

/-- `NewIndex()` (R168): evicts first when the dictionary is full; a freed index is used by the next
allocation, otherwise the next dense one. -/
def newIndex (cap : Nat) (d : Dict) : Dict × Nat :=
  let d1 := if d.count = cap then (freeIndex d).1 else d
  if d1.freeValid then ({ d1 with freeValid := false, freeIdx := 0 }, d1.freeIdx)
  else (d1, d1.count)

/-- The allocating part of `Insert`: an index (R168), the placement on the trie the eviction left
(R169), the entry of `PIDX` and the count. -/
def insertNew (cap soff : Nat) (s : List Byte) (d : Dict) : Dict × Nat :=
  let (d1, idx) := newIndex cap d
  let (t, p) := place d1.roots soff s idx d1.prio
  ({ d1 with roots := t, prio := p, count := d1.count + 1 }, idx)

/-- `Insert` of the string `s` found at `DATA[soff]` (R165), with the token index answered: an exact hit
on an indexed node only touches the chain (R167); everything else allocates. -/
def dictInsert (cap soff : Nat) (s : List Byte) (d : Dict) : Dict × Nat :=
  match walk 0 d.roots s with
  | (chain, .exact) =>
    match lastIndex chain with
    | some i => (dictTouch s d, i)
    | none => insertNew cap soff s d
  | _ => insertNew cap soff s d

/-- `Insert(off, len)` (R165, R166): the string is `DATA[off : off + min(len, DLEN - off)]`. -/
def insertAt (off len : Nat) (s : State) : Res (State × Nat) :=
  if dataLen s ≤ off ∨ len = 0 then .raised .invalidArgument off s
  else
    let str := slice (dataBuf s) off (min len (dataLen s - off))
    let (d, idx) := dictInsert s.cfg.cap off str s.dict
    .ok ({ s with dict := d }, idx)

/-- `Find(off)` (R175, R177): the chain of the walk over `DATA[off : DLEN]` is touched; the answer is
the index and depth of its last indexed node, `none` for the source's `(-1, 0)`. -/
def findAt (off : Nat) (s : State) : State × Option (Nat × Nat) :=
  if dataLen s ≤ off then (s, none)
  else
    let str := slice (dataBuf s) off (dataLen s - off)
    ({ s with dict := dictTouch str s.dict }, lastIndexed (walk 0 s.dict.roots str).1)

/-- `LookupToken(t)` (R188): the path string of the node with index `t`, and the dictionary with every
node from the root down to it touched; `none` when `t` is no key of `PIDX`. -/
def lookupToken (t : Nat) (d : Dict) : Option (Dict × List Byte) :=
  (pathOf t d.roots).map fun s => (dictTouch s d, s)

/-- `DICT.CLEAR sel` (R164). -/
def dictClear (sel : Nat) (s : State) : Res State :=
  if 1 < sel then .raised .invalidArgument sel s
  else .ok { s with dict := Dict.empty (if sel = 0 then .inSpace else .outSpace) }

/-- `DICT.CLEAR sel` (R164). -/
def execDictClear (sel : Nat) (s : State) : Host.Outcome State Fault Refusal :=
  finish (encode (.dictClear sel)) (dictClear sel s)

/-- `DICT.INSERT` (R165): `RES0` is the token index. -/
def execDictInsert (s : State) : Host.Outcome State Fault Refusal :=
  finish (encode .dictInsert)
    ((insertAt (argNat0 s) (argNat1 s) s).bind fun r => .ok (setRes0 r.2 r.1))

/-- `DICT.FIND` (R175, R176): index and match length, or `0xFFFFFFFF` and 0. It raises nothing. -/
def execDictFind (s : State) : Host.Outcome State Fault Refusal :=
  match findAt (argNat0 s) s with
  | (s1, some (idx, len)) => .next (setRes idx len s1)
  | (s1, none) => .next { s1 with res0 := none32, res1 := 0 }

/-- `DICT.FREE` (R180): only on a full dictionary. -/
def dictFree (s : State) : Res State :=
  if s.dict.count ≠ s.cfg.cap then .raised .invalidArgument s.dict.count s
  else
    let (d, f) := freeIndex s.dict
    .ok (setRes0 f { s with dict := d })

/-- `DICT.FREE` (R180). -/
def execDictFree (s : State) : Host.Outcome State Fault Refusal :=
  finish (encode .dictFree) (dictFree s)

end Sys2Proof.Machine
end

