-- ==== Sys2Proof/Machine/Pyr.lean ====
section
/-! DEFINITION. The Pyr codec (R200 to R234): units, `PYR.COMPRESS`, `PYR.EXPAND`, `PYR.MATCHDEC`. -/

namespace Sys2Proof.Machine

/-! ### Units (R35, R203) -/

/-- One element of the flat (isToken, value) sequence, with its field width (R35). -/
structure PyrUnit where
  isTok : Bool
  width : Nat
  value : Nat
deriving DecidableEq, Repr

/-- The word of a unit in `UNIT` (R35): `isToken` in bit 31, `width` in 20:16, `value` in 15:0. -/
def unitWord (u : PyrUnit) : Word :=
  BitVec.ofBool u.isTok ++ 0#10 ++ BitVec.ofNat 5 u.width ++ BitVec.ofNat 16 u.value

/-- The unit a word of `UNIT` shows. -/
def wordUnit (w : Word) : PyrUnit :=
  { isTok := w.getLsbD 31, width := (w.extractLsb' 16 5).toNat, value := (w.extractLsb' 0 16).toNat }

/-- `StartUnit()` (R203): the width in force at the start of the step (R204), and the transition points
recorded at the first unit of each width. -/
def startUnit (s : State) : State × Nat :=
  let w := widthNow s
  let s1 := if 12 ≤ w ∧ s.pyrT12 = none32 then { s with pyrT12 := toWord s.unitLen } else s
  let s2 := if w = 16 ∧ s1.pyrT16 = none32 then { s1 with pyrT16 := toWord s1.unitLen } else s1
  (s2, w)

/-- `RecordLit` and `RecordTok` (R203). -/
def recordUnit (u : PyrUnit) (s : State) : State :=
  { s with unit := wordWrite s.unit s.unitLen (unitWord u), unitLen := s.unitLen + 1 }

/-- `RecordLit(v)`: a literal has width 8. -/
def litUnit (v : Byte) : PyrUnit := { isTok := false, width := 8, value := v.toNat }

/-- `RecordTok(t, w)`. -/
def tokUnit (t w : Nat) : PyrUnit := { isTok := true, width := w, value := t }

/-- `UNIT[k : k+n]` read back as units. -/
def unitsFrom (s : State) (k : Nat) : Nat → List PyrUnit
  | 0 => []
  | n + 1 => wordUnit (wordRead s.unit k) :: unitsFrom s (k + 1) n

/-- The units pass 2 works on: `UNIT[0 : UNIT_LEN]`. -/
def unitsOf (s : State) : List PyrUnit := unitsFrom s 0 s.unitLen

/-- The common start of `PYR.COMPRESS` and `PYR.EXPAND` (R201, R210): empty output and unit record, no
transition points, an empty dictionary over `sel`. -/
def pyrStart (sel : DataSel) (s : State) : State :=
  { s with outLen := 0, unitLen := 0, pyrT12 := none32, pyrT16 := none32, dict := Dict.empty sel }

/-! ### PYR.COMPRESS -/

/-- The match-case inserts `Insert(pos - k, L + k)` for `n` values of `k` ascending from `k` (R202). -/
def insertSuffixes (pos len : Nat) (k : Nat) : Nat → State → Res State
  | 0, s => .ok s
  | n + 1, s => (insertAt (pos - k) (len + k) s).bind fun r => insertSuffixes pos len (k + 1) n r.1

/-- The no-match insert: the literal run so far plus the current byte, once a literal has accumulated
(R202, R211). -/
def insertRun (pos lit : Nat) (s : State) : Res State :=
  if 1 ≤ lit then (insertAt (pos - lit) (lit + 1) s).bind fun r => .ok r.1 else .ok s

/-- `Pass1()` (R202). Each turn of the loop moves `pos` on, so `IN_LEN` turns are enough. -/
def pass1 : Nat → Nat → Nat → State → Res State
  | 0, _, _, s => .ok s
  | fuel + 1, pos, lit, s =>
    if s.inLen ≤ pos then .ok s
    else
      let (s1, w) := startUnit s
      match findAt pos s1 with
      | (s2, none) =>
        (insertRun pos lit s2).bind fun s3 =>
          pass1 fuel (pos + 1) (lit + 1) (recordUnit (litUnit (bufRead s3.inb pos)) s3)
      | (s2, some (t, len)) =>
        (insertSuffixes pos len 1 lit (recordUnit (tokUnit t w) s2)).bind fun s3 =>
          pass1 fuel (pos + len) 0 s3

/-- `EmitExt(e)` (R206, R103): `e div 255` bytes `0xFF`, then one byte `e mod 255`. -/
def extBytes (e : Nat) : List Byte :=
  List.replicate (e / 255) 0xFF#8 ++ [BitVec.ofNat 8 (e % 255)]

/-- The state of pass 2's emission: the block, and `held`, the address in `OUT` of a held byte (R108). -/
structure Emit where
  s    : State
  held : Option Nat
deriving DecidableEq, Repr

/-- `PutToken(v, w)` (R206, R107, R108, R109). -/
def putToken (v w : Nat) (x : Emit) : Res Emit :=
  if w = 12 then
    match x.held with
    | none =>
      (appendAll [BitVec.ofNat 8 (v / 16), BitVec.ofNat 8 (v % 16 * 16)] x.s).bind fun s1 =>
        .ok { s := s1, held := some (s1.outLen - 1) }
    | some h =>
      let s1 := { x.s with outb := bufWrite x.s.outb h (bufRead x.s.outb h ||| BitVec.ofNat 8 (v / 256 % 16)) }
      (append (BitVec.ofNat 8 (v % 256)) s1).bind fun s2 => .ok { s := s2, held := none }
  else if w = 8 then
    (append (BitVec.ofNat 8 v) x.s).bind fun s1 => .ok { s := s1, held := none }
  else if w = 16 then
    (appendAll [BitVec.ofNat 8 (v / 256), BitVec.ofNat 8 (v % 256)] x.s).bind fun s1 =>
      .ok { s := s1, held := none }
  else .ok { x with held := none }

/-- One unit at its place in the stream: a token field, or the literal byte (R106, R111). -/
def putUnit (u : PyrUnit) (x : Emit) : Res Emit :=
  if u.isTok then putToken u.value u.width x
  else (append (BitVec.ofNat 8 u.value) x.s).bind fun s1 => .ok { x with s := s1 }

/-- Units in order. -/
def putUnits : List PyrUnit → Emit → Res Emit
  | [], x => .ok x
  | u :: us, x => (putUnit u x).bind fun x1 => putUnits us x1

/-- The header bytes of a Header0 group of `a` literals and `b` tokens (R102, R103, R104). -/
def header0 (a b : Nat) : List Byte :=
  [BitVec.ofNat 8 (min a 15 + min b 7 * 16)] ++
    (if 15 ≤ a then extBytes (a - 15) else []) ++ (if 7 ≤ b then extBytes (b - 7) else [])

/-- The mask of a Header1 group (R101): unit `j` sets bit `6 - j` when it is a token. -/
def maskOf (j : Nat) : List PyrUnit → Nat
  | [] => 0
  | u :: us => (if u.isTok then 2 ^ (6 - j) else 0) + maskOf (j + 1) us

/-- `EmitHeader0` and `EmitHeader1` (R206): the header bytes, then the group's units. -/
def emitGroup (hdr : List Byte) (us : List PyrUnit) (x : Emit) : Res Emit :=
  (appendAll hdr x.s).bind fun s1 => putUnits us { x with s := s1 }

/-- The number of literal units at the front, and of token units after them (R205). -/
def runLengths (us : List PyrUnit) : Nat × Nat :=
  let a := (us.takeWhile fun u => !u.isTok).length
  (a, ((us.drop a).takeWhile fun u => u.isTok).length)

/-- `Pass2()` (R205): a maximal run of at least 8 units makes a Header0 group, anything else a Header1
group of the next 7 units or fewer. Every group has a unit, so as many turns as units are enough. -/
def pass2 : Nat → List PyrUnit → Emit → Res Emit
  | 0, _, x => .ok x
  | fuel + 1, us, x =>
    if us = [] then .ok x
    else
      let (a, b) := runLengths us
      if 8 ≤ a + b then
        (emitGroup (header0 a b) (us.take (a + b)) x).bind fun x1 => pass2 fuel (us.drop (a + b)) x1
      else
        let grp := us.take 7
        (emitGroup [BitVec.ofNat 8 (128 + maskOf 0 grp)] grp x).bind fun x1 => pass2 fuel (us.drop 7) x1

/-- `PYR.COMPRESS` (R201): pass 1, pass 2 over the units it recorded, then the results. -/
def pyrCompress (s : State) : Res State :=
  (pass1 s.inLen 0 0 (pyrStart .inSpace s)).bind fun s1 =>
    (pass2 s1.unitLen (unitsOf s1) { s := s1, held := none }).bind fun x =>
      .ok (setRes x.s.outLen x.s.unitLen x.s)

/-- `PYR.COMPRESS` (R201). -/
def execPyrCompress (s : State) : Host.Outcome State Fault Refusal :=
  finish (encode .pyrCompress) (pyrCompress s)

/-! ### PYR.EXPAND -/

/-- The reader's state: the block, the input position, the literal run, the held nibble (R210). -/
structure Expander where
  s       : State
  ip      : Nat
  lit     : Nat
  heldNib : Option Nat
deriving DecidableEq, Repr

/-- `Next()` (R210): the next input byte, or `UnexpectedEnd(ip)`. -/
def nextByte (x : Expander) : Res (Byte × Expander) :=
  if x.s.inLen ≤ x.ip then .raised .unexpectedEnd x.ip x.s
  else .ok (bufRead x.s.inb x.ip, { x with ip := x.ip + 1 })

/-- `ReadExt()` (R210, R103). Each turn reads a byte, so one turn more than the bytes left is enough. -/
def readExt : Nat → Expander → Res (Nat × Expander)
  | 0, x => .raised .unexpectedEnd x.ip x.s
  | fuel + 1, x =>
    (nextByte x).bind fun r =>
      if r.1 = 0xFF#8 then (readExt fuel r.2).bind fun q => .ok (255 + q.1, q.2)
      else .ok (r.1.toNat, r.2)

/-- `LiteralStep()` (R211). -/
def literalStep (x : Expander) : Res Expander :=
  let s1 := (startUnit x.s).1
  (nextByte { x with s := s1 }).bind fun r =>
    (append r.1 r.2.s).bind fun s2 =>
      let s3 := recordUnit (litUnit r.1) s2
      (insertRun (s3.outLen - 1) r.2.lit s3).bind fun s4 =>
        .ok { r.2 with s := s4, lit := r.2.lit + 1 }

/-- `ReadToken(w)` (R213, R107, R108, R109). -/
def readToken (w : Nat) (x : Expander) : Res (Nat × Expander) :=
  if w = 12 then
    match x.heldNib with
    | none =>
      (nextByte x).bind fun r0 => (nextByte r0.2).bind fun r1 =>
        .ok (r0.1.toNat * 16 + r1.1.toNat / 16, { r1.2 with heldNib := some (r1.1.toNat % 16) })
    | some h =>
      (nextByte x).bind fun r => .ok (h * 256 + r.1.toNat, { r.2 with heldNib := none })
  else if w = 8 then
    (nextByte { x with heldNib := none }).bind fun r => .ok (r.1.toNat, r.2)
  else
    (nextByte { x with heldNib := none }).bind fun hi => (nextByte hi.2).bind fun lo =>
      .ok (hi.1.toNat * 256 + lo.1.toNat, lo.2)

/-- `TokenStep()` (R212): the token's string is taken before anything is appended. -/
def tokenStep (x : Expander) : Res Expander :=
  let (s1, w) := startUnit x.s
  (readToken w { x with s := s1 }).bind fun r =>
    match lookupToken r.1 r.2.s.dict with
    | none => .raised .data x.ip r.2.s
    | some (d, str) =>
      (appendAll str { r.2.s with dict := d }).bind fun s2 =>
        let s3 := recordUnit (tokUnit r.1 w) s2
        (insertSuffixes (s3.outLen - str.length) str.length 1 r.2.lit s3).bind fun s4 =>
          .ok { r.2 with s := s4, lit := 0 }

/-- `repeat n times: LiteralStep()`. -/
def literalSteps : Nat → Expander → Res Expander
  | 0, x => .ok x
  | n + 1, x => (literalStep x).bind fun x1 => literalSteps n x1

/-- `repeat n times: TokenStep()`. -/
def tokenSteps : Nat → Expander → Res Expander
  | 0, x => .ok x
  | n + 1, x => (tokenStep x).bind fun x1 => tokenSteps n x1

/-- The units of a Header1 group, by its mask bits in order; the input may end at the start of a unit
(R210, R110). -/
def maskUnits : List Bool → Expander → Res Expander
  | [], x => .ok x
  | b :: bs, x =>
    if x.s.inLen ≤ x.ip then .ok x
    else (if b then tokenStep x else literalStep x).bind fun x1 => maskUnits bs x1

/-- Register bits `n-1` down to 0 of a byte: `h[n-1]`, …, `h[0]`. -/
def byteBits (h : Byte) : Nat → List Bool
  | 0 => []
  | n + 1 => h.getLsbD n :: byteBits h n

/-- The literal count of a Header0 group (R102). -/
def readCount (direct limit : Nat) (x : Expander) : Res (Nat × Expander) :=
  if direct = limit then
    (readExt (x.s.inLen - x.ip + 1) x).bind fun q => .ok (limit + q.1, q.2)
  else .ok (direct, x)

/-- One group of the Pyr stream (R210). -/
def expandGroup (x : Expander) : Res Expander :=
  (nextByte x).bind fun r =>
    let h := r.1
    if h.getLsbD 7 then maskUnits (byteBits h 7) r.2
    else
      (readCount (h.toNat % 16) 15 r.2).bind fun a =>
        (readCount (h.toNat / 16 % 8) 7 a.2).bind fun b =>
          (literalSteps a.1 b.2).bind fun x1 => tokenSteps b.1 x1

/-- The loop over groups, while input is left (R210). Each turn reads a header byte. -/
def expandLoop : Nat → Expander → Res Expander
  | 0, x => .ok x
  | fuel + 1, x =>
    if x.s.inLen ≤ x.ip then .ok x
    else (expandGroup x).bind fun x1 => expandLoop fuel x1

/-- `PYR.EXPAND` (R210). -/
def pyrExpand (s : State) : Res State :=
  (expandLoop s.inLen { s := pyrStart .outSpace s, ip := 0, lit := 0, heldNib := none }).bind fun x =>
    .ok (setRes x.s.outLen x.s.unitLen x.s)

/-- `PYR.EXPAND` (R210). -/
def execPyrExpand (s : State) : Host.Outcome State Fault Refusal :=
  finish (encode .pyrExpand) (pyrExpand s)

/-! ### PYR.MATCHDEC -/

/-- The reader of the match stream: the block and the input position (R230). -/
structure MatchReader where
  s  : State
  ip : Nat
deriving DecidableEq, Repr

/-- `Next()` of the match stream (R230). -/
def nextMatchByte (x : MatchReader) : Res (Byte × MatchReader) :=
  if x.s.inLen ≤ x.ip then .raised .unexpectedEnd x.ip x.s
  else .ok (bufRead x.s.inb x.ip, { x with ip := x.ip + 1 })

/-- The overlapping copy (R232, R353): one byte at a time, each read sees the earlier appends. -/
def copyBack (off : Nat) : Nat → State → Res State
  | 0, s => .ok s
  | n + 1, s => (append (bufRead s.outb (s.outLen - off)) s).bind fun s1 => copyBack off n s1

/-- `match length = (firstByte & 0xF) + 3` (R116). -/
def matchLength (first : Byte) : Nat := first.toNat % 16 + 3

/-- `match offset = ((firstByte & 0xF0) << 4) | secondByte` (R116). -/
def matchOffset (first second : Byte) : Nat := first.toNat / 16 * 256 + second.toNat

/-- `MatchUnit()` (R232), with its checks in the order R312 gives. -/
def matchUnit (target : Nat) (x : MatchReader) : Res MatchReader :=
  if x.s.inLen < x.ip + 2 then .raised .unexpectedEnd x.ip x.s
  else
    let first := bufRead x.s.inb x.ip
    let second := bufRead x.s.inb (x.ip + 1)
    let len := matchLength first
    let off := matchOffset first second
    if off = 0 ∨ x.s.outLen < off then .raised .data x.ip x.s
    else if target < x.s.outLen + len then .raised .data x.ip x.s
    else (copyBack off len x.s).bind fun s1 => .ok { s := s1, ip := x.ip + 2 }

/-- One literal of the match stream (R117). -/
def matchLiteral (x : MatchReader) : Res MatchReader :=
  (nextMatchByte x).bind fun r => (append r.1 r.2.s).bind fun s1 => .ok { r.2 with s := s1 }

/-- The units of a flag byte, by its bits in order (R115, R230); the target ends them. -/
def flagUnits (target : Nat) : List Bool → MatchReader → Res MatchReader
  | [], x => .ok x
  | b :: bs, x =>
    if target ≤ x.s.outLen then .ok x
    else (if b then matchLiteral x else matchUnit target x).bind fun x1 => flagUnits target bs x1

/-- The loop over flag bytes (R230). Each turn reads one, so one turn more than the input has bytes ends
the loop or raises. -/
def matchLoop (target : Nat) : Nat → MatchReader → Res MatchReader
  | 0, x => .ok x
  | fuel + 1, x =>
    if target ≤ x.s.outLen then .ok x
    else (nextMatchByte x).bind fun r =>
      (flagUnits target (byteBits r.1 8) r.2).bind fun x1 => matchLoop target fuel x1

/-- `PYR.MATCHDEC` (R230). -/
def pyrMatchdec (s : State) : Res State :=
  if s.cfg.bufCap < argNat0 s then .raised .invalidArgument (argNat0 s) s
  else
    (matchLoop (argNat0 s) (s.inLen + 1) { s := { s with outLen := 0 }, ip := 0 }).bind fun x =>
      .ok (setRes x.s.outLen x.ip x.s)

/-- `PYR.MATCHDEC` (R230). -/
def execPyrMatchdec (s : State) : Host.Outcome State Fault Refusal :=
  finish (encode .pyrMatchdec) (pyrMatchdec s)

end Sys2Proof.Machine
end

