-- ==== Sys2Proof/Machine/Rle0.lean ====
section
/-! DEFINITION. The RLE0 unit (R280 to R283, stream format R120). Both commands read `IN[0:IN_LEN]` and
append to an emptied `OUT`; `IN` does not change meanwhile, so the input is taken as a byte string and
the output is appended byte by byte in the order the pseudocode appends it (log 16). -/

namespace Sys2Proof.Machine

/-- The pairs of one zero run (R280): a full chunk of 256 for each whole 256, then the shorter rest. -/
def zeroPairs (r : Nat) : List Byte :=
  (List.replicate (r / 256) [0#8, 255#8]).flatten ++
    (if r % 256 = 0 then [] else [0#8, BitVec.ofNat 8 (r % 256 - 1)])

/-- The compressed form of a byte string, `r` zero bytes of the current run having been passed: each
maximal run is flushed as pairs, every other byte is copied (R280). -/
def rleEncode (r : Nat) : List Byte → List Byte
  | [] => zeroPairs r
  | b :: bs => if b = 0#8 then rleEncode (r + 1) bs else zeroPairs r ++ b :: rleEncode 0 bs

/-- The bytes a stream stands for up to its end or to a `0x00` that ends it; and whether it was
truncated there (R281, R120). -/
def rleDecode : List Byte → List Byte × Bool
  | [] => ([], false)
  | [b] => if b = 0#8 then ([], true) else ([b], false)
  | b :: n :: bs =>
    if b = 0#8 then
      let (out, cut) := rleDecode bs
      (List.replicate (n.toNat + 1) 0#8 ++ out, cut)
    else
      let (out, cut) := rleDecode (n :: bs)
      (b :: out, cut)

/-- `RLE0.COMPRESS` (R280). -/
def rle0Compress (s : State) : Res State :=
  (appendAll (rleEncode 0 (inputBytes s)) { s with outLen := 0 }).bind fun s1 =>
    .ok (setRes0 s1.outLen s1)

/-- `RLE0.COMPRESS` (R280). -/
def execRle0Compress (s : State) : Host.Outcome State Fault Refusal :=
  finish (encode .rle0Compress) (rle0Compress s)

/-- `RLE0.DECOMPRESS` (R281): a stream that ends right after a `0x00` raises `UnexpectedEnd(IN_LEN)` once
everything before it is written. -/
def rle0Decompress (s : State) : Res State :=
  let r := rleDecode (inputBytes s)
  (appendAll r.1 { s with outLen := 0 }).bind fun s1 =>
    if r.2 then .raised .unexpectedEnd s.inLen s1 else .ok (setRes0 s1.outLen s1)

/-- `RLE0.DECOMPRESS` (R281). -/
def execRle0Decompress (s : State) : Host.Outcome State Fault Refusal :=
  finish (encode .rle0Decompress) (rle0Decompress s)

end Sys2Proof.Machine
end

