-- ==== Sys2Proof/Machine/System.lean ====
section
/-! DEFINITION. The system commands (R290 to R293). -/

namespace Sys2Proof.Machine

/-- `SYS.NOP` (R290). -/
def execSysNop (s : State) : Host.Outcome State Fault Refusal := .next s

/-- `SYS.CLRERR` (R291): refused in the `HALT` state. -/
def execSysClrerr (s : State) : Host.Outcome State Fault Refusal :=
  .next (if s.halt then s else clearError s)

/-- Every item of the block's state at its reset value (R54, R340), for the same implementation. What is
not the block's stays: the host's moves and its last reply; the contents of the memories become
unspecified again, under fresh free values (R55; log 3, log 12). -/
def resetBlock (s : State) : State :=
  { State.resetWith s.cfg s.nextSeed with pending := s.pending, reply := s.reply }

/-- `SYS.RESET` (R292): refused in the `HALT` state. -/
def execSysReset (s : State) : Host.Outcome State Fault Refusal :=
  .next (if s.halt then s else resetBlock s)

/-- `SYS.XCHG` (R293): swaps `IN` with `OUT`, contents and lengths, and empties the dictionary. -/
def execSysXchg (s : State) : Host.Outcome State Fault Refusal :=
  .next { s with
    inb := s.outb
    inLen := s.outLen
    outb := s.inb
    outLen := s.inLen
    dict := Dict.empty .inSpace }

end Sys2Proof.Machine
end

