-- ==== Sys2Proof/Machine/Dispatch.lean ====
section
/-! DEFINITION. The meaning of each command. `exec i s` is the effect of an accepted command (R300);
whether a word is accepted at all is decided where it is issued (HostPort.lean, R311, R312). -/

namespace Sys2Proof.Machine

def exec (i : Instr) (s : State) : Host.Outcome State Fault Refusal :=
  match i with
  | .sysNop => Sys2Proof.Machine.execSysNop s
  | .sysClrerr => Sys2Proof.Machine.execSysClrerr s
  | .sysReset => Sys2Proof.Machine.execSysReset s
  | .sysXchg => Sys2Proof.Machine.execSysXchg s
  | .bsClear => Sys2Proof.Machine.execBsClear s
  | .bsGetpos => Sys2Proof.Machine.execBsGetpos s
  | .bsSetpos => Sys2Proof.Machine.execBsSetpos s
  | .bsRead n => Sys2Proof.Machine.execBsRead n s
  | .bsPeek n => Sys2Proof.Machine.execBsPeek n s
  | .bsWrite n => Sys2Proof.Machine.execBsWrite n s
  | .bsAlign => Sys2Proof.Machine.execBsAlign s
  | .bsReadbyte => Sys2Proof.Machine.execBsReadbyte s
  | .bsWritebyte => Sys2Proof.Machine.execBsWritebyte s
  | .dictClear sel => Sys2Proof.Machine.execDictClear sel s
  | .dictInsert => Sys2Proof.Machine.execDictInsert s
  | .dictFind => Sys2Proof.Machine.execDictFind s
  | .dictFree => Sys2Proof.Machine.execDictFree s
  | .pyrCompress => Sys2Proof.Machine.execPyrCompress s
  | .pyrExpand => Sys2Proof.Machine.execPyrExpand s
  | .pyrMatchdec => Sys2Proof.Machine.execPyrMatchdec s
  | .hufBuild => Sys2Proof.Machine.execHufBuild s
  | .hufEncode => Sys2Proof.Machine.execHufEncode s
  | .hufDecode => Sys2Proof.Machine.execHufDecode s
  | .rle0Compress => Sys2Proof.Machine.execRle0Compress s
  | .rle0Decompress => Sys2Proof.Machine.execRle0Decompress s

end Sys2Proof.Machine
end

