-- ==== Sys2Proof/Machine/HostPort.lean ====
section
/-! DEFINITION. The host's side of the block: issuing a command (R80, R311, R312), host access to the
registers and the spaces (R20, R61, R63), hardware reset (R340). -/

namespace Sys2Proof.Machine

/-- Which command words are accepted (R311): none while `HALT` is latched; only `SYS.CLRERR` and
`SYS.RESET` while `ERR` is. The test is on the word: a refused word is not decoded. -/
def accepted (w : Word) (s : State) : Bool :=
  if s.halt then false
  else if s.err then w == encode .sysClrerr || w == encode .sysReset
  else true

/-- The instruction a command word stands for (R83, R85): there is no fetch (R22), the word comes from
the host's write to `CMD`. -/
def commandOf (w : Word) : Option Instr :=
  match decode w with
  | .ok i => some i
  | .error _ => none

/-- A write to `CMD` (R80). Priority by R312: a refused word changes nothing (R311); an illegal word
raises `IllegalCommand` (R305, R303); any other runs to completion. -/
def issue (w : Word) (s : State) : Host.Outcome State Fault Refusal :=
  if accepted w s then
    match commandOf w with
    | some i => exec i s
    | none => .next (raise .illegalCommand w.toNat w s)
  else .next s

/-- The number of bytes of each byte space: `BUF_CAP` (R60). -/
def byteSpaceSize (_ : ByteSpace) (s : State) : Nat := s.cfg.bufCap

/-- The number of words of each word space (R60). -/
def wordSpaceSize (sp : WordSpace) (s : State) : Nat :=
  match sp with
  | .freq => 256
  | .xsym => s.cfg.hufXmax
  | .unit => s.cfg.bufCap

/-- A host byte store (R61): `IN` and `BSB` take it at any address of the space, below or above the
length; `OUT` ignores it (93 U5). -/
def hostByteWrite (sp : ByteSpace) (a : Nat) (v : Byte) (s : State) : State :=
  match sp with
  | .inp => { s with inb := bufWrite s.inb a v }
  | .bsb => { s with bsb := bufWrite s.bsb a v }
  | .out => s

/-- A host word store (R61): `FREQ` and `XSYM` take it, `UNIT` ignores it. -/
def hostWordWrite (sp : WordSpace) (a : Nat) (v : Word) (s : State) : State :=
  match sp with
  | .freq => { s with freq := freqWrite s.freq a v }
  | .xsym => { s with xsym := wordWrite s.xsym a v }
  | .unit => s

/-- A host word read (R61, R63). -/
def hostWordRead (sp : WordSpace) (a : Nat) (s : State) : Word :=
  match sp with
  | .freq => freqRead s.freq a
  | .xsym => wordRead s.xsym a
  | .unit => wordRead s.unit a

/-- A host access that needs a cell of a space: `IN`, `OUT`, `BSB`, `UNIT` have the addresses below `BUF_CAP`
(R33, R60), `FREQ` 0 to 255, `XSYM` 0 to `HUF_XMAX - 1` (R52). At any other address there is no cell to read or
write, and the model stops (log 8). -/
def atCell (size a : Nat) (t : State) : Host.Outcome State Fault Refusal :=
  if a < size then .next t else .fault (.hostAddressOutsideSpace a)

/-- One host move between commands (R61). Accesses work while an error is latched (R311). A write to `OUT`,
`UNIT` or `HCODE` is ignored at every address (R61, 93 U5); `HCODE` reads as `none` for whatever has no code
(R63; log 10). -/
def hostMove (m : HostMove) (s : State) : Host.Outcome State Fault Refusal :=
  match m with
  | .regWrite n v => if n = 0 then issue v s else .next (writeReg n v s)
  | .regRead n => .next { s with reply := .word (readReg n s) }
  | .byteWrite sp a v => if sp = .out then .next s else atCell (byteSpaceSize sp s) a (hostByteWrite sp a v s)
  | .byteRead sp a => atCell (byteSpaceSize sp s) a { s with reply := .byte (bufRead (byteSpace sp s) a) }
  | .wordWrite sp a v => if sp = .unit then .next s else atCell (wordSpaceSize sp s) a (hostWordWrite sp a v s)
  | .wordRead sp a => atCell (wordSpaceSize sp s) a { s with reply := .word (hostWordRead sp a s) }
  | .hcodeWrite _ _ => .next s
  | .hcodeRead sym =>
    .next { s with reply := .code (if sym ≤ Config.maxSymbol then cellGet? s.hcode sym else none) }
  | .hardReset => .next (resetBlock s)

/-- One step of the machine: the oldest waiting host move is performed; with none waiting the block is
idle (R340: nothing runs until the host writes `CMD`). Log 1. -/
def hostStep (s : State) : Host.Outcome State Fault Refusal :=
  match s.pending with
  | [] => .next s
  | m :: rest => hostMove m { s with pending := rest }

/-! ### The assembler notation of R88 and R89, as lists of host moves -/

/-- The register numbers the notation writes (R20). -/
def regCmd : Nat := 0
def regArg0 : Nat := 4
def regArg1 : Nat := 5

/-- The moves that issue a command with its register operands: `ARG0`, `ARG1`, then `CMD` (R88). -/
def issueMoves (i : Instr) (args : List Word) : List HostMove :=
  (match args with
   | [] => []
   | [a] => [.regWrite regArg0 a]
   | a :: b :: _ => [.regWrite regArg0 a, .regWrite regArg1 b]) ++ [.regWrite regCmd (encode i)]

/-- The stores of a byte string from address `a` on. -/
def storeMoves (sp : ByteSpace) (a : Nat) : List Byte → List HostMove
  | [] => []
  | v :: vs => .byteWrite sp a v :: storeMoves sp (a + 1) vs

/-- `HOST.LOAD space, bytes` (R88): the bytes at address 0, then the length register. -/
def hostLoad (sp : ByteSpace) (bytes : List Byte) : List HostMove :=
  storeMoves sp 0 bytes ++
    (match sp with
     | .inp => [.regWrite 8 (toWord bytes.length)]
     | .bsb => [.regWrite 10 (toWord bytes.length)]
     | .out => [])

/-- `HOST.SET reg, value`. -/
def hostSet (n : Nat) (v : Word) : List HostMove := [.regWrite n v]

/-- `HOST.FREQ b, count`. -/
def hostFreq (b : Nat) (count : Word) : List HostMove := [.wordWrite .freq b count]

/-- The stores of a list of extra symbols from entry `i` on. -/
def xsymMoves (i : Nat) : List Word → List HostMove
  | [] => []
  | v :: vs => .wordWrite .xsym i v :: xsymMoves (i + 1) vs

/-- `HOST.XSYM list`: the list in `XSYM`, its length in `HUF_NX`. -/
def hostXsym (l : List Word) : List HostMove :=
  xsymMoves 0 l ++ [.regWrite 19 (toWord l.length)]

/-- `BS.REWIND` = `BS.SETPOS 0` (R89). -/
def bsRewind : List HostMove := issueMoves .bsSetpos [0]

/-- `BS.WRITE16 v` = `BS.WRITE 16, v` (R89). -/
def bsWrite16 (v : Word) : List HostMove := issueMoves (.bsWrite 16) [v]

/-- `DICT.RESET` = `DICT.CLEAR 0` (R89). -/
def dictResetMoves : List HostMove := issueMoves (.dictClear 0) []

end Sys2Proof.Machine
end

