-- ==== Sys2Proof/Machine/Step.lean ====
section
/-! DEFINITION. One step of the machine, and how a word is put where the next step takes its command. -/

namespace Sys2Proof.Machine

/-- One step: the oldest waiting host move, or nothing when none waits (HostPort.lean). -/
def step (s : State) : Host.Outcome State Fault Refusal := hostStep s

/-- The block takes its commands from host writes to `CMD` (R22, R80): the word is put in front of the
waiting moves as such a write, so that the very next step issues it. A command is one 32-bit word. -/
def State.withFetchWord (s : State) (nbits w : Nat) : State :=
  { s with pending := .regWrite 0 (BitVec.ofNat 32 (w % 2 ^ nbits)) :: s.pending }

end Sys2Proof.Machine
end

