-- ==== Sys2Proof/Safety.lean ====
section
/-! DEFINITION. What a good state is, in the terms claims use: the invariants the spec gives the state
(R24, R25, R27, R28, R46, R50, R51), the canonical form of the memories, and the usage rule R352. -/

namespace Sys2Proof.Machine

/-! ### Memory -/

/-- The canonical form of `FREQ`: addresses strictly rising, and no entry holds the 0 an unlisted count
reads as. -/
def freqWf (f : List (Nat × Word)) : Bool := cellsSorted f && f.all fun c => decide (c.2 ≠ 0)

/-- Every memory of the block is in its canonical form: addresses strictly rising. (An unlisted address
of the other spaces holds no value of its own, so no entry can equal it.) -/
def memoryWf (s : State) : Bool :=
  cellsSorted s.inb.cells && cellsSorted s.outb.cells && cellsSorted s.bsb.cells &&
  cellsSorted s.unit.cells && cellsSorted s.xsym.cells && freqWf s.freq && cellsSorted s.hcode

/-- Every address a map lists is below a size. -/
def cellsBelow {α : Type} (size : Nat) (c : List (Nat × α)) : Bool := c.all fun e => decide (e.1 < size)

/-- Nothing is listed outside a space (R60): no command and no accepted host move stores there. -/
def spacesWf (s : State) : Bool :=
  cellsBelow s.cfg.bufCap s.inb.cells && cellsBelow s.cfg.bufCap s.outb.cells &&
  cellsBelow s.cfg.bufCap s.bsb.cells && cellsBelow s.cfg.bufCap s.unit.cells &&
  cellsBelow s.cfg.hufXmax s.xsym.cells && cellsBelow 256 s.freq &&
  cellsBelow (Config.maxSymbol + 1) s.hcode

/-! ### Registers -/

/-- The codes of R302 that a class D error latches, and those of class P. -/
def classDCodes : List Byte := [3, 4, 5]
def classPCodes : List Byte := [1, 2]

/-- R24: `ERRCODE = 0` exactly when nothing is latched, `ERR` and `HALT` are never both 1; and the code
is one of the class that is latched (R302). -/
def statusWf (s : State) : Bool :=
  if s.err then !s.halt && classDCodes.contains s.errCode
  else if s.halt then classPCodes.contains s.errCode
  else s.errCode == 0

/-- R25, R27, R28: lengths up to `BUF_CAP`, a bit index below 8, a bit position up to `8·BUF_CAP`. -/
def boundsWf (s : State) : Bool :=
  decide (s.inLen ≤ s.cfg.bufCap) && decide (s.outLen ≤ s.cfg.bufCap) &&
  decide (s.bsLen ≤ s.cfg.bufCap) && decide (s.bsBit < 8) && decide (bitPos s ≤ 8 * s.cfg.bufCap) &&
  decide (s.unitLen ≤ s.cfg.bufCap)

/-! ### Dictionary (R46) -/

/-- The number of nodes of a map. -/
def siblings : Trie → Nat
  | .nil => 0
  | .node _ _ _ _ _ next => siblings next + 1

/-- A node's key comes before the keys of the nodes after it in its map, which are kept rising: so two
siblings never have the same key (R41, R46 (c)). -/
def keyRises (label : List Byte) : Trie → Bool
  | .nil => true
  | .node _ label' _ _ _ _ => keyBefore label label'

/-- R46 (c), (d), R185: labels non-empty, sibling keys distinct, every un-indexed node with at least two
children (so every leaf is indexed). -/
def trieWf : Trie → Bool
  | .nil => true
  | .node _ label index _ children next =>
    !label.isEmpty && keyRises label next && (index.isSome || decide (2 ≤ siblings children)) &&
    trieWf children && trieWf next

/-- The token indices of the nodes: the keys of `PIDX` (R43). -/
def indices : Trie → List Nat
  | .nil => []
  | .node _ _ index _ children next => index.toList ++ indices children ++ indices next

/-- The priorities of the nodes. -/
def prios : Trie → List Nat
  | .nil => []
  | .node _ _ _ prio children next => prio :: prios children ++ prios next

/-- The number of nodes (R186). -/
def nodeCount : Trie → Nat
  | .nil => 0
  | .node _ _ _ _ children next => nodeCount children + nodeCount next + 1

/-- R46 (a), (b), (f): `DICT_COUNT` is the number of indexed nodes and at most `CAP`; no index twice;
the indices are dense, but for the freed one while `FREEVALID` is 1. -/
def indicesWf (cap : Nat) (d : Dict) : Bool :=
  decide (indices d.roots).Nodup && decide ((indices d.roots).length = d.count) &&
  decide (d.count ≤ cap) &&
  (if d.freeValid then
    decide (d.count + 1 = cap) && decide (d.freeIdx < cap) &&
      (indices d.roots).all fun i => decide (i < cap) && decide (i ≠ d.freeIdx)
  else decide (d.freeIdx = 0) && (indices d.roots).all fun i => decide (i < d.count))

/-- R45: no two nodes have the same priority, and all are below the counter. -/
def priosWf (d : Dict) : Bool :=
  decide (prios d.roots).Nodup && (prios d.roots).all fun p => decide (p < d.prio)

/-- The dictionary invariants of R46 (a) to (f) and R45. -/
def dictWf (cap : Nat) (d : Dict) : Bool := trieWf d.roots && indicesWf cap d && priosWf d

/-- R153, R46 (g): for every node, the `DATA` bytes (`buf`, valid below `len`) that end with the node's
window are the node's whole path string: the window shows the label and lies inside an occurrence of the
path. `path` is the path of the branch point. -/
def windowsCoherent (buf : ByteBuf) (len : Nat) (path : List Byte) : Trie → Bool
  | .nil => true
  | .node off label _ _ children next =>
    decide (path.length ≤ off) && decide (off + label.length ≤ len) &&
    decide (slice buf (off - path.length) (path.length + label.length) = path ++ label) &&
    windowsCoherent buf len (path ++ label) children && windowsCoherent buf len path next

/-- The host has respected R352: labels by value and labels as windows are the same. Where this is
false, what `DICT` commands answer is the model's choice, not the spec's (93 U3, log 5). -/
def dictCoherent (s : State) : Bool := windowsCoherent (dataBuf s) (dataLen s) [] s.dict.roots

/-! ### Huffman -/

/-- The leaves of a tree with their codes, left to right (R256). -/
def treeCodes (code : List Bool) : HufTree → List (Nat × List Bool)
  | .leaf v _ => [(v, code)]
  | .inner _ l r => treeCodes (code ++ [false]) l ++ treeCodes (code ++ [true]) r

/-- The symbols of a tree. -/
def treeSymbols : HufTree → List Nat
  | .leaf v _ => [v]
  | .inner _ l r => treeSymbols l ++ treeSymbols r

/-- The Huffman state is what some `HUF.BUILD` or a reset left (R50, R51, R31): distinct symbols in
range, the code table is the tree's, and `HUF_INFO` counts the leaves. -/
def hufWf (s : State) : Bool :=
  match s.hroot with
  | none => s.hcode.isEmpty && s.hufInfo == hufInfoWord 0
  | some t =>
    decide (treeSymbols t).Nodup && (treeSymbols t).all (fun v => decide (v ≤ Config.maxSymbol)) &&
    decide (s.hcode = assignCodes t [] []) && s.hufInfo == hufInfoWord (treeSymbols t).length

/-- The weight of a node (R252, R255). -/
def nodeWeight : HufTree → Nat
  | .leaf _ w => w
  | .inner w _ _ => w

/-- R254: `l` has the nodes of `seq` in rising weight, those of one weight in the order they have in `seq`. -/
def stablySorted (seq l : List HufTree) : Prop :=
  l.Pairwise (fun x y => nodeWeight x ≤ nodeWeight y) ∧
  ∀ w, l.filter (fun x => nodeWeight x == w) = seq.filter fun x => nodeWeight x == w

/-- R255: one merge. The first two nodes become the left and the right child of a new node, whose weight is
their sum and which stands behind every node that is no heavier and before every heavier one. -/
def mergeStep (l m : List HufTree) : Prop :=
  ∃ x y a b, l = x :: y :: (a ++ b) ∧ m = a ++ .inner (nodeWeight x + nodeWeight y) x y :: b ∧
    (∀ u ∈ a, nodeWeight u ≤ nodeWeight x + nodeWeight y) ∧ ∀ u ∈ b, nodeWeight x + nodeWeight y < nodeWeight u

/-- R251: merging goes on until one node, the root, is left; an empty list has none. -/
inductive MergesTo : List HufTree → Option HufTree → Prop where
  | empty : MergesTo [] none
  | root (r : HufTree) : MergesTo [r] (some r)
  | merge {l m : List HufTree} {r : Option HufTree} : mergeStep l m → MergesTo m r → MergesTo l r

/-! ### The whole state -/

/-- Every invariant the spec gives the state. -/
def State.wf (s : State) : Bool :=
  s.cfg.wf && memoryWf s && spacesWf s && statusWf s && boundsWf s && dictWf s.cfg.cap s.dict && hufWf s

/-! ### Errors (R304) -/

/-- The errors each command can raise: the complete list of R304. -/
def mayRaise : Instr → List ErrKind
  | .sysNop | .sysClrerr | .sysReset | .sysXchg => []
  | .bsClear | .bsGetpos | .bsAlign => []
  | .bsSetpos => [.invalidArgument]
  | .bsRead _ => [.invalidArgument, .unexpectedEnd]
  | .bsPeek _ => [.invalidArgument, .unexpectedEnd]
  | .bsWrite _ => [.invalidArgument, .capacity]
  | .bsReadbyte => [.unexpectedEnd]
  | .bsWritebyte => [.capacity]
  | .dictClear _ => [.invalidArgument]
  | .dictInsert => [.invalidArgument]
  | .dictFind => []
  | .dictFree => [.invalidArgument]
  | .pyrCompress => [.capacity]
  | .pyrExpand => [.unexpectedEnd, .data, .capacity]
  | .pyrMatchdec => [.invalidArgument, .unexpectedEnd, .data]
  | .hufBuild => [.invalidArgument]
  | .hufEncode => [.invalidArgument, .capacity]
  | .hufDecode => []
  | .rle0Compress => [.capacity]
  | .rle0Decompress => [.unexpectedEnd, .capacity]

/-- The stream commands are partial: an error leaves what was written before it (R313). -/
def isPartial : Instr → Bool
  | .pyrCompress | .pyrExpand | .pyrMatchdec | .rle0Compress | .rle0Decompress => true
  | _ => false

/-- The commands that write `RES0` on success (R84). -/
def writesRes0 : Instr → Bool
  | .bsGetpos | .bsRead _ | .bsPeek _ | .bsReadbyte => true
  | .dictInsert | .dictFind | .dictFree => true
  | .pyrCompress | .pyrExpand | .pyrMatchdec => true
  | .hufBuild | .hufEncode | .hufDecode => true
  | .rle0Compress | .rle0Decompress => true
  | _ => false

/-- The commands that write `RES1` on success (R84). -/
def writesRes1 : Instr → Bool
  | .dictFind | .pyrCompress | .pyrExpand | .pyrMatchdec | .hufDecode => true
  | _ => false

/-- The commands with an immediate, format B (R82). -/
def takesImmediate : Instr → Bool
  | .bsRead _ | .bsPeek _ | .bsWrite _ | .dictClear _ => true
  | _ => false

/-- `t` is `s` with the error `e(info)` of the command word `w` latched and nothing else changed: what a
precise command leaves when it raises from an unlatched state (R310, R313). -/
def raisedIn (e : ErrKind) (info : Nat) (w : Word) (s : State) : State :=
  { s with
    err := isClassD e, halt := !isClassD e, errCode := errorCode e
    errInfo0 := toWord info, errInfo1 := w }

/-! ### The bit stream -/

/-- Bit `q` of the stream: the bit of `BSB` where a byte is valid, zero beyond (R130's growth). -/
def bitAt (s : State) (q : Nat) : Bool := decide (q < 8 * s.bsLen) && getBit s q

/-- A command ends without an error: its next state, with nothing latched. -/
def completed (o : Host.Outcome State Fault Refusal) : Option State :=
  match o with
  | .next t => if latched t then none else some t
  | _ => none

/-- `BS.WRITE n_i, v_i` in turn, each with no error (R141). -/
def writeFields : List (Nat × Word) → State → Option State
  | [], s => some s
  | (n, v) :: r, s => (completed (exec (.bsWrite n) { s with arg0 := v })).bind (writeFields r)

/-- `BS.READ n_i` in turn, each with no error: the values and the state after. -/
def readFields : List Nat → State → Option (List Word × State)
  | [], s => some ([], s)
  | n :: r, s =>
    (completed (exec (.bsRead n) s)).bind fun t =>
      (readFields r t).map fun q => (t.res0 :: q.1, q.2)

/-- `HUF.ENCODE` of each symbol in turn, each with no error (R261). -/
def encodeSymbols : List Nat → State → Option State
  | [], s => some s
  | v :: r, s => (completed (exec .hufEncode { s with arg0 := toWord v })).bind (encodeSymbols r)

/-- `HUF.DECODE` `k` times: the results in order and the state after. -/
def decodeSymbols : Nat → State → Option (List Word × State)
  | 0, s => some ([], s)
  | k + 1, s =>
    (completed (exec .hufDecode s)).bind fun t =>
      (decodeSymbols k t).map fun q => (t.res0 :: q.1, q.2)

/-! ### The Pyr stream of a list of units (R100 to R109, R205) -/

/-- R108: bits 11:8 of the next token's value, which the second byte of a 12-bit field holds in its low half
when the next token has a 12-bit field too; zero otherwise. -/
def nextHighNibble (us : List PyrUnit) : Nat :=
  match us.find? fun u => u.isTok with
  | some u => if u.width = 12 then u.value / 256 % 16 else 0
  | none => 0

/-- The bytes each unit has at its place in the stream: a literal its value (R111), a token of 8 or 16 bits its
value, high byte first (R106, R107), a 12-bit token two bytes, or one when it is the second of a pair (R108);
a token of another width ends the pairing (R109). `second` says that a first one waits. -/
def unitFields (second : Bool) : List PyrUnit → List (List Byte)
  | [] => []
  | u :: us =>
    if !u.isTok then [BitVec.ofNat 8 u.value] :: unitFields second us
    else if u.width = 12 then
      if second then [BitVec.ofNat 8 (u.value % 256)] :: unitFields false us
      else [BitVec.ofNat 8 (u.value / 16), BitVec.ofNat 8 (u.value % 16 * 16 + nextHighNibble us)] ::
        unitFields true us
    else if u.width = 16 then
      [BitVec.ofNat 8 (u.value / 256), BitVec.ofNat 8 (u.value % 256)] :: unitFields false us
    else if u.width = 8 then [BitVec.ofNat 8 u.value] :: unitFields false us
    else [] :: unitFields false us

/-- R103: a count extension. -/
def extensionBytes (e : Nat) : List Byte := List.replicate (e / 255) 0xFF#8 ++ [BitVec.ofNat 8 (e % 255)]

/-- R102, R104: the header bytes of a Header0 group of `a` literals and `b` tokens. -/
def header0Bytes (a b : Nat) : List Byte :=
  BitVec.ofNat 8 ((if a < 15 then a else 15) + 16 * if b < 7 then b else 7) ::
    ((if a < 15 then [] else extensionBytes (a - 15)) ++ if b < 7 then [] else extensionBytes (b - 7))

/-- R101: the header of a Header1 group, bit `6 - j` set where unit `j` is a token. -/
def header1Byte (g : List PyrUnit) : Byte :=
  BitVec.ofNat 8 (128 + (g.zipIdx.map fun p => if p.1.isTok then 2 ^ (6 - p.2) else 0).sum)

/-- R205: the groups of a list of units with their fields. A maximal run of literals, then of tokens, of 8 units
or more is a Header0 group; else the next 7 units, or those left, are a Header1 group. `n` bounds the groups. -/
def groupStream : Nat → List (PyrUnit × List Byte) → List Byte
  | 0, _ => []
  | _ + 1, [] => []
  | n + 1, l =>
    let a := (l.takeWhile fun p => !p.1.isTok).length
    let b := ((l.drop a).takeWhile fun p => p.1.isTok).length
    if 8 ≤ a + b then header0Bytes a b ++ ((l.take (a + b)).map Prod.snd).flatten ++ groupStream n (l.drop (a + b))
    else header1Byte ((l.take 7).map Prod.fst) :: ((l.take 7).map Prod.snd).flatten ++ groupStream n (l.drop 7)

/-- The Pyr stream of a list of units (R100): there are no more groups than units. -/
def pyrStream (us : List PyrUnit) : List Byte := groupStream us.length (us.zip (unitFields false us))

/-! ### Pass 1 of the Pyr encoder (R202), by `DICT` commands -/

/-- `DICT.INSERT off, len` with no error. -/
def insertString (off len : Nat) (s : State) : Option State :=
  completed (exec .dictInsert { s with arg0 := toWord off, arg1 := toWord len })

/-- `DICT.INSERT pos - k, len + k` for each `k` of a list, in order. -/
def insertStrings (pos len : Nat) : List Nat → State → Option State
  | [], s => some s
  | k :: ks, s => (insertString (pos - k) (len + k) s).bind (insertStrings pos len ks)

/-- The width of a token field when the dictionary has `count` entries (R204). -/
def widthAt (c : Config) (count : Nat) : Nat := if count ≤ c.t12 then 8 else if count ≤ c.t16 then 12 else 16

/-- The scan of R202 with the dictionary commands, from position `pos` after `lit` literals in a row: a byte
where `DICT.FIND` finds nothing is a literal, after the insert of the run up to it; what it finds is a token,
before the inserts of the match with 1 to `lit` bytes in front. Answered are the units, each with the number
of entries at its start, and the state after. `n` bounds the units. -/
def scanInput : Nat → Nat → Nat → State → Option (List (PyrUnit × Nat) × State)
  | 0, _, _, s => some ([], s)
  | n + 1, pos, lit, s =>
    if s.inLen ≤ pos then some ([], s)
    else
      (completed (exec .dictFind { s with arg0 := toWord pos })).bind fun f =>
        if f.res0 = 0xFFFFFFFF#32 then
          (if lit = 0 then some f else insertString (pos - lit) (lit + 1) f).bind fun g =>
            (scanInput n (pos + 1) (lit + 1) g).map fun q =>
              (({ isTok := false, width := 8, value := (bufRead s.inb pos).toNat }, s.dict.count) :: q.1, q.2)
        else
          (insertStrings pos f.res1.toNat (List.range' 1 lit) f).bind fun g =>
            (scanInput n (pos + f.res1.toNat) 0 g).map fun q =>
              (({ isTok := true, width := widthAt s.cfg s.dict.count, value := f.res0.toNat }, s.dict.count) :: q.1, q.2)

/-- The scan of the whole input from the dictionary `DICT.CLEAR 0` leaves (R201); no unit is without a byte. -/
def scanAll (s : State) : Option (List (PyrUnit × Nat) × State) :=
  (completed (exec (.dictClear 0) s)).bind (scanInput s.inLen 0 0)

/-- R203: the number of the first unit that starts with more than `limit` entries, `NONE32` if none does. -/
def firstAbove (limit : Nat) (counts : List Nat) : Word :=
  match counts.findIdx? fun c => decide (limit < c) with
  | some k => toWord k
  | none => 0xFFFFFFFF#32

/-! ### The match stream (R115 to R117) -/

/-- A unit of a match stream: a literal byte (R117) or the two bytes of a match (R116). -/
inductive MatchItem where
  | literal (b : Byte)
  | copy (first second : Byte)
deriving DecidableEq, Repr

/-- The bytes a unit has in the stream. -/
def itemBytes : MatchItem → List Byte
  | .literal b => [b]
  | .copy first second => [first, second]

/-- R115: bit `7 - j` of a flag byte is set where unit `j` is a literal; there are at most 8. -/
def flagFits (f : Byte) (us : List MatchItem) : Prop :=
  us.length ≤ 8 ∧ ∀ j b first second,
    (us[j]? = some (.literal b) → f.getLsbD (7 - j) = true) ∧
    (us[j]? = some (.copy first second) → f.getLsbD (7 - j) = false)

/-- A flag byte and the bytes of its units. -/
def flagGroup (f : Byte) (us : List MatchItem) : List Byte := f :: (us.map itemBytes).flatten

/-- R115: flag bytes with 8 units each. -/
def fullGroups (gs : List (Byte × List MatchItem)) : Prop := ∀ g ∈ gs, g.2.length = 8 ∧ flagFits g.1 g.2

/-- The bytes of flag groups. -/
def groupsBytes (gs : List (Byte × List MatchItem)) : List Byte := (gs.map fun g => flagGroup g.1 g.2).flatten

/-- R116: the offset of a match. -/
def copyOffset (first second : Byte) : Nat :=
  (((first &&& 0xF0#8).setWidth 12 <<< 4) ||| second.setWidth 12).toNat

/-- R116: the length of a match. -/
def copyLength (first : Byte) : Nat := (first &&& 0x0F#8).toNat + 3

/-- The output after one more unit; none where the offset is 0 or reaches before the output (R233). A match of
offset `off` repeats the last `off` bytes of the output (R232, R353). -/
def decodeItem (out : List Byte) : MatchItem → Option (List Byte)
  | .literal b => some (out ++ [b])
  | .copy first second =>
    let off := copyOffset first second
    if off = 0 ∨ out.length < off then none
    else some (out ++ (List.range (copyLength first)).map fun j => out.getD (out.length - off + j % off) 0)

/-- The output of units in order. -/
def decodeItems (us : List MatchItem) : Option (List Byte) := us.foldlM decodeItem []

/-- The units of flag groups in order. -/
def groupsItems (gs : List (Byte × List MatchItem)) : List MatchItem := (gs.map Prod.snd).flatten

/-! ### The dictionary as a flat set (R187) -/

/-- The set `E` of R187: (index, path string, priority) of the indexed nodes. -/
def flat (d : Dict) : List (Nat × List Byte × Nat) := entries [] d.roots

/-- The entry of lowest priority (R181). -/
def lowestEntry (d : Dict) (w : List Byte) : Prop :=
  ∃ m q, (m, w, q) ∈ flat d ∧ ∀ e ∈ flat d, q ≤ e.2.2

/-- An entry whose string is not a proper prefix of another entry's string (R187). -/
def leafEntry (d : Dict) (f : Nat) (v : List Byte) (r : Nat) : Prop :=
  (f, v, r) ∈ flat d ∧ ∀ e ∈ flat d, v <+: e.2.1 → e.2.1 = v

/-- The entry `FreeIndex` removes, in the flat view (R187): among the leaf entries whose strings extend
the string of the lowest entry, the one of lowest priority. -/
def victimEntry (d : Dict) (f : Nat) (v : List Byte) : Prop :=
  ∃ w r, lowestEntry d w ∧ w <+: v ∧ leafEntry d f v r ∧
    ∀ f' v' r', w <+: v' → leafEntry d f' v' r' → r ≤ r'

/-- The entry of a string keeps its index: `d` has it exactly when `c` has. -/
def sameIndex (c d : Dict) (u : List Byte) : Prop := ∀ i, (∃ q, (i, u, q) ∈ flat d) ↔ ∃ q, (i, u, q) ∈ flat c

/-- The entry of a string keeps index and priority. -/
def sameEntry (c d : Dict) (u : List Byte) : Prop := ∀ i q, (i, u, q) ∈ flat d ↔ (i, u, q) ∈ flat c

/-- The entries whose strings are prefixes of `s` have priorities from `p` on, the shorter the smaller: they
were touched, shortest first, from counter value `p` (R163, R187). -/
def touchedFrom (p : Nat) (s : List Byte) (d : Dict) : Prop :=
  (∀ i u q, (i, u, q) ∈ flat d → u <+: s → p ≤ q) ∧
  ∀ i u q j v r, (i, u, q) ∈ flat d → (j, v, r) ∈ flat d → u <+: v → v <+: s → u ≠ v → q < r

/-- The bytes `DATA[off : off + min(len, DLEN - off)]` (R165). -/
def dataSlice (off len : Nat) (s : State) : List Byte := slice (dataBuf s) off (min len (dataLen s - off))

/-! ### Frames -/

/-- What the host owns and no command touches: the parameters, the waiting moves, the last reply. -/
def sameHost (s t : State) : Prop := t.cfg = s.cfg ∧ t.pending = s.pending ∧ t.reply = s.reply

/-- The error latch and its diagnostic registers are unchanged. -/
def sameError (s t : State) : Prop :=
  t.err = s.err ∧ t.halt = s.halt ∧ t.errCode = s.errCode ∧ t.errInfo0 = s.errInfo0 ∧ t.errInfo1 = s.errInfo1

/-- `ARG0`, `ARG1` are unchanged. -/
def sameArgs (s t : State) : Prop := t.arg0 = s.arg0 ∧ t.arg1 = s.arg1

/-- `RES0`, `RES1` are unchanged. -/
def sameResults (s t : State) : Prop := t.res0 = s.res0 ∧ t.res1 = s.res1

/-- `IN` and `IN_LEN` are unchanged, every byte of the space. -/
def sameIn (s t : State) : Prop := t.inb = s.inb ∧ t.inLen = s.inLen

/-- `OUT` and `OUT_LEN` are unchanged. -/
def sameOut (s t : State) : Prop := t.outb = s.outb ∧ t.outLen = s.outLen

/-- `BSB`, `BS_LEN` and the bit cursor are unchanged. -/
def sameStream (s t : State) : Prop :=
  t.bsb = s.bsb ∧ t.bsLen = s.bsLen ∧ t.bsByte = s.bsByte ∧ t.bsBit = s.bsBit

/-- `UNIT`, `UNIT_LEN`, `PYR_T12`, `PYR_T16` are unchanged. -/
def sameUnits (s t : State) : Prop :=
  t.unit = s.unit ∧ t.unitLen = s.unitLen ∧ t.pyrT12 = s.pyrT12 ∧ t.pyrT16 = s.pyrT16

/-- `FREQ`, `XSYM`, `HUF_NX` are unchanged (R251). -/
def sameHufInputs (s t : State) : Prop := t.freq = s.freq ∧ t.xsym = s.xsym ∧ t.hufNx = s.hufNx

/-- The tree, the code table and `HUF_INFO` are unchanged. -/
def sameHufTree (s t : State) : Prop := t.hroot = s.hroot ∧ t.hcode = s.hcode ∧ t.hufInfo = s.hufInfo

/-- The families of free values are unchanged. -/
def sameSeeds (s t : State) : Prop := t.nextSeed = s.nextSeed

end Sys2Proof.Machine
end

