-- ==== Sys2Proof/Certificates/Slice0/Obligations.lean ====
section
/-! DEFINITION. The statements about the block, rule by rule. Every register update is written out, so an
equation for the next state is also the frame of the command. Log n is notes/assumptions/n.md. The queue
`pending` of host moves and `reply` are the model's own fields (logs 1, 9), as are the free values of memory
that nothing has written (log 3). A rule with `[derived]` in the spec is the spec's own inference. -/

open Sys2Proof Sys2Proof.Machine

/-! ### Encoding -/

/-- R81 to R83, R85: no bit of an encoding is dropped, and every word that decodes is the encoding of the command
it decodes to. -/
def Obligations.DecodeAndEncodeAgree : Prop :=
  (∀ i : Instr, i.wellFormed = true → decode (encode i) = .ok i) ∧
  (∀ (w : Word) (i : Instr), decode w = .ok i → i.wellFormed = true ∧ encode i = w)

/-- R83: the opcode column, and the test of a word against each row: a format-N row matches when
`w = opcode << 24`, a format-B row when `w & 0xFFFFFF00 = opcode << 24`, and then `imm8 = w[7:0]`. -/
def Obligations.DecoderTestsEachRow : Prop :=
  (opcode .sysNop = 0x00 ∧ opcode .sysClrerr = 0x01 ∧ opcode .sysReset = 0x02 ∧ opcode .sysXchg = 0x03 ∧
    opcode .bsClear = 0x10 ∧ opcode .bsGetpos = 0x11 ∧ opcode .bsSetpos = 0x12 ∧
    (∀ n, opcode (.bsRead n) = 0x13 ∧ opcode (.bsPeek n) = 0x14 ∧ opcode (.bsWrite n) = 0x15) ∧
    opcode .bsAlign = 0x16 ∧ opcode .bsReadbyte = 0x17 ∧ opcode .bsWritebyte = 0x18 ∧
    (∀ sel, opcode (.dictClear sel) = 0x20) ∧ opcode .dictInsert = 0x21 ∧ opcode .dictFind = 0x22 ∧
    opcode .dictFree = 0x23 ∧ opcode .pyrCompress = 0x30 ∧ opcode .pyrExpand = 0x31 ∧
    opcode .pyrMatchdec = 0x32 ∧ opcode .hufBuild = 0x40 ∧ opcode .hufEncode = 0x41 ∧
    opcode .hufDecode = 0x42 ∧ opcode .rle0Compress = 0x50 ∧ opcode .rle0Decompress = 0x51) ∧
  (∀ (w : Word) (i : Instr), decode w = .ok i ↔
    if takesImmediate i then
      w &&& 0xFFFFFF00#32 = BitVec.ofNat 32 (opcode i) <<< 24 ∧ immediate i = (w.extractLsb' 0 8).toNat
    else w = BitVec.ofNat 32 (opcode i) <<< 24)

/-- R83: some words of the table, written out. -/
def Obligations.SampleWordsDecode : Prop :=
  decode 0x03000000#32 = .ok .sysXchg ∧ decode 0x1300001F#32 = .ok (.bsRead 31) ∧
  decode 0x18000000#32 = .ok .bsWritebyte ∧ decode 0x20000001#32 = .ok (.dictClear 1) ∧
  decode 0x32000000#32 = .ok .pyrMatchdec ∧ decode 0x41000000#32 = .ok .hufEncode ∧
  decode 0x51000000#32 = .ok .rle0Decompress ∧ decode 0x13000120#32 = .error .mustBeZero ∧
  decode 0x60000000#32 = .error .unknownOpcode

/-! ### Steps -/

/-- A step runs the decoded instruction (R22, R80): the word the host writes to `CMD` is issued by the step
that performs the write, unless a latched error refuses it (R311); the move is used up; and `withFetchWord`
puts such a write first. -/
def Obligations.StepRunsCommand : Prop :=
  (∀ (s : State) (w : Word) (rest : List HostMove) (i : Instr),
    s.pending = .regWrite 0 w :: rest → s.halt = false → (s.err = false ∨ i = .sysClrerr ∨ i = .sysReset) →
      decode w = .ok i → step s = exec i { s with pending := rest }) ∧
  (∀ (s : State) (i : Instr), i.wellFormed = true → s.halt = false →
      (s.err = false ∨ i = .sysClrerr ∨ i = .sysReset) →
      step (s.withFetchWord 32 (encode i).toNat) = exec i s)

/-- R305: a word that matches no row raises `IllegalCommand`, code 2, class P, and changes nothing else
(R85, R303, R310). -/
def Obligations.IllegalWordRaises : Prop :=
  ∀ (s : State) (w : Word) (rest : List HostMove), s.pending = .regWrite 0 w :: rest → latched s = false →
    (∀ i : Instr, i.wellFormed = true → encode i ≠ w) →
    step s = .next { s with
      pending := rest, errInfo0 := w, errInfo1 := w, errCode := 2, err := false, halt := true }

/-- R311: which words are refused while an error is latched, that a refused word changes nothing (the
queue of waiting moves apart, log 1), and that every other host access still works. -/
def Obligations.RefusedWhileLatched : Prop :=
  (∀ (s : State) (w : Word) (rest : List HostMove), s.pending = .regWrite 0 w :: rest → s.err = true →
    w ≠ encode .sysClrerr → w ≠ encode .sysReset → step s = .next { s with pending := rest }) ∧
  (∀ (s : State) (w : Word) (rest : List HostMove), s.pending = .regWrite 0 w :: rest → s.halt = true →
    step s = .next { s with pending := rest }) ∧
  (∀ (s : State) (rest : List HostMove), latched s = true →
    (∀ n, s.pending = .regRead n :: rest → step s = .next { s with pending := rest, reply := .word (readReg n s) }) ∧
    (∀ n v, n ≠ 0 → s.pending = .regWrite n v :: rest → step s = .next (writeReg n v { s with pending := rest })) ∧
    (∀ sp a, a < s.cfg.bufCap → s.pending = .byteRead sp a :: rest →
      step s = .next { s with pending := rest, reply := .byte (bufRead (byteSpace sp s) a) }) ∧
    (∀ sp a v, a < s.cfg.bufCap → s.pending = .byteWrite sp a v :: rest →
      step s = .next (hostByteWrite sp a v { s with pending := rest })) ∧
    (∀ sp a, a < wordSpaceSize sp s → s.pending = .wordRead sp a :: rest →
      step s = .next { s with pending := rest, reply := .word (hostWordRead sp a s) }) ∧
    (∀ sp a v, a < wordSpaceSize sp s → s.pending = .wordWrite sp a v :: rest →
      step s = .next (hostWordWrite sp a v { s with pending := rest })) ∧
    (∀ a v, s.pending = .byteWrite .out a v :: rest → step s = .next { s with pending := rest }) ∧
    (∀ a v, s.pending = .wordWrite .unit a v :: rest → step s = .next { s with pending := rest }) ∧
    (∀ sym, sym ≤ 65535 → s.pending = .hcodeRead sym :: rest →
      step s = .next { s with pending := rest, reply := .code (cellGet? s.hcode sym) }) ∧
    (∀ sym v, s.pending = .hcodeWrite sym v :: rest → step s = .next { s with pending := rest }))

/-- R316: the `HALT` state is entered by any class-P error, refuses every command, keeps everything
readable, and only hardware reset leaves it. -/
def Obligations.OnlyResetLeavesHalt : Prop :=
  (∀ (e : ErrKind) (info : Nat) (w : Word) (s : State), isClassD e = false → (raise e info w s).halt = true) ∧
  (∀ (s : State) (rest : List HostMove), s.halt = true →
    (∀ w, s.pending = .regWrite 0 w :: rest → step s = .next { s with pending := rest }) ∧
    (∀ n, s.pending = .regRead n :: rest → step s = .next { s with pending := rest, reply := .word (readReg n s) }) ∧
    (∀ m t, s.pending = m :: rest → m ≠ .hardReset → step s = .next t → t.halt = true ∧ sameError s t) ∧
    (s.pending = .hardReset :: rest → ∃ t, step s = .next t ∧ latched t = false))

/-! ### Host access -/

/-- R24, R29, R204: where the fields of `STATUS` and `DICT_CTL` stand as the host reads them, and the token
width `PYR_W` shows for the number of live entries. R20: what every other register shows; `CMD` and a number
above 19 read 0. -/
def Obligations.PackedRegisterFields : Prop :=
  ∀ s : State,
    ((readReg 1 s).getLsbD 0 = false ∧ (readReg 1 s).getLsbD 1 = s.err ∧ (readReg 1 s).getLsbD 2 = s.halt ∧
      (readReg 1 s).extractLsb' 3 5 = 0#5 ∧ (readReg 1 s).extractLsb' 8 8 = s.errCode ∧
      (readReg 1 s).extractLsb' 16 16 = 0#16) ∧
    ((readReg 13 s).getLsbD 0 = dselBit s.dict.dsel ∧ (readReg 13 s).getLsbD 1 = s.dict.freeValid ∧
      (readReg 13 s).extractLsb' 2 14 = 0#14 ∧ (readReg 13 s).extractLsb' 16 16 = BitVec.ofNat 16 s.dict.freeIdx) ∧
    readReg 14 s = (if s.dict.count ≤ s.cfg.t12 then 8 else if s.dict.count ≤ s.cfg.t16 then 12 else 16) ∧
    (s.cfg = Config.standard →
      readReg 14 s = if s.dict.count ≤ 256 then 8 else if s.dict.count ≤ 4096 then 12 else 16) ∧
    (readReg 0 s = 0 ∧ readReg 2 s = s.errInfo0 ∧ readReg 3 s = s.errInfo1 ∧ readReg 4 s = s.arg0 ∧
      readReg 5 s = s.arg1 ∧ readReg 6 s = s.res0 ∧ readReg 7 s = s.res1 ∧ readReg 8 s = BitVec.ofNat 32 s.inLen ∧
      readReg 9 s = BitVec.ofNat 32 s.outLen ∧ readReg 10 s = BitVec.ofNat 32 s.bsLen ∧
      readReg 11 s = BitVec.ofNat 32 (s.bsByte * 8 + s.bsBit) ∧ readReg 12 s = BitVec.ofNat 32 s.dict.count ∧
      readReg 15 s = s.pyrT12 ∧ readReg 16 s = s.pyrT16 ∧ readReg 17 s = BitVec.ofNat 32 s.unitLen ∧
      readReg 18 s = s.hufInfo ∧ readReg 19 s = s.hufNx ∧ ∀ n, 19 < n → readReg n s = 0)

/-- R20, R61, R63: what a host read answers, with an error latched or not: the register, the byte or word of
the space, the pair of `HCODE`, `none` where there is no code, as above symbol 65535 (log 10). A read changes
nothing in the block; the answer stands in `reply` (log 9).
That a read at or above `IN_LEN`, `OUT_LEN`, `BS_LEN`, `UNIT_LEN` or `HUF_NX` shows the cell too is the model's
choice (log 21): no rule says it, and R55 calls such a byte unspecified. -/
def Obligations.HostReadsAnswerCells : Prop :=
  ∀ (s : State) (rest : List HostMove),
    (∀ n, s.pending = .regRead n :: rest → step s = .next { s with pending := rest, reply := .word (readReg n s) }) ∧
    (∀ a, a < s.cfg.bufCap →
      (s.pending = .byteRead .inp a :: rest →
        step s = .next { s with pending := rest, reply := .byte (bufRead s.inb a) }) ∧
      (s.pending = .byteRead .out a :: rest →
        step s = .next { s with pending := rest, reply := .byte (bufRead s.outb a) }) ∧
      (s.pending = .byteRead .bsb a :: rest →
        step s = .next { s with pending := rest, reply := .byte (bufRead s.bsb a) }) ∧
      (s.pending = .wordRead .unit a :: rest →
        step s = .next { s with pending := rest, reply := .word (wordRead s.unit a) })) ∧
    (∀ a, a < 256 → s.pending = .wordRead .freq a :: rest →
      step s = .next { s with pending := rest, reply := .word (freqRead s.freq a) }) ∧
    (∀ a, a < s.cfg.hufXmax → s.pending = .wordRead .xsym a :: rest →
      step s = .next { s with pending := rest, reply := .word (wordRead s.xsym a) }) ∧
    (∀ sym, s.pending = .hcodeRead sym :: rest →
      (sym ≤ 65535 → step s = .next { s with pending := rest, reply := .code (cellGet? s.hcode sym) }) ∧
      (65535 < sym → step s = .next { s with pending := rest, reply := .code none }))

/-- R20, R21, R27 (93 U5, U6): a host write to a register other than `CMD`. `ARG0`, `ARG1`, `HUF_NX` take
every value, `IN_LEN` and `BS_LEN` a value up to `BUF_CAP`, nothing else takes any; no other register
changes, `BS_POS` among them, and no space. -/
def Obligations.HostRegisterWrite : Prop :=
  ∀ (s : State) (n : Nat) (v : Word) (rest : List HostMove), s.pending = .regWrite n v :: rest → n ≠ 0 →
    ∃ t, step s = .next t ∧
      readReg n t = (if n = 4 ∨ n = 5 ∨ n = 19 ∨ (n = 8 ∨ n = 10) ∧ v.toNat ≤ s.cfg.bufCap then v else readReg n s) ∧
      (∀ k, k ≠ n → readReg k t = readReg k s) ∧
      t = { s with
        pending := rest, arg0 := t.arg0, arg1 := t.arg1, inLen := t.inLen, bsLen := t.bsLen, hufNx := t.hufNx }

/-- R61 (93 U5): a host byte write reaches `IN` and `BSB` at any address of the space, below or above the length,
and a host word write `FREQ` and `XSYM`; a write to `OUT`, `UNIT` or `HCODE` is ignored, whatever the address.
Every other cell of every space, every length and everything else stays. -/
def Obligations.HostSpaceWrites : Prop :=
  (∀ (s : State) (sp : ByteSpace) (a : Nat) (v : Byte) (rest : List HostMove),
    s.pending = .byteWrite sp a v :: rest → a < s.cfg.bufCap →
    ∃ t, step s = .next t ∧
      (∀ b, bufRead t.inb b = if sp = .inp ∧ b = a then v else bufRead s.inb b) ∧
      (∀ b, bufRead t.bsb b = if sp = .bsb ∧ b = a then v else bufRead s.bsb b) ∧
      t = { s with pending := rest, inb := t.inb, bsb := t.bsb }) ∧
  (∀ (s : State) (sp : WordSpace) (a : Nat) (v : Word) (rest : List HostMove),
    s.pending = .wordWrite sp a v :: rest → a < wordSpaceSize sp s → freqWf s.freq = true →
    ∃ t, step s = .next t ∧
      (∀ b, freqRead t.freq b = if sp = .freq ∧ b = a then v else freqRead s.freq b) ∧
      (∀ b, wordRead t.xsym b = if sp = .xsym ∧ b = a then v else wordRead s.xsym b) ∧
      t = { s with pending := rest, freq := t.freq, xsym := t.xsym }) ∧
  (∀ (s : State) (a : Nat) (rest : List HostMove),
    (∀ v, s.pending = .byteWrite .out a v :: rest → step s = .next { s with pending := rest }) ∧
    (∀ v, s.pending = .wordWrite .unit a v :: rest → step s = .next { s with pending := rest }) ∧
    (∀ v, s.pending = .hcodeWrite a v :: rest → step s = .next { s with pending := rest }))

/-- R60: a read, or a write that is not ignored, beyond the size of a space has no cell to reach. That the model
stops there is its choice (log 8). -/
def Obligations.AccessOutsideSpaceFaults : Prop :=
  ∀ (s : State) (a : Nat) (rest : List HostMove),
    (∀ sp, s.cfg.bufCap ≤ a →
      (∀ v, sp ≠ .out → s.pending = .byteWrite sp a v :: rest → step s = .fault (.hostAddressOutsideSpace a)) ∧
      (s.pending = .byteRead sp a :: rest → step s = .fault (.hostAddressOutsideSpace a))) ∧
    (∀ sp size, size = (match sp with
        | .freq => 256
        | .xsym => s.cfg.hufXmax
        | .unit => s.cfg.bufCap) → size ≤ a →
      (∀ v, sp ≠ .unit → s.pending = .wordWrite sp a v :: rest → step s = .fault (.hostAddressOutsideSpace a)) ∧
      (s.pending = .wordRead sp a :: rest → step s = .fault (.hostAddressOutsideSpace a)))

/-! ### Errors -/

/-- R310: the effect of `raise E(info)`, with the codes and classes of R301, R302; nothing else changes. -/
def Obligations.RaiseEffect : Prop :=
  ∀ (e : ErrKind) (info : Nat) (w : Word) (s : State), info < 2 ^ 32 → latched s = false →
    ∃ t, finish w (.raised e info s) = .next t ∧ t.errInfo0.toNat = info ∧ t.errInfo1 = w ∧
      (t.errCode, t.err, t.halt) = (match e with
        | .invalidArgument => (1#8, false, true)
        | .illegalCommand => (2#8, false, true)
        | .unexpectedEnd => (3#8, true, false)
        | .data => (4#8, true, false)
        | .capacity => (5#8, true, false)) ∧
      t = { s with
        errInfo0 := t.errInfo0, errInfo1 := t.errInfo1, errCode := t.errCode, err := t.err, halt := t.halt }

/-- R300: a command always ends, by completing or by raising; none faults or is refused. -/
def Obligations.EveryCommandEnds : Prop := ∀ (i : Instr) (s : State), ∃ t, exec i s = .next t

/-- R304: the complete list of causes. A command other than `SYS.CLRERR` and `SYS.RESET`, run with nothing
latched, leaves the error state as it was or latches one of its listed errors, with its own word in
`ERRINFO1`. The premise is R8's constraint on the configuration. -/
def Obligations.OnlyListedErrors : Prop :=
  ∀ (i : Instr) (s t : State), i ≠ .sysClrerr → i ≠ .sysReset → s.cfg.wf = true → latched s = false →
    exec i s = .next t →
    sameError s t ∨
    ∃ e ∈ mayRaise i, t.errCode = errorCode e ∧ t.err = isClassD e ∧ t.halt = !isClassD e ∧ t.errInfo1 = encode i

/-- R21, R84: no command but `SYS.RESET` changes `ARG0`, `ARG1`; a command that does not list a `RES`
register leaves it; a command that raises leaves both. -/
def Obligations.GeneralRegistersKept : Prop :=
  ∀ (i : Instr) (s t : State), i ≠ .sysReset → s.cfg.wf = true → latched s = false → exec i s = .next t →
    sameArgs s t ∧ (writesRes0 i = false → t.res0 = s.res0) ∧ (writesRes1 i = false → t.res1 = s.res1) ∧
    (latched t = true → sameResults s t)

/-- R313: a precise command that raises changes `STATUS`, `ERRINFO0`, `ERRINFO1` and nothing else; a partial
one can change besides only `OUT`, the unit record and the dictionary, the last two only for
`PYR.COMPRESS` and `PYR.EXPAND`. -/
def Obligations.PreciseAndPartial : Prop :=
  ∀ (i : Instr) (s t : State), s.cfg.wf = true → latched s = false → exec i s = .next t → latched t = true →
    (isPartial i = false → t = { s with
      errInfo0 := t.errInfo0, errInfo1 := t.errInfo1, errCode := t.errCode, err := t.err, halt := t.halt }) ∧
    (isPartial i = true → t = { s with
      errInfo0 := t.errInfo0, errInfo1 := t.errInfo1, errCode := t.errCode, err := t.err, halt := t.halt
      outb := t.outb, outLen := t.outLen, unit := t.unit, unitLen := t.unitLen
      pyrT12 := t.pyrT12, pyrT16 := t.pyrT16, dict := t.dict }) ∧
    (i ≠ .pyrCompress → i ≠ .pyrExpand → sameUnits s t ∧ t.dict = s.dict)

/-! ### Reset -/

/-- R54: every item of state with a reset value has it after hardware reset and after `SYS.RESET`. -/
def Obligations.ResetValues : Prop :=
  ∀ t : State,
    (t = State.reset ∨
      (∃ s : State, ∃ rest, s.pending = .hardReset :: rest ∧ step s = .next t) ∨
      (∃ s : State, s.halt = false ∧ exec .sysReset s = .next t)) →
    t.cfg.wf = true →
    (∀ n, readReg n t = if n = 14 then 8 else if n = 15 ∨ n = 16 then 0xFFFFFFFF else 0) ∧
    t.errCode = 0 ∧ t.err = false ∧ t.halt = false ∧ t.bsByte = 0 ∧ t.bsBit = 0 ∧
    t.inLen = 0 ∧ t.outLen = 0 ∧ t.bsLen = 0 ∧ t.unitLen = 0 ∧
    t.dict = { roots := .nil, count := 0, prio := 0, freeValid := false, freeIdx := 0, dsel := .inSpace } ∧
    t.hroot = none ∧ (∀ sym, cellGet? t.hcode sym = none) ∧ (∀ b, freqRead t.freq b = 0)

/-- R340, R292: hardware reset always completes; `SYS.RESET` does the same except from `HALT`, where it
changes nothing. The waiting moves, the last reply and the parameters are not the block's (log 12). -/
def Obligations.ResetsComplete : Prop :=
  (∀ (s : State) (rest : List HostMove), s.pending = .hardReset :: rest →
    ∃ t, step s = .next t ∧ t.pending = rest ∧ t.reply = s.reply ∧ t.cfg = s.cfg ∧ latched t = false) ∧
  (∀ s : State, s.halt = false →
    ∃ t, exec .sysReset s = .next t ∧ sameHost s t ∧ latched t = false) ∧
  (∀ s : State, s.halt = true → exec .sysReset s = .next s)

/-! ### SYS -/

/-- R290, R291: `SYS.NOP` changes nothing; `SYS.CLRERR` clears `ERR` and `ERRCODE`, and does nothing in the
`HALT` state. -/
def Obligations.SysNopAndClrerr : Prop :=
  encode .sysNop = 0x00000000#32 ∧ (∀ s : State, exec .sysNop s = .next s) ∧
  encode .sysClrerr = 0x01000000#32 ∧
  (∀ s : State, s.halt = true → exec .sysClrerr s = .next s) ∧
  (∀ s : State, s.halt = false → exec .sysClrerr s = .next { s with err := false, errCode := 0 }) ∧
  (∀ s : State, latched s = false → s.errCode = 0 → exec .sysClrerr s = .next s)

/-- R293: `SYS.XCHG` swaps `IN` with `OUT`, all bytes and the lengths, and empties the dictionary; two of them
restore the buffers but not the dictionary. -/
def Obligations.SysXchgSwaps : Prop :=
  encode .sysXchg = 0x03000000#32 ∧
  (∀ s : State, ∃ t, exec .sysXchg s = .next t ∧
    (∀ a, bufRead t.inb a = bufRead s.outb a ∧ bufRead t.outb a = bufRead s.inb a) ∧
    t.inLen = s.outLen ∧ t.outLen = s.inLen ∧
    t.dict = { roots := .nil, count := 0, prio := 0, freeValid := false, freeIdx := 0, dsel := .inSpace } ∧
    t = { s with inb := t.inb, inLen := t.inLen, outb := t.outb, outLen := t.outLen, dict := t.dict } ∧
    ∃ u, exec .sysXchg t = .next u ∧ u = { s with dict := u.dict })

/-! ### BS -/

/-- R131, R132, R133, R137: the commands that read or move the cursor. -/
def Obligations.BsCursorCommands : Prop :=
  encode .bsClear = 0x10000000#32 ∧ encode .bsGetpos = 0x11000000#32 ∧ encode .bsSetpos = 0x12000000#32 ∧
  encode .bsAlign = 0x16000000#32 ∧
  (∀ s : State, exec .bsClear s = .next { s with bsLen := 0, bsByte := 0, bsBit := 0 }) ∧
  (∀ s : State, exec .bsGetpos s = .next { s with res0 := BitVec.ofNat 32 (s.bsByte * 8 + s.bsBit) }) ∧
  (∀ s : State, s.arg0.toNat ≤ 8 * s.cfg.bufCap →
    exec .bsSetpos s = .next { s with bsByte := s.arg0.toNat / 8, bsBit := s.arg0.toNat % 8 }) ∧
  (∀ s : State, 8 * s.cfg.bufCap < s.arg0.toNat →
    exec .bsSetpos s = .next (raise .invalidArgument s.arg0.toNat 0x12000000 s)) ∧
  (∀ s : State, s.bsBit ≠ 0 → exec .bsAlign s = .next { s with bsByte := s.bsByte + 1, bsBit := 0 }) ∧
  (∀ s : State, s.bsBit = 0 → exec .bsAlign s = .next s)

/-- R134, R135, R140: `BS.READ n` and `BS.PEEK n`. The first bit read becomes bit `n-1` of the result, the last
bit 0; `BS.PEEK` leaves the position; `n = 0` answers 0 and never fails. `MAXBITS` is 31, or less in a test
configuration (R8). -/
def Obligations.BsReadAndPeek : Prop :=
  (∀ n, n < 256 → encode (.bsRead n) = BitVec.ofNat 32 (0x13000000 + n) ∧
    encode (.bsPeek n) = BitVec.ofNat 32 (0x14000000 + n)) ∧
  Config.standard.maxBits = 31 ∧
  ∀ (s : State) (n m : Nat), m = s.cfg.maxBits → m ≤ 31 →
    (n = 0 → s.bsBit < 8 →
      exec (.bsRead n) s = .next { s with res0 := 0 } ∧ exec (.bsPeek n) s = .next { s with res0 := 0 }) ∧
    (1 ≤ n → n ≤ m → bitPos s + n ≤ 8 * s.bsLen → ∃ v : Word,
      exec (.bsRead n) s = .next { s with
        res0 := v, bsByte := (bitPos s + n) / 8, bsBit := (bitPos s + n) % 8 } ∧
      exec (.bsPeek n) s = .next { s with res0 := v } ∧
      v.toNat < 2 ^ n ∧ ∀ k, k < n → v.getLsbD (n - 1 - k) = getBit s (bitPos s + k)) ∧
    (m < n →
      exec (.bsRead n) s = .next (raise .invalidArgument n (encode (.bsRead n)) s) ∧
      exec (.bsPeek n) s = .next (raise .invalidArgument n (encode (.bsPeek n)) s)) ∧
    (1 ≤ n → n ≤ m → 8 * s.bsLen < bitPos s + n →
      exec (.bsRead n) s = .next (raise .unexpectedEnd (bitPos s) (encode (.bsRead n)) s) ∧
      exec (.bsPeek n) s = .next (raise .unexpectedEnd (bitPos s) (encode (.bsPeek n)) s))

/-- R136, R130, R140, R351: `BS.WRITE n`. Inside the field a bit is the OR of the old bit and the bit of
`ARG0`, most significant first; every other bit stays; the stream grows with zeros to the last byte
written; bytes of `BSB` beyond that are not touched; `n = 0` does nothing. `MAXBITS` as above. -/
def Obligations.BsWriteResult : Prop :=
  (∀ n, n < 256 → encode (.bsWrite n) = BitVec.ofNat 32 (0x15000000 + n)) ∧
  Config.standard.maxBits = 31 ∧
  ∀ (s : State) (n m : Nat), m = s.cfg.maxBits → m ≤ 31 →
    (n = 0 → bitPos s ≤ 8 * s.cfg.bufCap → exec (.bsWrite n) s = .next s) ∧
    (1 ≤ n → n ≤ m → bitPos s + n ≤ 8 * s.cfg.bufCap → ∃ t, exec (.bsWrite n) s = .next t ∧
      bitPos t = bitPos s + n ∧ t.bsBit < 8 ∧ t.bsLen = max s.bsLen ((bitPos s + n + 7) / 8) ∧
      (∀ k, k < n → bitAt t (bitPos s + k) = (bitAt s (bitPos s + k) || s.arg0.getLsbD (n - 1 - k))) ∧
      (∀ q, q < bitPos s ∨ bitPos s + n ≤ q → bitAt t q = bitAt s q) ∧
      (∀ a, t.bsLen ≤ a → bufRead t.bsb a = bufRead s.bsb a) ∧
      t = { s with bsb := t.bsb, bsLen := t.bsLen, bsByte := t.bsByte, bsBit := t.bsBit }) ∧
    (m < n → exec (.bsWrite n) s = .next (raise .invalidArgument n (encode (.bsWrite n)) s)) ∧
    (n ≤ m → 8 * s.cfg.bufCap < bitPos s + n →
      exec (.bsWrite n) s = .next (raise .capacity (bitPos s) (encode (.bsWrite n)) s))

/-- R138, R139: `BS.READBYTE` reads the byte at the aligned position; `BS.WRITEBYTE` ORs the low byte of `ARG0`
in there. On an error neither moves the position. -/
def Obligations.BsByteCommands : Prop :=
  encode .bsReadbyte = 0x17000000#32 ∧ encode .bsWritebyte = 0x18000000#32 ∧
  ∀ (s : State) (k : Nat), k = (bitPos s + 7) / 8 →
    (k < s.bsLen → exec .bsReadbyte s = .next { s with
      res0 := (bufRead s.bsb k).setWidth 32, bsByte := k + 1, bsBit := 0 }) ∧
    (s.bsLen ≤ k → exec .bsReadbyte s = .next (raise .unexpectedEnd (bitPos s) 0x17000000 s)) ∧
    (k < s.cfg.bufCap → ∃ t, exec .bsWritebyte s = .next t ∧
      t.bsByte = k + 1 ∧ t.bsBit = 0 ∧ t.bsLen = max s.bsLen (k + 1) ∧
      bufRead t.bsb k = (if k < s.bsLen then bufRead s.bsb k else 0) ||| s.arg0.setWidth 8 ∧
      (∀ a, a ≠ k → bufRead t.bsb a = if s.bsLen ≤ a ∧ a < k then 0 else bufRead s.bsb a) ∧
      t = { s with bsb := t.bsb, bsLen := t.bsLen, bsByte := t.bsByte, bsBit := t.bsBit }) ∧
    (s.cfg.bufCap ≤ k → exec .bsWritebyte s = .next (raise .capacity (bitPos s) 0x18000000 s))

/-- R141: bit-stream fidelity, from `BS.CLEAR` in any unlatched state, for every sequence of fields. -/
def Obligations.BitStreamFidelity : Prop :=
  ∀ (s s0 t : State) (l : List (Nat × Word)), s.cfg.wf = true → latched s = false → exec .bsClear s = .next s0 →
    writeFields l s0 = some t →
    ∃ u, readFields (l.map Prod.fst) (setPos 0 t) =
        some (l.map fun f => BitVec.ofNat 32 (f.2.toNat % 2 ^ f.1), u) ∧
      bitPos u = (l.map Prod.fst).sum

/-! ### DICT -/

/-- R164, R166: `DICT.CLEAR sel` makes an empty dictionary over the selected space; when `DICT.INSERT` raises on
its arguments, and that it completes otherwise, changing the dictionary and `RES0` alone. -/
def Obligations.DictClearAndArguments : Prop :=
  (∀ sel, sel < 256 → encode (.dictClear sel) = BitVec.ofNat 32 (0x20000000 + sel)) ∧
  (∀ (s : State) (sel : Nat), sel ≤ 1 → exec (.dictClear sel) s = .next { s with
    dict := { roots := .nil, count := 0, prio := 0, freeValid := false, freeIdx := 0
              dsel := if sel = 0 then .inSpace else .outSpace } }) ∧
  (∀ (s : State) (sel : Nat), 1 < sel →
    exec (.dictClear sel) s = .next (raise .invalidArgument sel (encode (.dictClear sel)) s)) ∧
  (∀ s : State, dataLen s ≤ s.arg0.toNat ∨ s.arg1 = 0 →
    exec .dictInsert s = .next (raise .invalidArgument s.arg0.toNat 0x21000000 s)) ∧
  (∀ s : State, s.arg0.toNat < dataLen s → s.arg1 ≠ 0 →
    ∃ d i, exec .dictInsert s = .next { s with dict := d, res0 := toWord i })

/-- R167, R187: the exact hit. Nothing is created or evicted, the index is returned, the entries whose
strings are prefixes are touched shortest first. -/
def Obligations.DictInsertExactHit : Prop :=
  ∀ (s : State) (str : List Byte) (i q : Nat), dictWf s.cfg.cap s.dict = true →
    s.arg0.toNat < dataLen s → s.arg1 ≠ 0 → str = dataSlice s.arg0.toNat s.arg1.toNat s →
    (i, str, q) ∈ flat s.dict →
    ∃ d, exec .dictInsert s = .next { s with dict := d, res0 := toWord i } ∧
      d = { s.dict with roots := d.roots, prio := d.prio } ∧
      (∀ u, sameIndex s.dict d u) ∧ (∀ u, ¬ u <+: str → sameEntry s.dict d u) ∧ touchedFrom s.dict.prio str d

/-- R168 to R171, R187: an insert of a new string into a dictionary with room. The index is the freed one or
the next dense one; every other entry keeps its index, and its priority when its string is no prefix;
the new entry is touched last. -/
def Obligations.DictInsertNewEntry : Prop :=
  ∀ (s : State) (str : List Byte) (idx : Nat), s.cfg.wf = true → dictWf s.cfg.cap s.dict = true →
    s.arg0.toNat < dataLen s → s.arg1 ≠ 0 → str = dataSlice s.arg0.toNat s.arg1.toNat s →
    (∀ e ∈ flat s.dict, e.2.1 ≠ str) → s.dict.count < s.cfg.cap →
    idx = (if s.dict.freeValid then s.dict.freeIdx else s.dict.count) →
    ∃ d q, exec .dictInsert s = .next { s with dict := d, res0 := toWord idx } ∧
      d.count = s.dict.count + 1 ∧ d.freeValid = false ∧ d.freeIdx = 0 ∧ d.dsel = s.dict.dsel ∧
      (∀ e ∈ flat s.dict, e.1 ≠ idx) ∧
      (idx, str, q) ∈ flat d ∧ (∀ e ∈ flat d, e.2.1 = str → e = (idx, str, q)) ∧
      (∀ u, u ≠ str → sameIndex s.dict d u) ∧ (∀ u, ¬ u <+: str → sameEntry s.dict d u) ∧
      touchedFrom s.dict.prio str d ∧ (∀ e ∈ flat d, e.2.1 ≠ str → e.2.2 < q)

/-- R163, R168, R169, R180, R187: an insert of a new string into a full dictionary evicts first and reuses the
index; then the entries whose strings are prefixes are touched shortest first, the new one last. -/
def Obligations.DictInsertEvictsWhenFull : Prop :=
  ∀ (s : State) (str v : List Byte) (f : Nat), s.cfg.wf = true → dictWf s.cfg.cap s.dict = true →
    s.arg0.toNat < dataLen s → s.arg1 ≠ 0 → str = dataSlice s.arg0.toNat s.arg1.toNat s →
    (∀ e ∈ flat s.dict, e.2.1 ≠ str) → s.dict.count = s.cfg.cap → victimEntry s.dict f v →
    ∃ d q, exec .dictInsert s = .next { s with dict := d, res0 := toWord f } ∧
      d.count = s.cfg.cap ∧ d.freeValid = false ∧ d.freeIdx = 0 ∧ d.dsel = s.dict.dsel ∧
      (f, str, q) ∈ flat d ∧ (∀ e ∈ flat d, e.2.1 ≠ v) ∧
      (∀ u, u ≠ str → u ≠ v → sameIndex s.dict d u) ∧ (∀ u, ¬ u <+: str → u ≠ v → sameEntry s.dict d u) ∧
      touchedFrom s.dict.prio str d ∧ (∀ e ∈ flat d, e.2.1 ≠ str → e.2.2 < q)

/-- R175 to R177, R187: `DICT.FIND` answers the entry with the longest string that is a prefix of the data at
the offset, or -1; it changes priorities alone, of prefixes alone. -/
def Obligations.DictFindLongest : Prop :=
  ∀ s : State, dictWf s.cfg.cap s.dict = true →
    (dataLen s ≤ s.arg0.toNat → exec .dictFind s = .next { s with res0 := 0xFFFFFFFF, res1 := 0 }) ∧
    (s.arg0.toNat < dataLen s → ∀ str, str = slice (dataBuf s) s.arg0.toNat (dataLen s - s.arg0.toNat) →
      ∃ d, d = { s.dict with roots := d.roots, prio := d.prio } ∧
        (∀ u, sameIndex s.dict d u) ∧ (∀ u, ¬ u <+: str → sameEntry s.dict d u) ∧ touchedFrom s.dict.prio str d ∧
        (∀ i u q, (i, u, q) ∈ flat s.dict → u <+: str → (∀ e ∈ flat s.dict, e.2.1 <+: str → e.2.1.length ≤ u.length) →
          exec .dictFind s = .next { s with dict := d, res0 := toWord i, res1 := toWord u.length }) ∧
        ((∀ e ∈ flat s.dict, ¬ e.2.1 <+: str) →
          exec .dictFind s = .next { s with dict := d, res0 := 0xFFFFFFFF, res1 := 0 }))

/-- R180 to R184, R187: `DICT.FREE`. It raises unless the dictionary is full; otherwise exactly the victim's
entry goes, every other entry keeps index, string and priority. -/
def Obligations.DictFreeEvictsLowest : Prop :=
  ∀ s : State,
    (s.dict.count ≠ s.cfg.cap → exec .dictFree s = .next (raise .invalidArgument s.dict.count 0x23000000 s)) ∧
    (∀ f v, s.cfg.wf = true → dictWf s.cfg.cap s.dict = true → s.dict.count = s.cfg.cap → victimEntry s.dict f v →
      ∃ d, exec .dictFree s = .next { s with dict := d, res0 := toWord f } ∧
        d = { s.dict with roots := d.roots, count := s.cfg.cap - 1, freeValid := true, freeIdx := f } ∧
        ∀ e, e ∈ flat d ↔ e ∈ flat s.dict ∧ e.2.1 ≠ v)

/-- R181, R182, R185: a dictionary with an entry has a victim, and only one. -/
def Obligations.DictVictimExists : Prop :=
  ∀ (cap : Nat) (d : Dict), dictWf cap d = true → 0 < d.count →
    (∃ f v, victimEntry d f v) ∧
    ∀ f v f' v', victimEntry d f v → victimEntry d f' v' → f = f' ∧ v = v'

/-- R46 (e), R186: the bound on the number of nodes. -/
def Obligations.DictNodeBound : Prop :=
  ∀ (cap : Nat) (d : Dict), dictWf cap d = true →
    d.count ≤ cap ∧ (d.count = 0 → nodeCount d.roots = 0) ∧ (0 < d.count → nodeCount d.roots ≤ 2 * d.count - 1)

/-- R153, R46 (g): the `DICT` commands keep every label inside an occurrence of its whole path in `DATA`. -/
def Obligations.DictKeepsWindows : Prop :=
  ∀ (i : Instr) (s t : State), s.cfg.wf = true → dictWf s.cfg.cap s.dict = true → dictCoherent s = true →
    (∃ sel, i = .dictClear sel) ∨ i = .dictInsert ∨ i = .dictFind ∨ i = .dictFree → exec i s = .next t →
    dictCoherent t = true

/-! ### PYR -/

/-- R201, R202: `PYR.COMPRESS` completes whenever three bytes for each input byte fit in `OUT`; it records
no more units than bytes; what it changes. R100 to R109, R205, R206: whenever it completes, `OUT` is the Pyr
stream of the units it has recorded. -/
def Obligations.PyrCompressCompletes : Prop :=
  (∀ s : State, s.cfg.wf = true → 3 * s.inLen ≤ s.cfg.bufCap →
    ∃ t, exec .pyrCompress s = .next t ∧ t.res0 = toWord t.outLen ∧ t.res1 = toWord t.unitLen ∧
      t.unitLen ≤ s.inLen ∧ t.outLen ≤ 3 * s.inLen ∧ (s.inLen = 0 → t.outLen = 0 ∧ t.unitLen = 0) ∧
      t.dict.dsel = .inSpace ∧ dictWf s.cfg.cap t.dict = true ∧
      (∀ a, t.outLen ≤ a → bufRead t.outb a = bufRead s.outb a) ∧
      (∀ k, t.unitLen ≤ k → wordRead t.unit k = wordRead s.unit k) ∧
      t = { s with
        res0 := t.res0, res1 := t.res1, outb := t.outb, outLen := t.outLen, unit := t.unit, unitLen := t.unitLen
        pyrT12 := t.pyrT12, pyrT16 := t.pyrT16, dict := t.dict }) ∧
  ∀ s t : State, s.cfg.wf = true → latched s = false → exec .pyrCompress s = .next t → latched t = false →
    outputBytes t = pyrStream ((List.range t.unitLen).map fun k => wordUnit (wordRead t.unit k))

/-- R207: the first two input bytes are literals; with two bytes of input the dictionary then holds just the
2-byte entry, with one byte it is empty. R202: the third unit is the token of that entry where the next two
bytes are the first two again, else a literal. And all units: pass 1 records what the scan with `DICT.FIND` and
`DICT.INSERT` gives, a token of the longest entry wherever there is one, and leaves that scan's dictionary
(`DictFindLongest` and the `DictInsert…` statements say what the commands do to the flat dictionary). -/
def Obligations.PyrFirstTwoLiterals : Prop :=
  (∀ s t : State, s.cfg.wf = true → latched s = false → exec .pyrCompress s = .next t → latched t = false →
    (1 ≤ s.inLen → 1 ≤ t.unitLen ∧ wordRead t.unit 0 = 0x00080000#32 ||| (bufRead s.inb 0).setWidth 32) ∧
    (2 ≤ s.inLen → 2 ≤ t.unitLen ∧ wordRead t.unit 1 = 0x00080000#32 ||| (bufRead s.inb 1).setWidth 32) ∧
    (s.inLen = 1 → flat t.dict = []) ∧
    (s.inLen = 2 → ∃ q, flat t.dict = [(0, [bufRead s.inb 0, bufRead s.inb 1], q)]) ∧
    (3 ≤ s.inLen → 3 ≤ t.unitLen ∧ wordRead t.unit 2 =
      if 4 ≤ s.inLen ∧ bufRead s.inb 2 = bufRead s.inb 0 ∧ bufRead s.inb 3 = bufRead s.inb 1 then 0x80080000#32
      else 0x00080000#32 ||| (bufRead s.inb 2).setWidth 32)) ∧
  ∀ s t : State, s.cfg.wf = true → boundsWf s = true → latched s = false → exec .pyrCompress s = .next t →
    ∃ units u, scanAll s = some (units, u) ∧ t.dict = u.dict ∧
      ((List.range t.unitLen).map fun k => wordUnit (wordRead t.unit k)) = units.map Prod.fst

/-- R203, R204: in the unit record `PYR.COMPRESS` leaves, the width of a token is 8 before `PYR_T12`, 12 from
there to `PYR_T16`, 16 from there on; the index fits the width; a literal has width 8. The two registers are the
numbers of the first units that start with more than `T12` and more than `T16` entries (the entries as the scan
by `DICT` commands has them), `NONE32` where there is none, as when no more entries are left at the end. -/
def Obligations.PyrTransitionPoints : Prop :=
  ∀ (s t : State), s.cfg.wf = true → boundsWf s = true → latched s = false → exec .pyrCompress s = .next t →
    (∀ k, k < t.unitLen →
      ((wordUnit (wordRead t.unit k)).isTok = true →
        (wordUnit (wordRead t.unit k)).width =
          (if k < t.pyrT12.toNat then 8 else if k < t.pyrT16.toNat then 12 else 16) ∧
        (wordUnit (wordRead t.unit k)).value < 2 ^ (wordUnit (wordRead t.unit k)).width) ∧
      ((wordUnit (wordRead t.unit k)).isTok = false →
        (wordUnit (wordRead t.unit k)).width = 8 ∧ (wordUnit (wordRead t.unit k)).value < 256)) ∧
    (∃ units u, scanAll s = some (units, u) ∧ t.unitLen = units.length ∧
      t.pyrT12 = firstAbove s.cfg.t12 (units.map Prod.snd) ∧ t.pyrT16 = firstAbove s.cfg.t16 (units.map Prod.snd)) ∧
    (t.dict.count ≤ s.cfg.t12 → t.pyrT12 = 0xFFFFFFFF) ∧ (t.dict.count ≤ s.cfg.t16 → t.pyrT16 = 0xFFFFFFFF)

/-- R102, R110, R210, R211: a stream of Header0 groups of literals expands to the literals. -/
def Obligations.PyrExpandLiteralGroups : Prop :=
  ∀ (s : State) (gs : List (List Byte)), s.cfg.wf = true → (∀ g ∈ gs, g.length ≤ 14) →
    inputBytes s = (gs.map fun g => BitVec.ofNat 8 g.length :: g).flatten → gs.flatten.length ≤ s.cfg.bufCap →
    ∃ t, exec .pyrExpand s = .next t ∧ outputBytes t = gs.flatten ∧ t.outLen = gs.flatten.length ∧
      t.res0 = toWord t.outLen ∧ t.res1 = toWord t.unitLen ∧ t.unitLen = t.outLen ∧
      (∀ k, k < t.unitLen → wordRead t.unit k = 0x00080000#32 ||| (bufRead t.outb k).setWidth 32) ∧
      t.dict.dsel = .outSpace ∧
      (∀ a, t.outLen ≤ a → bufRead t.outb a = bufRead s.outb a) ∧
      (∀ k, t.unitLen ≤ k → wordRead t.unit k = wordRead s.unit k) ∧
      t = { s with
        res0 := t.res0, res1 := t.res1, outb := t.outb, outLen := t.outLen, unit := t.unit, unitLen := t.unitLen
        pyrT12 := t.pyrT12, pyrT16 := t.pyrT16, dict := t.dict }

/-- R210, R216: three ends of a stream. A token field before any index is assigned is `Data` at its first
byte; a Header0 group whose literals are missing is `UnexpectedEnd` at the end of the input; a Header1
header with no unit after it is accepted (R214). -/
def Obligations.PyrExpandStreamEnds : Prop :=
  ∀ (s : State) (h : Byte), s.cfg.wf = true →
    (2 ≤ s.inLen → bufRead s.inb 0 = h → h.extractLsb' 6 2 = 3#2 → ∃ t, exec .pyrExpand s = .next t ∧
      (latched s = false → t.errCode = 4 ∧ t.err = true ∧ t.errInfo0 = 1 ∧ t.errInfo1 = 0x31000000) ∧ t.outLen = 0) ∧
    (s.inLen = 1 → bufRead s.inb 0 = h → h.getLsbD 7 = false → h.extractLsb' 0 4 ≠ 0#4 →
      ∃ t, exec .pyrExpand s = .next t ∧
        (latched s = false → t.errCode = 3 ∧ t.err = true ∧ t.errInfo0 = 1) ∧ t.outLen = 0) ∧
    (s.inLen = 1 → bufRead s.inb 0 = h → h.getLsbD 7 = true →
      ∃ t, exec .pyrExpand s = .next t ∧ sameError s t ∧ t.res0 = 0 ∧ t.res1 = 0 ∧ t.outLen = 0)

/-- R215: the round trip. `PYR.COMPRESS` that fits, `SYS.XCHG`, `PYR.EXPAND` gives the input back, with the
same unit record and transition points. -/
def Obligations.PyrRoundTrip : Prop :=
  ∀ s t u : State, s.cfg.wf = true → boundsWf s = true → latched s = false →
    exec .pyrCompress s = .next t → latched t = false → exec .sysXchg t = .next u →
    ∃ v, exec .pyrExpand u = .next v ∧ latched v = false ∧ outputBytes v = inputBytes s ∧
      v.unitLen = t.unitLen ∧ v.pyrT12 = t.pyrT12 ∧ v.pyrT16 = t.pyrT16 ∧
      ∀ k, k < t.unitLen → wordRead v.unit k = wordRead t.unit k

/-- R115, R117, R230: a match stream of full literal groups decodes to the literals, using all of it. -/
def Obligations.PyrMatchdecLiterals : Prop :=
  ∀ (s : State) (gs : List (List Byte)), (∀ g ∈ gs, g.length = 8) →
    inputBytes s = (gs.map fun g => 0xFF#8 :: g).flatten → s.arg0.toNat = 8 * gs.length →
    s.arg0.toNat ≤ s.cfg.bufCap →
    ∃ t, exec .pyrMatchdec s = .next t ∧ outputBytes t = gs.flatten ∧ t.outLen = s.arg0.toNat ∧
      t.res0 = s.arg0 ∧ t.res1 = toWord s.inLen ∧
      (∀ a, t.outLen ≤ a → bufRead t.outb a = bufRead s.outb a) ∧
      t = { s with res0 := t.res0, res1 := t.res1, outb := t.outb, outLen := t.outLen }

/-- R116, R232, R353: a match after one literal; with the offset 1 the copy repeats the byte it has just
written. R115, R117, R230: and every stream that decodes: flag bytes with 8 units each, then a flag byte with the
last 1 to 8 units, literals and matches in any order, at any offset into the output. The bits of the last
flag byte beyond its units and the input after them are ignored. -/
def Obligations.PyrMatchdecOverlap : Prop :=
  (∀ (s : State) (x : Byte) (n : Nat), n < 16 → 4 ≤ s.inLen →
    slice s.inb 0 4 = [0x80#8, x, BitVec.ofNat 8 n, 1#8] → s.arg0.toNat = n + 4 → n + 4 ≤ s.cfg.bufCap →
    ∃ t, exec .pyrMatchdec s = .next t ∧ outputBytes t = List.replicate (n + 4) x ∧ t.outLen = n + 4 ∧
      t.res0 = s.arg0 ∧ t.res1 = 4 ∧
      t = { s with res0 := t.res0, res1 := t.res1, outb := t.outb, outLen := t.outLen }) ∧
  (∀ (s : State) (gs : List (Byte × List MatchItem)) (f : Byte) (us : List MatchItem) (stream out rest : List Byte),
    fullGroups gs → flagFits f us → us ≠ [] → stream = groupsBytes gs ++ flagGroup f us →
    inputBytes s = stream ++ rest → decodeItems (groupsItems gs ++ us) = some out →
    s.arg0.toNat = out.length → s.arg0.toNat ≤ s.cfg.bufCap →
    ∃ t, exec .pyrMatchdec s = .next t ∧ outputBytes t = out ∧ t.outLen = s.arg0.toNat ∧ t.res0 = s.arg0 ∧
      t.res1 = toWord stream.length ∧ (∀ a, t.outLen ≤ a → bufRead t.outb a = bufRead s.outb a) ∧
      t = { s with res0 := t.res0, res1 := t.res1, outb := t.outb, outLen := t.outLen })

/-- R230, R232, R233: the errors of `PYR.MATCHDEC`: its argument; an input that ends; a first unit that is a
match, whose offset reaches before the output. And after any output: the input ends where a flag byte, a
literal or a match is needed, or inside a match (`UnexpectedEnd`); a match has the offset 0, reaches before the
output or goes beyond `ARG0` (`Data`). The output made so far stays. -/
def Obligations.PyrMatchdecErrors : Prop :=
  (∀ s : State,
    (s.cfg.bufCap < s.arg0.toNat → exec .pyrMatchdec s = .next (raise .invalidArgument s.arg0.toNat 0x32000000 s)) ∧
    (0 < s.arg0.toNat → s.arg0.toNat ≤ s.cfg.bufCap → s.inLen = 0 →
      exec .pyrMatchdec s = .next (raise .unexpectedEnd 0 0x32000000 { s with outLen := 0 })) ∧
    (0 < s.arg0.toNat → s.arg0.toNat ≤ s.cfg.bufCap → 3 ≤ s.inLen → (bufRead s.inb 0).getLsbD 7 = false →
      exec .pyrMatchdec s = .next (raise .data 1 0x32000000 { s with outLen := 0 })) ∧
    (s.arg0 = 0 → exec .pyrMatchdec s = .next { s with outLen := 0, res0 := 0, res1 := 0 })) ∧
  (∀ (s : State) (gs : List (Byte × List MatchItem)) (f : Byte) (us : List MatchItem) (read out tail : List Byte),
    fullGroups gs → flagFits f us → us.length < 8 → decodeItems (groupsItems gs ++ us) = some out →
    out.length < s.arg0.toNat → s.arg0.toNat ≤ s.cfg.bufCap → read = groupsBytes gs ++ flagGroup f us →
    (us = [] → inputBytes s = groupsBytes gs → ∃ t, exec .pyrMatchdec s =
        .next (raise .unexpectedEnd (groupsBytes gs).length 0x32000000 t) ∧ outputBytes t = out ∧
      t = { s with outb := t.outb, outLen := out.length }) ∧
    (inputBytes s = read ++ tail → tail = [] ∨ (tail.length = 1 ∧ f.getLsbD (7 - us.length) = false) →
      ∃ t, exec .pyrMatchdec s = .next (raise .unexpectedEnd read.length 0x32000000 t) ∧ outputBytes t = out ∧
        t = { s with outb := t.outb, outLen := out.length }) ∧
    (∀ (first second : Byte), inputBytes s = read ++ first :: second :: tail → f.getLsbD (7 - us.length) = false →
      copyOffset first second = 0 ∨ out.length < copyOffset first second ∨
        s.arg0.toNat < out.length + copyLength first →
      ∃ t, exec .pyrMatchdec s = .next (raise .data read.length 0x32000000 t) ∧ outputBytes t = out ∧
        t = { s with outb := t.outb, outLen := out.length }))

/-! ### HUF -/

/-- R250 to R257: `HUF.BUILD` with a legal list of extra symbols. It always completes; exactly the bytes with
a count and the extra symbols get codes; `RES0` and `HUF_INFO` count them; the inputs stay. The tree is the one
R252, R254, R255 make: leaves of weight `count·(count+1)` and `value²`, sorted stably, the two lowest merged
until one is left; the codes are its root paths, 0 to the left (R256). -/
def Obligations.HufBuildCodes : Prop :=
  ∀ s : State, s.hufNx.toNat ≤ s.cfg.hufXmax →
    (∀ i, i < s.hufNx.toNat → 255 < (wordRead s.xsym i).toNat ∧ (wordRead s.xsym i).toNat ≤ 65535) →
    (∀ i j, i < j → j < s.hufNx.toNat → wordRead s.xsym i ≠ wordRead s.xsym j) →
    ∃ t n, exec .hufBuild s = .next t ∧
      n = ((List.range 256).filter fun b => decide (freqRead s.freq b ≠ 0)).length + s.hufNx.toNat ∧
      t.res0 = toWord n ∧ t.hufInfo = toWord (n + if 1 ≤ n then 2 ^ 31 else 0) ∧
      (∀ v, (cellGet? t.hcode v).isSome = true ↔
        (v < 256 ∧ freqRead s.freq v ≠ 0) ∨ ∃ i, i < s.hufNx.toNat ∧ (wordRead s.xsym i).toNat = v) ∧
      (n = 0 → t.hroot = none) ∧ (∀ v c, n = 1 → cellGet? t.hcode v = some c → c = []) ∧
      (∀ v c, 1 ≤ n → cellGet? t.hcode v = some c → c.length ≤ n - 1) ∧
      (∀ sequence : List HufTree,
        sequence = (((List.range 256).filter fun b => decide (freqRead s.freq b ≠ 0)).map fun b =>
            .leaf b ((freqRead s.freq b).toNat * ((freqRead s.freq b).toNat + 1))) ++
          ((List.range s.hufNx.toNat).map fun i => .leaf (wordRead s.xsym i).toNat ((wordRead s.xsym i).toNat ^ 2)) →
        ∃ leaves, stablySorted sequence leaves ∧ MergesTo leaves t.hroot) ∧
      (∀ v c, cellGet? t.hcode v = some c ↔ ∃ r, t.hroot = some r ∧ (v, c) ∈ treeCodes [] r) ∧
      t = { s with res0 := t.res0, hroot := t.hroot, hcode := t.hcode, hufInfo := t.hufInfo }

/-- R253: the checks of the extra-symbol list, in their order. -/
def Obligations.HufBuildChecks : Prop :=
  ∀ s : State,
    (s.cfg.hufXmax < s.hufNx.toNat →
      exec .hufBuild s = .next (raise .invalidArgument s.hufNx.toNat 0x40000000 s)) ∧
    (∀ i, s.hufNx.toNat ≤ s.cfg.hufXmax → i < s.hufNx.toNat →
      ((wordRead s.xsym i).toNat ≤ 255 ∨ 65535 < (wordRead s.xsym i).toNat ∨
        ∃ j, j < i ∧ wordRead s.xsym j = wordRead s.xsym i) →
      (∀ k, k < i → 255 < (wordRead s.xsym k).toNat ∧ (wordRead s.xsym k).toNat ≤ 65535 ∧
        ∀ j, j < k → wordRead s.xsym j ≠ wordRead s.xsym k) →
      exec .hufBuild s = .next (raise .invalidArgument i 0x40000000 s))

/-- R260: no generated code is a bit-prefix of another generated code. -/
def Obligations.HufPrefixFree : Prop :=
  ∀ (s t : State) (a b : Nat) (c d : List Bool), latched s = false → exec .hufBuild s = .next t → latched t = false →
    cellGet? t.hcode a = some c → cellGet? t.hcode b = some d → a ≠ b → ¬ c <+: d

/-- R258: `HUF.ENCODE` puts the bits of the code into `BSB` as `BS.WRITE` would; both errors come before. -/
def Obligations.HufEncodeWrites : Prop :=
  encode .hufEncode = 0x41000000#32 ∧
  ∀ s : State,
    (∀ c, s.arg0.toNat ≤ 65535 → cellGet? s.hcode s.arg0.toNat = some c → bitPos s + c.length ≤ 8 * s.cfg.bufCap →
      ∃ t, exec .hufEncode s = .next t ∧ t.res0 = toWord c.length ∧ bitPos t = bitPos s + c.length ∧
        t.bsLen = (if c = [] then s.bsLen else max s.bsLen ((bitPos s + c.length + 7) / 8)) ∧
        (∀ k, k < c.length → bitAt t (bitPos s + k) = (bitAt s (bitPos s + k) || (c)[k]?.getD false)) ∧
        (∀ q, q < bitPos s ∨ bitPos s + c.length ≤ q → bitAt t q = bitAt s q) ∧
        (∀ a, t.bsLen ≤ a → bufRead t.bsb a = bufRead s.bsb a) ∧
        t = { s with res0 := t.res0, bsb := t.bsb, bsLen := t.bsLen, bsByte := t.bsByte, bsBit := t.bsBit }) ∧
    (65535 < s.arg0.toNat ∨ cellGet? s.hcode s.arg0.toNat = none →
      exec .hufEncode s = .next (raise .invalidArgument s.arg0.toNat 0x41000000 s)) ∧
    (∀ c, s.arg0.toNat ≤ 65535 → cellGet? s.hcode s.arg0.toNat = some c → 8 * s.cfg.bufCap < bitPos s + c.length →
      exec .hufEncode s = .next (raise .capacity (bitPos s) 0x41000000 s))

/-- R259: `HUF.DECODE` never raises. Where the stream at the position holds the code of a symbol it answers
that symbol and moves past the code; with no tree it answers `NO_VALUE` and consumes nothing; when the
stream ends first it answers `NO_VALUE` with the bits read consumed. At or beyond the end (R354) it answers
`NO_VALUE` at once and stays; a tree of one leaf answers its symbol at every position. -/
def Obligations.HufDecodeResult : Prop :=
  ∀ s : State,
    (s.hroot = none → exec .hufDecode s = .next { s with res0 := 0xFFFFFFFF, res1 := 0 }) ∧
    (∀ v c, hufWf s = true → s.bsBit < 8 → cellGet? s.hcode v = some c → bitPos s + c.length ≤ 8 * s.bsLen →
      (∀ k, k < c.length → (c)[k]? = some (getBit s (bitPos s + k))) →
      exec .hufDecode s = .next { s with
        res0 := toWord v, res1 := toWord c.length
        bsByte := (bitPos s + c.length) / 8, bsBit := (bitPos s + c.length) % 8 }) ∧
    (hufWf s = true → s.bsBit < 8 → s.hroot ≠ none → bitPos s ≤ 8 * s.bsLen →
      (∀ v c, cellGet? s.hcode v = some c → bitPos s + c.length ≤ 8 * s.bsLen →
        ∃ k, k < c.length ∧ (c)[k]? ≠ some (getBit s (bitPos s + k))) →
      exec .hufDecode s = .next { s with
        res0 := 0xFFFFFFFF, res1 := toWord (8 * s.bsLen - bitPos s), bsByte := s.bsLen, bsBit := 0 }) ∧
    (∀ w l r, s.hroot = some (.inner w l r) → s.bsBit < 8 → 8 * s.bsLen ≤ bitPos s →
      exec .hufDecode s = .next { s with res0 := 0xFFFFFFFF, res1 := 0 }) ∧
    (∀ v w, s.hroot = some (.leaf v w) → s.bsBit < 8 →
      exec .hufDecode s = .next { s with res0 := toWord v, res1 := 0 })

/-- R261: encode-then-decode. From a position with only zeros or nothing after it, with the table of a build:
the symbols come back in order. -/
def Obligations.HufRoundTrip : Prop :=
  ∀ (s t : State) (l : List Nat), hufWf s = true → s.bsBit < 8 → latched s = false →
    (∀ q, bitPos s ≤ q → bitAt s q = false) → encodeSymbols l s = some t →
    ∃ u, decodeSymbols l.length (setPos (bitPos s) t) = some (l.map toWord, u) ∧ bitPos u = bitPos t

/-! ### RLE0 -/

/-- R280: the compressed form, over the maximal zero runs of the input: `r` zeros before each non-zero byte
`b`, and `z` zeros at the end. A run is written as full chunks of 256 first, then the shorter rest. -/
def Obligations.RleCompressOutput : Prop :=
  encode .rle0Compress = 0x50000000#32 ∧
  ∀ (s : State) (runs : List (Nat × Byte)) (z : Nat) (pairs : Nat → List Byte) (out : List Byte),
    (∀ r, pairs r = (List.replicate (r / 256) [0#8, 0xFF#8]).flatten ++
      if r % 256 = 0 then [] else [0#8, BitVec.ofNat 8 (r % 256 - 1)]) →
    (∀ p ∈ runs, p.2 ≠ 0) →
    inputBytes s = (runs.map fun p => List.replicate p.1 0#8 ++ [p.2]).flatten ++ List.replicate z 0#8 →
    out = (runs.map fun p => pairs p.1 ++ [p.2]).flatten ++ pairs z →
    (out.length ≤ s.cfg.bufCap → ∃ t, exec .rle0Compress s = .next t ∧ outputBytes t = out ∧
      t.outLen = out.length ∧ t.res0 = toWord out.length ∧
      (∀ a, t.outLen ≤ a → bufRead t.outb a = bufRead s.outb a) ∧
      t = { s with res0 := t.res0, outb := t.outb, outLen := t.outLen }) ∧
    (s.cfg.bufCap < out.length → ∃ t, exec .rle0Compress s =
        .next (raise .capacity s.cfg.bufCap 0x50000000 t) ∧ outputBytes t = out.take s.cfg.bufCap ∧
      t = { s with outb := t.outb, outLen := s.cfg.bufCap })

/-- R120, R281: the decoder reads literals and pairs; a stream that ends right after a `0x00` raises
`UnexpectedEnd` with everything before it written, one that expands beyond `OUT` raises `Capacity` with
`OUT` full. A pair `(0, n)` stands for `n + 1` zeros. -/
def Obligations.RleDecompressOutput : Prop :=
  encode .rle0Decompress = 0x51000000#32 ∧
  ∀ (s : State) (items : List (Byte ⊕ Byte)) (enc dec : List Byte), (∀ b, .inl b ∈ items → b ≠ 0) →
    enc = (items.map fun x => match x with | .inl b => [b] | .inr n => [0#8, n]).flatten →
    dec = (items.map fun x => match x with | .inl b => [b] | .inr n => List.replicate (n.toNat + 1) 0#8).flatten →
    (dec.length ≤ s.cfg.bufCap → inputBytes s = enc → ∃ t, exec .rle0Decompress s = .next t ∧ outputBytes t = dec ∧ t.outLen = dec.length ∧
      t.res0 = toWord dec.length ∧ (∀ a, t.outLen ≤ a → bufRead t.outb a = bufRead s.outb a) ∧
      t = { s with res0 := t.res0, outb := t.outb, outLen := t.outLen }) ∧
    (dec.length ≤ s.cfg.bufCap → inputBytes s = enc ++ [0#8] → ∃ t, exec .rle0Decompress s =
        .next (raise .unexpectedEnd s.inLen 0x51000000 t) ∧ outputBytes t = dec ∧
      t = { s with outb := t.outb, outLen := dec.length }) ∧
    (s.cfg.bufCap < dec.length → inputBytes s = enc ∨ inputBytes s = enc ++ [0#8] → ∃ t, exec .rle0Decompress s =
        .next (raise .capacity s.cfg.bufCap 0x51000000 t) ∧ outputBytes t = dec.take s.cfg.bufCap ∧
      t = { s with outb := t.outb, outLen := s.cfg.bufCap })

/-- R282: the round trip, and that the compressed form never ends on a lone `0x00`: the decoder accepts it. -/
def Obligations.RleRoundTrip : Prop :=
  ∀ s t u : State, boundsWf s = true → latched s = false → exec .rle0Compress s = .next t → latched t = false →
    exec .sysXchg t = .next u →
    ∃ v, exec .rle0Decompress u = .next v ∧ latched v = false ∧ outputBytes v = inputBytes s

/-! ### Frames of the units -/

/-- R20, R60 ("written by"): a `BS` command changes the bit stream, its cursor, `RES0` and the error state
alone; a `DICT` command the dictionary, the results and the error state; a `HUF` command the tree, the
table, the stream, the results and the error state; a `PYR` or `RLE0` command `OUT`, the results and the error
state, and, for `PYR.COMPRESS` and `PYR.EXPAND`, the units and the dictionary. -/
def Obligations.UnitsChangeTheirOwn : Prop :=
  ∀ (i : Instr) (s t : State), exec i s = .next t →
    ((∃ n, i = .bsRead n ∨ i = .bsPeek n ∨ i = .bsWrite n) ∨ i = .bsClear ∨ i = .bsGetpos ∨ i = .bsSetpos ∨
        i = .bsAlign ∨ i = .bsReadbyte ∨ i = .bsWritebyte →
      sameHost s t ∧ sameSeeds s t ∧ sameIn s t ∧ sameOut s t ∧ t.dict = s.dict ∧ sameUnits s t ∧
        sameHufInputs s t ∧ sameHufTree s t ∧ t.res1 = s.res1) ∧
    ((∃ sel, i = .dictClear sel) ∨ i = .dictInsert ∨ i = .dictFind ∨ i = .dictFree →
      sameHost s t ∧ sameSeeds s t ∧ sameIn s t ∧ sameOut s t ∧ sameStream s t ∧ sameUnits s t ∧
        sameHufInputs s t ∧ sameHufTree s t) ∧
    (i = .hufBuild → sameHost s t ∧ sameSeeds s t ∧ sameIn s t ∧ sameOut s t ∧ sameStream s t ∧ t.dict = s.dict ∧
      sameUnits s t ∧ sameHufInputs s t ∧ t.res1 = s.res1) ∧
    (i = .hufEncode ∨ i = .hufDecode → sameHost s t ∧ sameSeeds s t ∧ sameIn s t ∧ sameOut s t ∧ t.dict = s.dict ∧
      sameUnits s t ∧ sameHufInputs s t ∧ sameHufTree s t) ∧
    (s.cfg.wf = true →
      i = .pyrCompress ∨ i = .pyrExpand ∨ i = .pyrMatchdec ∨ i = .rle0Compress ∨ i = .rle0Decompress →
      sameHost s t ∧ sameSeeds s t ∧ sameArgs s t ∧ sameIn s t ∧ sameStream s t ∧ sameHufInputs s t ∧ sameHufTree s t ∧
        (∀ a, t.outLen ≤ a → bufRead t.outb a = bufRead s.outb a) ∧
        (∀ k, t.unitLen ≤ k → wordRead t.unit k = wordRead s.unit k)) ∧
    (i = .pyrMatchdec ∨ i = .rle0Compress ∨ i = .rle0Decompress → t.dict = s.dict ∧ sameUnits s t) ∧
    (i = .rle0Compress ∨ i = .rle0Decompress → t.res1 = s.res1)

/-! ### Invariants every step keeps -/

/-- R60: every memory stays in its canonical form (log 4). -/
def Obligations.StepKeepsMemory : Prop :=
  ∀ s t : State, s.cfg.wf = true → memoryWf s = true → step s = .next t → memoryWf t = true

/-- R24: `ERRCODE = 0` exactly when `ERR = 0` and `HALT = 0`; `ERR` and `HALT` are never both 1. -/
def Obligations.StepKeepsStatus : Prop :=
  ∀ s t : State, s.cfg.wf = true → statusWf s = true → step s = .next t →
    statusWf t = true ∧ (t.errCode = 0 ↔ t.err = false ∧ t.halt = false) ∧ ¬ (t.err = true ∧ t.halt = true)

/-- R25, R27, R28, R60: lengths up to `BUF_CAP`, the bit index below 8, the position up to `8·BUF_CAP`,
`UNIT_LEN` up to `BUF_CAP`; nothing is stored outside a space. -/
def Obligations.StepKeepsBounds : Prop :=
  ∀ s t : State, s.cfg.wf = true → boundsWf s = true → spacesWf s = true → step s = .next t →
    boundsWf t = true ∧ spacesWf t = true

/-- R45, R46: the invariants (a) to (f) of the dictionary and the distinct priorities. -/
def Obligations.StepKeepsDictionary : Prop :=
  ∀ s t : State, s.cfg.wf = true → dictWf s.cfg.cap s.dict = true → step s = .next t →
    dictWf t.cfg.cap t.dict = true

/-- R50, R51, R31: the code table is the tree's, symbols are distinct and in range, `HUF_INFO` counts them. -/
def Obligations.StepKeepsHuffman : Prop :=
  ∀ s t : State, s.cfg.wf = true → hufWf s = true → step s = .next t → hufWf t = true

/-- The reset state has every invariant, for the parameters of log 2. -/
def Obligations.ResetHasInvariants : Prop := State.reset.wf = true
end

