-- ==== Sys2Proof/Laws/State.lean ====
section
/-! SUPPORT. One lemma per field per named update of the state: no later proof unfolds one of them. -/

namespace Sys2Proof.Machine

/-! ### `setPos` (R28) -/

@[simp] theorem setPos_cfg (p : Nat) (s : State) : (setPos p s).cfg = s.cfg := rfl
@[simp] theorem setPos_err (p : Nat) (s : State) : (setPos p s).err = s.err := rfl
@[simp] theorem setPos_halt (p : Nat) (s : State) : (setPos p s).halt = s.halt := rfl
@[simp] theorem setPos_errCode (p : Nat) (s : State) : (setPos p s).errCode = s.errCode := rfl
@[simp] theorem setPos_errInfo0 (p : Nat) (s : State) : (setPos p s).errInfo0 = s.errInfo0 := rfl
@[simp] theorem setPos_errInfo1 (p : Nat) (s : State) : (setPos p s).errInfo1 = s.errInfo1 := rfl
@[simp] theorem setPos_arg0 (p : Nat) (s : State) : (setPos p s).arg0 = s.arg0 := rfl
@[simp] theorem setPos_arg1 (p : Nat) (s : State) : (setPos p s).arg1 = s.arg1 := rfl
@[simp] theorem setPos_res0 (p : Nat) (s : State) : (setPos p s).res0 = s.res0 := rfl
@[simp] theorem setPos_res1 (p : Nat) (s : State) : (setPos p s).res1 = s.res1 := rfl
@[simp] theorem setPos_inb (p : Nat) (s : State) : (setPos p s).inb = s.inb := rfl
@[simp] theorem setPos_inLen (p : Nat) (s : State) : (setPos p s).inLen = s.inLen := rfl
@[simp] theorem setPos_outb (p : Nat) (s : State) : (setPos p s).outb = s.outb := rfl
@[simp] theorem setPos_outLen (p : Nat) (s : State) : (setPos p s).outLen = s.outLen := rfl
@[simp] theorem setPos_bsb (p : Nat) (s : State) : (setPos p s).bsb = s.bsb := rfl
@[simp] theorem setPos_bsLen (p : Nat) (s : State) : (setPos p s).bsLen = s.bsLen := rfl
@[simp] theorem setPos_bsByte (p : Nat) (s : State) : (setPos p s).bsByte = p / 8 := rfl
@[simp] theorem setPos_bsBit (p : Nat) (s : State) : (setPos p s).bsBit = p % 8 := rfl
@[simp] theorem setPos_dict (p : Nat) (s : State) : (setPos p s).dict = s.dict := rfl
@[simp] theorem setPos_unit (p : Nat) (s : State) : (setPos p s).unit = s.unit := rfl
@[simp] theorem setPos_unitLen (p : Nat) (s : State) : (setPos p s).unitLen = s.unitLen := rfl
@[simp] theorem setPos_pyrT12 (p : Nat) (s : State) : (setPos p s).pyrT12 = s.pyrT12 := rfl
@[simp] theorem setPos_pyrT16 (p : Nat) (s : State) : (setPos p s).pyrT16 = s.pyrT16 := rfl
@[simp] theorem setPos_freq (p : Nat) (s : State) : (setPos p s).freq = s.freq := rfl
@[simp] theorem setPos_xsym (p : Nat) (s : State) : (setPos p s).xsym = s.xsym := rfl
@[simp] theorem setPos_hufNx (p : Nat) (s : State) : (setPos p s).hufNx = s.hufNx := rfl
@[simp] theorem setPos_hroot (p : Nat) (s : State) : (setPos p s).hroot = s.hroot := rfl
@[simp] theorem setPos_hcode (p : Nat) (s : State) : (setPos p s).hcode = s.hcode := rfl
@[simp] theorem setPos_hufInfo (p : Nat) (s : State) : (setPos p s).hufInfo = s.hufInfo := rfl
@[simp] theorem setPos_pending (p : Nat) (s : State) : (setPos p s).pending = s.pending := rfl
@[simp] theorem setPos_reply (p : Nat) (s : State) : (setPos p s).reply = s.reply := rfl
@[simp] theorem setPos_nextSeed (p : Nat) (s : State) : (setPos p s).nextSeed = s.nextSeed := rfl

/-! ### `setRes0` (R84) -/

@[simp] theorem setRes0_cfg (n : Nat) (s : State) : (setRes0 n s).cfg = s.cfg := rfl
@[simp] theorem setRes0_err (n : Nat) (s : State) : (setRes0 n s).err = s.err := rfl
@[simp] theorem setRes0_halt (n : Nat) (s : State) : (setRes0 n s).halt = s.halt := rfl
@[simp] theorem setRes0_errCode (n : Nat) (s : State) : (setRes0 n s).errCode = s.errCode := rfl
@[simp] theorem setRes0_errInfo0 (n : Nat) (s : State) : (setRes0 n s).errInfo0 = s.errInfo0 := rfl
@[simp] theorem setRes0_errInfo1 (n : Nat) (s : State) : (setRes0 n s).errInfo1 = s.errInfo1 := rfl
@[simp] theorem setRes0_arg0 (n : Nat) (s : State) : (setRes0 n s).arg0 = s.arg0 := rfl
@[simp] theorem setRes0_arg1 (n : Nat) (s : State) : (setRes0 n s).arg1 = s.arg1 := rfl
@[simp] theorem setRes0_res0 (n : Nat) (s : State) : (setRes0 n s).res0 = toWord n := rfl
@[simp] theorem setRes0_res1 (n : Nat) (s : State) : (setRes0 n s).res1 = s.res1 := rfl
@[simp] theorem setRes0_inb (n : Nat) (s : State) : (setRes0 n s).inb = s.inb := rfl
@[simp] theorem setRes0_inLen (n : Nat) (s : State) : (setRes0 n s).inLen = s.inLen := rfl
@[simp] theorem setRes0_outb (n : Nat) (s : State) : (setRes0 n s).outb = s.outb := rfl
@[simp] theorem setRes0_outLen (n : Nat) (s : State) : (setRes0 n s).outLen = s.outLen := rfl
@[simp] theorem setRes0_bsb (n : Nat) (s : State) : (setRes0 n s).bsb = s.bsb := rfl
@[simp] theorem setRes0_bsLen (n : Nat) (s : State) : (setRes0 n s).bsLen = s.bsLen := rfl
@[simp] theorem setRes0_bsByte (n : Nat) (s : State) : (setRes0 n s).bsByte = s.bsByte := rfl
@[simp] theorem setRes0_bsBit (n : Nat) (s : State) : (setRes0 n s).bsBit = s.bsBit := rfl
@[simp] theorem setRes0_dict (n : Nat) (s : State) : (setRes0 n s).dict = s.dict := rfl
@[simp] theorem setRes0_unit (n : Nat) (s : State) : (setRes0 n s).unit = s.unit := rfl
@[simp] theorem setRes0_unitLen (n : Nat) (s : State) : (setRes0 n s).unitLen = s.unitLen := rfl
@[simp] theorem setRes0_pyrT12 (n : Nat) (s : State) : (setRes0 n s).pyrT12 = s.pyrT12 := rfl
@[simp] theorem setRes0_pyrT16 (n : Nat) (s : State) : (setRes0 n s).pyrT16 = s.pyrT16 := rfl
@[simp] theorem setRes0_freq (n : Nat) (s : State) : (setRes0 n s).freq = s.freq := rfl
@[simp] theorem setRes0_xsym (n : Nat) (s : State) : (setRes0 n s).xsym = s.xsym := rfl
@[simp] theorem setRes0_hufNx (n : Nat) (s : State) : (setRes0 n s).hufNx = s.hufNx := rfl
@[simp] theorem setRes0_hroot (n : Nat) (s : State) : (setRes0 n s).hroot = s.hroot := rfl
@[simp] theorem setRes0_hcode (n : Nat) (s : State) : (setRes0 n s).hcode = s.hcode := rfl
@[simp] theorem setRes0_hufInfo (n : Nat) (s : State) : (setRes0 n s).hufInfo = s.hufInfo := rfl
@[simp] theorem setRes0_pending (n : Nat) (s : State) : (setRes0 n s).pending = s.pending := rfl
@[simp] theorem setRes0_reply (n : Nat) (s : State) : (setRes0 n s).reply = s.reply := rfl
@[simp] theorem setRes0_nextSeed (n : Nat) (s : State) : (setRes0 n s).nextSeed = s.nextSeed := rfl

/-! ### `setRes` (R84) -/

@[simp] theorem setRes_cfg (m n : Nat) (s : State) : (setRes m n s).cfg = s.cfg := rfl
@[simp] theorem setRes_err (m n : Nat) (s : State) : (setRes m n s).err = s.err := rfl
@[simp] theorem setRes_halt (m n : Nat) (s : State) : (setRes m n s).halt = s.halt := rfl
@[simp] theorem setRes_errCode (m n : Nat) (s : State) : (setRes m n s).errCode = s.errCode := rfl
@[simp] theorem setRes_errInfo0 (m n : Nat) (s : State) : (setRes m n s).errInfo0 = s.errInfo0 := rfl
@[simp] theorem setRes_errInfo1 (m n : Nat) (s : State) : (setRes m n s).errInfo1 = s.errInfo1 := rfl
@[simp] theorem setRes_arg0 (m n : Nat) (s : State) : (setRes m n s).arg0 = s.arg0 := rfl
@[simp] theorem setRes_arg1 (m n : Nat) (s : State) : (setRes m n s).arg1 = s.arg1 := rfl
@[simp] theorem setRes_res0 (m n : Nat) (s : State) : (setRes m n s).res0 = toWord m := rfl
@[simp] theorem setRes_res1 (m n : Nat) (s : State) : (setRes m n s).res1 = toWord n := rfl
@[simp] theorem setRes_inb (m n : Nat) (s : State) : (setRes m n s).inb = s.inb := rfl
@[simp] theorem setRes_inLen (m n : Nat) (s : State) : (setRes m n s).inLen = s.inLen := rfl
@[simp] theorem setRes_outb (m n : Nat) (s : State) : (setRes m n s).outb = s.outb := rfl
@[simp] theorem setRes_outLen (m n : Nat) (s : State) : (setRes m n s).outLen = s.outLen := rfl
@[simp] theorem setRes_bsb (m n : Nat) (s : State) : (setRes m n s).bsb = s.bsb := rfl
@[simp] theorem setRes_bsLen (m n : Nat) (s : State) : (setRes m n s).bsLen = s.bsLen := rfl
@[simp] theorem setRes_bsByte (m n : Nat) (s : State) : (setRes m n s).bsByte = s.bsByte := rfl
@[simp] theorem setRes_bsBit (m n : Nat) (s : State) : (setRes m n s).bsBit = s.bsBit := rfl
@[simp] theorem setRes_dict (m n : Nat) (s : State) : (setRes m n s).dict = s.dict := rfl
@[simp] theorem setRes_unit (m n : Nat) (s : State) : (setRes m n s).unit = s.unit := rfl
@[simp] theorem setRes_unitLen (m n : Nat) (s : State) : (setRes m n s).unitLen = s.unitLen := rfl
@[simp] theorem setRes_pyrT12 (m n : Nat) (s : State) : (setRes m n s).pyrT12 = s.pyrT12 := rfl
@[simp] theorem setRes_pyrT16 (m n : Nat) (s : State) : (setRes m n s).pyrT16 = s.pyrT16 := rfl
@[simp] theorem setRes_freq (m n : Nat) (s : State) : (setRes m n s).freq = s.freq := rfl
@[simp] theorem setRes_xsym (m n : Nat) (s : State) : (setRes m n s).xsym = s.xsym := rfl
@[simp] theorem setRes_hufNx (m n : Nat) (s : State) : (setRes m n s).hufNx = s.hufNx := rfl
@[simp] theorem setRes_hroot (m n : Nat) (s : State) : (setRes m n s).hroot = s.hroot := rfl
@[simp] theorem setRes_hcode (m n : Nat) (s : State) : (setRes m n s).hcode = s.hcode := rfl
@[simp] theorem setRes_hufInfo (m n : Nat) (s : State) : (setRes m n s).hufInfo = s.hufInfo := rfl
@[simp] theorem setRes_pending (m n : Nat) (s : State) : (setRes m n s).pending = s.pending := rfl
@[simp] theorem setRes_reply (m n : Nat) (s : State) : (setRes m n s).reply = s.reply := rfl
@[simp] theorem setRes_nextSeed (m n : Nat) (s : State) : (setRes m n s).nextSeed = s.nextSeed := rfl

/-! ### `raise` (R310) -/

@[simp] theorem raise_cfg (e : ErrKind) (info : Nat) (w : Word) (s : State) : (raise e info w s).cfg = s.cfg := rfl
@[simp] theorem raise_err (e : ErrKind) (info : Nat) (w : Word) (s : State) : (raise e info w s).err = (s.err || isClassD e) := rfl
@[simp] theorem raise_halt (e : ErrKind) (info : Nat) (w : Word) (s : State) : (raise e info w s).halt = (s.halt || !isClassD e) := rfl
@[simp] theorem raise_errCode (e : ErrKind) (info : Nat) (w : Word) (s : State) : (raise e info w s).errCode = errorCode e := rfl
@[simp] theorem raise_errInfo0 (e : ErrKind) (info : Nat) (w : Word) (s : State) : (raise e info w s).errInfo0 = toWord info := rfl
@[simp] theorem raise_errInfo1 (e : ErrKind) (info : Nat) (w : Word) (s : State) : (raise e info w s).errInfo1 = w := rfl
@[simp] theorem raise_arg0 (e : ErrKind) (info : Nat) (w : Word) (s : State) : (raise e info w s).arg0 = s.arg0 := rfl
@[simp] theorem raise_arg1 (e : ErrKind) (info : Nat) (w : Word) (s : State) : (raise e info w s).arg1 = s.arg1 := rfl
@[simp] theorem raise_res0 (e : ErrKind) (info : Nat) (w : Word) (s : State) : (raise e info w s).res0 = s.res0 := rfl
@[simp] theorem raise_res1 (e : ErrKind) (info : Nat) (w : Word) (s : State) : (raise e info w s).res1 = s.res1 := rfl
@[simp] theorem raise_inb (e : ErrKind) (info : Nat) (w : Word) (s : State) : (raise e info w s).inb = s.inb := rfl
@[simp] theorem raise_inLen (e : ErrKind) (info : Nat) (w : Word) (s : State) : (raise e info w s).inLen = s.inLen := rfl
@[simp] theorem raise_outb (e : ErrKind) (info : Nat) (w : Word) (s : State) : (raise e info w s).outb = s.outb := rfl
@[simp] theorem raise_outLen (e : ErrKind) (info : Nat) (w : Word) (s : State) : (raise e info w s).outLen = s.outLen := rfl
@[simp] theorem raise_bsb (e : ErrKind) (info : Nat) (w : Word) (s : State) : (raise e info w s).bsb = s.bsb := rfl
@[simp] theorem raise_bsLen (e : ErrKind) (info : Nat) (w : Word) (s : State) : (raise e info w s).bsLen = s.bsLen := rfl
@[simp] theorem raise_bsByte (e : ErrKind) (info : Nat) (w : Word) (s : State) : (raise e info w s).bsByte = s.bsByte := rfl
@[simp] theorem raise_bsBit (e : ErrKind) (info : Nat) (w : Word) (s : State) : (raise e info w s).bsBit = s.bsBit := rfl
@[simp] theorem raise_dict (e : ErrKind) (info : Nat) (w : Word) (s : State) : (raise e info w s).dict = s.dict := rfl
@[simp] theorem raise_unit (e : ErrKind) (info : Nat) (w : Word) (s : State) : (raise e info w s).unit = s.unit := rfl
@[simp] theorem raise_unitLen (e : ErrKind) (info : Nat) (w : Word) (s : State) : (raise e info w s).unitLen = s.unitLen := rfl
@[simp] theorem raise_pyrT12 (e : ErrKind) (info : Nat) (w : Word) (s : State) : (raise e info w s).pyrT12 = s.pyrT12 := rfl
@[simp] theorem raise_pyrT16 (e : ErrKind) (info : Nat) (w : Word) (s : State) : (raise e info w s).pyrT16 = s.pyrT16 := rfl
@[simp] theorem raise_freq (e : ErrKind) (info : Nat) (w : Word) (s : State) : (raise e info w s).freq = s.freq := rfl
@[simp] theorem raise_xsym (e : ErrKind) (info : Nat) (w : Word) (s : State) : (raise e info w s).xsym = s.xsym := rfl
@[simp] theorem raise_hufNx (e : ErrKind) (info : Nat) (w : Word) (s : State) : (raise e info w s).hufNx = s.hufNx := rfl
@[simp] theorem raise_hroot (e : ErrKind) (info : Nat) (w : Word) (s : State) : (raise e info w s).hroot = s.hroot := rfl
@[simp] theorem raise_hcode (e : ErrKind) (info : Nat) (w : Word) (s : State) : (raise e info w s).hcode = s.hcode := rfl
@[simp] theorem raise_hufInfo (e : ErrKind) (info : Nat) (w : Word) (s : State) : (raise e info w s).hufInfo = s.hufInfo := rfl
@[simp] theorem raise_pending (e : ErrKind) (info : Nat) (w : Word) (s : State) : (raise e info w s).pending = s.pending := rfl
@[simp] theorem raise_reply (e : ErrKind) (info : Nat) (w : Word) (s : State) : (raise e info w s).reply = s.reply := rfl
@[simp] theorem raise_nextSeed (e : ErrKind) (info : Nat) (w : Word) (s : State) : (raise e info w s).nextSeed = s.nextSeed := rfl

/-! ### `clearError` (R291) -/

@[simp] theorem clearError_cfg (s : State) : (clearError s).cfg = s.cfg := rfl
@[simp] theorem clearError_err (s : State) : (clearError s).err = false := rfl
@[simp] theorem clearError_halt (s : State) : (clearError s).halt = s.halt := rfl
@[simp] theorem clearError_errCode (s : State) : (clearError s).errCode = 0 := rfl
@[simp] theorem clearError_errInfo0 (s : State) : (clearError s).errInfo0 = s.errInfo0 := rfl
@[simp] theorem clearError_errInfo1 (s : State) : (clearError s).errInfo1 = s.errInfo1 := rfl
@[simp] theorem clearError_arg0 (s : State) : (clearError s).arg0 = s.arg0 := rfl
@[simp] theorem clearError_arg1 (s : State) : (clearError s).arg1 = s.arg1 := rfl
@[simp] theorem clearError_res0 (s : State) : (clearError s).res0 = s.res0 := rfl
@[simp] theorem clearError_res1 (s : State) : (clearError s).res1 = s.res1 := rfl
@[simp] theorem clearError_inb (s : State) : (clearError s).inb = s.inb := rfl
@[simp] theorem clearError_inLen (s : State) : (clearError s).inLen = s.inLen := rfl
@[simp] theorem clearError_outb (s : State) : (clearError s).outb = s.outb := rfl
@[simp] theorem clearError_outLen (s : State) : (clearError s).outLen = s.outLen := rfl
@[simp] theorem clearError_bsb (s : State) : (clearError s).bsb = s.bsb := rfl
@[simp] theorem clearError_bsLen (s : State) : (clearError s).bsLen = s.bsLen := rfl
@[simp] theorem clearError_bsByte (s : State) : (clearError s).bsByte = s.bsByte := rfl
@[simp] theorem clearError_bsBit (s : State) : (clearError s).bsBit = s.bsBit := rfl
@[simp] theorem clearError_dict (s : State) : (clearError s).dict = s.dict := rfl
@[simp] theorem clearError_unit (s : State) : (clearError s).unit = s.unit := rfl
@[simp] theorem clearError_unitLen (s : State) : (clearError s).unitLen = s.unitLen := rfl
@[simp] theorem clearError_pyrT12 (s : State) : (clearError s).pyrT12 = s.pyrT12 := rfl
@[simp] theorem clearError_pyrT16 (s : State) : (clearError s).pyrT16 = s.pyrT16 := rfl
@[simp] theorem clearError_freq (s : State) : (clearError s).freq = s.freq := rfl
@[simp] theorem clearError_xsym (s : State) : (clearError s).xsym = s.xsym := rfl
@[simp] theorem clearError_hufNx (s : State) : (clearError s).hufNx = s.hufNx := rfl
@[simp] theorem clearError_hroot (s : State) : (clearError s).hroot = s.hroot := rfl
@[simp] theorem clearError_hcode (s : State) : (clearError s).hcode = s.hcode := rfl
@[simp] theorem clearError_hufInfo (s : State) : (clearError s).hufInfo = s.hufInfo := rfl
@[simp] theorem clearError_pending (s : State) : (clearError s).pending = s.pending := rfl
@[simp] theorem clearError_reply (s : State) : (clearError s).reply = s.reply := rfl
@[simp] theorem clearError_nextSeed (s : State) : (clearError s).nextSeed = s.nextSeed := rfl

/-! ### `recordUnit` (R203) -/

@[simp] theorem recordUnit_cfg (u : PyrUnit) (s : State) : (recordUnit u s).cfg = s.cfg := rfl
@[simp] theorem recordUnit_err (u : PyrUnit) (s : State) : (recordUnit u s).err = s.err := rfl
@[simp] theorem recordUnit_halt (u : PyrUnit) (s : State) : (recordUnit u s).halt = s.halt := rfl
@[simp] theorem recordUnit_errCode (u : PyrUnit) (s : State) : (recordUnit u s).errCode = s.errCode := rfl
@[simp] theorem recordUnit_errInfo0 (u : PyrUnit) (s : State) : (recordUnit u s).errInfo0 = s.errInfo0 := rfl
@[simp] theorem recordUnit_errInfo1 (u : PyrUnit) (s : State) : (recordUnit u s).errInfo1 = s.errInfo1 := rfl
@[simp] theorem recordUnit_arg0 (u : PyrUnit) (s : State) : (recordUnit u s).arg0 = s.arg0 := rfl
@[simp] theorem recordUnit_arg1 (u : PyrUnit) (s : State) : (recordUnit u s).arg1 = s.arg1 := rfl
@[simp] theorem recordUnit_res0 (u : PyrUnit) (s : State) : (recordUnit u s).res0 = s.res0 := rfl
@[simp] theorem recordUnit_res1 (u : PyrUnit) (s : State) : (recordUnit u s).res1 = s.res1 := rfl
@[simp] theorem recordUnit_inb (u : PyrUnit) (s : State) : (recordUnit u s).inb = s.inb := rfl
@[simp] theorem recordUnit_inLen (u : PyrUnit) (s : State) : (recordUnit u s).inLen = s.inLen := rfl
@[simp] theorem recordUnit_outb (u : PyrUnit) (s : State) : (recordUnit u s).outb = s.outb := rfl
@[simp] theorem recordUnit_outLen (u : PyrUnit) (s : State) : (recordUnit u s).outLen = s.outLen := rfl
@[simp] theorem recordUnit_bsb (u : PyrUnit) (s : State) : (recordUnit u s).bsb = s.bsb := rfl
@[simp] theorem recordUnit_bsLen (u : PyrUnit) (s : State) : (recordUnit u s).bsLen = s.bsLen := rfl
@[simp] theorem recordUnit_bsByte (u : PyrUnit) (s : State) : (recordUnit u s).bsByte = s.bsByte := rfl
@[simp] theorem recordUnit_bsBit (u : PyrUnit) (s : State) : (recordUnit u s).bsBit = s.bsBit := rfl
@[simp] theorem recordUnit_dict (u : PyrUnit) (s : State) : (recordUnit u s).dict = s.dict := rfl
@[simp] theorem recordUnit_unit (u : PyrUnit) (s : State) : (recordUnit u s).unit = wordWrite s.unit s.unitLen (unitWord u) := rfl
@[simp] theorem recordUnit_unitLen (u : PyrUnit) (s : State) : (recordUnit u s).unitLen = s.unitLen + 1 := rfl
@[simp] theorem recordUnit_pyrT12 (u : PyrUnit) (s : State) : (recordUnit u s).pyrT12 = s.pyrT12 := rfl
@[simp] theorem recordUnit_pyrT16 (u : PyrUnit) (s : State) : (recordUnit u s).pyrT16 = s.pyrT16 := rfl
@[simp] theorem recordUnit_freq (u : PyrUnit) (s : State) : (recordUnit u s).freq = s.freq := rfl
@[simp] theorem recordUnit_xsym (u : PyrUnit) (s : State) : (recordUnit u s).xsym = s.xsym := rfl
@[simp] theorem recordUnit_hufNx (u : PyrUnit) (s : State) : (recordUnit u s).hufNx = s.hufNx := rfl
@[simp] theorem recordUnit_hroot (u : PyrUnit) (s : State) : (recordUnit u s).hroot = s.hroot := rfl
@[simp] theorem recordUnit_hcode (u : PyrUnit) (s : State) : (recordUnit u s).hcode = s.hcode := rfl
@[simp] theorem recordUnit_hufInfo (u : PyrUnit) (s : State) : (recordUnit u s).hufInfo = s.hufInfo := rfl
@[simp] theorem recordUnit_pending (u : PyrUnit) (s : State) : (recordUnit u s).pending = s.pending := rfl
@[simp] theorem recordUnit_reply (u : PyrUnit) (s : State) : (recordUnit u s).reply = s.reply := rfl
@[simp] theorem recordUnit_nextSeed (u : PyrUnit) (s : State) : (recordUnit u s).nextSeed = s.nextSeed := rfl

/-! ### `pyrStart` (R201, R210) -/

@[simp] theorem pyrStart_cfg (sel : DataSel) (s : State) : (pyrStart sel s).cfg = s.cfg := rfl
@[simp] theorem pyrStart_err (sel : DataSel) (s : State) : (pyrStart sel s).err = s.err := rfl
@[simp] theorem pyrStart_halt (sel : DataSel) (s : State) : (pyrStart sel s).halt = s.halt := rfl
@[simp] theorem pyrStart_errCode (sel : DataSel) (s : State) : (pyrStart sel s).errCode = s.errCode := rfl
@[simp] theorem pyrStart_errInfo0 (sel : DataSel) (s : State) : (pyrStart sel s).errInfo0 = s.errInfo0 := rfl
@[simp] theorem pyrStart_errInfo1 (sel : DataSel) (s : State) : (pyrStart sel s).errInfo1 = s.errInfo1 := rfl
@[simp] theorem pyrStart_arg0 (sel : DataSel) (s : State) : (pyrStart sel s).arg0 = s.arg0 := rfl
@[simp] theorem pyrStart_arg1 (sel : DataSel) (s : State) : (pyrStart sel s).arg1 = s.arg1 := rfl
@[simp] theorem pyrStart_res0 (sel : DataSel) (s : State) : (pyrStart sel s).res0 = s.res0 := rfl
@[simp] theorem pyrStart_res1 (sel : DataSel) (s : State) : (pyrStart sel s).res1 = s.res1 := rfl
@[simp] theorem pyrStart_inb (sel : DataSel) (s : State) : (pyrStart sel s).inb = s.inb := rfl
@[simp] theorem pyrStart_inLen (sel : DataSel) (s : State) : (pyrStart sel s).inLen = s.inLen := rfl
@[simp] theorem pyrStart_outb (sel : DataSel) (s : State) : (pyrStart sel s).outb = s.outb := rfl
@[simp] theorem pyrStart_outLen (sel : DataSel) (s : State) : (pyrStart sel s).outLen = 0 := rfl
@[simp] theorem pyrStart_bsb (sel : DataSel) (s : State) : (pyrStart sel s).bsb = s.bsb := rfl
@[simp] theorem pyrStart_bsLen (sel : DataSel) (s : State) : (pyrStart sel s).bsLen = s.bsLen := rfl
@[simp] theorem pyrStart_bsByte (sel : DataSel) (s : State) : (pyrStart sel s).bsByte = s.bsByte := rfl
@[simp] theorem pyrStart_bsBit (sel : DataSel) (s : State) : (pyrStart sel s).bsBit = s.bsBit := rfl
@[simp] theorem pyrStart_dict (sel : DataSel) (s : State) : (pyrStart sel s).dict = Dict.empty sel := rfl
@[simp] theorem pyrStart_unit (sel : DataSel) (s : State) : (pyrStart sel s).unit = s.unit := rfl
@[simp] theorem pyrStart_unitLen (sel : DataSel) (s : State) : (pyrStart sel s).unitLen = 0 := rfl
@[simp] theorem pyrStart_pyrT12 (sel : DataSel) (s : State) : (pyrStart sel s).pyrT12 = none32 := rfl
@[simp] theorem pyrStart_pyrT16 (sel : DataSel) (s : State) : (pyrStart sel s).pyrT16 = none32 := rfl
@[simp] theorem pyrStart_freq (sel : DataSel) (s : State) : (pyrStart sel s).freq = s.freq := rfl
@[simp] theorem pyrStart_xsym (sel : DataSel) (s : State) : (pyrStart sel s).xsym = s.xsym := rfl
@[simp] theorem pyrStart_hufNx (sel : DataSel) (s : State) : (pyrStart sel s).hufNx = s.hufNx := rfl
@[simp] theorem pyrStart_hroot (sel : DataSel) (s : State) : (pyrStart sel s).hroot = s.hroot := rfl
@[simp] theorem pyrStart_hcode (sel : DataSel) (s : State) : (pyrStart sel s).hcode = s.hcode := rfl
@[simp] theorem pyrStart_hufInfo (sel : DataSel) (s : State) : (pyrStart sel s).hufInfo = s.hufInfo := rfl
@[simp] theorem pyrStart_pending (sel : DataSel) (s : State) : (pyrStart sel s).pending = s.pending := rfl
@[simp] theorem pyrStart_reply (sel : DataSel) (s : State) : (pyrStart sel s).reply = s.reply := rfl
@[simp] theorem pyrStart_nextSeed (sel : DataSel) (s : State) : (pyrStart sel s).nextSeed = s.nextSeed := rfl

/-! ### Dictionary records -/

@[simp] theorem empty_roots (sel : DataSel) : (Dict.empty sel).roots = .nil := rfl
@[simp] theorem empty_count (sel : DataSel) : (Dict.empty sel).count = 0 := rfl
@[simp] theorem empty_prio (sel : DataSel) : (Dict.empty sel).prio = 0 := rfl
@[simp] theorem empty_freeValid (sel : DataSel) : (Dict.empty sel).freeValid = false := rfl
@[simp] theorem empty_freeIdx (sel : DataSel) : (Dict.empty sel).freeIdx = 0 := rfl
@[simp] theorem empty_dsel (sel : DataSel) : (Dict.empty sel).dsel = sel := rfl

/-! ### `Res` -/

@[simp] theorem Res.bind_ok {α β : Type} (a : α) (f : α → Res β) : (Res.ok a).bind f = f a := rfl
@[simp] theorem Res.bind_raised {α β : Type} (e : ErrKind) (info : Nat) (s : State) (f : α → Res β) :
    (Res.raised e info s).bind f = .raised e info s := rfl

theorem Res.bind_assoc {α β γ : Type} (r : Res α) (f : α → Res β) (g : β → Res γ) :
    (r.bind f).bind g = r.bind fun a => (f a).bind g := by
  cases r <;> rfl

/-- What `r.bind f` can end in: the error `r` raised, or an end of `f` on the result of `r`. -/
theorem Res.bind_eq_ok {α β : Type} {r : Res α} {f : α → Res β} {b : β} :
    r.bind f = .ok b ↔ ∃ a, r = .ok a ∧ f a = .ok b := by
  cases r <;> simp [Res.bind]

theorem Res.bind_eq_raised {α β : Type} {r : Res α} {f : α → Res β} {e : ErrKind} {info : Nat} {t : State} :
    r.bind f = .raised e info t ↔ r = .raised e info t ∨ ∃ a, r = .ok a ∧ f a = .raised e info t := by
  cases r <;> simp [Res.bind]

@[simp] theorem finish_ok (w : Word) (s : State) : finish w (.ok s) = .next s := rfl
@[simp] theorem finish_raised (w : Word) (e : ErrKind) (info : Nat) (s : State) :
    finish w (.raised e info s) = .next (raise e info w s) := rfl

/-- A command ends in a next state, by completing or by latching one error (R300). -/
theorem finish_eq_next {w : Word} {r : Res State} {t : State} :
    finish w r = .next t ↔ r = .ok t ∨ ∃ e info s, r = .raised e info s ∧ t = raise e info w s := by
  cases r with
  | ok s => simp
  | raised e info s => simp [eq_comm]

/-- A property of every end of a command part: of the value it is completed with, or of the error. -/
def Res.All {α : Type} (P : α → Prop) (Q : ErrKind → Nat → State → Prop) : Res α → Prop
  | .ok a => P a
  | .raised e info s => Q e info s

theorem Res.all_bind {α β : Type} {P : α → Prop} {Q : ErrKind → Nat → State → Prop} {R : β → Prop}
    {r : Res α} {f : α → Res β} (hr : r.All P Q) (hf : ∀ a, P a → (f a).All R Q) : (r.bind f).All R Q := by
  cases r with
  | ok a => exact hf a hr
  | raised e info s => exact hr

theorem Res.all_mono {α : Type} {P P' : α → Prop} {Q Q' : ErrKind → Nat → State → Prop} {r : Res α}
    (hr : r.All P Q) (hP : ∀ a, P a → P' a) (hQ : ∀ e i s, Q e i s → Q' e i s) : r.All P' Q' := by
  cases r with
  | ok a => exact hP a hr
  | raised e info s => exact hQ e info s hr

end Sys2Proof.Machine
end

