-- ==== Sys2Proof/Laws/Memory.lean ====
section
/-! SUPPORT. Memories: read after write, and the canonical form under every operation. -/

namespace Sys2Proof.Machine

/-! ### Sparse maps -/

theorem cellGet?_cellSet_same {α : Type} (m : List (Nat × α)) (a : Nat) (v : α) :
    cellGet? (cellSet m a v) a = some v := by
  induction m with
  | nil => simp [cellSet, cellGet?]
  | cons c r ih =>
    obtain ⟨k, w⟩ := c
    simp only [cellSet]
    split_ifs with h1 h2
    · simp [cellGet?]
    · simp [cellGet?]
    · simp only [cellGet?]
      rw [if_neg (fun h => h2 h.symm)]
      exact ih

theorem cellGet?_cellSet_other {α : Type} (m : List (Nat × α)) {a b : Nat} (v : α) (h : b ≠ a) :
    cellGet? (cellSet m a v) b = cellGet? m b := by
  induction m with
  | nil => simp [cellSet, cellGet?, Ne.symm h]
  | cons c r ih =>
    obtain ⟨k, w⟩ := c
    simp only [cellSet]
    split_ifs with h1 h2
    · simp [cellGet?, Ne.symm h]
    · subst h2; simp [cellGet?, Ne.symm h]
    · simp only [cellGet?, ih]

/-- Every address listed is above a bound. -/
def cellsAbove {α : Type} (k : Nat) (m : List (Nat × α)) : Prop := ∀ e ∈ m, k < e.1

theorem cellsSorted_cons {α : Type} (k : Nat) (v : α) (r : List (Nat × α)) :
    cellsSorted ((k, v) :: r) = true ↔ cellsAbove k r ∧ cellsSorted r = true := by
  induction r generalizing k v with
  | nil => simp [cellsSorted, cellsAbove]
  | cons c r ih =>
    obtain ⟨k', v'⟩ := c
    have ih' := ih k' v'
    rw [cellsSorted, Bool.and_eq_true, decide_eq_true_eq]
    constructor
    · rintro ⟨h1, h2⟩
      refine ⟨?_, h2⟩
      intro e he
      rcases List.mem_cons.1 he with rfl | he
      · exact h1
      · exact lt_trans h1 ((ih'.1 h2).1 e he)
    · rintro ⟨h1, h2⟩
      exact ⟨h1 (k', v') (by simp), h2⟩

theorem cellsAbove_cellSet {α : Type} {k a : Nat} {m : List (Nat × α)} {v : α} (h : cellsAbove k m) (ha : k < a) :
    cellsAbove k (cellSet m a v) := by
  induction m with
  | nil => simpa [cellSet, cellsAbove] using ha
  | cons c r ih =>
    obtain ⟨k', w⟩ := c
    have hr : cellsAbove k r := fun e he => h e (List.mem_cons_of_mem _ he)
    have hk : k < k' := h (k', w) (by simp)
    simp only [cellSet]
    split_ifs
    · intro e he
      rcases List.mem_cons.1 he with rfl | he
      · exact ha
      · exact h e he
    · intro e he
      rcases List.mem_cons.1 he with rfl | he
      · exact ha
      · exact hr e he
    · intro e he
      rcases List.mem_cons.1 he with rfl | he
      · exact hk
      · exact ih hr e he

/-- A store keeps the canonical form. -/
theorem cellSet_sorted {α : Type} {m : List (Nat × α)} (a : Nat) (v : α) (h : cellsSorted m = true) :
    cellsSorted (cellSet m a v) = true := by
  induction m with
  | nil => simp [cellSet, cellsSorted]
  | cons c r ih =>
    obtain ⟨k, w⟩ := c
    have hc := (cellsSorted_cons k w r).1 h
    simp only [cellSet]
    split_ifs with h1 h2
    · exact (cellsSorted_cons _ _ _).2 ⟨fun e he => by
        rcases List.mem_cons.1 he with rfl | he
        · exact h1
        · exact lt_trans h1 (hc.1 e he), h⟩
    · subst h2
      exact (cellsSorted_cons _ _ _).2 hc
    · exact (cellsSorted_cons _ _ _).2 ⟨cellsAbove_cellSet hc.1 (by omega), ih hc.2⟩

theorem cellErase_mem {α : Type} {m : List (Nat × α)} {a : Nat} {e : Nat × α} (h : e ∈ cellErase m a) : e ∈ m := by
  induction m with
  | nil => simp [cellErase] at h
  | cons c r ih =>
    obtain ⟨k, w⟩ := c
    simp only [cellErase] at h
    split_ifs at h
    · exact List.mem_cons_of_mem _ h
    · rcases List.mem_cons.1 h with rfl | h
      · simp
      · exact List.mem_cons_of_mem _ (ih h)

/-- An erasure keeps the canonical form. -/
theorem cellErase_sorted {α : Type} {m : List (Nat × α)} (a : Nat) (h : cellsSorted m = true) :
    cellsSorted (cellErase m a) = true := by
  induction m with
  | nil => simp [cellErase, cellsSorted]
  | cons c r ih =>
    obtain ⟨k, w⟩ := c
    have hc := (cellsSorted_cons k w r).1 h
    simp only [cellErase]
    split_ifs
    · exact hc.2
    · exact (cellsSorted_cons _ _ _).2 ⟨fun e he => hc.1 e (cellErase_mem he), ih hc.2⟩

theorem cellGet?_above {α : Type} {k : Nat} {m : List (Nat × α)} (h : cellsAbove k m) : cellGet? m k = none := by
  induction m with
  | nil => rfl
  | cons c r ih =>
    obtain ⟨k', w⟩ := c
    have hk : k < k' := h (k', w) (by simp)
    simp only [cellGet?]
    rw [if_neg (by omega)]
    exact ih fun e he => h e (List.mem_cons_of_mem _ he)

theorem cellGet?_cellErase_same {α : Type} {m : List (Nat × α)} (a : Nat) (h : cellsSorted m = true) :
    cellGet? (cellErase m a) a = none := by
  induction m with
  | nil => rfl
  | cons c r ih =>
    obtain ⟨k, w⟩ := c
    have hc := (cellsSorted_cons k w r).1 h
    simp only [cellErase]
    split_ifs with h1
    · subst h1; exact cellGet?_above hc.1
    · simp only [cellGet?]
      rw [if_neg (fun h => h1 h.symm)]
      exact ih hc.2

theorem cellGet?_cellErase_other {α : Type} (m : List (Nat × α)) {a b : Nat} (h : b ≠ a) :
    cellGet? (cellErase m a) b = cellGet? m b := by
  induction m with
  | nil => rfl
  | cons c r ih =>
    obtain ⟨k, w⟩ := c
    simp only [cellErase]
    split_ifs with h1
    · subst h1; simp [cellGet?, Ne.symm h]
    · simp only [cellGet?, ih]

theorem mem_cellSet {α : Type} {m : List (Nat × α)} {a : Nat} {v : α} {e : Nat × α} (h : e ∈ cellSet m a v) :
    e = (a, v) ∨ e ∈ m := by
  induction m with
  | nil => simpa [cellSet] using h
  | cons c r ih =>
    obtain ⟨k, w⟩ := c
    simp only [cellSet] at h
    split_ifs at h
    · simpa using h
    · rcases List.mem_cons.1 h with rfl | h
      · exact .inl rfl
      · exact .inr (List.mem_cons_of_mem _ h)
    · rcases List.mem_cons.1 h with rfl | h
      · simp
      · rcases ih h with h | h
        · exact .inl h
        · exact .inr (List.mem_cons_of_mem _ h)

/-- A store below the size keeps every listed address below it. -/
theorem cellSet_below {α : Type} {n : Nat} {m : List (Nat × α)} {a : Nat} (v : α) (h : cellsBelow n m = true) (ha : a < n) :
    cellsBelow n (cellSet m a v) = true := by
  rw [cellsBelow, List.all_eq_true] at *
  intro e he
  rcases mem_cellSet he with rfl | he
  · simpa using ha
  · exact h e he

theorem cellErase_below {α : Type} {n : Nat} {m : List (Nat × α)} (a : Nat) (h : cellsBelow n m = true) :
    cellsBelow n (cellErase m a) = true := by
  rw [cellsBelow, List.all_eq_true] at *
  exact fun e he => h e (cellErase_mem he)

/-- What a canonical map lists is what it reads. -/
theorem cellGet?_of_mem {α : Type} {m : List (Nat × α)} {a : Nat} {v : α} (h : cellsSorted m = true) (hm : (a, v) ∈ m) :
    cellGet? m a = some v := by
  induction m with
  | nil => simp at hm
  | cons c r ih =>
    obtain ⟨k, w⟩ := c
    have hc := (cellsSorted_cons k w r).1 h
    rcases List.mem_cons.1 hm with h1 | h1
    · cases h1; simp [cellGet?]
    · have : k < a := hc.1 (a, v) h1
      simp only [cellGet?]
      rw [if_neg (by omega)]
      exact ih hc.2 h1

theorem mem_of_cellGet? {α : Type} {m : List (Nat × α)} {a : Nat} {v : α} (h : cellGet? m a = some v) : (a, v) ∈ m := by
  induction m with
  | nil => simp [cellGet?] at h
  | cons c r ih =>
    obtain ⟨k, w⟩ := c
    simp only [cellGet?] at h
    split_ifs at h with h1
    · subst h1; cases h; simp
    · exact List.mem_cons_of_mem _ (ih h)

/-! ### Spaces -/

@[simp] theorem bufWrite_seed (b : ByteBuf) (a : Nat) (v : Byte) : (bufWrite b a v).seed = b.seed := rfl
@[simp] theorem wordWrite_seed (b : WordBuf) (a : Nat) (v : Word) : (wordWrite b a v).seed = b.seed := rfl

@[simp] theorem bufRead_bufWrite_same (b : ByteBuf) (a : Nat) (v : Byte) : bufRead (bufWrite b a v) a = v := by
  simp [bufRead, bufWrite, cellGet?_cellSet_same]

theorem bufRead_bufWrite_other (b : ByteBuf) {a c : Nat} (v : Byte) (h : c ≠ a) :
    bufRead (bufWrite b a v) c = bufRead b c := by
  simp [bufRead, bufWrite, cellGet?_cellSet_other _ v h]

theorem bufRead_bufWrite (b : ByteBuf) (a c : Nat) (v : Byte) :
    bufRead (bufWrite b a v) c = if c = a then v else bufRead b c := by
  split_ifs with h
  · subst h; simp
  · exact bufRead_bufWrite_other b v h

@[simp] theorem wordRead_wordWrite_same (b : WordBuf) (a : Nat) (v : Word) : wordRead (wordWrite b a v) a = v := by
  simp [wordRead, wordWrite, cellGet?_cellSet_same]

theorem wordRead_wordWrite_other (b : WordBuf) {a c : Nat} (v : Word) (h : c ≠ a) :
    wordRead (wordWrite b a v) c = wordRead b c := by
  simp [wordRead, wordWrite, cellGet?_cellSet_other _ v h]

theorem bufWrite_sorted {b : ByteBuf} (a : Nat) (v : Byte) (h : cellsSorted b.cells = true) :
    cellsSorted (bufWrite b a v).cells = true := cellSet_sorted a v h

theorem wordWrite_sorted {b : WordBuf} (a : Nat) (v : Word) (h : cellsSorted b.cells = true) :
    cellsSorted (wordWrite b a v).cells = true := cellSet_sorted a v h

/-- A store to `FREQ` keeps its canonical form: sorted, and no zero listed. -/
theorem freqWrite_wf {f : List (Nat × Word)} (a : Nat) (v : Word) (h : freqWf f = true) :
    freqWf (freqWrite f a v) = true := by
  simp only [freqWf, Bool.and_eq_true, List.all_eq_true] at *
  unfold freqWrite
  split_ifs with hv
  · exact ⟨cellErase_sorted a h.1, fun e he => h.2 e (cellErase_mem he)⟩
  · refine ⟨cellSet_sorted a v h.1, fun e he => ?_⟩
    rcases mem_cellSet he with rfl | he
    · simpa using hv
    · exact h.2 e he

theorem freqRead_freqWrite {f : List (Nat × Word)} (a c : Nat) (v : Word) (h : freqWf f = true) :
    freqRead (freqWrite f a v) c = if c = a then v else freqRead f c := by
  simp only [freqWf, Bool.and_eq_true] at h
  unfold freqRead freqWrite
  split_ifs with hv hc hc
  · subst hc; rw [cellGet?_cellErase_same _ h.1]; simp [hv]
  · rw [cellGet?_cellErase_other _ hc]
  · subst hc; rw [cellGet?_cellSet_same]; rfl
  · rw [cellGet?_cellSet_other _ _ hc]

/-! ### Byte strings of a space -/

@[simp] theorem slice_length (b : ByteBuf) (a n : Nat) : (slice b a n).length = n := by
  induction n generalizing a with
  | zero => rfl
  | succ n ih => simp [slice, ih]

theorem slice_getElem? (b : ByteBuf) (a n k : Nat) : (slice b a n)[k]? = if k < n then some (bufRead b (a + k)) else none := by
  induction n generalizing a k with
  | zero => simp [slice]
  | succ n ih =>
    cases k with
    | zero => simp [slice]
    | succ k =>
      simp only [slice, List.getElem?_cons_succ, ih, Nat.add_lt_add_iff_right]
      rw [Nat.add_right_comm, Nat.add_assoc]

theorem slice_append (b : ByteBuf) (a m n : Nat) : slice b a (m + n) = slice b a m ++ slice b (a + m) n := by
  induction m generalizing a with
  | zero => simp [slice]
  | succ m ih =>
    rw [Nat.add_right_comm]
    simp only [slice, List.cons_append, ih]
    rw [Nat.add_right_comm, Nat.add_assoc]

theorem slice_take (b : ByteBuf) (a m n : Nat) (h : m ≤ n) : (slice b a n).take m = slice b a m := by
  obtain ⟨k, rfl⟩ := Nat.exists_eq_add_of_le h
  rw [slice_append, List.take_left' (slice_length b a m)]

theorem slice_drop (b : ByteBuf) (a m n : Nat) : (slice b a n).drop m = slice b (a + m) (n - m) := by
  rcases Nat.le_total m n with h | h
  · obtain ⟨k, rfl⟩ := Nat.exists_eq_add_of_le h
    rw [slice_append, List.drop_left' (slice_length b a m)]
    simp
  · rw [Nat.sub_eq_zero_of_le h, List.drop_eq_nil_of_le (by simpa using h)]; rfl

/-- Two spaces that read the same over a range show the same byte string there. -/
theorem slice_congr {b c : ByteBuf} {a n : Nat} (h : ∀ k, a ≤ k → k < a + n → bufRead b k = bufRead c k) :
    slice b a n = slice c a n := by
  induction n generalizing a with
  | zero => rfl
  | succ n ih =>
    simp only [slice]
    rw [h a (le_refl a) (by omega), ih fun k h1 h2 => h k (by omega) (by omega)]

theorem slice_bufWrite_outside {b : ByteBuf} {a n c : Nat} (v : Byte) (h : c < a ∨ a + n ≤ c) :
    slice (bufWrite b c v) a n = slice b a n :=
  slice_congr fun k h1 h2 => bufRead_bufWrite_other b v (by omega)

theorem slice_bufWrite_end (b : ByteBuf) (a n : Nat) (v : Byte) :
    slice (bufWrite b (a + n) v) a (n + 1) = slice b a n ++ [v] := by
  rw [slice_append, slice_bufWrite_outside v (by omega)]
  simp [slice]

end Sys2Proof.Machine
end

