-- ==== Sys2Proof/Laws/Append.lean ====
section
/-! SUPPORT. What appending to `OUT` can do (R13, R62, R306). -/

namespace Sys2Proof.Machine

/-- Bytes stored one after the other from an address on. -/
def storeAll (b : ByteBuf) (a : Nat) : List Byte → ByteBuf
  | [] => b
  | v :: vs => storeAll (bufWrite b a v) (a + 1) vs

theorem storeAll_append (b : ByteBuf) (a : Nat) (l m : List Byte) :
    storeAll b a (l ++ m) = storeAll (storeAll b a l) (a + l.length) m := by
  induction l generalizing b a with
  | nil => rfl
  | cons v l ih => simp only [List.cons_append, storeAll, ih, List.length_cons, Nat.add_assoc, Nat.add_comm 1]

theorem bufRead_storeAll_below (b : ByteBuf) (a : Nat) (l : List Byte) {c : Nat} (h : c < a) :
    bufRead (storeAll b a l) c = bufRead b c := by
  induction l generalizing b a with
  | nil => rfl
  | cons v l ih => rw [storeAll, ih _ _ (by omega), bufRead_bufWrite_other _ _ (by omega)]

theorem bufRead_storeAll_above (b : ByteBuf) (a : Nat) (l : List Byte) {c : Nat} (h : a + l.length ≤ c) :
    bufRead (storeAll b a l) c = bufRead b c := by
  induction l generalizing b a with
  | nil => rfl
  | cons v l ih =>
    rw [List.length_cons] at h
    rw [storeAll, ih _ _ (by omega), bufRead_bufWrite_other _ _ (by omega)]

theorem storeAll_sorted {b : ByteBuf} (a : Nat) (l : List Byte) (h : cellsSorted b.cells = true) :
    cellsSorted (storeAll b a l).cells = true := by
  induction l generalizing b a with
  | nil => exact h
  | cons v l ih => exact ih _ (bufWrite_sorted a v h)

@[simp] theorem storeAll_seed (b : ByteBuf) (a : Nat) (l : List Byte) : (storeAll b a l).seed = b.seed := by
  induction l generalizing b a with
  | nil => rfl
  | cons v l ih => exact ih _ _

theorem storeAll_below {b : ByteBuf} {n a : Nat} {l : List Byte} (h : cellsBelow n b.cells = true) (hl : a + l.length ≤ n) :
    cellsBelow n (storeAll b a l).cells = true := by
  induction l generalizing b a with
  | nil => exact h
  | cons v l ih =>
    rw [List.length_cons] at hl
    exact ih (cellSet_below v h (by omega)) (by omega)

/-- The stored bytes, read back. -/
theorem slice_storeAll (b : ByteBuf) (a : Nat) (l : List Byte) : slice (storeAll b a l) a l.length = l := by
  induction l generalizing b a with
  | nil => rfl
  | cons v l ih =>
    simp only [List.length_cons, slice, storeAll]
    rw [ih, bufRead_storeAll_below _ _ _ (by omega), bufRead_bufWrite_same]

/-- What a space shows up to the end of the stored bytes. -/
theorem slice_storeAll_end (b : ByteBuf) (a : Nat) (l : List Byte) :
    slice (storeAll b a l) 0 (a + l.length) = slice b 0 a ++ l := by
  rw [slice_append, Nat.zero_add, slice_storeAll]
  congr 1
  exact slice_congr fun k _ h => bufRead_storeAll_below b a l (by omega)

/-- The state after an `Append` that fits. -/
def appended (l : List Byte) (s : State) : State :=
  { s with outb := storeAll s.outb s.outLen l, outLen := s.outLen + l.length }

@[simp] theorem appended_nil (s : State) : appended [] s = s := rfl

theorem appended_append (l m : List Byte) (s : State) : appended (l ++ m) s = appended m (appended l s) := by
  simp only [appended, storeAll_append, List.length_append, Nat.add_assoc]

@[simp] theorem appended_outLen (l : List Byte) (s : State) : (appended l s).outLen = s.outLen + l.length := rfl
@[simp] theorem appended_outb (l : List Byte) (s : State) : (appended l s).outb = storeAll s.outb s.outLen l := rfl
@[simp] theorem appended_cfg (l : List Byte) (s : State) : (appended l s).cfg = s.cfg := rfl

theorem outputBytes_appended (l : List Byte) (s : State) : outputBytes (appended l s) = outputBytes s ++ l :=
  slice_storeAll_end s.outb s.outLen l

/-- One `Append` that fits. -/
theorem append_ok {v : Byte} {s : State} (h : s.outLen + 1 ≤ s.cfg.bufCap) : append v s = .ok (appended [v] s) := by
  unfold append
  rw [if_neg (by omega)]
  rfl

/-- One `Append` that does not: nothing is stored. -/
theorem append_full {v : Byte} {s : State} (h : s.cfg.bufCap < s.outLen + 1) :
    append v s = .raised .capacity s.cfg.bufCap s := by
  unfold append
  rw [if_pos h]

/-- Everything `Append` of a byte string can do: it is stored whole, or as many bytes as fit are stored
and `Capacity(BUF_CAP)` is raised. -/
theorem appendAll_eq (l : List Byte) (s : State) (h : s.outLen ≤ s.cfg.bufCap) :
    appendAll l s =
      if s.outLen + l.length ≤ s.cfg.bufCap then .ok (appended l s)
      else .raised .capacity s.cfg.bufCap (appended (l.take (s.cfg.bufCap - s.outLen)) s) := by
  induction l generalizing s with
  | nil => simp [appendAll, h]
  | cons v l ih =>
    rw [appendAll, List.length_cons]
    by_cases hv : s.outLen + 1 ≤ s.cfg.bufCap
    · rw [append_ok hv, Res.bind_ok, ih _ (by simpa using hv)]
      simp only [appended_cfg, appended_outLen, List.length_cons, List.length_nil, Nat.zero_add]
      have e : s.cfg.bufCap - s.outLen = (s.cfg.bufCap - (s.outLen + 1)) + 1 := by omega
      rw [e, List.take_succ_cons, ← appended_append, ← appended_append]
      simp only [Nat.add_assoc, Nat.add_comm l.length 1]
      rfl
    · rw [append_full (by omega), Res.bind_raised, if_neg (by omega)]
      have e : s.cfg.bufCap - s.outLen = 0 := by omega
      rw [e]; rfl

theorem appendAll_ok {l : List Byte} {s : State} (h : s.outLen + l.length ≤ s.cfg.bufCap) :
    appendAll l s = .ok (appended l s) := by
  rw [appendAll_eq l s (by omega), if_pos h]

theorem appendAll_append (l m : List Byte) (s : State) :
    appendAll (l ++ m) s = (appendAll l s).bind fun s1 => appendAll m s1 := by
  induction l generalizing s with
  | nil => rfl
  | cons v l ih => simp only [List.cons_append, appendAll, Res.bind_assoc, ih]

/-- An append is all or nothing but for the error state: if it completes, it stored the whole string. -/
theorem appendAll_inv {l : List Byte} {s t : State} (h : appendAll l s = .ok t) :
    t = appended l s ∧ (s.outLen ≤ s.cfg.bufCap → s.outLen + l.length ≤ s.cfg.bufCap) := by
  induction l generalizing s with
  | nil => simp only [appendAll, Res.ok.injEq] at h; subst h; exact ⟨rfl, fun h => h⟩
  | cons v l ih =>
    rw [appendAll, Res.bind_eq_ok] at h
    obtain ⟨s1, h1, h2⟩ := h
    by_cases hv : s.outLen + 1 ≤ s.cfg.bufCap
    · rw [append_ok hv, Res.ok.injEq] at h1
      subst h1
      obtain ⟨h3, h4⟩ := ih h2
      refine ⟨by rw [h3, ← appended_append]; rfl, fun _ => ?_⟩
      have := h4 (by simpa using hv)
      simp only [appended_outLen, appended_cfg, List.length_cons, List.length_nil] at this ⊢
      omega
    · rw [append_full (by omega)] at h1; cases h1

end Sys2Proof.Machine
end

