-- ==== Sys2Proof/Laws/Stream.lean ====
section
/-! SUPPORT. The bit cursor and the bit-stream helpers (R28, R130): what `OrBit`, the write loop and the
read loop do to every bit of `BSB`. -/

namespace Sys2Proof.Machine

/-! ### Position -/

@[simp] theorem bitPos_setPos (p : Nat) (s : State) : bitPos (setPos p s) = p := by
  simp only [bitPos, setPos_bsByte, setPos_bsBit]; omega

@[simp] theorem setPos_setPos (p q : Nat) (s : State) : setPos p (setPos q s) = setPos p s := rfl

/-- The cursor is its position, as long as the bit index is below 8 (R28). -/
theorem setPos_bitPos {s : State} (h : s.bsBit < 8) : setPos (bitPos s) s = s := by
  obtain ⟨⟩ := s
  simp only [setPos, bitPos, State.mk.injEq] at *
  refine ⟨?_, ?_⟩ <;> simp <;> omega

theorem alignedPos_mod (s : State) : alignedPos s % 8 = 0 := by simp [alignedPos]
theorem le_alignedPos (s : State) : bitPos s ≤ alignedPos s := by unfold alignedPos; omega
theorem alignedPos_lt (s : State) : alignedPos s < bitPos s + 8 := by unfold alignedPos; omega

/-! ### Zero growth -/

/-- `n` zero bytes at the end of `BSB`. -/
theorem growZero_eq (n : Nat) (s : State) :
    growZero n s = { s with bsb := storeAll s.bsb s.bsLen (List.replicate n 0#8), bsLen := s.bsLen + n } := by
  induction n generalizing s with
  | zero => rfl
  | succ n ih =>
    rw [growZero, ih]
    simp only [List.replicate_succ, storeAll, Nat.add_assoc, Nat.add_comm 1]
    rfl

/-- A stream bit of a byte that is OR-ed with a single bit. -/
theorem getLsbD_or_streamBit (v : Byte) (k j : Nat) (b : Bool) (hk : k < 8) (hj : j < 8) :
    (v ||| streamBit k b).getLsbD (7 - j) = (v.getLsbD (7 - j) || (decide (j = k) && b)) := by
  have : (streamBit k b).getLsbD (7 - j) = (decide (j = k) && b) := by
    interval_cases k <;> interval_cases j <;> cases b <;> decide
  rw [BitVec.getLsbD_or, this]

/-- The state after `OrBit(p, b)` that fits: `BSB` grown with zeros to byte `p div 8`, the bit OR-ed in. -/
def bitOred (p : Nat) (b : Bool) (s : State) : State :=
  let s1 := growZero (p / 8 + 1 - s.bsLen) s
  { s1 with bsb := bufWrite s1.bsb (p / 8) (bufRead s1.bsb (p / 8) ||| streamBit (p % 8) b) }

theorem orBit_ok {p : Nat} {b : Bool} {s : State} (h : p / 8 < s.cfg.bufCap) : orBit p b s = .ok (bitOred p b s) := by
  unfold orBit
  rw [if_neg (by omega)]
  rfl

/-- `OrBit` changes `BSB` and `BS_LEN` alone. -/
theorem bitOred_eq (p : Nat) (b : Bool) (s : State) :
    bitOred p b s = { s with bsb := (bitOred p b s).bsb, bsLen := max s.bsLen (p / 8 + 1) } := by
  unfold bitOred
  rw [growZero_eq]
  have : s.bsLen + (p / 8 + 1 - s.bsLen) = max s.bsLen (p / 8 + 1) := by omega
  simp only [this]

@[simp] theorem bitOred_bsLen (p : Nat) (b : Bool) (s : State) : (bitOred p b s).bsLen = max s.bsLen (p / 8 + 1) := by
  rw [bitOred_eq]
@[simp] theorem bitOred_cfg (p : Nat) (b : Bool) (s : State) : (bitOred p b s).cfg = s.cfg := by rw [bitOred_eq]
@[simp] theorem bitOred_bsByte (p : Nat) (b : Bool) (s : State) : (bitOred p b s).bsByte = s.bsByte := by rw [bitOred_eq]
@[simp] theorem bitOred_bsBit (p : Nat) (b : Bool) (s : State) : (bitOred p b s).bsBit = s.bsBit := by rw [bitOred_eq]
@[simp] theorem bitPos_bitOred (p : Nat) (b : Bool) (s : State) : bitPos (bitOred p b s) = bitPos s := by simp [bitPos]

theorem bufRead_growZero (n : Nat) (s : State) (a : Nat) :
    bufRead (growZero n s).bsb a = if s.bsLen ≤ a ∧ a < s.bsLen + n then 0#8 else bufRead s.bsb a := by
  rw [growZero_eq]
  show bufRead (storeAll s.bsb s.bsLen (List.replicate n 0#8)) a = _
  rcases lt_or_ge a s.bsLen with h | h
  · rw [bufRead_storeAll_below _ _ _ h, if_neg (by omega)]
  · rcases lt_or_ge a (s.bsLen + n) with h2 | h2
    · rw [if_pos ⟨h, h2⟩]
      have h3 := slice_getElem? (storeAll s.bsb s.bsLen (List.replicate n 0#8)) s.bsLen n (a - s.bsLen)
      have h4 := slice_storeAll s.bsb s.bsLen (List.replicate n 0#8)
      rw [List.length_replicate] at h4
      rw [h4, if_pos (by omega), List.getElem?_replicate, if_pos (by omega)] at h3
      have h5 : s.bsLen + (a - s.bsLen) = a := by omega
      rw [h5] at h3
      exact (Option.some.inj h3).symm
    · rw [bufRead_storeAll_above _ _ _ (by simpa using h2), if_neg (by omega)]

/-- Every byte of `BSB` after `OrBit`. -/
theorem bufRead_bitOred (p : Nat) (b : Bool) (s : State) (a : Nat) :
    bufRead (bitOred p b s).bsb a =
      (let v := if s.bsLen ≤ a ∧ a < p / 8 + 1 then 0#8 else bufRead s.bsb a
       if a = p / 8 then v ||| streamBit (p % 8) b else v) := by
  have hg : ∀ c, bufRead (growZero (p / 8 + 1 - s.bsLen) s).bsb c =
      if s.bsLen ≤ c ∧ c < p / 8 + 1 then 0#8 else bufRead s.bsb c := by
    intro c
    rw [bufRead_growZero]
    congr 1
    ext; omega
  unfold bitOred
  simp only
  rw [bufRead_bufWrite]
  by_cases h : a = p / 8
  · subst h
    rw [if_pos rfl, if_pos rfl, hg]
  · rw [if_neg h, if_neg h, hg]

/-- Every bit of the stream after `OrBit`: the bit at `p` is OR-ed, every other bit is unchanged, new bits
are zero. -/
theorem getBit_bitOred (p : Nat) (b : Bool) (s : State) (q : Nat) :
    getBit (bitOred p b s) q =
      ((if 8 * s.bsLen ≤ q ∧ q / 8 < p / 8 + 1 then false else getBit s q) || (decide (q = p) && b)) := by
  have h1 : (8 * s.bsLen ≤ q ∧ q / 8 < p / 8 + 1) ↔ (s.bsLen ≤ q / 8 ∧ q / 8 < p / 8 + 1) := by omega
  unfold getBit
  rw [bufRead_bitOred]
  simp only [h1]
  by_cases h : q / 8 = p / 8
  · rw [if_pos h, getLsbD_or_streamBit _ _ _ _ (by omega) (by omega)]
    have h2 : (q % 8 = p % 8) ↔ q = p := by omega
    simp only [h2]
    split_ifs <;> simp
  · rw [if_neg h]
    have h2 : ¬ q = p := by rintro rfl; exact h rfl
    simp only [h2, decide_false, Bool.false_and, Bool.or_false]
    split_ifs <;> simp

/-! ### The write loop -/

/-- The state after a write loop that fits. -/
def bitsWritten : List Bool → State → State
  | [], s => s
  | b :: bs, s => bitsWritten bs (setPos (bitPos s + 1) (bitOred (bitPos s) b s))

/-- The loop raises nothing when its bits fit: the check in front of it (R136, R139, R258) suffices. -/
theorem writeBits_ok {l : List Bool} {s : State} (h : bitPos s + l.length ≤ 8 * s.cfg.bufCap) :
    writeBits l s = .ok (bitsWritten l s) := by
  induction l generalizing s with
  | nil => rfl
  | cons b l ih =>
    rw [List.length_cons] at h
    rw [writeBits, orBit_ok (by omega), Res.bind_ok, bitPos_bitOred, ih]
    · rfl
    · simp only [bitPos_setPos, setPos_cfg, bitOred_cfg]; omega

@[simp] theorem bitsWritten_cfg (l : List Bool) (s : State) : (bitsWritten l s).cfg = s.cfg := by
  induction l generalizing s with
  | nil => rfl
  | cons b l ih => simp [bitsWritten, ih]

/-- The write loop changes `BSB`, `BS_LEN` and the cursor alone. -/
theorem bitsWritten_frame (l : List Bool) (s : State) :
    bitsWritten l s = { s with
      bsb := (bitsWritten l s).bsb, bsLen := (bitsWritten l s).bsLen
      bsByte := (bitsWritten l s).bsByte, bsBit := (bitsWritten l s).bsBit } := by
  induction l generalizing s with
  | nil => rfl
  | cons b l ih =>
    rw [bitsWritten, ih]
    simp only [setPos]
    rw [bitOred_eq]

theorem bitPos_bitsWritten (l : List Bool) (s : State) : bitPos (bitsWritten l s) = bitPos s + l.length := by
  induction l generalizing s with
  | nil => rfl
  | cons b l ih => rw [bitsWritten, ih, bitPos_setPos, List.length_cons]; omega

/-- The length afterwards: as before, or up to the byte of the last bit written. -/
theorem bsLen_bitsWritten (l : List Bool) (s : State) :
    (bitsWritten l s).bsLen = if l = [] then s.bsLen else max s.bsLen ((bitPos s + l.length - 1) / 8 + 1) := by
  induction l generalizing s with
  | nil => rfl
  | cons b l ih =>
    rw [bitsWritten, ih]
    simp only [setPos_bsLen, bitOred_bsLen, bitPos_setPos, List.length_cons, reduceCtorEq, if_false]
    split_ifs with h
    · subst h; simp
    · have : l.length ≠ 0 := by simpa using h
      have e : bitPos s + 1 + l.length - 1 = bitPos s + (l.length + 1) - 1 := by omega
      rw [e]
      omega

theorem getBit_setPos (p : Nat) (s : State) (q : Nat) : getBit (setPos p s) q = getBit s q := rfl

/-- Every bit of the stream after a write: inside the field the OR of old and new, outside it the old
bit, where the old bit of a byte that was not there is zero (R136, R351). -/
theorem getBit_bitsWritten (l : List Bool) (s : State) (q : Nat) :
    getBit (bitsWritten l s) q =
      ((if 8 * s.bsLen ≤ q ∧ l ≠ [] ∧ q / 8 ≤ (bitPos s + l.length - 1) / 8 then false else getBit s q) ||
        (decide (bitPos s ≤ q) && (l[q - bitPos s]?).getD false)) := by
  induction l generalizing s with
  | nil => simp [bitsWritten]
  | cons b l ih =>
    rw [bitsWritten, ih]
    simp only [setPos_bsLen, bitOred_bsLen, bitPos_setPos, getBit_setPos, getBit_bitOred, List.length_cons,
      ne_eq, reduceCtorEq, not_false_eq_true, true_and]
    have hnew : (decide (bitPos s ≤ q) && ((b :: l)[q - bitPos s]?).getD false) =
        ((decide (q = bitPos s) && b) || (decide (bitPos s + 1 ≤ q) && (l[q - (bitPos s + 1)]?).getD false)) := by
      rcases lt_trichotomy q (bitPos s) with h | h | h
      · have e1 : ¬ bitPos s ≤ q := by omega
        have e2 : ¬ q = bitPos s := by omega
        have e3 : ¬ bitPos s + 1 ≤ q := by omega
        simp [e1, e2, e3]
      · subst h; simp
      · have e1 : bitPos s ≤ q := by omega
        have e2 : ¬ q = bitPos s := by omega
        have e3 : bitPos s + 1 ≤ q := by omega
        have e4 : q - bitPos s = (q - (bitPos s + 1)) + 1 := by omega
        simp [e1, e2, e3, e4]
    rw [hnew, ← Bool.or_assoc]
    congr 1
    by_cases hl : l = []
    · subst hl
      simp only [not_true_eq_false, false_and, and_false, if_false, List.length_nil, Nat.zero_add, Nat.add_sub_cancel]
      congr 2
      ext; omega
    · have hl' : l.length ≠ 0 := by simpa using hl
      simp only [hl, not_false_eq_true, true_and]
      by_cases hq : q = bitPos s
      · have c1 : ¬ (8 * max s.bsLen (bitPos s / 8 + 1) ≤ q ∧ q / 8 ≤ (bitPos s + 1 + l.length - 1) / 8) := by omega
        rw [if_neg c1]
        congr 2
        ext; omega
      · simp only [hq, decide_false, Bool.false_and, Bool.or_false]
        by_cases c1 : 8 * s.bsLen ≤ q ∧ q / 8 ≤ (bitPos s + (l.length + 1) - 1) / 8
        · rw [if_pos c1]
          by_cases c2 : q / 8 < bitPos s / 8 + 1
          · rw [if_pos (c := 8 * s.bsLen ≤ q ∧ q / 8 < bitPos s / 8 + 1) ⟨c1.1, c2⟩]; simp
          · rw [if_pos (c := 8 * max s.bsLen (bitPos s / 8 + 1) ≤ q ∧ _) ⟨by omega, by omega⟩]
        · rw [if_neg c1]
          rw [if_neg (c := 8 * max s.bsLen (bitPos s / 8 + 1) ≤ q ∧ _) (by omega), if_neg (by omega)]

/-- The byte form of the frame: bytes beyond the new length are untouched. -/
theorem bufRead_bitsWritten_above (l : List Bool) (s : State) (a : Nat) (h : (bitsWritten l s).bsLen ≤ a) :
    bufRead (bitsWritten l s).bsb a = bufRead s.bsb a := by
  induction l generalizing s with
  | nil => rfl
  | cons b l ih =>
    have hl := bsLen_bitsWritten (b :: l) s
    have hl2 := bsLen_bitsWritten l (setPos (bitPos s + 1) (bitOred (bitPos s) b s))
    rw [if_neg (by simp)] at hl
    rw [bitsWritten] at h ⊢
    rw [ih _ h]
    show bufRead (bitOred (bitPos s) b s).bsb a = _
    have h3 : bitPos s / 8 + 1 ≤ a := by
      have : max s.bsLen (bitPos s / 8 + 1) ≤ (bitsWritten l (setPos (bitPos s + 1) (bitOred (bitPos s) b s))).bsLen := by
        rw [hl2]
        simp only [setPos_bsLen, bitOred_bsLen]
        split_ifs <;> omega
      omega
    rw [bufRead_bitOred]
    simp only
    rw [if_neg (by omega), if_neg (by omega)]

theorem bitsWritten_sorted {l : List Bool} {s : State} (h : cellsSorted s.bsb.cells = true) :
    cellsSorted (bitsWritten l s).bsb.cells = true := by
  induction l generalizing s with
  | nil => exact h
  | cons b l ih =>
    refine ih ?_
    show cellsSorted (bitOred (bitPos s) b s).bsb.cells = true
    unfold bitOred
    refine bufWrite_sorted _ _ ?_
    rw [growZero_eq]
    exact storeAll_sorted _ _ h

/-! ### The read loop -/

/-- Bit `j` of the word read: the first bit read is the most significant of the `n` (R134). -/
theorem getLsbD_readBits (s : State) (p n j : Nat) (hn : n ≤ 32) :
    (readBits s p n).getLsbD j = (decide (j < n) && getBit s (p + (n - 1 - j))) := by
  induction n generalizing j with
  | zero => simp [readBits]
  | succ n ih =>
    rw [readBits, BitVec.getLsbD_or, BitVec.getLsbD_shiftLeft]
    cases j with
    | zero => simp
    | succ j =>
      have h1 : (BitVec.setWidth 32 (BitVec.ofBool (getBit s (p + n)))).getLsbD (j + 1) = false := by
        simp
      rw [h1, ih _ (by omega)]
      have e : p + (n + 1 - 1 - (j + 1)) = p + (n - 1 - j) := by omega
      rw [e]
      by_cases h : j < n
      · have h' : j + 1 < 32 := by omega
        simp [h, h']
      · simp [h]

@[simp] theorem bitsOf_length (v : Word) (n : Nat) : (bitsOf v n).length = n := by
  induction n with
  | zero => rfl
  | succ n ih => simp [bitsOf, ih]

/-- The bits of a word in stream order: bit `n-1` first. -/
theorem bitsOf_getElem? (v : Word) (n k : Nat) : (bitsOf v n)[k]? = if k < n then some (v.getLsbD (n - 1 - k)) else none := by
  induction n generalizing k with
  | zero => simp [bitsOf]
  | succ n ih =>
    cases k with
    | zero => simp [bitsOf]
    | succ k =>
      simp only [bitsOf, List.getElem?_cons_succ, ih, Nat.add_lt_add_iff_right]
      have : n + 1 - 1 - (k + 1) = n - 1 - k := by omega
      rw [this]

/-- Reading the same bits gives the same word. -/
theorem readBits_congr {s t : State} {p n : Nat} (h : ∀ q, p ≤ q → q < p + n → getBit s q = getBit t q) :
    readBits s p n = readBits t p n := by
  induction n with
  | zero => rfl
  | succ n ih =>
    rw [readBits, readBits, ih fun q h1 h2 => h q h1 (by omega), h (p + n) (by omega) (by omega)]

end Sys2Proof.Machine
end

