-- ==== Sys2Proof/Laws/Bits.lean ====
section
/-! SUPPORT. The stream bits after a write loop (R130, R136), and what it is to complete (R300). -/

namespace Sys2Proof.Machine

theorem bitsWritten_stream_of_ne (l : List Bool) (s : State) (hl : l ≠ []) :
   let t := bitsWritten l s
   t.bsLen = max s.bsLen ((bitPos s + l.length + 7) / 8) ∧
   (∀ k, k < l.length → bitAt t (bitPos s + k) = (bitAt s (bitPos s + k) || (l)[k]?.getD false)) ∧
      (∀ q, q < bitPos s ∨ bitPos s + l.length ≤ q → bitAt t q = bitAt s q) := by
  intro t
  have hlen : 0 < l.length := List.length_pos_of_ne_nil hl
  have h1 : t.bsLen = max s.bsLen ((bitPos s + l.length + 7) / 8) := by
    show (bitsWritten l s).bsLen = _
    rw [bsLen_bitsWritten, if_neg hl]; congr 1; omega
  have hg : ∀ q, bitAt t q = if q < 8 * t.bsLen then (bitAt s q || (decide (bitPos s ≤ q) && (l[q - bitPos s]?).getD false)) else false := by
    intro q
    unfold bitAt
    split_ifs with h
    · rw [getBit_bitsWritten]
      simp only [h, decide_true, Bool.true_and]
      by_cases hq : q < 8 * s.bsLen
      · rw [if_neg (by omega)]; simp [hq]
      · rw [if_pos ⟨by omega, hl, by rw [h1] at h; omega⟩]; simp [hq]
    · simp [h]
  refine ⟨h1, ?_, ?_⟩
  · intro k hk
    rw [hg, if_pos (by rw [h1]; omega)]; simp
  · intro q hq
    rw [hg]
    split_ifs with h
    · rcases hq with hq | hq
      · simp; intro h; omega
      · have : l[q - bitPos s]? = none := by simp; omega
        simp [this]
    · unfold bitAt; simp; intro h'; rw [h1] at h; omega

theorem bitsWritten_stream (l : List Bool) (s : State) :
   let t := bitsWritten l s
   s.bsLen ≤ t.bsLen ∧ (l ≠ [] → bitPos s + l.length ≤ 8 * t.bsLen) ∧
   (∀ k, k < l.length → bitAt t (bitPos s + k) = (bitAt s (bitPos s + k) || (l)[k]?.getD false)) ∧
      (∀ q, q < bitPos s ∨ bitPos s + l.length ≤ q → bitAt t q = bitAt s q) := by
  by_cases hl : l = []
  · subst hl; exact ⟨le_refl _, fun h => absurd rfl h, by simp, fun _ _ => rfl⟩
  · obtain ⟨a, b, c⟩ := bitsWritten_stream_of_ne l s hl
    exact ⟨by rw [a]; omega, fun _ => by rw [a]; omega, b, c⟩

theorem latched_bitsWritten (l : List Bool) (s : State) : latched (bitsWritten l s) = latched s := by
  rw [bitsWritten_frame]; rfl

theorem completed_eq_some {o : Host.Outcome State Fault Refusal} {t} (h : completed o = some t) : o = .next t ∧ latched t = false := by
  unfold completed at h
  cases o with
  | next u => simp only at h; split at h <;> simp at h; subst h; simp_all
  | fault f => cases h
  | refused r => cases h

end Sys2Proof.Machine
end

