-- ==== Sys2Proof/Laws/Trie.lean ====
section
/-! SUPPORT. The trie as a map from path strings to (token index, priority): what walking, touching and
placing do to that map (R161, R163, R169, R170, R187), and that they keep the trie's form (R41, R185). -/

namespace Sys2Proof.Machine

/-! ### Shape: everything but the priorities -/

/-- The trie with all priorities 0. -/
def shape : Trie → Trie
  | .nil => .nil
  | .node off label index _ children next => .node off label index 0 (shape children) (shape next)

@[simp] theorem shape_eq_nil (t : Trie) : shape t = .nil ↔ t = .nil := by cases t <;> simp [shape]

theorem shape_touchWalk (t : Trie) (s : List Byte) (p : Nat) : shape (touchWalk t s p).1 = shape t := by
  induction t generalizing s p with
  | nil => rfl
  | node off label index prio children next ihc ihn =>
    simp only [touchWalk]
    split_ifs <;> simp [shape, ihc, ihn]

theorem keyRises_shape (l : List Byte) (t : Trie) : keyRises l (shape t) = keyRises l t := by
  cases t <;> rfl

theorem siblings_shape (t : Trie) : siblings (shape t) = siblings t := by
  induction t with
  | nil => rfl
  | node off label index prio children next ihc ihn => simp [shape, siblings, ihn]

theorem trieWf_shape (t : Trie) : trieWf (shape t) = trieWf t := by
  induction t with
  | nil => rfl
  | node off label index prio children next ihc ihn =>
    simp only [shape, trieWf, keyRises_shape, siblings_shape, ihc, ihn]

theorem indices_shape (t : Trie) : indices (shape t) = indices t := by
  induction t with
  | nil => rfl
  | node off label index prio children next ihc ihn => simp only [shape, indices, ihc, ihn]

theorem pathOf_shape (i : Nat) (t : Trie) : pathOf i (shape t) = pathOf i t := by
  induction t with
  | nil => rfl
  | node off label index prio children next ihc ihn => simp only [shape, pathOf, ihc, ihn]

theorem walk_shape (d : Nat) (t : Trie) (s : List Byte) : walk d (shape t) s = walk d t s := by
  induction t generalizing d s with
  | nil => rfl
  | node off label index prio children next ihc ihn => simp only [shape, walk, ihc, ihn]

theorem nodeCount_shape (t : Trie) : nodeCount (shape t) = nodeCount t := by
  induction t with
  | nil => rfl
  | node off label index prio children next ihc ihn => simp only [shape, nodeCount, ihc, ihn]

theorem trieWf_touchWalk (t : Trie) (s : List Byte) (p : Nat) : trieWf (touchWalk t s p).1 = trieWf t := by
  rw [← trieWf_shape, shape_touchWalk, trieWf_shape]

theorem indices_touchWalk (t : Trie) (s : List Byte) (p : Nat) : indices (touchWalk t s p).1 = indices t := by
  rw [← indices_shape, shape_touchWalk, indices_shape]

theorem pathOf_touchWalk (i : Nat) (t : Trie) (s : List Byte) (p : Nat) : pathOf i (touchWalk t s p).1 = pathOf i t := by
  rw [← pathOf_shape, shape_touchWalk, pathOf_shape]

theorem walk_touchWalk (d : Nat) (t : Trie) (s : List Byte) (p : Nat) (u : List Byte) :
    walk d (touchWalk t s p).1 u = walk d t u := by
  rw [← walk_shape, shape_touchWalk, walk_shape]

theorem nodeCount_touchWalk (t : Trie) (s : List Byte) (p : Nat) : nodeCount (touchWalk t s p).1 = nodeCount t := by
  rw [← nodeCount_shape, shape_touchWalk, nodeCount_shape]

/-! ### Priorities -/

/-- Touching gives the touched nodes fresh priorities, in order; the counter passes them (R45, R163). -/
theorem touchWalk_prios (t : Trie) (s : List Byte) (p : Nat) :
    p ≤ (touchWalk t s p).2 ∧
    (∀ q ∈ prios (touchWalk t s p).1, q ∈ prios t ∨ p ≤ q ∧ q < (touchWalk t s p).2) ∧
    ((prios t).Nodup → (∀ q ∈ prios t, q < p) → (prios (touchWalk t s p).1).Nodup) := by
  induction t generalizing s p with
  | nil => simp [touchWalk, prios]
  | node off label index prio children next ihc ihn =>
    simp only [touchWalk]
    split_ifs with h1 h2 h3
    · exact ⟨le_refl _, fun q hq => .inl hq, fun h _ => h⟩
    · obtain ⟨c1, c2, c3⟩ := ihc (s.drop label.length) (p + 1)
      simp only [prios, List.cons_append, List.mem_cons, List.mem_append, List.nodup_cons, List.nodup_append]
      refine ⟨by omega, ?_, ?_⟩
      · rintro q (rfl | hq | hq)
        · right; omega
        · rcases c2 q hq with h | h
          · exact .inl (.inr (.inl h))
          · right; omega
        · exact .inl (.inr (.inr hq))
      · rintro ⟨n1, n2, n3, n4⟩ hlt
        refine ⟨?_, c3 n2 fun q hq => by have := hlt q (.inr (.inl hq)); omega, n3, ?_⟩
        · rintro (hq | hq)
          · rcases c2 p hq with h | h
            · have := hlt p (.inr (.inl h)); omega
            · omega
          · have := hlt p (.inr (.inr hq)); omega
        · intro a ha b hb hab
          subst hab
          rcases c2 a ha with h | h
          · exact n4 a h a hb rfl
          · have := hlt a (.inr (.inr hb)); omega
    · exact ⟨le_refl _, fun q hq => .inl hq, fun h _ => h⟩
    · obtain ⟨c1, c2, c3⟩ := ihn s p
      simp only [prios, List.cons_append, List.mem_cons, List.mem_append, List.nodup_cons, List.nodup_append]
      refine ⟨c1, ?_, ?_⟩
      · rintro q (rfl | hq | hq)
        · exact .inl (.inl rfl)
        · exact .inl (.inr (.inl hq))
        · rcases c2 q hq with h | h
          · exact .inl (.inr (.inr h))
          · exact .inr h
      · rintro ⟨n1, n2, n3, n4⟩ hlt
        refine ⟨?_, n2, c3 n3 fun q hq => hlt q (.inr (.inr hq)), ?_⟩
        · rintro (hq | hq)
          · exact n1 (.inl hq)
          · rcases c2 prio hq with h | h
            · exact n1 (.inr h)
            · have := hlt prio (.inl rfl); omega
        · intro a ha b hb hab
          subst hab
          rcases c2 a hb with h | h
          · exact n4 a ha a h rfl
          · have := hlt a (.inr (.inl ha)); omega

/-! ### Keys -/

theorem keyMatches_iff (l s : List Byte) : keyMatches l s = true ↔ l.head? = s.head? := by
  simp [keyMatches]

theorem keyMatches_of_prefix {l s : List Byte} (hl : l ≠ []) (h : l <+: s) : keyMatches l s = true := by
  obtain ⟨r, rfl⟩ := h
  cases l with
  | nil => exact absurd rfl hl
  | cons a l => simp [keyMatches]

theorem keyBefore_iff {l s : List Byte} :
    keyBefore l s = true ↔ ∃ a l' b s', l = a :: l' ∧ s = b :: s' ∧ a.toNat < b.toNat := by
  cases l <;> cases s <;> simp [keyBefore]

theorem keyBefore_trans {l m s : List Byte} (h1 : keyBefore l m = true) (h2 : keyBefore m s = true) :
    keyBefore l s = true := by
  obtain ⟨a, l', b, m', rfl, rfl, h1⟩ := keyBefore_iff.1 h1
  obtain ⟨c, m'', d, s', h, rfl, h2⟩ := keyBefore_iff.1 h2
  cases h
  exact keyBefore_iff.2 ⟨_, _, _, _, rfl, rfl, by omega⟩

theorem keyBefore_not_matches {l s : List Byte} (h : keyBefore l s = true) : keyMatches l s = false := by
  obtain ⟨a, l', b, s', rfl, rfl, h⟩ := keyBefore_iff.1 h
  simp only [keyMatches, List.head?_cons, Option.some_beq_some, beq_eq_false_iff_ne, ne_eq]
  rintro rfl
  omega

theorem keyBefore_congr_left {l m s : List Byte} (h : l.head? = m.head?) : keyBefore l s = keyBefore m s := by
  cases l <;> cases m <;> cases s <;> simp_all [keyBefore]

theorem keyBefore_congr_right {l m s : List Byte} (h : m.head? = s.head?) : keyBefore l m = keyBefore l s := by
  cases m <;> cases s <;> cases l <;> simp_all [keyBefore]

/-- Of two non-empty strings one has the smaller key, or the keys agree. -/
theorem key_trichotomy {l s : List Byte} (hl : l ≠ []) (hs : s ≠ []) :
    keyMatches l s = true ∨ keyBefore l s = true ∨ keyBefore s l = true := by
  cases l with
  | nil => exact absurd rfl hl
  | cons a l =>
    cases s with
    | nil => exact absurd rfl hs
    | cons b s =>
      simp only [keyMatches, List.head?_cons, Option.some_beq_some, beq_iff_eq, keyBefore, decide_eq_true_eq]
      rcases lt_trichotomy a.toNat b.toNat with h | h | h
      · exact .inr (.inl h)
      · exact .inl (BitVec.eq_of_toNat_eq h)
      · exact .inr (.inr h)

/-- Every node of a map has a key after the given one. -/
def keysAfter (l : List Byte) : Trie → Prop
  | .nil => True
  | .node _ label _ _ _ next => keyBefore l label = true ∧ keysAfter l next

theorem trieWf_node {off : Nat} {label : List Byte} {index : Option Nat} {prio : Nat} {children next : Trie} :
    trieWf (.node off label index prio children next) = true ↔
      label ≠ [] ∧ keyRises label next = true ∧ (index.isSome = true ∨ 2 ≤ siblings children) ∧
        trieWf children = true ∧ trieWf next = true := by
  simp only [trieWf, Bool.and_eq_true, Bool.not_eq_true', List.isEmpty_eq_false_iff, ne_eq, Bool.or_eq_true,
    decide_eq_true_eq]
  tauto

theorem keysAfter_of_rises {l : List Byte} {t : Trie} (h : keyRises l t = true) (ht : trieWf t = true) :
    keysAfter l t := by
  induction t generalizing l with
  | nil => trivial
  | node off label index prio children next ihc ihn =>
    have hw := trieWf_node.1 ht
    have h' : keyBefore l label = true := h
    refine ⟨h', ihn ?_ hw.2.2.2.2⟩
    cases next with
    | nil => rfl
    | node off' label' index' prio' children' next' => exact keyBefore_trans h' hw.2.1

theorem rises_of_keysAfter {l : List Byte} {t : Trie} (h : keysAfter l t) : keyRises l t = true := by
  cases t with
  | nil => rfl
  | node off label index prio children next => exact h.1

theorem keysAfter_congr {l m : List Byte} {t : Trie} (h : l.head? = m.head?) (hk : keysAfter l t) : keysAfter m t := by
  induction t with
  | nil => trivial
  | node off label index prio children next ihc ihn => exact ⟨(keyBefore_congr_left h) ▸ hk.1, ihn hk.2⟩

/-! ### The trie as a map: `entryAt` -/

/-- The entry at a path string: the index and priority of the indexed node with that path (R42, R187). -/
def entryAt : Trie → List Byte → Option (Nat × Nat)
  | .nil, _ => none
  | .node _ label index prio children next, u =>
    if keyMatches label u then
      if u = label then index.map fun i => (i, prio)
      else if label.isPrefixOf u then entryAt children (u.drop label.length)
      else none
    else entryAt next u

theorem entryAt_nil_string {t : Trie} (h : trieWf t = true) : entryAt t [] = none := by
  induction t with
  | nil => rfl
  | node off label index prio children next ihc ihn =>
    have hw := trieWf_node.1 h
    have : keyMatches label [] = false := by
      cases label with
      | nil => exact absurd rfl hw.1
      | cons a l => rfl
    simp [entryAt, this, ihn hw.2.2.2.2]

theorem entryAt_keysAfter {l u : List Byte} {t : Trie} (hk : keysAfter l t) (hu : keyMatches l u = true ∨ keyBefore u l = true) :
    entryAt t u = none := by
  induction t with
  | nil => rfl
  | node off label index prio children next ihc ihn =>
    have : keyMatches label u = false := by
      rcases hu with hu | hu
      · have h1 : keyBefore u label = true := by
          rw [← keyBefore_congr_left ((keyMatches_iff l u).1 hu)]; exact hk.1
        have h2 := keyBefore_not_matches h1
        rw [Bool.eq_false_iff] at h2 ⊢
        exact fun h3 => h2 ((keyMatches_iff _ _).2 ((keyMatches_iff _ _).1 h3).symm)
      · have h2 := keyBefore_not_matches (keyBefore_trans hu hk.1)
        rw [Bool.eq_false_iff] at h2 ⊢
        exact fun h3 => h2 ((keyMatches_iff _ _).2 ((keyMatches_iff _ _).1 h3).symm)
    simp [entryAt, this, ihn hk.2]

/-- In a well-formed trie the entries listed by `entries` are exactly the map's. -/
theorem mem_entries {t : Trie} (h : trieWf t = true) (pre : List Byte) (i q : Nat) (w : List Byte) :
    (i, w, q) ∈ entries pre t ↔ ∃ u, w = pre ++ u ∧ entryAt t u = some (i, q) := by
  induction t generalizing pre w with
  | nil => simp [entries, entryAt]
  | node off label index prio children next ihc ihn =>
    have hw := trieWf_node.1 h
    have hka := keysAfter_of_rises hw.2.1 hw.2.2.2.2
    simp only [entries, List.mem_append, ihc hw.2.2.2.1, ihn hw.2.2.2.2]
    constructor
    · rintro ((h1 | ⟨u, rfl, h1⟩) | ⟨u, rfl, h1⟩)
      · cases index with
        | none => simp at h1
        | some j =>
          simp only [List.mem_singleton, Prod.mk.injEq] at h1
          obtain ⟨rfl, rfl, rfl⟩ := h1
          exact ⟨label, rfl, by simp [entryAt, keyMatches]⟩
      · refine ⟨label ++ u, by simp, ?_⟩
        have hu : u ≠ [] := by
          rintro rfl; rw [entryAt_nil_string hw.2.2.2.1] at h1; cases h1
        have h2 : keyMatches label (label ++ u) = true := keyMatches_of_prefix hw.1 (List.prefix_append _ _)
        have h3 : ¬ label ++ u = label := by simpa using hu
        simp [entryAt, h2, h3, h1]
      · refine ⟨u, rfl, ?_⟩
        have h2 : keyMatches label u = false := by
          by_contra h3
          rw [Bool.not_eq_false] at h3
          rw [entryAt_keysAfter hka (.inl h3)] at h1; cases h1
        simp [entryAt, h2, h1]
    · rintro ⟨u, rfl, h1⟩
      rw [entryAt] at h1
      split_ifs at h1 with h2 h3 h4
      · subst h3
        left; left
        cases index with
        | none => simp at h1
        | some j => simp at h1; simp [h1]
      · left; right
        obtain ⟨r, rfl⟩ := List.isPrefixOf_iff_prefix.1 h4
        exact ⟨r, by simp, by simpa using h1⟩
      · right
        exact ⟨u, rfl, h1⟩

theorem mem_entries_root {t : Trie} (h : trieWf t = true) (i q : Nat) (w : List Byte) :
    (i, w, q) ∈ entries [] t ↔ entryAt t w = some (i, q) := by
  rw [mem_entries h]; simp

/-! ### Touching and the map -/

/-- Touching changes priorities only, and only of the nodes whose path is a prefix of the string (R163). -/
theorem entryAt_touchWalk {t : Trie} (h : trieWf t = true) (s : List Byte) (p : Nat) (u : List Byte) :
    (entryAt (touchWalk t s p).1 u).map Prod.fst = (entryAt t u).map Prod.fst ∧
    (¬ u <+: s → entryAt (touchWalk t s p).1 u = entryAt t u) := by
  induction t generalizing s p u with
  | nil => simp [touchWalk, entryAt]
  | node off label index prio children next ihc ihn =>
    have hw := trieWf_node.1 h
    simp only [touchWalk]
    split_ifs with h1 h2 h3
    · exact ⟨rfl, fun _ => rfl⟩
    · obtain ⟨r, rfl⟩ := List.isPrefixOf_iff_prefix.1 h3
      rw [List.drop_left]
      simp only [entryAt]
      split_ifs with g1 g2 g3
      · subst g2
        refine ⟨by cases index <;> rfl, fun g => absurd (List.prefix_append _ _) g⟩
      · obtain ⟨v, rfl⟩ := List.isPrefixOf_iff_prefix.1 g3
        rw [List.drop_left]
        refine ⟨(ihc hw.2.2.2.1 r (p + 1) v).1, fun g => (ihc hw.2.2.2.1 r (p + 1) v).2 fun g' => g ?_⟩
        exact (List.prefix_append_right_inj label).2 g'
      · exact ⟨rfl, fun _ => rfl⟩
      · exact ⟨rfl, fun _ => rfl⟩
    · exact ⟨rfl, fun _ => rfl⟩
    · simp only [entryAt]
      split_ifs with g1 g2 g3
      · exact ⟨rfl, fun _ => rfl⟩
      · exact ⟨rfl, fun _ => rfl⟩
      · exact ⟨rfl, fun _ => rfl⟩
      · exact ihn hw.2.2.2.2 s p u

/-! ### Walking and the map -/

theorem lastIndexed_cons (index : Option Nat) (d : Nat) (rest : List (Option Nat × Nat)) :
    lastIndexed ((index, d) :: rest) = (lastIndexed rest <|> index.map fun i => (i, d)) := by
  simp only [lastIndexed]
  cases lastIndexed rest <;> rfl

/-- The answer of a walk (R175): the longest entry whose string is a prefix of the string walked. -/
theorem lastIndexed_walk {t : Trie} (h : trieWf t = true) (d : Nat) (s : List Byte) :
    (∀ i n, lastIndexed (walk d t s).1 = some (i, n) →
      ∃ u q, u ≠ [] ∧ u <+: s ∧ n = d + u.length ∧ entryAt t u = some (i, q) ∧
        ∀ v e, v <+: s → entryAt t v = some e → v.length ≤ u.length) ∧
    (lastIndexed (walk d t s).1 = none → ∀ v, v <+: s → entryAt t v = none) := by
  induction t generalizing d s with
  | nil => simp [walk, lastIndexed, entryAt]
  | node off label index prio children next ihc ihn =>
    have hw := trieWf_node.1 h
    have hka := keysAfter_of_rises hw.2.1 hw.2.2.2.2
    simp only [walk]
    split_ifs with h1 h2 h3
    · subst h1
      refine ⟨by simp [lastIndexed], fun _ v hv => ?_⟩
      rw [List.prefix_nil.1 hv]
      exact entryAt_nil_string h
    · obtain ⟨r, rfl⟩ := List.isPrefixOf_iff_prefix.1 h3
      rw [List.drop_left]
      obtain ⟨c1, c2⟩ := ihc hw.2.2.2.1 (d + label.length) r
      have key : ∀ v, v <+: label ++ r → entryAt (.node off label index prio children next) v =
          if v = label then index.map (fun i => (i, prio)) else
            if label <+: v then entryAt children (v.drop label.length) else none := by
        intro v hv
        by_cases hvn : v = []
        · subst hvn
          rw [entryAt_nil_string h, if_neg (fun h => hw.1 h.symm), if_neg]
          exact fun h' => hw.1 (List.prefix_nil.1 h')
        · have hk : keyMatches label v = true := by
            rw [keyMatches_iff] at h2 ⊢
            obtain ⟨w, hw'⟩ := hv
            rw [h2, ← hw']
            cases v with
            | nil => exact absurd rfl hvn
            | cons a v => rfl
          simp only [entryAt, hk, if_true, List.isPrefixOf_iff_prefix]
      simp only [lastIndexed_cons]
      cases hl : lastIndexed (walk (d + label.length) children r).1 with
      | some x =>
        obtain ⟨i, n⟩ := x
        obtain ⟨u, q, hu1, hu2, hu3, hu4, hu5⟩ := c1 i n hl
        refine ⟨?_, by simp⟩
        rintro i' n' ⟨⟩
        refine ⟨label ++ u, q, by simp [hu1], (List.prefix_append_right_inj label).2 hu2, by simp; omega, ?_, ?_⟩
        · rw [key _ ((List.prefix_append_right_inj label).2 hu2), if_neg (by simpa using hu1),
            if_pos (List.prefix_append _ _), List.drop_left, hu4]
        · intro v e hv he
          rw [key v hv] at he
          split_ifs at he with g1 g2
          · subst g1; simp
          · obtain ⟨w, rfl⟩ := g2
            rw [List.drop_left] at he
            have := hu5 w e ((List.prefix_append_right_inj label).1 hv) he
            simp; omega
      | none =>
        have hnone := c2 hl
        cases index with
        | some j =>
          refine ⟨?_, by simp⟩
          rintro i n hin
          simp only [Option.map_some, Option.orElse_eq_orElse, Option.orElse_eq_or, Option.none_or, Option.some.injEq,
            Prod.mk.injEq] at hin
          obtain ⟨rfl, rfl⟩ := hin
          refine ⟨label, prio, hw.1, List.prefix_append _ _, rfl, ?_, ?_⟩
          · rw [key _ (List.prefix_append _ _), if_pos rfl]; rfl
          · intro v e hv he
            rw [key v hv] at he
            split_ifs at he with g1 g2
            · subst g1; rfl
            · obtain ⟨w, rfl⟩ := g2
              rw [List.drop_left, hnone w ((List.prefix_append_right_inj label).1 hv)] at he
              cases he
        | none =>
          refine ⟨by simp, fun _ v hv => ?_⟩
          rw [key v hv]
          split_ifs with g1 g2
          · rfl
          · obtain ⟨w, rfl⟩ := g2
            rw [List.drop_left, hnone w ((List.prefix_append_right_inj label).1 hv)]
          · rfl
    · refine ⟨by simp [lastIndexed], fun _ v hv => ?_⟩
      by_cases hvn : v = []
      · subst hvn; exact entryAt_nil_string h
      · have hk : keyMatches label v = true := by
          rw [keyMatches_iff] at h2 ⊢
          obtain ⟨w, rfl⟩ := hv
          rw [h2]
          cases v with
          | nil => exact absurd rfl hvn
          | cons a v => rfl
        have hn : ¬ label <+: v := fun g => h3 (List.isPrefixOf_iff_prefix.2 (g.trans hv))
        simp only [entryAt, hk, if_true]
        rw [if_neg (fun g => hn (by rw [g])), if_neg (fun g => hn (List.isPrefixOf_iff_prefix.1 g))]
    · obtain ⟨c1, c2⟩ := ihn hw.2.2.2.2 d s
      have key : ∀ v, v <+: s → entryAt (.node off label index prio children next) v = entryAt next v := by
        intro v hv
        by_cases hvn : v = []
        · subst hvn
          rw [entryAt_nil_string h, entryAt_nil_string hw.2.2.2.2]
        · have hk : keyMatches label v = false := by
            rw [Bool.eq_false_iff, ne_eq, keyMatches_iff] at *
            obtain ⟨w, rfl⟩ := hv
            cases v with
            | nil => exact absurd rfl hvn
            | cons a v => exact h2
          simp [entryAt, hk]
      refine ⟨fun i n hin => ?_, fun hn v hv => by rw [key v hv]; exact c2 hn v hv⟩
      obtain ⟨u, q, hu1, hu2, hu3, hu4, hu5⟩ := c1 i n hin
      exact ⟨u, q, hu1, hu2, hu3, by rw [key u hu2]; exact hu4, fun v e hv he => hu5 v e hv (by rw [← key v hv]; exact he)⟩

end Sys2Proof.Machine
end

