-- ==== Sys2Proof/Laws/Place.lean ====
section
/-! SUPPORT. Placing a string (R169, R170): the trie keeps its form, the string gets its entry with the
highest priority, no other entry changes but for the priorities of the prefixes (R171, R187). -/

namespace Sys2Proof.Machine

/-! ### Common prefixes -/

/-- Two strings part after their longest common prefix (R12). -/
theorem lcp_split (l s : List Byte) : ∃ m l' s', l = m ++ l' ∧ s = m ++ s' ∧ lcp l s = m.length ∧
    (l' = [] ∨ s' = [] ∨ l'.head? ≠ s'.head?) := by
  induction l generalizing s with
  | nil => exact ⟨[], [], s, rfl, rfl, by cases s <;> rfl, .inl rfl⟩
  | cons a l ih =>
    cases s with
    | nil => exact ⟨[], a :: l, [], rfl, rfl, rfl, .inr (.inl rfl)⟩
    | cons b s =>
      by_cases h : a = b
      · subst h
        obtain ⟨m, l', s', rfl, rfl, h1, h2⟩ := ih s
        exact ⟨a :: m, l', s', rfl, rfl, by simp [lcp, h1], h2⟩
      · exact ⟨[], a :: l, b :: s, rfl, rfl, by simp [lcp, h], .inr (.inr (by simpa using h))⟩

/-- What a split finds (R170): a common part, the rest of the label, the rest of the string, which is
empty or starts with another key. -/
theorem split_parts {label s : List Byte} (hl : label ≠ []) (hk : keyMatches label s = true) (hp : ¬ label <+: s) :
    ∃ m l' s', label = m ++ l' ∧ s = m ++ s' ∧ lcp label s = m.length ∧ m ≠ [] ∧ l' ≠ [] ∧
      (s' = [] ∨ s' ≠ [] ∧ keyMatches l' s' = false) := by
  obtain ⟨m, l', s', rfl, rfl, h1, h2⟩ := lcp_split label s
  have hl' : l' ≠ [] := by
    rintro rfl
    exact hp (by simp)
  refine ⟨m, l', s', rfl, rfl, h1, ?_, hl', ?_⟩
  · rintro rfl
    rcases h2 with h2 | h2 | h2
    · exact hl' h2
    · subst h2
      rw [keyMatches_iff] at hk
      cases l' with
      | nil => exact hl' rfl
      | cons a l => simp at hk
    · exact h2 ((keyMatches_iff _ _).1 hk)
  · by_cases hs : s' = []
    · exact .inl hs
    · refine .inr ⟨hs, ?_⟩
      rw [Bool.eq_false_iff, ne_eq, keyMatches_iff]
      rcases h2 with h2 | h2 | h2
      · exact absurd h2 hl'
      · exact absurd h2 hs
      · exact h2

/-- The two outcomes of a split, with the parts named. -/
theorem splitNode_parts (off : Nat) (m l' s' : List Byte) (index : Option Nat) (prio : Nat) (children next : Trie)
    (soff idx p : Nat) (hc : lcp (m ++ l') (m ++ s') = m.length) :
    splitNode off (m ++ l') index prio children next soff (m ++ s') idx p =
      if s' = [] then
        (.node off m (some idx) p (.node (off + m.length) l' index prio children .nil) next, p + 1)
      else
        (.node off m none p
          (if keyBefore l' s' then
            .node (off + m.length) l' index prio children (.node (soff + m.length) s' (some idx) (p + 1) .nil .nil)
          else
            .node (soff + m.length) s' (some idx) (p + 1) .nil (.node (off + m.length) l' index prio children .nil))
          next, p + 2) := by
  unfold splitNode
  simp only [hc, List.drop_left, List.take_left, List.length_append]
  by_cases hs : s' = []
  · subst hs; simp
  · have : s'.length ≠ 0 := by simpa using hs
    rw [if_neg (by omega), if_neg hs]

/-! ### The cases of a placement -/

theorem place_nil (soff : Nat) (s : List Byte) (idx p : Nat) :
    place .nil soff s idx p = (.node soff s (some idx) p .nil .nil, p + 1) := rfl

/-- Induction over the walk of a placement: a statement about `place t soff s idx p` holds when it holds
for each way the walk goes at one node. -/
theorem place_induction {P : Trie → Nat → List Byte → Nat → Trie → Nat → Prop} {idx : Nat}
    (hnil : ∀ soff s p, s ≠ [] → P .nil soff s p (.node soff s (some idx) p .nil .nil) (p + 1))
    (hexact : ∀ off label index prio children next soff p,
      trieWf (.node off label index prio children next) = true →
      P (.node off label index prio children next) soff label p (.node off label (some idx) p children next) (p + 1))
    (hdown : ∀ off label index prio children next soff r p ch p',
      trieWf (.node off label index prio children next) = true → r ≠ [] →
      P children (soff + label.length) r (p + 1) ch p' →
      P (.node off label index prio children next) soff (label ++ r) p (.node off label index p ch next) p')
    (hend : ∀ off m l' index prio children next soff p,
      trieWf (.node off (m ++ l') index prio children next) = true → m ≠ [] → l' ≠ [] →
      P (.node off (m ++ l') index prio children next) soff m p
        (.node off m (some idx) p (.node (off + m.length) l' index prio children .nil) next) (p + 1))
    (hleft : ∀ off m l' s' index prio children next soff p,
      trieWf (.node off (m ++ l') index prio children next) = true → m ≠ [] → l' ≠ [] → s' ≠ [] →
      keyBefore l' s' = true →
      P (.node off (m ++ l') index prio children next) soff (m ++ s') p
        (.node off m none p (.node (off + m.length) l' index prio children
          (.node (soff + m.length) s' (some idx) (p + 1) .nil .nil)) next) (p + 2))
    (hright : ∀ off m l' s' index prio children next soff p,
      trieWf (.node off (m ++ l') index prio children next) = true → m ≠ [] → l' ≠ [] → s' ≠ [] →
      keyBefore s' l' = true →
      P (.node off (m ++ l') index prio children next) soff (m ++ s') p
        (.node off m none p (.node (soff + m.length) s' (some idx) (p + 1) .nil
          (.node (off + m.length) l' index prio children .nil)) next) (p + 2))
    (hnext : ∀ off label index prio children next soff s p nx p',
      trieWf (.node off label index prio children next) = true → s ≠ [] → keyBefore label s = true →
      P next soff s p nx p' →
      P (.node off label index prio children next) soff s p (.node off label index prio children nx) p')
    (hbefore : ∀ off label index prio children next soff s p,
      trieWf (.node off label index prio children next) = true → s ≠ [] → keyBefore s label = true →
      P (.node off label index prio children next) soff s p
        (.node soff s (some idx) p .nil (.node off label index prio children next)) (p + 1))
    (t : Trie) (soff : Nat) (s : List Byte) (p : Nat) (ht : trieWf t = true) (hs : s ≠ []) :
    P t soff s p (place t soff s idx p).1 (place t soff s idx p).2 := by
  induction t generalizing soff s p with
  | nil => exact hnil soff s p hs
  | node off label index prio children next ihc ihn =>
    have hw := trieWf_node.1 ht
    simp only [place]
    by_cases hk : keyMatches label s = true
    · rw [if_pos hk]
      by_cases hp : label <+: s
      · rw [if_pos (List.isPrefixOf_iff_prefix.2 hp)]
        obtain ⟨r, rfl⟩ := hp
        by_cases hr : r = []
        · subst hr
          rw [List.append_nil, if_pos rfl]
          exact hexact off label index prio children next soff p ht
        · have : r.length ≠ 0 := by simpa using hr
          rw [if_neg (by rw [List.length_append]; omega), List.drop_left]
          exact hdown off label index prio children next soff r p _ _ ht hr (ihc _ r (p + 1) hw.2.2.2.1 hr)
      · rw [if_neg (fun h => hp (List.isPrefixOf_iff_prefix.1 h))]
        obtain ⟨m, l', s', rfl, rfl, h1, hm, hl', h2⟩ := split_parts hw.1 hk hp
        rw [splitNode_parts _ _ _ _ _ _ _ _ _ _ _ h1]
        rcases h2 with rfl | ⟨h2, h3⟩
        · rw [if_pos rfl, List.append_nil]
          exact hend off m l' index prio children next soff p ht hm hl'
        · rw [if_neg h2]
          rcases key_trichotomy hl' h2 with h4 | h4 | h4
          · rw [h3] at h4; cases h4
          · rw [if_pos h4]
            exact hleft off m l' s' index prio children next soff p ht hm hl' h2 h4
          · have h5 : keyBefore l' s' = false := by
              rw [Bool.eq_false_iff]
              intro h5
              have := keyBefore_not_matches (keyBefore_trans h4 h5)
              simp [keyMatches] at this
            rw [h5]
            exact hright off m l' s' index prio children next soff p ht hm hl' h2 h4
    · rw [if_neg hk]
      rcases key_trichotomy hw.1 hs with h4 | h4 | h4
      · exact absurd h4 hk
      · rw [if_pos h4]
        exact hnext off label index prio children next soff s p _ _ ht hs h4 (ihn soff s p hw.2.2.2.2 hs)
      · have h5 : keyBefore label s = false := by
          rw [Bool.eq_false_iff]
          intro h5
          have := keyBefore_not_matches (keyBefore_trans h4 h5)
          simp [keyMatches] at this
        rw [h5]
        exact hbefore off label index prio children next soff s p ht hs h4

/-! ### Form -/

theorem keysAfter_trans {l m : List Byte} {t : Trie} (h : keyBefore l m = true) (hk : keysAfter m t) : keysAfter l t := by
  induction t with
  | nil => trivial
  | node off label index prio children next ihc ihn => exact ⟨keyBefore_trans h hk.1, ihn hk.2⟩

/-- A placement keeps the form of the trie (R41, R185); the map it lands in loses no node, and its keys
stay above any key that was below them all and below the placed one. -/
theorem place_form (idx : Nat) (t : Trie) (soff : Nat) (s : List Byte) (p : Nat) (ht : trieWf t = true) (hs : s ≠ []) :
    trieWf (place t soff s idx p).1 = true ∧ siblings t ≤ siblings (place t soff s idx p).1 ∧
    (∀ l, keysAfter l t → keyBefore l s = true → keysAfter l (place t soff s idx p).1) := by
  refine place_induction (P := fun t _ s _ t' _ => trieWf t' = true ∧ siblings t ≤ siblings t' ∧
    (∀ l, keysAfter l t → keyBefore l s = true → keysAfter l t')) ?_ ?_ ?_ ?_ ?_ ?_ ?_ ?_ t soff s p ht hs
  · intro soff s p hs
    exact ⟨trieWf_node.2 ⟨hs, rfl, .inl rfl, rfl, rfl⟩, by simp [siblings], fun l _ h => ⟨h, trivial⟩⟩
  · intro off label index prio children next soff p ht
    have hw := trieWf_node.1 ht
    exact ⟨trieWf_node.2 ⟨hw.1, hw.2.1, .inl rfl, hw.2.2.2⟩, le_refl _, fun l h _ => h⟩
  · intro off label index prio children next soff r p ch p' ht hr ih
    have hw := trieWf_node.1 ht
    refine ⟨trieWf_node.2 ⟨hw.1, hw.2.1, ?_, ih.1, hw.2.2.2.2⟩, le_refl _, fun l h _ => h⟩
    rcases hw.2.2.1 with h | h
    · exact .inl h
    · exact .inr (le_trans h ih.2.1)
  · intro off m l' index prio children next soff p ht hm hl'
    have hw := trieWf_node.1 ht
    have hh : (m ++ l').head? = m.head? := by cases m <;> simp_all
    have hka := keysAfter_congr hh (keysAfter_of_rises hw.2.1 hw.2.2.2.2)
    refine ⟨trieWf_node.2 ⟨hm, rises_of_keysAfter hka, .inl rfl,
      trieWf_node.2 ⟨hl', rfl, hw.2.2.1, hw.2.2.2.1, rfl⟩, hw.2.2.2.2⟩, le_refl _, fun l h h' => ⟨h', h.2⟩⟩
  · intro off m l' s' index prio children next soff p ht hm hl' hs' hb
    have hw := trieWf_node.1 ht
    have hh : (m ++ l').head? = m.head? := by cases m <;> simp_all
    have hka := keysAfter_congr hh (keysAfter_of_rises hw.2.1 hw.2.2.2.2)
    refine ⟨trieWf_node.2 ⟨hm, rises_of_keysAfter hka, .inr (by simp [siblings]),
      trieWf_node.2 ⟨hl', hb, hw.2.2.1, hw.2.2.2.1, trieWf_node.2 ⟨hs', rfl, .inl rfl, rfl, rfl⟩⟩, hw.2.2.2.2⟩,
      le_refl _, fun l h _ => ⟨?_, h.2⟩⟩
    rw [← keyBefore_congr_right hh]; exact h.1
  · intro off m l' s' index prio children next soff p ht hm hl' hs' hb
    have hw := trieWf_node.1 ht
    have hh : (m ++ l').head? = m.head? := by cases m <;> simp_all
    have hka := keysAfter_congr hh (keysAfter_of_rises hw.2.1 hw.2.2.2.2)
    refine ⟨trieWf_node.2 ⟨hm, rises_of_keysAfter hka, .inr (by simp [siblings]),
      trieWf_node.2 ⟨hs', hb, .inl rfl, rfl, trieWf_node.2 ⟨hl', rfl, hw.2.2.1, hw.2.2.2.1, rfl⟩⟩, hw.2.2.2.2⟩,
      le_refl _, fun l h _ => ⟨?_, h.2⟩⟩
    rw [← keyBefore_congr_right hh]; exact h.1
  · intro off label index prio children next soff s p nx p' ht hs hb ih
    have hw := trieWf_node.1 ht
    have hka := keysAfter_of_rises hw.2.1 hw.2.2.2.2
    refine ⟨trieWf_node.2 ⟨hw.1, rises_of_keysAfter (ih.2.2 label hka hb), hw.2.2.1, hw.2.2.2.1, ih.1⟩, ?_,
      fun l h h' => ⟨h.1, ih.2.2 l h.2 h'⟩⟩
    simp only [siblings]; have := ih.2.1; omega
  · intro off label index prio children next soff s p ht hs hb
    exact ⟨trieWf_node.2 ⟨hs, hb, .inl rfl, rfl, ht⟩, by simp [siblings], fun l h h' => ⟨h', h⟩⟩

theorem place_wf {idx : Nat} {t : Trie} {soff : Nat} {s : List Byte} {p : Nat} (ht : trieWf t = true) (hs : s ≠ []) :
    trieWf (place t soff s idx p).1 = true := (place_form idx t soff s p ht hs).1

/-! ### The map -/

theorem entryAt_self (off : Nat) (label : List Byte) (index : Option Nat) (prio : Nat) (children next : Trie) :
    entryAt (.node off label index prio children next) label = index.map fun i => (i, prio) := by
  simp [entryAt, keyMatches]

theorem entryAt_below {off : Nat} {label : List Byte} {index : Option Nat} {prio : Nat} {children next : Trie}
    {r : List Byte} (hl : label ≠ []) (hr : r ≠ []) :
    entryAt (.node off label index prio children next) (label ++ r) = entryAt children r := by
  have h1 : keyMatches label (label ++ r) = true := keyMatches_of_prefix hl (List.prefix_append _ _)
  simp [entryAt, h1, hr]

theorem entryAt_other {off : Nat} {label : List Byte} {index : Option Nat} {prio : Nat} {children next : Trie}
    {u : List Byte} (h : keyMatches label u = false) :
    entryAt (.node off label index prio children next) u = entryAt next u := by
  simp [entryAt, h]

theorem entryAt_part {off : Nat} {label : List Byte} {index : Option Nat} {prio : Nat} {children next : Trie}
    {u : List Byte} (h : keyMatches label u = true) (hp : ¬ label <+: u) :
    entryAt (.node off label index prio children next) u = none := by
  rw [entryAt, if_pos h, if_neg, if_neg (fun g => hp (List.isPrefixOf_iff_prefix.1 g))]
  rintro rfl
  exact hp (List.prefix_refl _)

/-- How the label of a node parts a string: another key, a part of the label, the label, or below it. -/
theorem key_cases {label u : List Byte} (P : Prop)
    (h1 : keyMatches label u = false → P) (h2 : keyMatches label u = true → ¬ label <+: u → P)
    (h3 : u = label → P) (h4 : ∀ r, r ≠ [] → u = label ++ r → P) : P := by
  by_cases hk : keyMatches label u = true
  · by_cases hp : label <+: u
    · obtain ⟨r, rfl⟩ := hp
      by_cases hr : r = []
      · exact h3 (by simp [hr])
      · exact h4 r hr rfl
    · exact h2 hk hp
  · exact h1 (Bool.eq_false_iff.2 hk)

/-- A node with a long label read at a string that shares a part of it. -/
theorem entryAt_long {off off' : Nat} {m l' r : List Byte} {index : Option Nat} {prio : Nat} {children next : Trie}
    (hm : m ≠ []) (hl : l' ≠ []) (hr : r ≠ []) :
    entryAt (.node off (m ++ l') index prio children next) (m ++ r) = entryAt (.node off' l' index prio children .nil) r := by
  have hk : keyMatches (m ++ l') (m ++ r) = true := by
    rw [keyMatches_iff]; cases m <;> simp_all
  refine key_cases (label := l') (u := r) _ ?_ ?_ ?_ ?_
  · intro h
    rw [entryAt_other h, entryAt_part hk]
    · rfl
    · intro g
      have := keyMatches_of_prefix hl ((List.prefix_append_right_inj m).1 g)
      rw [h] at this; cases this
  · intro h g
    rw [entryAt_part h g, entryAt_part hk fun g' => g ((List.prefix_append_right_inj m).1 g')]
  · rintro rfl
    rw [entryAt_self, entryAt_self]
  · rintro q hq rfl
    rw [entryAt_below hl hq, ← List.append_assoc, entryAt_below (by simp [hl]) hq]

theorem entryAt_leaf {off : Nat} {label : List Byte} {i q : Nat} {r : List Byte} :
    entryAt (.node off label (some i) q .nil .nil) r = if r = label then some (i, q) else none := by
  by_cases h : r = label
  · subst h; rw [entryAt_self, if_pos rfl]; rfl
  · rw [if_neg h]
    simp [entryAt, h]

/-- A part of the label of a node has no entry. -/
theorem entryAt_short {off : Nat} {m l' : List Byte} {index : Option Nat} {prio : Nat} {children next : Trie}
    (hm : m ≠ []) (hl : l' ≠ []) : entryAt (.node off (m ++ l') index prio children next) m = none := by
  refine entryAt_part ?_ ?_
  · rw [keyMatches_iff]; cases m <;> simp_all
  · intro h
    have h1 := h.length_le
    have h2 : l'.length ≠ 0 := by simpa using hl
    rw [List.length_append] at h1
    omega

/-- What the trie a split leaves reads as: as before, but for the entry of the string placed. -/
theorem entryAt_split {off off' offs : Nat} {m l' s' : List Byte} {index : Option Nat} {prio q q' idx : Nat}
    {children next : Trie} {two : Trie} (hm : m ≠ []) (hl : l' ≠ []) (hs : s' ≠ []) (hk : keyMatches l' s' = false)
    (ht : two = .node off' l' index prio children (.node offs s' (some idx) q .nil .nil) ∨
      two = .node offs s' (some idx) q .nil (.node off' l' index prio children .nil)) (u : List Byte) :
    entryAt (.node off m none q' two next) u =
      if u = m ++ s' then some (idx, q) else entryAt (.node off (m ++ l') index prio children next) u := by
  have hh : ∀ v : List Byte, keyMatches (m ++ l') v = keyMatches m v := by
    intro v
    have : (m ++ l').head? = m.head? := by cases m <;> simp_all
    simp [keyMatches, this]
  have hk' : ∀ {r : List Byte}, keyMatches l' r = true → keyMatches s' r = false := by
    intro r h
    rw [Bool.eq_false_iff]
    intro h'
    rw [keyMatches_iff] at h h'
    rw [Bool.eq_false_iff, ne_eq, keyMatches_iff] at hk
    exact hk (h.trans h'.symm)
  have htwo : ∀ r, entryAt two r = if r = s' then some (idx, q) else entryAt (.node off' l' index prio children .nil) r := by
    intro r
    by_cases hlr : keyMatches l' r = true
    · have h1 := hk' hlr
      have h2 : r ≠ s' := by
        rintro rfl
        simp [keyMatches] at h1
      rw [if_neg h2]
      rcases ht with rfl | rfl
      · simp only [entryAt, hlr, if_true]
      · rw [entryAt_other h1]
    · rw [Bool.not_eq_true] at hlr
      rw [entryAt_other hlr (next := .nil)]
      rcases ht with rfl | rfl
      · rw [entryAt_other hlr, entryAt_leaf]; rfl
      · refine key_cases (label := s') (u := r) _ ?_ ?_ ?_ ?_
        · intro h
          have h2 : r ≠ s' := by
            rintro rfl
            simp [keyMatches] at h
          rw [entryAt_other h, entryAt_other hlr, if_neg h2]
        · intro h g
          have h2 : r ≠ s' := by
            rintro rfl
            exact g (List.prefix_refl _)
          rw [entryAt_part h g, if_neg h2]; rfl
        · rintro rfl
          rw [entryAt_self, if_pos rfl]; rfl
        · rintro z hz rfl
          rw [entryAt_below hs hz, if_neg (by simpa using hz)]
          rfl
  refine key_cases (label := m) (u := u) _ ?_ ?_ ?_ ?_
  · intro h
    have h2 : u ≠ m ++ s' := by
      rintro rfl
      rw [keyMatches_of_prefix hm (List.prefix_append _ _)] at h
      cases h
    rw [entryAt_other h, if_neg h2, entryAt_other (by rw [hh]; exact h)]
  · intro h g
    have h2 : u ≠ m ++ s' := by
      rintro rfl
      exact g (List.prefix_append _ _)
    rw [entryAt_part h g, if_neg h2, entryAt_part (by rw [hh]; exact h) fun g' => g ((List.prefix_append m l').trans g')]
  · rintro rfl
    rw [entryAt_self, if_neg (by simpa using hs), entryAt_short hm hl]; rfl
  · rintro r hr rfl
    rw [entryAt_below hm hr, htwo, entryAt_long (off' := off') hm hl hr]
    simp only [List.append_cancel_left_eq]

/-- The diverging split (R170) as a case of a placement. -/
theorem split_case {off idx prio p : Nat} {m l' s' : List Byte} {index : Option Nat} {children next t' : Trie}
    (ht : trieWf (.node off (m ++ l') index prio children next) = true) (hm : m ≠ []) (hl : l' ≠ [])
    (hk : keyMatches l' s' = false)
    (key : ∀ u, entryAt t' u =
      if u = m ++ s' then some (idx, p + 1) else entryAt (.node off (m ++ l') index prio children next) u) :
    p < p + 2 ∧ entryAt t' (m ++ s') = some (idx, p + 2 - 1) ∧
    (∀ u, u ≠ m ++ s' →
      (entryAt t' u).map Prod.fst = (entryAt (.node off (m ++ l') index prio children next) u).map Prod.fst ∧
      (¬ u <+: m ++ s' → entryAt t' u = entryAt (.node off (m ++ l') index prio children next) u)) ∧
    (∀ u i q, u <+: m ++ s' → entryAt t' u = some (i, q) → p ≤ q ∧ q < p + 2) ∧
    (∀ u v i j q r, u <+: v → v <+: m ++ s' → u ≠ v → entryAt t' u = some (i, q) →
      entryAt t' v = some (j, r) → q < r) := by
  have hpre : ∀ u, u <+: m ++ s' → entryAt (.node off (m ++ l') index prio children next) u = none := by
    intro u hu
    by_cases hu0 : u = []
    · subst hu0; exact entryAt_nil_string ht
    · refine entryAt_part ?_ ?_
      · rw [keyMatches_iff]
        obtain ⟨z, hz⟩ := hu
        cases u with
        | nil => exact absurd rfl hu0
        | cons a u =>
          cases m with
          | nil => exact absurd rfl hm
          | cons b m => simp at hz ⊢; exact hz.1.symm
      · intro g
        have := keyMatches_of_prefix hl ((List.prefix_append_right_inj m).1 (g.trans hu))
        rw [hk] at this; cases this
  refine ⟨by omega, by rw [key, if_pos rfl]; rfl, ?_, ?_, ?_⟩
  · intro u hu; rw [key, if_neg hu]; exact ⟨rfl, fun _ => rfl⟩
  · intro u i q hu h
    rw [key, hpre u hu] at h
    split_ifs at h
    cases h; omega
  · intro u v i j q r huv hv hne h1 h2
    rw [key, hpre u (huv.trans hv)] at h1
    rw [key, hpre v hv] at h2
    split_ifs at h1 h2 with g1 g2
    exact absurd (g1.trans g2.symm) hne

/-- Everything a placement does to the entries (R169 to R171, R187): the string's entry is the given
index with the last priority of the placement; every other entry keeps its index; the entries that are
no prefixes of the string keep their priority too; the prefixes get fresh priorities, the shorter the
smaller. -/
theorem entryAt_place (idx : Nat) (t : Trie) (soff : Nat) (s : List Byte) (p : Nat) (ht : trieWf t = true) (hs : s ≠ []) :
    p < (place t soff s idx p).2 ∧
    entryAt (place t soff s idx p).1 s = some (idx, (place t soff s idx p).2 - 1) ∧
    (∀ u, u ≠ s →
      (entryAt (place t soff s idx p).1 u).map Prod.fst = (entryAt t u).map Prod.fst ∧
      (¬ u <+: s → entryAt (place t soff s idx p).1 u = entryAt t u)) ∧
    (∀ u i q, u <+: s → entryAt (place t soff s idx p).1 u = some (i, q) → p ≤ q ∧ q < (place t soff s idx p).2) ∧
    (∀ u v i j q r, u <+: v → v <+: s → u ≠ v → entryAt (place t soff s idx p).1 u = some (i, q) →
      entryAt (place t soff s idx p).1 v = some (j, r) → q < r) := by
  refine place_induction (P := fun t _ s p t' p' => p < p' ∧ entryAt t' s = some (idx, p' - 1) ∧
    (∀ u, u ≠ s → (entryAt t' u).map Prod.fst = (entryAt t u).map Prod.fst ∧
      (¬ u <+: s → entryAt t' u = entryAt t u)) ∧
    (∀ u i q, u <+: s → entryAt t' u = some (i, q) → p ≤ q ∧ q < p') ∧
    (∀ u v i j q r, u <+: v → v <+: s → u ≠ v → entryAt t' u = some (i, q) → entryAt t' v = some (j, r) → q < r))
    ?_ ?_ ?_ ?_ ?_ ?_ ?_ ?_ t soff s p ht hs
  · intro soff s p hs
    refine ⟨by omega, by simp [entryAt_leaf], ?_, ?_, ?_⟩
    · intro u hu; simp [hu, entryAt]
    · intro u i q _ h
      rw [entryAt_leaf] at h
      split_ifs at h
      cases h; omega
    · intro u v i j q r _ _ huv h1 h2
      rw [entryAt_leaf] at h1 h2
      split_ifs at h1 h2 with g1 g2
      exact absurd (g1.trans g2.symm) huv
  · intro off label index prio children next soff p ht
    have hw := trieWf_node.1 ht
    have key : ∀ u, u ≠ label → entryAt (.node off label (some idx) p children next) u =
        entryAt (.node off label index prio children next) u := by
      intro u hu; simp [entryAt, hu]
    have hpre : ∀ u, u <+: label → u ≠ label → entryAt (.node off label (some idx) p children next) u = none := by
      intro u hu hne
      by_cases hu0 : u = []
      · subst hu0
        exact entryAt_nil_string (trieWf_node.2 ⟨hw.1, hw.2.1, .inl rfl, hw.2.2.2⟩)
      · obtain ⟨z, rfl⟩ := hu
        exact entryAt_short hu0 (by rintro rfl; simp at hne)
    refine ⟨by omega, by rw [entryAt_self]; rfl, ?_, ?_, ?_⟩
    · intro u hu; rw [key u hu]; exact ⟨rfl, fun _ => rfl⟩
    · intro u i q hu h
      by_cases hne : u = label
      · subst hne; rw [entryAt_self] at h; cases h; omega
      · rw [hpre u hu hne] at h; cases h
    · intro u v i j q r huv hv hne h1 h2
      by_cases hu : u = label
      · subst hu
        exact absurd (List.IsPrefix.eq_of_length_le huv hv.length_le) hne
      · rw [hpre u (huv.trans hv) hu] at h1; cases h1
  · intro off label index prio children next soff r p ch p' ht hr ih
    have hw := trieWf_node.1 ht
    obtain ⟨i1, i2, i3, i4, i5⟩ := ih
    have hnil : ∀ u, u <+: label → u ≠ label → ∀ ix pr ch, entryAt (.node off label ix pr ch next) u = none := by
      intro u hu hne ix pr ch
      by_cases hu0 : u = []
      · subst hu0
        have hk : keyMatches label [] = false := by
          cases label with
          | nil => exact absurd rfl hw.1
          | cons a l => rfl
        rw [entryAt_other hk, entryAt_nil_string hw.2.2.2.2]
      · obtain ⟨z, rfl⟩ := hu
        exact entryAt_short hu0 (by rintro rfl; simp at hne)
    -- the prefixes of the string: below the label they have no entry, above they are in the children
    have hpre : ∀ u, u <+: label ++ r → (u <+: label ∧ u ≠ label) ∨ u = label ∨ ∃ z, z ≠ [] ∧ z <+: r ∧ u = label ++ z := by
      intro u hu
      rcases List.prefix_or_prefix_of_prefix hu (List.prefix_append label r) with h | h
      · by_cases hne : u = label
        · exact .inr (.inl hne)
        · exact .inl ⟨h, hne⟩
      · obtain ⟨z, rfl⟩ := h
        by_cases hz : z = []
        · exact .inr (.inl (by simp [hz]))
        · exact .inr (.inr ⟨z, hz, (List.prefix_append_right_inj label).1 hu, rfl⟩)
    refine ⟨by omega, by rw [entryAt_below hw.1 hr, i2], ?_, ?_, ?_⟩
    · intro u hu
      refine key_cases (label := label) (u := u) _ ?_ ?_ ?_ ?_
      · intro h; rw [entryAt_other h, entryAt_other h]; exact ⟨rfl, fun _ => rfl⟩
      · intro h g; rw [entryAt_part h g, entryAt_part h g]; exact ⟨rfl, fun _ => rfl⟩
      · rintro rfl
        rw [entryAt_self, entryAt_self]
        exact ⟨by cases index <;> rfl, fun g => absurd (List.prefix_append _ _) g⟩
      · rintro z hz rfl
        rw [entryAt_below hw.1 hz, entryAt_below hw.1 hz]
        have h := i3 z (by rintro rfl; exact hu rfl)
        exact ⟨h.1, fun g => h.2 fun g' => g ((List.prefix_append_right_inj label).2 g')⟩
    · intro u i q hu h
      rcases hpre u hu with ⟨h1, h2⟩ | rfl | ⟨z, hz, hzr, rfl⟩
      · rw [hnil u h1 h2] at h; cases h
      · rw [entryAt_self] at h
        cases index with
        | none => cases h
        | some j => cases h; omega
      · rw [entryAt_below hw.1 hz] at h
        have := i4 z i q hzr h
        omega
    · intro u v i j q q' huv hv hne h1 h2
      rcases hpre u (huv.trans hv) with ⟨g1, g2⟩ | rfl | ⟨z, hz, hzr, rfl⟩
      · rw [hnil u g1 g2] at h1; cases h1
      · rw [entryAt_self] at h1
        rcases hpre v hv with ⟨g1, g2⟩ | rfl | ⟨w, hw', hwr, rfl⟩
        · exact absurd (List.IsPrefix.eq_of_length_le huv g1.length_le) (fun e => g2 e.symm)
        · exact absurd rfl hne
        · rw [entryAt_below hw.1 hw'] at h2
          have := i4 w j q' hwr h2
          cases index with
          | none => cases h1
          | some x => cases h1; omega
      · obtain ⟨y, rfl⟩ := huv
        rw [entryAt_below hw.1 hz] at h1
        rw [List.append_assoc, entryAt_below hw.1 (by simp [hz])] at h2
        rw [List.append_assoc] at hv
        exact i5 z (z ++ y) i j q q' (List.prefix_append _ _) ((List.prefix_append_right_inj label).1 hv)
          (by rintro e; exact hne (by rw [List.append_assoc, ← e])) h1 h2
  · intro off m l' index prio children next soff p ht hm hl'
    have hw := trieWf_node.1 ht
    have hh : ∀ v : List Byte, keyMatches (m ++ l') v = keyMatches m v := by
      intro v
      have : (m ++ l').head? = m.head? := by cases m <;> simp_all
      simp [keyMatches, this]
    have key : ∀ u, u ≠ m → entryAt (.node off m (some idx) p (.node (off + m.length) l' index prio children .nil) next) u =
        entryAt (.node off (m ++ l') index prio children next) u := by
      intro u hu
      refine key_cases (label := m) (u := u) _ ?_ ?_ ?_ ?_
      · intro h; rw [entryAt_other h, entryAt_other (by rw [hh]; exact h)]
      · intro h g
        rw [entryAt_part h g, entryAt_part (by rw [hh]; exact h) fun g' => g ((List.prefix_append m l').trans g')]
      · intro h; exact absurd h hu
      · rintro z hz rfl
        rw [entryAt_below hm hz, entryAt_long hm hl' hz]
    have hpre : ∀ u, u <+: m → u ≠ m → entryAt (.node off (m ++ l') index prio children next) u = none := by
      intro u hu hne
      by_cases hu0 : u = []
      · subst hu0; exact entryAt_nil_string ht
      · obtain ⟨z, rfl⟩ := hu
        rw [List.append_assoc]
        exact entryAt_short hu0 (by simp [hl'])
    refine ⟨by omega, by rw [entryAt_self]; rfl, ?_, ?_, ?_⟩
    · intro u hu; rw [key u hu]; exact ⟨rfl, fun _ => rfl⟩
    · intro u i q hu h
      by_cases hne : u = m
      · subst hne; rw [entryAt_self] at h; cases h; omega
      · rw [key u hne, hpre u hu hne] at h; cases h
    · intro u v i j q r huv hv hne h1 h2
      by_cases hu : u = m
      · subst hu
        exact absurd (List.IsPrefix.eq_of_length_le huv hv.length_le) hne
      · rw [key u hu, hpre u (huv.trans hv) hu] at h1; cases h1
  · intro off m l' s' index prio children next soff p ht hm hl' hs' hb
    have hw := trieWf_node.1 ht
    have hk := keyBefore_not_matches hb
    have key := entryAt_split (off := off) (off' := off + m.length) (offs := soff + m.length) (q := p + 1) (q' := p)
      (idx := idx) (prio := prio) (index := index) (children := children) (next := next) hm hl' hs' hk (.inl rfl)
    exact split_case ht hm hl' hk key
  · intro off m l' s' index prio children next soff p ht hm hl' hs' hb
    have hw := trieWf_node.1 ht
    have hk : keyMatches l' s' = false := by
      have h2 := keyBefore_not_matches hb
      rw [Bool.eq_false_iff] at h2 ⊢
      exact fun h3 => h2 ((keyMatches_iff _ _).2 ((keyMatches_iff _ _).1 h3).symm)
    have key := entryAt_split (off := off) (off' := off + m.length) (offs := soff + m.length) (q := p + 1) (q' := p)
      (idx := idx) (prio := prio) (index := index) (children := children) (next := next) hm hl' hs' hk (.inr rfl)
    exact split_case ht hm hl' hk key
  · intro off label index prio children next soff s p nx p' ht hs hb ih
    have hw := trieWf_node.1 ht
    have hk := keyBefore_not_matches hb
    obtain ⟨i1, i2, i3, i4, i5⟩ := ih
    have hpre : ∀ u, u <+: s → u ≠ [] → keyMatches label u = false := by
      intro u hu hu0
      rw [Bool.eq_false_iff, ne_eq, keyMatches_iff] at hk ⊢
      obtain ⟨z, rfl⟩ := hu
      cases u with
      | nil => exact absurd rfl hu0
      | cons a u => exact hk
    have hnx : trieWf (.node off label index prio children nx) = true → ∀ u, u <+: s →
        entryAt (.node off label index prio children nx) u = entryAt nx u ∨ u = [] := by
      intro _ u hu
      by_cases hu0 : u = []
      · exact .inr hu0
      · exact .inl (entryAt_other (hpre u hu hu0))
    have hnil : keyMatches label [] = false := by
      cases label with
      | nil => exact absurd rfl hw.1
      | cons a l => rfl
    have hall : ∀ u, u <+: s → entryAt (.node off label index prio children nx) u = entryAt nx u := by
      intro u hu
      by_cases hu0 : u = []
      · subst hu0; exact entryAt_other hnil
      · exact entryAt_other (hpre u hu hu0)
    refine ⟨i1, by rw [hall s (List.prefix_refl _), i2], ?_, ?_, ?_⟩
    · intro u hu
      by_cases h : keyMatches label u = true
      · simp only [entryAt, h, if_true]
        exact ⟨trivial, fun _ => trivial⟩
      · rw [Bool.not_eq_true] at h
        rw [entryAt_other h, entryAt_other h]
        exact i3 u hu
    · intro u i q hu h
      rw [hall u hu] at h
      exact i4 u i q hu h
    · intro u v i j q r huv hv hne h1 h2
      rw [hall u (huv.trans hv)] at h1
      rw [hall v hv] at h2
      exact i5 u v i j q r huv hv hne h1 h2
  · intro off label index prio children next soff s p ht hs hb
    have hka : keysAfter s (.node off label index prio children next) :=
      ⟨hb, keysAfter_trans hb (keysAfter_of_rises (trieWf_node.1 ht).2.1 (trieWf_node.1 ht).2.2.2.2)⟩
    have key : ∀ u, entryAt (.node soff s (some idx) p .nil (.node off label index prio children next)) u =
        if u = s then some (idx, p) else entryAt (.node off label index prio children next) u := by
      intro u
      refine key_cases (label := s) (u := u) _ ?_ ?_ ?_ ?_
      · intro h
        have h2 : u ≠ s := by
          rintro rfl
          simp [keyMatches] at h
        rw [entryAt_other h, if_neg h2]
      · intro h g
        have h2 : u ≠ s := by
          rintro rfl
          exact g (List.prefix_refl _)
        rw [entryAt_part h g, if_neg h2, entryAt_keysAfter hka (.inl h)]
      · rintro rfl; rw [entryAt_self, if_pos rfl]; rfl
      · rintro z hz rfl
        rw [entryAt_below hs hz, if_neg (by simpa using hz),
          entryAt_keysAfter hka (.inl (keyMatches_of_prefix hs (List.prefix_append _ _)))]
        rfl
    have hpre : ∀ u, u <+: s → entryAt (.node off label index prio children next) u = none := by
      intro u hu
      by_cases hu0 : u = []
      · subst hu0; exact entryAt_nil_string ht
      · refine entryAt_keysAfter hka (.inl ?_)
        rw [keyMatches_iff]
        obtain ⟨z, rfl⟩ := hu
        cases u with
        | nil => exact absurd rfl hu0
        | cons a u => rfl
    refine ⟨by omega, by rw [key, if_pos rfl]; rfl, ?_, ?_, ?_⟩
    · intro u hu; rw [key, if_neg hu]; exact ⟨rfl, fun _ => rfl⟩
    · intro u i q hu h
      rw [key, hpre u hu] at h
      split_ifs at h
      cases h; omega
    · intro u v i j q r huv hv hne h1 h2
      rw [key, hpre u (huv.trans hv)] at h1
      rw [key, hpre v hv] at h2
      split_ifs at h1 h2 with g1 g2
      exact absurd (g1.trans g2.symm) hne

/-! ### Indices and priorities -/

/-- A placement of a new string adds its index and no other (R46 (b)). -/
theorem indices_place (idx : Nat) (t : Trie) (soff : Nat) (s : List Byte) (p : Nat) (ht : trieWf t = true) (hs : s ≠ [])
    (hn : entryAt t s = none) : (indices (place t soff s idx p).1).Perm (idx :: indices t) := by
  refine place_induction (P := fun t _ s _ t' _ => entryAt t s = none → (indices t').Perm (idx :: indices t))
    ?_ ?_ ?_ ?_ ?_ ?_ ?_ ?_ t soff s p ht hs hn
  · intro soff s p _ _; exact List.Perm.refl _
  · intro off label index prio children next soff p _ hn
    rw [entryAt_self] at hn
    cases index with
    | none => exact List.Perm.refl _
    | some j => cases hn
  · intro off label index prio children next soff r p ch p' ht hr ih hn
    rw [entryAt_below (trieWf_node.1 ht).1 hr] at hn
    simp only [indices]
    have h1 : (index.toList ++ indices ch).Perm (index.toList ++ idx :: indices children) := (ih hn).append_left _
    exact (h1.append_right _).trans (List.perm_middle.append_right _)
  · intro off m l' index prio children next soff p _ _ _ _
    simp only [indices, Option.toList_some, List.append_nil]
    exact List.Perm.refl _
  · intro off m l' s' index prio children next soff p _ _ _ _ _ _
    simp only [indices, Option.toList_some, Option.toList_none, List.append_nil, List.nil_append]
    exact (List.perm_append_comm (l₁ := index.toList ++ indices children) (l₂ := [idx])).append_right _
  · intro off m l' s' index prio children next soff p _ _ _ _ _ _
    simp only [indices, Option.toList_some, Option.toList_none, List.append_nil, List.nil_append]
    exact List.Perm.refl _
  · intro off label index prio children next soff s p nx p' ht _ hb ih hn
    rw [entryAt_other (keyBefore_not_matches hb)] at hn
    simp only [indices]
    exact ((ih hn).append_left _).trans List.perm_middle
  · intro off label index prio children next soff s p _ _ _ _
    simp only [indices, Option.toList_some, List.append_nil]
    exact List.Perm.refl _

/-- A placement gives fresh priorities, in order; the counter passes them (R45). -/
theorem prios_place (idx : Nat) (t : Trie) (soff : Nat) (s : List Byte) (p : Nat) (ht : trieWf t = true) (hs : s ≠ []) :
    p < (place t soff s idx p).2 ∧
    (∀ q ∈ prios (place t soff s idx p).1, q ∈ prios t ∨ p ≤ q ∧ q < (place t soff s idx p).2) ∧
    ((prios t).Nodup → (∀ q ∈ prios t, q < p) → (prios (place t soff s idx p).1).Nodup) := by
  refine place_induction (P := fun t _ _ p t' p' => p < p' ∧ (∀ q ∈ prios t', q ∈ prios t ∨ p ≤ q ∧ q < p') ∧
    ((prios t).Nodup → (∀ q ∈ prios t, q < p) → (prios t').Nodup)) ?_ ?_ ?_ ?_ ?_ ?_ ?_ ?_ t soff s p ht hs
  · intro soff s p _
    exact ⟨by omega, by simp [prios], by simp [prios]⟩
  · intro off label index prio children next soff p _
    refine ⟨by omega, ?_, ?_⟩
    · intro q hq
      simp only [prios, List.cons_append, List.mem_cons, List.mem_append] at hq ⊢
      rcases hq with rfl | hq
      · right; omega
      · exact .inl (.inr hq)
    · intro hn hlt
      simp only [prios, List.cons_append, List.nodup_cons] at hn ⊢
      refine ⟨fun h => ?_, hn.2⟩
      have := hlt p (by simp only [prios, List.cons_append, List.mem_cons]; exact .inr h)
      omega
  · intro off label index prio children next soff r p ch p' _ _ ih
    obtain ⟨c1, c2, c3⟩ := ih
    simp only [prios, List.cons_append, List.mem_cons, List.mem_append, List.nodup_cons, List.nodup_append]
    refine ⟨by omega, ?_, ?_⟩
    · rintro q (rfl | hq | hq)
      · right; omega
      · rcases c2 q hq with h | h
        · exact .inl (.inr (.inl h))
        · right; omega
      · exact .inl (.inr (.inr hq))
    · rintro ⟨n1, n2, n3, n4⟩ hlt
      refine ⟨?_, c3 n2 fun q hq => by have := hlt q (.inr (.inl hq)); omega, n3, ?_⟩
      · rintro (hq | hq)
        · rcases c2 p hq with h | h
          · have := hlt p (.inr (.inl h)); omega
          · omega
        · have := hlt p (.inr (.inr hq)); omega
      · intro a ha b hb hab
        subst hab
        rcases c2 a ha with h | h
        · exact n4 a h a hb rfl
        · have := hlt a (.inr (.inr hb)); omega
  · intro off m l' index prio children next soff p _ _ _
    have e : prios (.node off m (some idx) p (.node (off + m.length) l' index prio children .nil) next) =
        p :: prios (.node off (m ++ l') index prio children next) := by simp [prios]
    rw [e]
    refine ⟨by omega, ?_, fun hn hlt => ?_⟩
    · intro q hq
      rcases List.mem_cons.1 hq with rfl | hq
      · right; omega
      · exact .inl hq
    · rw [List.nodup_cons]
      exact ⟨fun h => by have := hlt p h; omega, hn⟩
  · intro off m l' s' index prio children next soff p _ _ _ _ _
    have e : (prios (.node off m none p (.node (off + m.length) l' index prio children
          (.node (soff + m.length) s' (some idx) (p + 1) .nil .nil)) next)).Perm
        (p :: (p + 1) :: prios (.node off (m ++ l') index prio children next)) := by
      simp only [prios, List.cons_append, List.append_nil, List.append_assoc]
      exact ((List.perm_middle (l₁ := prio :: prios children)).cons p)
    refine ⟨by omega, ?_, fun hn hlt => ?_⟩
    · intro q hq
      rcases List.mem_cons.1 (e.mem_iff.1 hq) with rfl | hq
      · right; omega
      · rcases List.mem_cons.1 hq with rfl | hq
        · right; omega
        · exact .inl hq
    · rw [e.nodup_iff, List.nodup_cons, List.nodup_cons]
      refine ⟨?_, fun h => by have := hlt _ h; omega, hn⟩
      intro h
      rcases List.mem_cons.1 h with h | h
      · omega
      · have := hlt _ h; omega
  · intro off m l' s' index prio children next soff p _ _ _ _ _
    have e : prios (.node off m none p (.node (soff + m.length) s' (some idx) (p + 1) .nil
          (.node (off + m.length) l' index prio children .nil)) next) =
        p :: (p + 1) :: prios (.node off (m ++ l') index prio children next) := by
      simp [prios]
    rw [e]
    refine ⟨by omega, ?_, fun hn hlt => ?_⟩
    · intro q hq
      rcases List.mem_cons.1 hq with rfl | hq
      · right; omega
      · rcases List.mem_cons.1 hq with rfl | hq
        · right; omega
        · exact .inl hq
    · rw [List.nodup_cons, List.nodup_cons]
      refine ⟨?_, fun h => by have := hlt _ h; omega, hn⟩
      intro h
      rcases List.mem_cons.1 h with h | h
      · omega
      · have := hlt _ h; omega
  · intro off label index prio children next soff s p nx p' _ _ _ ih
    obtain ⟨c1, c2, c3⟩ := ih
    simp only [prios, List.cons_append, List.mem_cons, List.mem_append, List.nodup_cons, List.nodup_append]
    refine ⟨c1, ?_, ?_⟩
    · rintro q (rfl | hq | hq)
      · exact .inl (.inl rfl)
      · exact .inl (.inr (.inl hq))
      · rcases c2 q hq with h | h
        · exact .inl (.inr (.inr h))
        · exact .inr h
    · rintro ⟨n1, n2, n3, n4⟩ hlt
      refine ⟨?_, n2, c3 n3 fun q hq => hlt q (.inr (.inr hq)), ?_⟩
      · rintro (hq | hq)
        · exact n1 (.inl hq)
        · rcases c2 prio hq with h | h
          · exact n1 (.inr h)
          · have := hlt prio (.inl rfl); omega
      · intro a ha b hb hab
        subst hab
        rcases c2 a hb with h | h
        · exact n4 a ha a h rfl
        · have := hlt a (.inr (.inl ha)); omega
  · intro off label index prio children next soff s p _ _ _
    have e : prios (.node soff s (some idx) p .nil (.node off label index prio children next)) =
        p :: prios (.node off label index prio children next) := by simp [prios]
    rw [e]
    refine ⟨by omega, ?_, fun hn hlt => ?_⟩
    · intro q hq
      rcases List.mem_cons.1 hq with rfl | hq
      · right; omega
      · exact .inl hq
    · rw [List.nodup_cons]
      exact ⟨fun h => by have := hlt p h; omega, hn⟩

end Sys2Proof.Machine
end

