-- ==== Sys2Proof/Laws/Evict.lean ====
section
/-! SUPPORT. Eviction (R180 to R184): which entry goes, and that nothing else changes. -/

namespace Sys2Proof.Machine

/-- A leaf of the trie, seen in the map: an entry that no other entry's string extends (R182, R187). -/
def isLeafEntry (t : Trie) (v : List Byte) (f r : Nat) : Prop :=
  entryAt t v = some (f, r) ∧ ∀ z, z ≠ [] → entryAt t (v ++ z) = none

theorem entryAt_ne_nil {t : Trie} {u : List Byte} {e : Nat × Nat} (ht : trieWf t = true) (h : entryAt t u = some e) :
    u ≠ [] := by
  rintro rfl
  rw [entryAt_nil_string ht] at h
  cases h

/-- A non-empty trie has an entry (R185 (a)). -/
theorem exists_entry {t : Trie} (ht : trieWf t = true) (hne : t ≠ .nil) : ∃ u e, entryAt t u = some e := by
  induction t with
  | nil => exact absurd rfl hne
  | node off label index prio children next ihc ihn =>
    have hw := trieWf_node.1 ht
    cases index with
    | some i => exact ⟨label, (i, prio), by rw [entryAt_self]; rfl⟩
    | none =>
      have hc : children ≠ .nil := by
        rintro rfl
        rcases hw.2.2.1 with h | h
        · cases h
        · simp [siblings] at h
      obtain ⟨u, e, h⟩ := ihc hw.2.2.2.1 hc
      exact ⟨label ++ u, e, by rw [entryAt_below hw.1 (entryAt_ne_nil hw.2.2.2.1 h), h]⟩

theorem keyMatches_append {l u : List Byte} (z : List Byte) (hu : u ≠ []) : keyMatches l (u ++ z) = keyMatches l u := by
  have : (u ++ z).head? = u.head? := by cases u <;> simp_all
  simp [keyMatches, this]

section node
variable {off : Nat} {label : List Byte} {index : Option Nat} {prio : Nat} {children next : Trie}

theorem isLeafEntry_self (ht : trieWf (.node off label index prio children next) = true) {f r : Nat} :
    isLeafEntry (.node off label index prio children next) label f r ↔ index = some f ∧ prio = r ∧ children = .nil := by
  have hw := trieWf_node.1 ht
  constructor
  · rintro ⟨h1, h2⟩
    rw [entryAt_self] at h1
    cases index with
    | none => cases h1
    | some i =>
      cases h1
      refine ⟨rfl, rfl, ?_⟩
      by_contra hc
      obtain ⟨u, e, h⟩ := exists_entry hw.2.2.2.1 hc
      have hu := entryAt_ne_nil hw.2.2.2.1 h
      have := h2 u hu
      rw [entryAt_below hw.1 hu, h] at this
      cases this
  · rintro ⟨rfl, rfl, rfl⟩
    exact ⟨by rw [entryAt_self]; rfl, fun z hz => by rw [entryAt_below hw.1 hz]; rfl⟩

theorem isLeafEntry_below (ht : trieWf (.node off label index prio children next) = true) {u : List Byte} (hu : u ≠ [])
    {f r : Nat} : isLeafEntry (.node off label index prio children next) (label ++ u) f r ↔ isLeafEntry children u f r := by
  have hw := trieWf_node.1 ht
  unfold isLeafEntry
  rw [entryAt_below hw.1 hu]
  refine and_congr_right fun _ => forall_congr' fun z => imp_congr_right fun _ => ?_
  rw [List.append_assoc, entryAt_below hw.1 (by simp [hu])]

theorem isLeafEntry_other {u : List Byte} (hu : u ≠ []) (hk : keyMatches label u = false) {f r : Nat} :
    isLeafEntry (.node off label index prio children next) u f r ↔ isLeafEntry next u f r := by
  unfold isLeafEntry
  rw [entryAt_other hk]
  refine and_congr_right fun _ => forall_congr' fun z => imp_congr_right fun _ => ?_
  rw [entryAt_other (by rw [keyMatches_append z hu]; exact hk)]

/-- An entry of the rest of a map has another key than the node. -/
theorem key_of_next (ht : trieWf (.node off label index prio children next) = true) {u : List Byte} {e : Nat × Nat}
    (h : entryAt next u = some e) : keyMatches label u = false := by
  have hw := trieWf_node.1 ht
  rw [Bool.eq_false_iff]
  intro hk
  rw [entryAt_keysAfter (keysAfter_of_rises hw.2.1 hw.2.2.2.2) (.inl hk)] at h
  cases h

/-- Where an entry of a map stands: at the node, below it, or in the rest of the map. -/
theorem entryAt_node_cases (ht : trieWf (.node off label index prio children next) = true) {u : List Byte} {i q : Nat}
    (h : entryAt (.node off label index prio children next) u = some (i, q)) :
    (u = label ∧ index = some i ∧ prio = q) ∨
    (∃ r, r ≠ [] ∧ u = label ++ r ∧ entryAt children r = some (i, q)) ∨
    (u ≠ [] ∧ keyMatches label u = false ∧ entryAt next u = some (i, q)) := by
  have hw := trieWf_node.1 ht
  refine key_cases (label := label) (u := u) _ ?_ ?_ ?_ ?_
  · intro hk
    exact .inr (.inr ⟨entryAt_ne_nil ht h, hk, by rw [entryAt_other hk] at h; exact h⟩)
  · intro hk hp
    rw [entryAt_part hk hp] at h; cases h
  · rintro rfl
    rw [entryAt_self] at h
    cases index with
    | none => cases h
    | some j => cases h; exact .inl ⟨rfl, rfl, rfl⟩
  · rintro r hr rfl
    rw [entryAt_below hw.1 hr] at h
    exact .inr (.inl ⟨r, hr, rfl, h⟩)

end node

/-! ### Indices and the map -/

/-- The indices of the nodes are the indices of the entries (R43, R46 (b)). -/
theorem mem_indices {t : Trie} (ht : trieWf t = true) (i : Nat) : i ∈ indices t ↔ ∃ u q, entryAt t u = some (i, q) := by
  induction t with
  | nil => simp [indices, entryAt]
  | node off label index prio children next ihc ihn =>
    have hw := trieWf_node.1 ht
    simp only [indices, List.mem_append, ihc hw.2.2.2.1, ihn hw.2.2.2.2]
    constructor
    · rintro ((h | ⟨u, q, h⟩) | ⟨u, q, h⟩)
      · exact ⟨label, prio, by rw [entryAt_self]; cases index <;> simp_all⟩
      · exact ⟨label ++ u, q, by rw [entryAt_below hw.1 (entryAt_ne_nil hw.2.2.2.1 h), h]⟩
      · exact ⟨u, q, by rw [entryAt_other (key_of_next ht h), h]⟩
    · rintro ⟨u, q, h⟩
      rcases entryAt_node_cases ht h with ⟨_, h1, _⟩ | ⟨r, _, _, h1⟩ | ⟨_, _, h1⟩
      · exact .inl (.inl (by simp [h1]))
      · exact .inl (.inr ⟨r, q, h1⟩)
      · exact .inr ⟨u, q, h1⟩

/-- The priorities of the entries are priorities of nodes. -/
theorem mem_prios {t : Trie} (ht : trieWf t = true) {u : List Byte} {i q : Nat} (h : entryAt t u = some (i, q)) :
    q ∈ prios t := by
  induction t generalizing u with
  | nil => cases h
  | node off label index prio children next ihc ihn =>
    have hw := trieWf_node.1 ht
    simp only [prios, List.cons_append, List.mem_cons, List.mem_append]
    rcases entryAt_node_cases ht h with ⟨_, _, h1⟩ | ⟨r, _, _, h1⟩ | ⟨_, _, h1⟩
    · exact .inl h1.symm
    · exact .inr (.inl (ihc hw.2.2.2.1 h1))
    · exact .inr (.inr (ihn hw.2.2.2.2 h1))

/-- Two entries with one index are one entry, when no index is held twice (R46 (b)). -/
theorem entry_of_index {t : Trie} (ht : trieWf t = true) (hn : (indices t).Nodup) {u v : List Byte} {i q r : Nat}
    (hu : entryAt t u = some (i, q)) (hv : entryAt t v = some (i, r)) : u = v ∧ q = r := by
  induction t generalizing u v with
  | nil => cases hu
  | node off label index prio children next ihc ihn =>
    have hw := trieWf_node.1 ht
    simp only [indices, List.nodup_append, List.mem_append] at hn
    obtain ⟨⟨n1, n2, n3⟩, n4, n5⟩ := hn
    rcases entryAt_node_cases ht hu with ⟨a1, a2, a3⟩ | ⟨x, x1, x2, x3⟩ | ⟨y1, y2, y3⟩ <;>
      rcases entryAt_node_cases ht hv with ⟨b1, b2, b3⟩ | ⟨z, z1, z2, z3⟩ | ⟨w1, w2, w3⟩
    · exact ⟨a1.trans b1.symm, a3.symm.trans b3⟩
    · exact absurd rfl (n3 i (by simp [a2]) i ((mem_indices hw.2.2.2.1 i).2 ⟨_, _, z3⟩))
    · exact absurd rfl (n5 i (.inl (by simp [a2])) i ((mem_indices hw.2.2.2.2 i).2 ⟨_, _, w3⟩))
    · exact absurd rfl (n3 i (by simp [b2]) i ((mem_indices hw.2.2.2.1 i).2 ⟨_, _, x3⟩))
    · obtain ⟨rfl, h⟩ := ihc hw.2.2.2.1 n2 x3 z3
      exact ⟨x2.trans z2.symm, h⟩
    · exact absurd rfl (n5 i (.inr ((mem_indices hw.2.2.2.1 i).2 ⟨_, _, x3⟩)) i ((mem_indices hw.2.2.2.2 i).2 ⟨_, _, w3⟩))
    · exact absurd rfl (n5 i (.inl (by simp [b2])) i ((mem_indices hw.2.2.2.2 i).2 ⟨_, _, y3⟩))
    · exact absurd rfl (n5 i (.inr ((mem_indices hw.2.2.2.1 i).2 ⟨_, _, z3⟩)) i ((mem_indices hw.2.2.2.2 i).2 ⟨_, _, y3⟩))
    · exact ihn hw.2.2.2.2 n4 y3 w3

/-- The path of an index (R42, R188). -/
theorem pathOf_eq_some {t : Trie} (ht : trieWf t = true) (hn : (indices t).Nodup) (i : Nat) (u : List Byte) :
    pathOf i t = some u ↔ ∃ q, entryAt t u = some (i, q) := by
  have key : ∀ {t : Trie}, trieWf t = true → ∀ {u}, pathOf i t = some u → ∃ q, entryAt t u = some (i, q) := by
    intro t
    induction t with
    | nil => intro _ u h; cases h
    | node off label index prio children next ihc ihn =>
      intro ht u h
      have hw := trieWf_node.1 ht
      simp only [pathOf] at h
      split_ifs at h with h1
      · cases h
        exact ⟨prio, by rw [entryAt_self, h1]; rfl⟩
      · cases hc : pathOf i children with
        | some s =>
          rw [hc] at h
          cases h
          obtain ⟨q, hq⟩ := ihc hw.2.2.2.1 hc
          exact ⟨q, by rw [entryAt_below hw.1 (entryAt_ne_nil hw.2.2.2.1 hq), hq]⟩
        | none =>
          rw [hc] at h
          obtain ⟨q, hq⟩ := ihn hw.2.2.2.2 h
          exact ⟨q, by rw [entryAt_other (key_of_next ht hq), hq]⟩
  have some_of_mem : ∀ {t : Trie}, i ∈ indices t → ∃ v, pathOf i t = some v := by
    intro t
    induction t with
    | nil => intro h; cases h
    | node off label index prio children next ihc ihn =>
      intro h
      simp only [indices, List.mem_append] at h
      simp only [pathOf]
      split_ifs with h1
      · exact ⟨_, rfl⟩
      · cases hc : pathOf i children with
        | some s => exact ⟨_, rfl⟩
        | none =>
          rcases h with (h | h) | h
          · exact absurd (by cases index <;> simp_all) h1
          · obtain ⟨v, hv⟩ := ihc h
            rw [hc] at hv; cases hv
          · exact ihn h
  constructor
  · exact key ht
  · rintro ⟨q, h⟩
    obtain ⟨v, hv⟩ := some_of_mem ((mem_indices ht i).2 ⟨u, q, h⟩)
    obtain ⟨r, hr⟩ := key ht hv
    rw [hv, (entry_of_index ht hn hr h).1]

/-- An index that no node holds has no path. -/
theorem pathOf_eq_none {t : Trie} (ht : trieWf t = true) (i : Nat) : pathOf i t = none ↔ i ∉ indices t := by
  induction t with
  | nil => simp [pathOf, indices]
  | node off label index prio children next ihc ihn =>
    have hw := trieWf_node.1 ht
    simp only [pathOf, indices, List.mem_append]
    split_ifs with h1
    · simp [h1]
    · cases hc : pathOf i children with
      | some s =>
        have : i ∈ indices children := by
          by_contra h
          rw [(ihc hw.2.2.2.1).2 h] at hc; cases hc
        simp [this]
      | none =>
        have h2 := (ihc hw.2.2.2.1).1 hc
        have h3 : i ∉ index.toList := by
          cases index with
          | none => simp
          | some j =>
            rw [Option.toList_some, List.mem_singleton]
            rintro rfl
            exact h1 rfl
        simp [h2, h3, ihn hw.2.2.2.2]

/-! ### The victim -/

theorem minCand_some {α : Type} {a b : Option (Nat × α)} {x : Nat × α} (h : minCand a b = some x) :
    (a = some x ∧ ∀ y, b = some y → x.1 ≤ y.1) ∨ (b = some x ∧ ∀ y, a = some y → x.1 ≤ y.1) := by
  cases a with
  | none => exact .inr ⟨by simpa [minCand] using h, by simp⟩
  | some a =>
    cases b with
    | none => exact .inl ⟨by simpa [minCand] using h, by simp⟩
    | some b =>
      simp only [minCand] at h
      split_ifs at h with hlt
      · exact .inr ⟨h, fun y hy => by cases h; cases hy; omega⟩
      · exact .inl ⟨h, fun y hy => by cases h; cases hy; omega⟩

theorem minCand_none {α : Type} {a b : Option (Nat × α)} (h : minCand a b = none) : a = none ∧ b = none := by
  cases a with
  | none => exact ⟨rfl, by simpa [minCand] using h⟩
  | some a =>
    cases b with
    | none => simp [minCand] at h
    | some b => simp only [minCand] at h; split_ifs at h

theorem minLeaf_none {t : Trie} (h : minLeaf t = none) : t = .nil := by
  induction t with
  | nil => rfl
  | node off label index prio children next ihc ihn =>
    simp only [minLeaf] at h
    have h1 := (minCand_none h).1
    split_ifs at h1 with hc
    exact absurd (ihc h1) hc

/-- `minLeaf` is the leaf of smallest priority (R182). -/
theorem minLeaf_spec {t : Trie} (ht : trieWf t = true) {r : Nat} {i : Option Nat} (h : minLeaf t = some (r, i)) :
    ∃ f v, i = some f ∧ isLeafEntry t v f r ∧ ∀ v' f' r', isLeafEntry t v' f' r' → r ≤ r' := by
  induction t generalizing r i with
  | nil => cases h
  | node off label index prio children next ihc ihn =>
    have hw := trieWf_node.1 ht
    simp only [minLeaf] at h
    -- every leaf is the node, below it, or in the rest
    have hcases : ∀ v f q, isLeafEntry (.node off label index prio children next) v f q →
        (v = label ∧ index = some f ∧ prio = q ∧ children = .nil) ∨
        (∃ u, u ≠ [] ∧ v = label ++ u ∧ isLeafEntry children u f q) ∨
        (v ≠ [] ∧ keyMatches label v = false ∧ isLeafEntry next v f q) := by
      intro v f q hv
      rcases entryAt_node_cases ht hv.1 with ⟨rfl, _, _⟩ | ⟨u, hu, rfl, _⟩ | ⟨h1, h2, _⟩
      · exact .inl ⟨rfl, (isLeafEntry_self ht).1 hv⟩
      · exact .inr (.inl ⟨u, hu, rfl, (isLeafEntry_below ht hu).1 hv⟩)
      · exact .inr (.inr ⟨h1, h2, (isLeafEntry_other h1 h2).1 hv⟩)
    have hnode : ∀ r i, (if children = .nil then some (prio, index) else minLeaf children) = some (r, i) →
        ∃ f v, i = some f ∧ isLeafEntry (.node off label index prio children next) v f r ∧
          (∀ v' f' r', isLeafEntry (.node off label index prio children next) v' f' r' →
            keyMatches label v' = true → r ≤ r') := by
      intro r i hh
      split_ifs at hh with hc
      · cases hh
        subst hc
        obtain ⟨f, rfl⟩ : ∃ f, index = some f := by
          rcases hw.2.2.1 with h' | h'
          · exact Option.isSome_iff_exists.1 h'
          · simp [siblings] at h'
        refine ⟨f, label, rfl, (isLeafEntry_self ht).2 ⟨rfl, rfl, rfl⟩, ?_⟩
        intro v' f' r' hv' hk
        rcases hcases v' f' r' hv' with ⟨_, _, h3, _⟩ | ⟨u, _, _, h3⟩ | ⟨_, h3, _⟩
        · omega
        · cases h3.1
        · rw [h3] at hk; cases hk
      · obtain ⟨f, v, h1, h2, h3⟩ := ihc hw.2.2.2.1 hh
        have hv := entryAt_ne_nil hw.2.2.2.1 h2.1
        refine ⟨f, label ++ v, h1, (isLeafEntry_below ht hv).2 h2, ?_⟩
        intro v' f' r' hv' hk
        rcases hcases v' f' r' hv' with ⟨_, _, _, h4⟩ | ⟨u, _, _, h4⟩ | ⟨_, h4, _⟩
        · exact absurd h4 hc
        · exact h3 u f' r' h4
        · rw [h4] at hk; cases hk
    have hnext : ∀ r i, minLeaf next = some (r, i) →
        ∃ f v, i = some f ∧ isLeafEntry (.node off label index prio children next) v f r ∧
          (∀ v' f' r', isLeafEntry (.node off label index prio children next) v' f' r' →
            keyMatches label v' = false → r ≤ r') := by
      intro r i hh
      obtain ⟨f, v, h1, h2, h3⟩ := ihn hw.2.2.2.2 hh
      have hv := entryAt_ne_nil hw.2.2.2.2 h2.1
      refine ⟨f, v, h1, (isLeafEntry_other hv (key_of_next ht h2.1)).2 h2, ?_⟩
      intro v' f' r' hv' hk
      exact h3 v' f' r' ((isLeafEntry_other (entryAt_ne_nil ht hv'.1) hk).1 hv')
    rcases minCand_some h with ⟨h1, h2⟩ | ⟨h1, h2⟩
    · obtain ⟨f, v, e1, e2, e3⟩ := hnode r i h1
      refine ⟨f, v, e1, e2, fun v' f' r' hv' => ?_⟩
      by_cases hk : keyMatches label v' = true
      · exact e3 v' f' r' hv' hk
      · rw [Bool.not_eq_true] at hk
        have hl := (isLeafEntry_other (entryAt_ne_nil ht hv'.1) hk).1 hv'
        cases hm : minLeaf next with
        | none => rw [minLeaf_none hm] at hl; cases hl.1
        | some y =>
          obtain ⟨f2, v2, _, _, g⟩ := ihn hw.2.2.2.2 (r := y.1) (i := y.2) hm
          exact le_trans (h2 y hm) (g v' f' r' hl)
    · obtain ⟨f, v, e1, e2, e3⟩ := hnext r i h1
      refine ⟨f, v, e1, e2, fun v' f' r' hv' => ?_⟩
      by_cases hk : keyMatches label v' = true
      · cases hm : (if children = .nil then some (prio, index) else minLeaf children) with
        | none =>
          split_ifs at hm with hc
          exact absurd (minLeaf_none hm) hc
        | some y =>
          obtain ⟨f2, v2, _, _, g⟩ := hnode y.1 y.2 hm
          exact le_trans (h2 y hm) (g v' f' r' hv' hk)
      · rw [Bool.not_eq_true] at hk
        exact e3 v' f' r' hv' hk

/-- What `candidate` answers (R181, R182): the entry of smallest priority, and among the leaves whose
strings extend its string the one of smallest priority. -/
def isCandidate (t : Trie) (q : Nat) (vi : Option Nat) : Prop :=
  ∃ m w f v r, entryAt t w = some (m, q) ∧ (∀ w' m' q', entryAt t w' = some (m', q') → q ≤ q') ∧
    vi = some f ∧ w <+: v ∧ isLeafEntry t v f r ∧
    ∀ v' f' r', w <+: v' → isLeafEntry t v' f' r' → r ≤ r'

theorem candidate_none {t : Trie} (ht : trieWf t = true) (h : candidate t = none) : t = .nil := by
  induction t with
  | nil => rfl
  | node off label index prio children next ihc ihn =>
    have hw := trieWf_node.1 ht
    simp only [candidate] at h
    obtain ⟨h1, h2⟩ := minCand_none h
    obtain ⟨h2, h3⟩ := minCand_none h2
    have hi : index = none := by
      by_contra hi
      rw [if_neg hi] at h1
      split_ifs at h1
    subst hi
    have hc := ihc hw.2.2.2.1 h2
    subst hc
    rcases hw.2.2.1 with h' | h'
    · cases h'
    · simp [siblings] at h'

theorem candidate_spec {t : Trie} (ht : trieWf t = true) {q : Nat} {vi : Option Nat} (h : candidate t = some (q, vi)) :
    isCandidate t q vi := by
  induction t generalizing q vi with
  | nil => cases h
  | node off label index prio children next ihc ihn =>
    have hw := trieWf_node.1 ht
    simp only [candidate] at h
    -- the three partial candidates, without the minimality over the whole map
    let part (q : Nat) (vi : Option Nat) : Prop :=
      ∃ m w f v r, entryAt (.node off label index prio children next) w = some (m, q) ∧ vi = some f ∧ w <+: v ∧
        isLeafEntry (.node off label index prio children next) v f r ∧
        ∀ v' f' r', w <+: v' → isLeafEntry (.node off label index prio children next) v' f' r' → r ≤ r'
    have hown : ∀ q vi, (if index = none then none else if children = .nil then some (prio, index)
        else some (prio, (minLeaf children).bind fun v => v.2)) = some (q, vi) → part q vi ∧ q = prio := by
      intro q vi hh
      split_ifs at hh with h1 h2
      · cases hh
        obtain ⟨f, rfl⟩ := Option.ne_none_iff_exists'.1 h1
        refine ⟨⟨f, label, f, label, prio, by rw [entryAt_self]; rfl, rfl, List.prefix_refl _,
          (isLeafEntry_self ht).2 ⟨rfl, rfl, h2⟩, ?_⟩, rfl⟩
        intro v' f' r' hv hl
        obtain ⟨z, rfl⟩ := hv
        by_cases hz : z = []
        · subst hz
          rw [List.append_nil] at hl
          exact le_of_eq ((isLeafEntry_self ht).1 hl).2.1
        · have := ((isLeafEntry_below ht hz).1 hl).1
          rw [h2] at this; cases this
      · cases hh
        obtain ⟨m, rfl⟩ := Option.ne_none_iff_exists'.1 h1
        cases hm : minLeaf children with
        | none => exact absurd (minLeaf_none hm) h2
        | some y =>
          obtain ⟨f, v, e1, e2, e3⟩ := minLeaf_spec hw.2.2.2.1 (r := y.1) (i := y.2) hm
          have hv := entryAt_ne_nil hw.2.2.2.1 e2.1
          refine ⟨⟨m, label, f, label ++ v, y.1, by rw [entryAt_self]; rfl, e1, List.prefix_append _ _,
            (isLeafEntry_below ht hv).2 e2, ?_⟩, rfl⟩
          intro v' f' r' hv' hl
          obtain ⟨z, rfl⟩ := hv'
          by_cases hz : z = []
          · subst hz
            rw [List.append_nil] at hl
            exact absurd ((isLeafEntry_self ht).1 hl).2.2 h2
          · exact e3 z f' r' ((isLeafEntry_below ht hz).1 hl)
    have hch : ∀ q vi, candidate children = some (q, vi) → part q vi ∧
        ∀ u m' q', entryAt children u = some (m', q') → q ≤ q' := by
      intro q vi hh
      obtain ⟨m, w, f, v, r, e1, e2, e3, e4, e5, e6⟩ := ihc hw.2.2.2.1 hh
      have hwn := entryAt_ne_nil hw.2.2.2.1 e1
      have hvn := entryAt_ne_nil hw.2.2.2.1 e5.1
      refine ⟨⟨m, label ++ w, f, label ++ v, r, by rw [entryAt_below hw.1 hwn, e1], e3,
        (List.prefix_append_right_inj label).2 e4, (isLeafEntry_below ht hvn).2 e5, ?_⟩, e2⟩
      intro v' f' r' hv' hl
      obtain ⟨z, rfl⟩ := hv'
      rw [List.append_assoc, isLeafEntry_below ht (by simp [hwn])] at hl
      exact e6 (w ++ z) f' r' (List.prefix_append _ _) hl
    have hnx : ∀ q vi, candidate next = some (q, vi) → part q vi ∧
        ∀ u m' q', entryAt next u = some (m', q') → q ≤ q' := by
      intro q vi hh
      obtain ⟨m, w, f, v, r, e1, e2, e3, e4, e5, e6⟩ := ihn hw.2.2.2.2 hh
      have hwn := entryAt_ne_nil hw.2.2.2.2 e1
      have hvn := entryAt_ne_nil hw.2.2.2.2 e5.1
      refine ⟨⟨m, w, f, v, r, by rw [entryAt_other (key_of_next ht e1), e1], e3, e4,
        (isLeafEntry_other hvn (key_of_next ht e5.1)).2 e5, ?_⟩, e2⟩
      intro v' f' r' hv' hl
      have hk : keyMatches label v' = false := by
        obtain ⟨z, rfl⟩ := hv'
        rw [keyMatches_append z hwn]
        exact key_of_next ht e1
      refine e6 v' f' r' hv' ((isLeafEntry_other ?_ hk).1 hl)
      obtain ⟨z, rfl⟩ := hv'
      simp [hwn]
    -- minimality over the whole map
    have hmin : ∀ q, (∀ y, (if index = none then none else if children = .nil then some (prio, index)
          else some (prio, (minLeaf children).bind fun v => v.2)) = some y → q ≤ y.1) →
        (∀ y, candidate children = some y → q ≤ y.1) → (∀ y, candidate next = some y → q ≤ y.1) →
        ∀ w' m' q', entryAt (.node off label index prio children next) w' = some (m', q') → q ≤ q' := by
      intro q c1 c2 c3 w' m' q' hw'
      rcases entryAt_node_cases ht hw' with ⟨_, a2, a3⟩ | ⟨x, _, _, x3⟩ | ⟨_, _, y3⟩
      · subst a2
        rw [← a3]
        by_cases hc : children = .nil
        · exact c1 (prio, some m') (by simp [hc])
        · exact c1 (prio, (minLeaf children).bind fun v => v.2) (by simp [hc])
      · cases hm : candidate children with
        | none => rw [candidate_none hw.2.2.2.1 hm] at x3; cases x3
        | some y => exact le_trans (c2 y hm) ((hch y.1 y.2 hm).2 x m' q' x3)
      · cases hm : candidate next with
        | none => rw [candidate_none hw.2.2.2.2 hm] at y3; cases y3
        | some y => exact le_trans (c3 y hm) ((hnx y.1 y.2 hm).2 w' m' q' y3)
    have fin : ∀ q vi, part q vi → (∀ w' m' q', entryAt (.node off label index prio children next) w' = some (m', q') → q ≤ q') →
        isCandidate (.node off label index prio children next) q vi := by
      rintro q vi ⟨m, w, f, v, r, e1, e3, e4, e5, e6⟩ hm
      exact ⟨m, w, f, v, r, e1, hm, e3, e4, e5, e6⟩
    rcases minCand_some h with ⟨h1, h2⟩ | ⟨h1, h2⟩
    · refine fin q vi (hown q vi h1).1 (hmin q ?_ ?_ ?_)
      · intro y hy; rw [h1] at hy; cases hy; exact le_refl _
      · intro y hy
        cases hm : minCand (candidate children) (candidate next) with
        | none => rw [(minCand_none hm).1] at hy; cases hy
        | some x =>
          have := h2 x hm
          rcases minCand_some hm with ⟨a, b⟩ | ⟨a, b⟩
          · rw [a] at hy; cases hy; exact this
          · exact le_trans this (b y hy)
      · intro y hy
        cases hm : minCand (candidate children) (candidate next) with
        | none => rw [(minCand_none hm).2] at hy; cases hy
        | some x =>
          have := h2 x hm
          rcases minCand_some hm with ⟨a, b⟩ | ⟨a, b⟩
          · exact le_trans this (b y hy)
          · rw [a] at hy; cases hy; exact this
    · rcases minCand_some h1 with ⟨a, b⟩ | ⟨a, b⟩
      · refine fin q vi (hch q vi a).1 (hmin q h2 ?_ b)
        intro y hy; rw [a] at hy; cases hy; exact le_refl _
      · refine fin q vi (hnx q vi a).1 (hmin q h2 b ?_)
        intro y hy; rw [a] at hy; cases hy; exact le_refl _

/-- The victim of a non-empty dictionary (R181, R182, R187). -/
theorem victim_spec {t : Trie} (ht : trieWf t = true) (hne : t ≠ .nil) :
    ∃ f q, victimIndex t = some f ∧ isCandidate t q (some f) := by
  cases hc : candidate t with
  | none => exact absurd (candidate_none ht hc) hne
  | some y =>
    obtain ⟨m, w, f, v, r, e1, e2, e3, e4, e5, e6⟩ := candidate_spec ht (q := y.1) (vi := y.2) hc
    refine ⟨f, y.1, ?_, m, w, f, v, r, e1, e2, rfl, e4, e5, e6⟩
    simp [victimIndex, hc, e3]

/-! ### Unlinking the victim -/

/-- An index that no leaf holds: nothing is unlinked. -/
theorem removeLeaf_absent {t : Trie} (ht : trieWf t = true) (f : Nat) (h : ∀ v r, ¬ isLeafEntry t v f r) :
    removeLeaf f t = (t, false) := by
  induction t with
  | nil => rfl
  | node off label index prio children next ihc ihn =>
    have hw := trieWf_node.1 ht
    have h0 : ¬ (index = some f ∧ children = .nil) := fun g =>
      h label prio ((isLeafEntry_self ht).2 ⟨g.1, rfl, g.2⟩)
    have hc := ihc hw.2.2.2.1 fun v r g =>
      h (label ++ v) r ((isLeafEntry_below ht (entryAt_ne_nil hw.2.2.2.1 g.1)).2 g)
    have hn := ihn hw.2.2.2.2 fun v r g =>
      h v r ((isLeafEntry_other (entryAt_ne_nil hw.2.2.2.2 g.1) (key_of_next ht g.1)).2 g)
    simp only [removeLeaf]
    rw [if_neg h0, hc, hn]
    rfl

theorem keysAfter_of_node {l : List Byte} {off : Nat} {label : List Byte} {index : Option Nat} {prio : Nat}
    {children next : Trie} (h : keyBefore l label = true) (hn : keysAfter l next) :
    keysAfter l (.node off label index prio children next) := ⟨h, hn⟩

/-- What `Normalise` leaves in the place of a node that lost a child (R184): the same entries, in form. -/
theorem normalise_spec {off : Nat} {label : List Byte} {index : Option Nat} {prio : Nat} {ch next : Trie}
    (hl : label ≠ []) (hr : keyRises label next = true) (hi : index.isSome = true ∨ 1 ≤ siblings ch)
    (hc : trieWf ch = true) (hn : trieWf next = true) :
    (normalise off label index prio ch next).2 = false ∧
    trieWf (normalise off label index prio ch next).1 = true ∧
    siblings (normalise off label index prio ch next).1 = siblings next + 1 ∧
    (∀ l, keyBefore l label = true → keysAfter l next → keysAfter l (normalise off label index prio ch next).1) ∧
    (∀ u, entryAt (normalise off label index prio ch next).1 u = entryAt (.node off label index prio ch next) u) ∧
    indices (normalise off label index prio ch next).1 = index.toList ++ indices ch ++ indices next ∧
    (prios (normalise off label index prio ch next).1).Sublist (prio :: prios ch ++ prios next) := by
  have base : (index.isSome = true ∨ 2 ≤ siblings ch) → normalise off label index prio ch next =
      (.node off label index prio ch next, false) →
      (normalise off label index prio ch next).2 = false ∧
      trieWf (normalise off label index prio ch next).1 = true ∧
      siblings (normalise off label index prio ch next).1 = siblings next + 1 ∧
      (∀ l, keyBefore l label = true → keysAfter l next → keysAfter l (normalise off label index prio ch next).1) ∧
      (∀ u, entryAt (normalise off label index prio ch next).1 u = entryAt (.node off label index prio ch next) u) ∧
      indices (normalise off label index prio ch next).1 = index.toList ++ indices ch ++ indices next ∧
      (prios (normalise off label index prio ch next).1).Sublist (prio :: prios ch ++ prios next) := by
    intro g e
    rw [e]
    exact ⟨rfl, trieWf_node.2 ⟨hl, hr, g, hc, hn⟩, rfl, fun l h1 h2 => ⟨h1, h2⟩, fun u => rfl, rfl, List.Sublist.refl _⟩
  cases index with
  | some i => exact base (.inl rfl) (by cases ch <;> rfl)
  | none =>
    cases ch with
    | nil => simp [siblings] at hi
    | node off' label' index' prio' children' next' =>
      cases next' with
      | node o l i p c n => exact base (.inr (by simp [siblings])) rfl
      | nil =>
        have hcw := trieWf_node.1 hc
        have hh : (label ++ label').head? = label.head? := by cases label <;> simp_all
        have hka := keysAfter_of_rises hr hn
        have hkm : ∀ v : List Byte, keyMatches (label ++ label') v = keyMatches label v := by
          intro v; simp [keyMatches, hh]
        simp only [normalise]
        refine ⟨trivial, trieWf_node.2 ⟨by simp [hl], rises_of_keysAfter (keysAfter_congr hh.symm hka), hcw.2.2.1,
          hcw.2.2.2.1, hn⟩, rfl, ?_, ?_, by simp [indices], ?_⟩
        · intro l h1 h2
          exact ⟨by rw [keyBefore_congr_right hh]; exact h1, h2⟩
        · intro u
          refine key_cases (label := label) (u := u) _ ?_ ?_ ?_ ?_
          · intro h; rw [entryAt_other (by rw [hkm]; exact h), entryAt_other h]
          · intro h g
            rw [entryAt_part (by rw [hkm]; exact h) fun g' => g ((List.prefix_append label label').trans g'),
              entryAt_part h g]
          · rintro rfl
            rw [entryAt_short hl hcw.1, entryAt_self]; rfl
          · rintro z hz rfl
            rw [entryAt_long (off' := off') hl hcw.1 hz, entryAt_below hl hz]
        · simp only [prios, List.cons_append, List.append_nil]
          exact List.sublist_cons_self _ _

/-- Everything the deletion of the leaf with index `f` does (R180, R183, R184): its entry goes, every
other entry keeps index, string and priority; the trie keeps its form; the map loses a node only when
the leaf stood in it. -/
theorem removeLeaf_spec {t : Trie} (ht : trieWf t = true) (hn : (indices t).Nodup) {f : Nat} {v : List Byte} {r : Nat}
    (hf : isLeafEntry t v f r) :
    trieWf (removeLeaf f t).1 = true ∧
    siblings t = siblings (removeLeaf f t).1 + (if (removeLeaf f t).2 then 1 else 0) ∧
    (∀ l, keysAfter l t → keysAfter l (removeLeaf f t).1) ∧
    (∀ u, entryAt (removeLeaf f t).1 u = if u = v then none else entryAt t u) ∧
    (f :: indices (removeLeaf f t).1).Perm (indices t) ∧
    (prios (removeLeaf f t).1).Sublist (prios t) := by
  induction t generalizing v r with
  | nil => cases hf.1
  | node off label index prio children next ihc ihn =>
    have hw := trieWf_node.1 ht
    have hka := keysAfter_of_rises hw.2.1 hw.2.2.2.2
    have hn' := hn
    simp only [indices, List.nodup_append, List.mem_append] at hn'
    obtain ⟨⟨n1, n2, n3⟩, n4, n5⟩ := hn'
    have hnextkey : ∀ u, keyMatches label u = true → entryAt next u = none := fun u hu =>
      entryAt_keysAfter hka (.inl hu)
    by_cases h0 : index = some f ∧ children = .nil
    · -- the node is the victim
      have e : removeLeaf f (.node off label index prio children next) = (next, true) := by
        simp only [removeLeaf]; rw [if_pos h0]
      obtain ⟨rfl, rfl⟩ := h0
      have hv : v = label := ((entry_of_index ht hn hf.1 (v := label) (r := prio) (by rw [entryAt_self]; rfl)).1)
      subst hv
      rw [e]
      refine ⟨hw.2.2.2.2, by simp [siblings], fun l h => h.2, ?_, ?_, ?_⟩
      · intro u
        refine key_cases (label := v) (u := u) _ ?_ ?_ ?_ ?_
        · intro h
          have h2 : u ≠ v := by
            rintro rfl
            simp [keyMatches] at h
          rw [if_neg h2, entryAt_other h]
        · intro h g
          have h2 : u ≠ v := by
            rintro rfl
            exact g (List.prefix_refl _)
          rw [if_neg h2, entryAt_part h g, hnextkey u h]
        · rintro rfl
          rw [if_pos rfl, hnextkey u (by simp [keyMatches])]
        · rintro z hz rfl
          rw [if_neg (by simpa using hz), entryAt_below hw.1 hz, hnextkey _ (keyMatches_of_prefix hw.1 (List.prefix_append _ _))]
          rfl
      · simp [indices]
      · simp [prios]
    · have hcase := entryAt_node_cases ht hf.1
      rcases hcase with ⟨rfl, h1, _⟩ | ⟨x, hx, rfl, h1⟩ | ⟨hv0, hvk, h1⟩
      · exact absurd ⟨h1, ((isLeafEntry_self ht).1 hf).2.2⟩ h0
      · -- below the node
        have hfx := (isLeafEntry_below ht hx).1 hf
        obtain ⟨c1, c2, c3, c4, c5, c6⟩ := ihc hw.2.2.2.1 n2 hfx
        have hfc : f ∈ indices children := (mem_indices hw.2.2.2.1 f).2 ⟨x, r, h1⟩
        have hnx : removeLeaf f next = (next, false) := by
          refine removeLeaf_absent hw.2.2.2.2 f fun v' r' g => ?_
          exact n5 f (.inr hfc) f ((mem_indices hw.2.2.2.2 f).2 ⟨v', r', g.1⟩) rfl
        have hent : ∀ u, entryAt (.node off label index prio (removeLeaf f children).1 next) u =
            if u = label ++ x then none else entryAt (.node off label index prio children next) u := by
          intro u
          refine key_cases (label := label) (u := u) _ ?_ ?_ ?_ ?_
          · intro h
            have h2 : u ≠ label ++ x := by
              rintro rfl
              rw [keyMatches_of_prefix hw.1 (List.prefix_append _ _)] at h; cases h
            rw [if_neg h2, entryAt_other h, entryAt_other h]
          · intro h g
            have h2 : u ≠ label ++ x := by
              rintro rfl
              exact g (List.prefix_append _ _)
            rw [if_neg h2, entryAt_part h g, entryAt_part h g]
          · rintro rfl
            rw [if_neg (by simpa using hx), entryAt_self, entryAt_self]
          · rintro z hz rfl
            rw [entryAt_below hw.1 hz, entryAt_below hw.1 hz, c4]
            simp only [List.append_cancel_left_eq]
        have hidx : (f :: (index.toList ++ indices (removeLeaf f children).1 ++ indices next)).Perm
            (index.toList ++ indices children ++ indices next) := by
          have h2 : (index.toList ++ f :: indices (removeLeaf f children).1).Perm (index.toList ++ indices children) :=
            c5.append_left _
          exact (List.perm_middle.symm.append_right _).trans (h2.append_right _)
        have hpri : (prio :: prios (removeLeaf f children).1 ++ prios next).Sublist (prio :: prios children ++ prios next) :=
          (c6.cons_cons prio).append_right _
        by_cases hlost : (removeLeaf f children).2 = true
        · have e : removeLeaf f (.node off label index prio children next) =
              normalise off label index prio (removeLeaf f children).1 next := by
            simp only [removeLeaf]
            rw [if_neg h0, if_pos hlost]
          rw [hlost, if_pos rfl] at c2
          have hi : index.isSome = true ∨ 1 ≤ siblings (removeLeaf f children).1 := by
            rcases hw.2.2.1 with h | h
            · exact .inl h
            · right; omega
          obtain ⟨d1, d2, d3, d4, d5, d6, d7⟩ := normalise_spec (off := off) (prio := prio) hw.1 hw.2.1 hi c1 hw.2.2.2.2
          rw [e, d1]
          refine ⟨d2, by rw [d3]; rfl, fun l h => d4 l h.1 h.2, fun u => by rw [d5, hent], ?_, d7.trans hpri⟩
          rw [d6]; exact hidx
        · rw [Bool.not_eq_true] at hlost
          have e : removeLeaf f (.node off label index prio children next) =
              (.node off label index prio (removeLeaf f children).1 next, false) := by
            simp only [removeLeaf]
            rw [if_neg h0, hlost, hnx]
            rfl
          rw [hlost] at c2
          have c2' : siblings children = siblings (removeLeaf f children).1 := by simpa using c2
          rw [e]
          refine ⟨trieWf_node.2 ⟨hw.1, hw.2.1, by rw [← c2']; exact hw.2.2.1, c1, hw.2.2.2.2⟩, by simp [siblings],
            fun l h => h, hent, hidx, hpri⟩
      · -- in the rest of the map
        have hfn := (isLeafEntry_other hv0 hvk).1 hf
        obtain ⟨c1, c2, c3, c4, c5, c6⟩ := ihn hw.2.2.2.2 n4 hfn
        have hfc : f ∈ indices next := (mem_indices hw.2.2.2.2 f).2 ⟨v, r, h1⟩
        have hch : removeLeaf f children = (children, false) := by
          refine removeLeaf_absent hw.2.2.2.1 f fun v' r' g => ?_
          exact n5 f (.inr ((mem_indices hw.2.2.2.1 f).2 ⟨v', r', g.1⟩)) f hfc rfl
        have e : removeLeaf f (.node off label index prio children next) =
            (.node off label index prio children (removeLeaf f next).1, (removeLeaf f next).2) := by
          simp only [removeLeaf]
          rw [if_neg h0, hch]
          rfl
        rw [e]
        refine ⟨trieWf_node.2 ⟨hw.1, rises_of_keysAfter (c3 label hka), hw.2.2.1, hw.2.2.2.1, c1⟩, ?_,
          fun l h => ⟨h.1, c3 l h.2⟩, ?_, ?_, ?_⟩
        · simp only [siblings]; omega
        · intro u
          refine key_cases (label := label) (u := u) _ ?_ ?_ ?_ ?_
          · intro h
            rw [entryAt_other h, entryAt_other h, c4]
          · intro h g
            have h2 : u ≠ v := by
              rintro rfl
              rw [hvk] at h; cases h
            rw [if_neg h2, entryAt_part h g, entryAt_part h g]
          · rintro rfl
            have h2 : u ≠ v := by
              rintro rfl
              simp [keyMatches] at hvk
            rw [if_neg h2, entryAt_self, entryAt_self]
          · rintro z hz rfl
            have h2 : label ++ z ≠ v := by
              rintro rfl
              rw [keyMatches_of_prefix hw.1 (List.prefix_append _ _)] at hvk; cases hvk
            rw [if_neg h2, entryAt_below hw.1 hz, entryAt_below hw.1 hz]
        · simp only [indices]
          exact List.perm_middle.symm.trans (c5.append_left _)
        · simp only [prios, List.cons_append]
          exact (c6.append_left _).cons_cons prio

/-- `indices` and `prios` of an empty trie. -/
theorem indices_eq_nil {t : Trie} (ht : trieWf t = true) : indices t = [] ↔ t = .nil := by
  constructor
  · intro h
    by_contra hne
    obtain ⟨u, ⟨i, q⟩, he⟩ := exists_entry ht hne
    have := (mem_indices ht i).2 ⟨u, q, he⟩
    rw [h] at this; cases this
  · rintro rfl; rfl

end Sys2Proof.Machine
end

