-- ==== Sys2Proof/Laws/Dictionary.lean ====
section
/-! SUPPORT. What each dictionary operation does, once: touching, finding, allocating, inserting,
evicting (R161 to R188), and that each keeps the invariants of R45 and R46. -/

namespace Sys2Proof.Machine

/-! ### The invariants as propositions -/

theorem dictWf_iff (cap : Nat) (d : Dict) : dictWf cap d = true ↔
    trieWf d.roots = true ∧ (indices d.roots).Nodup ∧ (indices d.roots).length = d.count ∧ d.count ≤ cap ∧
    (d.freeValid = true → d.count + 1 = cap ∧ d.freeIdx < cap ∧ ∀ i ∈ indices d.roots, i < cap ∧ i ≠ d.freeIdx) ∧
    (d.freeValid = false → d.freeIdx = 0 ∧ ∀ i ∈ indices d.roots, i < d.count) ∧
    (prios d.roots).Nodup ∧ ∀ p ∈ prios d.roots, p < d.prio := by
  simp only [dictWf, indicesWf, priosWf, Bool.and_eq_true, decide_eq_true_eq, List.all_eq_true]
  cases d.freeValid <;> simp <;> tauto

theorem empty_wf (cap : Nat) (sel : DataSel) : dictWf cap (Dict.empty sel) = true := by
  rw [dictWf_iff]; simp [Dict.empty, trieWf, indices, prios]

/-- A full dictionary holds no freed index (R46 (f)). -/
theorem full_not_free {cap : Nat} {d : Dict} (h : dictWf cap d = true) (hc : d.count = cap) : d.freeValid = false := by
  obtain ⟨_, _, _, _, h5, _, _, _⟩ := (dictWf_iff cap d).1 h
  cases hf : d.freeValid with
  | false => rfl
  | true => have := (h5 hf).1; omega

/-! ### Touching -/

@[simp] theorem dictTouch_count (s : List Byte) (d : Dict) : (dictTouch s d).count = d.count := rfl
@[simp] theorem dictTouch_freeValid (s : List Byte) (d : Dict) : (dictTouch s d).freeValid = d.freeValid := rfl
@[simp] theorem dictTouch_freeIdx (s : List Byte) (d : Dict) : (dictTouch s d).freeIdx = d.freeIdx := rfl
@[simp] theorem dictTouch_dsel (s : List Byte) (d : Dict) : (dictTouch s d).dsel = d.dsel := rfl
theorem dictTouch_roots (s : List Byte) (d : Dict) : (dictTouch s d).roots = (touchWalk d.roots s d.prio).1 := rfl
theorem dictTouch_prio (s : List Byte) (d : Dict) : (dictTouch s d).prio = (touchWalk d.roots s d.prio).2 := rfl

theorem dictTouch_wf {cap : Nat} {d : Dict} (s : List Byte) (h : dictWf cap d = true) :
    dictWf cap (dictTouch s d) = true := by
  obtain ⟨h1, h2, h3, h4, h5, h6, h7, h8⟩ := (dictWf_iff cap d).1 h
  obtain ⟨p1, p2, p3⟩ := touchWalk_prios d.roots s d.prio
  rw [dictWf_iff]
  simp only [dictTouch_roots, dictTouch_prio, dictTouch_count, dictTouch_freeValid, dictTouch_freeIdx,
    indices_touchWalk, trieWf_touchWalk]
  refine ⟨h1, h2, h3, h4, h5, h6, p3 h7 h8, fun p hp => ?_⟩
  rcases p2 p hp with g | g
  · have := h8 p g; omega
  · exact g.2

/-- The order of the touches of a walk (R163): the entries whose strings are prefixes get fresh
priorities, the shorter the smaller. -/
theorem entryAt_touchWalk_fresh {t : Trie} (h : trieWf t = true) (s : List Byte) (p : Nat) :
    (∀ u i q, u <+: s → entryAt (touchWalk t s p).1 u = some (i, q) → p ≤ q ∧ q < (touchWalk t s p).2) ∧
    (∀ u v i j q r, u <+: v → v <+: s → u ≠ v → entryAt (touchWalk t s p).1 u = some (i, q) →
      entryAt (touchWalk t s p).1 v = some (j, r) → q < r) := by
  induction t generalizing s p with
  | nil => exact ⟨fun u i q _ h => (by cases h), fun u v i j q r _ _ _ h => (by cases h)⟩
  | node off label index prio children next ihc ihn =>
    have hw := trieWf_node.1 h
    by_cases hs : s = []
    · subst hs
      simp only [touchWalk, if_true]
      refine ⟨fun u i q hu he => ?_, fun u v i j q r huv hv _ he _ => ?_⟩
      · rw [List.prefix_nil.1 hu, entryAt_nil_string h] at he; cases he
      · rw [List.prefix_nil.1 (huv.trans hv), entryAt_nil_string h] at he; cases he
    · -- a non-empty prefix of the string has the string's key
      have hkey : ∀ u, u ≠ [] → u <+: s → keyMatches label u = keyMatches label s := by
        rintro u hu ⟨z, rfl⟩
        exact (keyMatches_append z hu).symm
      have hnil : keyMatches label [] = false := by
        cases label with
        | nil => exact absurd rfl hw.1
        | cons a l => rfl
      by_cases hk : keyMatches label s = true
      · by_cases hp : label <+: s
        · obtain ⟨r, rfl⟩ := hp
          obtain ⟨c1, c2⟩ := ihc hw.2.2.2.1 r (p + 1)
          obtain ⟨q1, _, _⟩ := touchWalk_prios children r (p + 1)
          have e : touchWalk (.node off label index prio children next) (label ++ r) p =
              (.node off label index p (touchWalk children r (p + 1)).1 next, (touchWalk children r (p + 1)).2) := by
            simp only [touchWalk]
            rw [if_neg hs, if_pos hk, if_pos (List.isPrefixOf_iff_prefix.2 (List.prefix_append _ _)), List.drop_left]
          rw [e]
          simp only
          have hwf : trieWf (.node off label index p (touchWalk children r (p + 1)).1 next) = true := by
            have := trieWf_touchWalk (.node off label index prio children next) (label ++ r) p
            rw [e] at this; rw [this]; exact h
          have hcs : ∀ u i q, u <+: label ++ r →
              entryAt (.node off label index p (touchWalk children r (p + 1)).1 next) u = some (i, q) →
              (u = label ∧ q = p) ∨ ∃ z, z ≠ [] ∧ u = label ++ z ∧ z <+: r ∧
                entryAt (touchWalk children r (p + 1)).1 z = some (i, q) := by
            intro u i q hu he
            have hu0 := entryAt_ne_nil hwf he
            rcases entryAt_node_cases hwf he with ⟨a1, _, a3⟩ | ⟨z, z1, z2, z3⟩ | ⟨_, y2, _⟩
            · exact .inl ⟨a1, a3.symm⟩
            · subst z2
              exact .inr ⟨z, z1, rfl, (List.prefix_append_right_inj label).1 hu, z3⟩
            · rw [hkey u hu0 hu, hk] at y2; cases y2
          refine ⟨?_, ?_⟩
          · intro u i q hu he
            rcases hcs u i q hu he with ⟨_, rfl⟩ | ⟨z, _, _, z3, z4⟩
            · omega
            · have := c1 z i q z3 z4; omega
          · intro u v i j q r' huv hv hne h1 h2
            rcases hcs v j r' hv h2 with ⟨rfl, _⟩ | ⟨z, z1, rfl, z3, z4⟩
            · rcases hcs u i q (huv.trans hv) h1 with ⟨rfl, _⟩ | ⟨x, x1, rfl, _, _⟩
              · exact absurd rfl hne
              · have := huv.length_le
                have hx : x.length ≠ 0 := by simpa using x1
                rw [List.length_append] at this; omega
            · rcases hcs u i q (huv.trans hv) h1 with ⟨_, rfl⟩ | ⟨x, x1, rfl, x3, x4⟩
              · have := c1 z j r' z3 z4; omega
              · exact c2 x z i j q r' ((List.prefix_append_right_inj label).1 huv) z3 (by rintro rfl; exact hne rfl) x4 z4
        · have e : touchWalk (.node off label index prio children next) s p =
              (.node off label index prio children next, p) := by
            simp only [touchWalk]
            rw [if_neg hs, if_pos hk, if_neg (fun g => hp (List.isPrefixOf_iff_prefix.1 g))]
          rw [e]
          have hnone : ∀ u, u <+: s → entryAt (.node off label index prio children next) u = none := by
            intro u hu
            by_cases hu0 : u = []
            · subst hu0; exact entryAt_nil_string h
            · exact entryAt_part (by rw [hkey u hu0 hu]; exact hk) fun g => hp (g.trans hu)
          refine ⟨fun u i q hu he => ?_, fun u v i j q r huv hv _ he _ => ?_⟩
          · rw [hnone u hu] at he; cases he
          · rw [hnone u (huv.trans hv)] at he; cases he
      · obtain ⟨c1, c2⟩ := ihn hw.2.2.2.2 s p
        have e : touchWalk (.node off label index prio children next) s p =
            (.node off label index prio children (touchWalk next s p).1, (touchWalk next s p).2) := by
          simp only [touchWalk]
          rw [if_neg hs, if_neg hk]
        rw [e]
        rw [Bool.not_eq_true] at hk
        have hent : ∀ u, u <+: s → entryAt (.node off label index prio children (touchWalk next s p).1) u =
            entryAt (touchWalk next s p).1 u := by
          intro u hu
          by_cases hu0 : u = []
          · subst hu0; exact entryAt_other hnil
          · exact entryAt_other (by rw [hkey u hu0 hu]; exact hk)
        refine ⟨fun u i q hu he => c1 u i q hu (by rw [← hent u hu]; exact he), ?_⟩
        intro u v i j q r huv hv hne h1 h2
        exact c2 u v i j q r huv hv hne (by rw [← hent u (huv.trans hv)]; exact h1) (by rw [← hent v hv]; exact h2)

/-! ### Walking -/

/-- The last node of an exact walk carries the entry of the string (R161, R167). -/
theorem walk_entry {t : Trie} (ht : trieWf t = true) (d : Nat) {s : List Byte} (hs : s ≠ []) :
    (match walk d t s with
      | (chain, .exact) => lastIndex chain
      | _ => none) = (entryAt t s).map Prod.fst := by
  induction t generalizing d s with
  | nil => simp [walk, entryAt, hs]
  | node off label index prio children next ihc ihn =>
    have hw := trieWf_node.1 ht
    simp only [walk, if_neg hs]
    by_cases hk : keyMatches label s = true
    · rw [if_pos hk]
      by_cases hp : label <+: s
      · rw [if_pos (List.isPrefixOf_iff_prefix.2 hp)]
        obtain ⟨r, rfl⟩ := hp
        rw [List.drop_left]
        by_cases hr : r = []
        · subst hr
          have e : walk (d + label.length) children [] = ([], .exact) := by cases children <;> simp [walk]
          rw [e, List.append_nil, entryAt_self]
          cases index <;> rfl
        · have ih := ihc hw.2.2.2.1 (d + label.length) hr
          rw [entryAt_below hw.1 hr, ← ih]
          have hne : (walk (d + label.length) children r).2 = .exact → (walk (d + label.length) children r).1 ≠ [] := by
            intro h1 h2
            have hx : ∀ (t : Trie) (d : Nat) (r : List Byte), r ≠ [] → (walk d t r).2 = .exact → (walk d t r).1 ≠ [] := by
              intro t
              induction t with
              | nil => intro d r hr h; simp [walk, hr] at h
              | node o l i q c n ihc' ihn' =>
                intro d r hr h
                simp only [walk, if_neg hr] at h ⊢
                split_ifs at h ⊢ with g1 g2
                · simp
                · exact ihn' d r hr h
            exact hx children _ r hr h1 h2
          rcases hwk : walk (d + label.length) children r with ⟨chain, stop⟩
          rw [hwk] at hne
          cases stop with
          | exact =>
            cases chain with
            | nil => exact absurd rfl (hne rfl)
            | cons x xs => rfl
          | noChild => rfl
          | partMatch => rfl
      · rw [if_neg (fun g => hp (List.isPrefixOf_iff_prefix.1 g)), entryAt_part hk hp]; rfl
    · rw [if_neg hk, ihn hw.2.2.2.2 d hs, entryAt_other (Bool.eq_false_iff.2 hk)]

/-! ### Allocating -/

/-- Everything `FreeIndex` does to a dictionary with an entry (R180 to R184, R187). -/
theorem freeIndex_spec {cap : Nat} {d : Dict} (h : dictWf cap d = true) (hc : 0 < d.count) :
    ∃ m w q f v r,
      entryAt d.roots w = some (m, q) ∧ (∀ w' m' q', entryAt d.roots w' = some (m', q') → q ≤ q') ∧
      w <+: v ∧ isLeafEntry d.roots v f r ∧
      (∀ v' f' r', w <+: v' → isLeafEntry d.roots v' f' r' → r ≤ r') ∧
      freeIndex d = ({ d with roots := (removeLeaf f d.roots).1, count := d.count - 1, freeValid := true, freeIdx := f }, f) ∧
      trieWf (removeLeaf f d.roots).1 = true ∧
      (∀ u, entryAt (removeLeaf f d.roots).1 u = if u = v then none else entryAt d.roots u) ∧
      (f :: indices (removeLeaf f d.roots).1).Perm (indices d.roots) ∧
      (prios (removeLeaf f d.roots).1).Sublist (prios d.roots) := by
  obtain ⟨h1, h2, h3, _⟩ := (dictWf_iff cap d).1 h
  have hne : d.roots ≠ .nil := by
    intro hn
    rw [hn] at h3
    simp [indices] at h3
    omega
  obtain ⟨f, q, hv, m, w, f', v, r, e1, e2, e3, e4, e5, e6⟩ := victim_spec h1 hne
  cases e3
  obtain ⟨g1, _, _, g4, g5, g6⟩ := removeLeaf_spec h1 h2 e5
  refine ⟨m, w, q, f, v, r, e1, e2, e4, e5, e6, ?_, g1, g4, g5, g6⟩
  unfold freeIndex
  rw [hv]

/-- An eviction from a full dictionary keeps the invariants. -/
theorem freeIndex_wf {cap : Nat} {d : Dict} (h : dictWf cap d = true) (hf : d.count = cap) (hc : 0 < cap) :
    dictWf cap (freeIndex d).1 = true := by
  obtain ⟨m, w, q, f, v, r, _, _, _, e4, _, e6, e7, _, e9, e10⟩ := freeIndex_spec h (by omega)
  obtain ⟨h1, h2, h3, h4, _, h6, h7, h8⟩ := (dictWf_iff cap d).1 h
  have hfv := full_not_free h hf
  rw [e6, dictWf_iff]
  have hnd : (f :: indices (removeLeaf f d.roots).1).Nodup := e9.nodup_iff.2 h2
  have hlt : ∀ i ∈ f :: indices (removeLeaf f d.roots).1, i < d.count := fun i hi => (h6 hfv).2 i (e9.mem_iff.1 hi)
  have hlen := e9.length_eq
  rw [List.length_cons] at hlen
  rw [List.nodup_cons] at hnd
  refine ⟨e7, hnd.2, by simp only; omega, by simp only; omega, fun _ => ⟨by simp only; omega, ?_, ?_⟩, fun h => (by cases h),
    e10.nodup h7, fun p hp => h8 p (e10.subset hp)⟩
  · have := hlt f (by simp); simp only; omega
  · intro i hi
    have := hlt i (List.mem_cons_of_mem _ hi)
    exact ⟨by omega, fun e => hnd.1 ((show i = f from e) ▸ hi)⟩

/-- What `NewIndex` answers (R168, R46 (f)): a new index, and a dictionary with room for it. -/
theorem newIndex_spec {cap : Nat} {d : Dict} (h : dictWf cap d = true) (hc : 0 < cap) :
    trieWf (newIndex cap d).1.roots = true ∧
    ((newIndex cap d).2 :: indices (newIndex cap d).1.roots).Nodup ∧
    (indices (newIndex cap d).1.roots).length = (newIndex cap d).1.count ∧
    (newIndex cap d).1.count + 1 ≤ cap ∧
    (newIndex cap d).1.freeValid = false ∧ (newIndex cap d).1.freeIdx = 0 ∧
    (∀ i ∈ (newIndex cap d).2 :: indices (newIndex cap d).1.roots, i < (newIndex cap d).1.count + 1) ∧
    (prios (newIndex cap d).1.roots).Nodup ∧ (∀ p ∈ prios (newIndex cap d).1.roots, p < (newIndex cap d).1.prio) ∧
    (newIndex cap d).1.prio = d.prio ∧ (newIndex cap d).1.dsel = d.dsel ∧
    (newIndex cap d).1.count = (if d.count = cap then cap - 1 else d.count) ∧
    (∀ u e, entryAt (newIndex cap d).1.roots u = some e → entryAt d.roots u = some e) := by
  obtain ⟨h1, h2, h3, h4, h5, h6, h7, h8⟩ := (dictWf_iff cap d).1 h
  by_cases hf : d.count = cap
  · obtain ⟨m, w, q, f, v, r, _, _, _, e4, _, e6, e7, e8, e9, e10⟩ := freeIndex_spec h (by omega)
    have hfv := full_not_free h hf
    have e : newIndex cap d = ({ d with roots := (removeLeaf f d.roots).1, count := d.count - 1, freeValid := false, freeIdx := 0 }, f) := by
      unfold newIndex
      rw [if_pos hf, e6]
      simp
    rw [e]
    have hnd : (f :: indices (removeLeaf f d.roots).1).Nodup := e9.nodup_iff.2 h2
    have hlen := e9.length_eq
    rw [List.length_cons] at hlen
    refine ⟨e7, hnd, by simp only; omega, by simp only; omega, rfl, rfl, ?_, e10.nodup h7, fun p hp => h8 p (e10.subset hp),
      rfl, rfl, by simp only; rw [if_pos hf, hf], ?_⟩
    · intro i hi
      have := (h6 hfv).2 i (e9.mem_iff.1 hi)
      simp only; omega
    · intro u x hx
      rw [e8] at hx
      split_ifs at hx
      exact hx
  · by_cases hfv : d.freeValid = true
    · have e : newIndex cap d = ({ d with freeValid := false, freeIdx := 0 }, d.freeIdx) := by
        unfold newIndex
        rw [if_neg hf]
        simp [hfv]
      obtain ⟨a1, a2, a3⟩ := h5 hfv
      rw [e]
      refine ⟨h1, List.nodup_cons.2 ⟨fun hm => (a3 _ hm).2 rfl, h2⟩, h3, by simp only; omega, rfl, rfl, ?_, h7, h8, rfl, rfl,
        by simp only; rw [if_neg hf], fun u x hx => hx⟩
      intro i hi
      rcases List.mem_cons.1 hi with rfl | hi
      · simp only; omega
      · have := (a3 i hi).1
        simp only; omega
    · rw [Bool.not_eq_true] at hfv
      have e : newIndex cap d = (d, d.count) := by
        unfold newIndex
        rw [if_neg hf]
        simp [hfv]
      obtain ⟨a1, a2⟩ := h6 hfv
      rw [e]
      refine ⟨h1, List.nodup_cons.2 ⟨fun hm => by have := a2 _ hm; omega, h2⟩, h3, by simp only; omega, hfv, a1, ?_, h7, h8,
        rfl, rfl, by simp only; rw [if_neg hf], fun u x hx => hx⟩
      intro i hi
      rcases List.mem_cons.1 hi with rfl | hi
      · simp only; omega
      · have := a2 i hi
        simp only; omega

/-! ### Inserting -/

/-- An insert is an exact hit or an allocation (R165, R167). -/
theorem dictInsert_eq {cap : Nat} {d : Dict} (ht : trieWf d.roots = true) (soff : Nat) {s : List Byte} (hs : s ≠ []) :
    dictInsert cap soff s d =
      match entryAt d.roots s with
      | some e => (dictTouch s d, e.1)
      | none => insertNew cap soff s d := by
  have h := walk_entry ht 0 hs
  unfold dictInsert
  rcases hwk : walk 0 d.roots s with ⟨chain, stop⟩
  rw [hwk] at h
  cases hen : entryAt d.roots s with
  | none =>
    rw [hen] at h
    cases stop with
    | exact => simp only [Option.map_none] at h ⊢; rw [h]
    | noChild => rfl
    | partMatch => rfl
  | some e =>
    rw [hen] at h
    cases stop with
    | exact => simp only [Option.map_some] at h ⊢; rw [h]
    | noChild => cases h
    | partMatch => cases h

theorem insertNew_eq (cap soff : Nat) (s : List Byte) (d : Dict) :
    insertNew cap soff s d =
      ({ (newIndex cap d).1 with
          roots := (place (newIndex cap d).1.roots soff s (newIndex cap d).2 (newIndex cap d).1.prio).1
          prio := (place (newIndex cap d).1.roots soff s (newIndex cap d).2 (newIndex cap d).1.prio).2
          count := (newIndex cap d).1.count + 1 }, (newIndex cap d).2) := rfl

/-- An allocating insert keeps the invariants. -/
theorem insertNew_wf {cap : Nat} {d : Dict} (h : dictWf cap d = true) (hc : 0 < cap) (soff : Nat) {s : List Byte}
    (hs : s ≠ []) (hn : entryAt d.roots s = none) :
    dictWf cap (insertNew cap soff s d).1 = true ∧
    (insertNew cap soff s d).1.count = (if d.count = cap then cap else d.count + 1) := by
  obtain ⟨a1, a2, a3, a4, a5, a6, a7, a8, a9, _, _, a12, a13⟩ := newIndex_spec h hc
  have hn' : entryAt (newIndex cap d).1.roots s = none := by
    cases he : entryAt (newIndex cap d).1.roots s with
    | none => rfl
    | some e => rw [a13 s e he] at hn; cases hn
  have hp := indices_place (newIndex cap d).2 (newIndex cap d).1.roots soff s (newIndex cap d).1.prio a1 hs hn'
  obtain ⟨p1, p2, p3⟩ := prios_place (newIndex cap d).2 (newIndex cap d).1.roots soff s (newIndex cap d).1.prio a1 hs
  rw [insertNew_eq]
  refine ⟨?_, ?_⟩
  · rw [dictWf_iff]
    refine ⟨place_wf a1 hs, hp.nodup_iff.2 a2, ?_, a4, ?_, ?_, p3 a8 a9, ?_⟩
    · rw [hp.length_eq, List.length_cons, a3]
    · intro g; simp only at g; rw [a5] at g; cases g
    · intro _
      exact ⟨a6, fun i hi => a7 i (hp.mem_iff.1 hi)⟩
    · intro p hq
      rcases p2 p hq with g | g
      · have := a9 p g; simp only; omega
      · exact g.2
  · simp only [a12]
    split_ifs <;> omega

theorem dictInsert_wf {cap : Nat} {d : Dict} (h : dictWf cap d = true) (hc : 0 < cap) (soff : Nat) {s : List Byte}
    (hs : s ≠ []) : dictWf cap (dictInsert cap soff s d).1 = true := by
  rw [dictInsert_eq ((dictWf_iff cap d).1 h).1 soff hs]
  cases hen : entryAt d.roots s with
  | some e => exact dictTouch_wf s h
  | none => exact (insertNew_wf h hc soff hs hen).1

/-- The count never falls at an insert (R204). -/
theorem count_dictInsert {cap : Nat} {d : Dict} (h : dictWf cap d = true) (hc : 0 < cap) (soff : Nat) {s : List Byte}
    (hs : s ≠ []) : d.count ≤ (dictInsert cap soff s d).1.count := by
  rw [dictInsert_eq ((dictWf_iff cap d).1 h).1 soff hs]
  cases hen : entryAt d.roots s with
  | some e => exact le_refl _
  | none =>
    simp only
    rw [(insertNew_wf h hc soff hs hen).2]
    have := ((dictWf_iff cap d).1 h).2.2.2.1
    split_ifs <;> omega

theorem freeIndex_dsel (d : Dict) : (freeIndex d).1.dsel = d.dsel := by
  unfold freeIndex; split <;> rfl

theorem newIndex_dsel (cap : Nat) (d : Dict) : (newIndex cap d).1.dsel = d.dsel := by
  unfold newIndex
  by_cases h : d.count = cap
  · simp only [h, if_true]
    split <;> exact freeIndex_dsel d
  · simp only [h, if_false]
    split <;> rfl

/-- No insert changes which space is `DATA` (R44). -/
theorem dictInsert_dsel (cap soff : Nat) (s : List Byte) (d : Dict) : (dictInsert cap soff s d).1.dsel = d.dsel := by
  have hnew : (insertNew cap soff s d).1.dsel = d.dsel := newIndex_dsel cap d
  unfold dictInsert
  split
  · split
    · rfl
    · exact hnew
  · exact hnew

/-! ### On the state -/

/-- Everything `Insert(off, len)` can do (R165, R166): the one error, or a new dictionary. -/
theorem insertAt_eq (off len : Nat) (s : State) : insertAt off len s =
    if dataLen s ≤ off ∨ len = 0 then .raised .invalidArgument off s
    else .ok ({ s with dict := (dictInsert s.cfg.cap off (slice (dataBuf s) off (min len (dataLen s - off))) s.dict).1 },
      (dictInsert s.cfg.cap off (slice (dataBuf s) off (min len (dataLen s - off))) s.dict).2) := rfl

theorem insertAt_str {off len : Nat} {s : State} (h : ¬ (dataLen s ≤ off ∨ len = 0)) :
    slice (dataBuf s) off (min len (dataLen s - off)) ≠ [] := by
  intro e
  have := congrArg List.length e
  rw [slice_length, List.length_nil] at this
  omega

/-- An insert that completes changes the dictionary alone, and keeps its invariants. -/
theorem insertAt_ok {off len : Nat} {s : State} {r : State × Nat} (h : insertAt off len s = .ok r) :
    r.1 = { s with dict := r.1.dict } ∧ r.1.dict.dsel = s.dict.dsel ∧
    (dictWf s.cfg.cap s.dict = true → 0 < s.cfg.cap → dictWf s.cfg.cap r.1.dict = true ∧ s.dict.count ≤ r.1.dict.count) := by
  rw [insertAt_eq] at h
  split_ifs at h with h0
  cases h
  refine ⟨rfl, dictInsert_dsel _ _ _ _, fun hd hc => ⟨?_, ?_⟩⟩
  · exact dictInsert_wf hd hc off (insertAt_str h0)
  · exact count_dictInsert hd hc off (insertAt_str h0)

theorem insertAt_completes {off len : Nat} {s : State} (h1 : off < dataLen s) (h2 : len ≠ 0) :
    ∃ d i, insertAt off len s = .ok ({ s with dict := d }, i) := by
  rw [insertAt_eq, if_neg (by omega)]
  exact ⟨_, _, rfl⟩

/-- Everything `Find(off)` can do (R175, R177): nothing at all beyond the data, else it touches and
answers the longest entry whose string is a prefix of the data. -/
theorem findAt_eq (off : Nat) (s : State) : findAt off s =
    if dataLen s ≤ off then (s, none)
    else ({ s with dict := dictTouch (slice (dataBuf s) off (dataLen s - off)) s.dict },
      lastIndexed (walk 0 s.dict.roots (slice (dataBuf s) off (dataLen s - off))).1) := rfl

theorem findAt_frame (off : Nat) (s : State) :
    (findAt off s).1 = { s with dict := (findAt off s).1.dict } ∧ (findAt off s).1.dict.dsel = s.dict.dsel ∧
    (findAt off s).1.dict.count = s.dict.count ∧
    (dictWf s.cfg.cap s.dict = true → dictWf s.cfg.cap (findAt off s).1.dict = true) := by
  rw [findAt_eq]
  split_ifs
  · exact ⟨rfl, rfl, rfl, fun h => h⟩
  · exact ⟨rfl, rfl, rfl, fun h => dictTouch_wf _ h⟩

/-- A match of `Find` is an entry whose string stands at the offset (R175). -/
theorem findAt_some {off : Nat} {s : State} (ht : trieWf s.dict.roots = true) {i n : Nat} {s1 : State}
    (h : findAt off s = (s1, some (i, n))) :
    off < dataLen s ∧ ∃ u q, u ≠ [] ∧ u.length = n ∧ u <+: slice (dataBuf s) off (dataLen s - off) ∧
      entryAt s.dict.roots u = some (i, q) := by
  rw [findAt_eq] at h
  split_ifs at h with h0
  · simp at h
  · simp only [Prod.mk.injEq] at h
    obtain ⟨u, q, h1, h2, h3, h4, _⟩ := (lastIndexed_walk ht 0 _).1 i n h.2
    exact ⟨by omega, u, q, h1, by omega, h2, h4⟩

/-- `LookupToken` (R188): the path of the entry with that index, touched. -/
theorem lookupToken_eq_some {d : Dict} (ht : trieWf d.roots = true) (hn : (indices d.roots).Nodup) {t : Nat}
    {d' : Dict} {str : List Byte} (h : lookupToken t d = some (d', str)) :
    d' = dictTouch str d ∧ str ≠ [] ∧ ∃ q, entryAt d.roots str = some (t, q) := by
  unfold lookupToken at h
  cases hp : pathOf t d.roots with
  | none => rw [hp] at h; cases h
  | some u =>
    rw [hp] at h
    cases h
    obtain ⟨q, hq⟩ := (pathOf_eq_some ht hn t _).1 hp
    exact ⟨rfl, entryAt_ne_nil ht hq, q, hq⟩

theorem lookupToken_eq_none {d : Dict} (ht : trieWf d.roots = true) (t : Nat) :
    lookupToken t d = none ↔ ∀ u q, entryAt d.roots u ≠ some (t, q) := by
  unfold lookupToken
  rw [Option.map_eq_none_iff, pathOf_eq_none ht, mem_indices ht]
  simp

end Sys2Proof.Machine
end

