-- ==== Sys2Proof/Laws/Pyr.lean ====
section
/-! SUPPORT. The loops of the stream commands (R202 to R232): what each part can change, that the inserts
raise nothing, and which errors are left. -/

namespace Sys2Proof.Machine

/-! ### What a part of a stream command can do -/

/-- Everything a part of a stream command changes, and how: `OUT` and `UNIT` grow at their ends, the
transition points and the dictionary change, the dictionary keeps its invariants. -/
structure Grows (s t : State) : Prop where
  frame : t = { s with
    outb := t.outb, outLen := t.outLen, unit := t.unit, unitLen := t.unitLen
    pyrT12 := t.pyrT12, pyrT16 := t.pyrT16, dict := t.dict }
  dsel : t.dict.dsel = s.dict.dsel
  outLe : s.outLen ≤ t.outLen
  unitLe : s.unitLen ≤ t.unitLen
  outAbove : ∀ a, t.outLen ≤ a → bufRead t.outb a = bufRead s.outb a
  unitKept : ∀ k, k < s.unitLen → wordRead t.unit k = wordRead s.unit k
  unitAbove : ∀ k, t.unitLen ≤ k → wordRead t.unit k = wordRead s.unit k
  outSorted : cellsSorted s.outb.cells = true → cellsSorted t.outb.cells = true
  unitSorted : cellsSorted s.unit.cells = true → cellsSorted t.unit.cells = true
  outBelow : ∀ n, t.outLen ≤ n → cellsBelow n s.outb.cells = true → cellsBelow n t.outb.cells = true
  unitBelow : ∀ n, t.unitLen ≤ n → cellsBelow n s.unit.cells = true → cellsBelow n t.unit.cells = true
  dictKept : dictWf s.cfg.cap s.dict = true → 0 < s.cfg.cap →
    dictWf s.cfg.cap t.dict = true ∧ s.dict.count ≤ t.dict.count

theorem Grows.refl (s : State) : Grows s s where
  frame := rfl
  dsel := rfl
  outLe := le_refl _
  unitLe := le_refl _
  outAbove := fun _ _ => rfl
  unitKept := fun _ _ => rfl
  unitAbove := fun _ _ => rfl
  outSorted := fun h => h
  unitSorted := fun h => h
  outBelow := fun _ _ h => h
  unitBelow := fun _ _ h => h
  dictKept := fun h _ => ⟨h, le_refl _⟩

theorem Grows.cfg {s t : State} (h : Grows s t) : t.cfg = s.cfg := by rw [h.frame]
theorem Grows.inb {s t : State} (h : Grows s t) : t.inb = s.inb := by rw [h.frame]
theorem Grows.inLen {s t : State} (h : Grows s t) : t.inLen = s.inLen := by rw [h.frame]

theorem Grows.trans {s t u : State} (h : Grows s t) (g : Grows t u) : Grows s u where
  frame := by rw [g.frame, h.frame]
  dsel := g.dsel.trans h.dsel
  outLe := le_trans h.outLe g.outLe
  unitLe := le_trans h.unitLe g.unitLe
  outAbove := fun a ha => (g.outAbove a ha).trans (h.outAbove a (le_trans g.outLe ha))
  unitKept := fun k hk => (g.unitKept k (lt_of_lt_of_le hk h.unitLe)).trans (h.unitKept k hk)
  unitAbove := fun k hk => (g.unitAbove k hk).trans (h.unitAbove k (le_trans g.unitLe hk))
  outSorted := fun x => g.outSorted (h.outSorted x)
  unitSorted := fun x => g.unitSorted (h.unitSorted x)
  outBelow := fun n hn x => g.outBelow n hn (h.outBelow n (le_trans g.outLe hn) x)
  unitBelow := fun n hn x => g.unitBelow n hn (h.unitBelow n (le_trans g.unitLe hn) x)
  dictKept := fun x hc => by
    obtain ⟨a, b⟩ := h.dictKept x hc
    have e := h.cfg
    have := g.dictKept (by rw [e]; exact a) (by rw [e]; exact hc)
    rw [e] at this
    exact ⟨this.1, le_trans b this.2⟩

/-- A part that changes the dictionary alone. -/
theorem Grows.ofDict {s : State} {d : Dict} (h1 : d.dsel = s.dict.dsel)
    (h2 : dictWf s.cfg.cap s.dict = true → 0 < s.cfg.cap → dictWf s.cfg.cap d = true ∧ s.dict.count ≤ d.count) :
    Grows s { s with dict := d } where
  frame := rfl
  dsel := h1
  outLe := le_refl _
  unitLe := le_refl _
  outAbove := fun _ _ => rfl
  unitKept := fun _ _ => rfl
  unitAbove := fun _ _ => rfl
  outSorted := fun h => h
  unitSorted := fun h => h
  outBelow := fun _ _ h => h
  unitBelow := fun _ _ h => h
  dictKept := h2

/-- The bytes of `OUT` written so far stay. -/
def OutKept (s t : State) : Prop := ∀ a, a < s.outLen → bufRead t.outb a = bufRead s.outb a

theorem OutKept.refl (s : State) : OutKept s s := fun _ _ => rfl
theorem OutKept.trans {s t u : State} (h : OutKept s t) (hle : s.outLen ≤ t.outLen) (g : OutKept t u) : OutKept s u :=
  fun a ha => (g a (lt_of_lt_of_le ha hle)).trans (h a ha)

theorem appended_grows (l : List Byte) (s : State) : Grows s (appended l s) where
  frame := rfl
  dsel := rfl
  outLe := by rw [appended_outLen]; omega
  unitLe := le_refl _
  outAbove := fun a ha => bufRead_storeAll_above _ _ _ ha
  unitKept := fun _ _ => rfl
  unitAbove := fun _ _ => rfl
  outSorted := fun h => storeAll_sorted _ _ h
  unitSorted := fun h => h
  outBelow := fun n hn h => storeAll_below h hn
  unitBelow := fun _ _ h => h
  dictKept := fun h _ => ⟨h, le_refl _⟩

theorem appended_kept (l : List Byte) (s : State) : OutKept s (appended l s) :=
  fun _ ha => bufRead_storeAll_below _ _ _ ha

theorem startUnit_eq (s : State) : (startUnit s).1 = { s with pyrT12 := (startUnit s).1.pyrT12, pyrT16 := (startUnit s).1.pyrT16 } := by
  unfold startUnit
  simp only
  split_ifs <;> rfl

@[simp] theorem startUnit_width (s : State) : (startUnit s).2 = widthNow s := rfl

theorem startUnit_grows (s : State) : Grows s (startUnit s).1 := by
  rw [startUnit_eq]
  exact { Grows.refl s with frame := rfl }

theorem recordUnit_grows (u : PyrUnit) (s : State) : Grows s (recordUnit u s) where
  frame := rfl
  dsel := rfl
  outLe := le_refl _
  unitLe := by rw [recordUnit_unitLen]; omega
  outAbove := fun _ _ => rfl
  unitKept := fun k hk => wordRead_wordWrite_other _ _ (by omega)
  unitAbove := fun k hk => by
    rw [recordUnit_unitLen] at hk
    exact wordRead_wordWrite_other _ _ (by omega)
  outSorted := fun h => h
  unitSorted := fun h => wordWrite_sorted _ _ h
  outBelow := fun _ _ h => h
  unitBelow := fun n hn h => by
    rw [recordUnit_unitLen] at hn
    exact cellSet_below _ h (by omega)
  dictKept := fun h _ => ⟨h, le_refl _⟩

theorem findAt_grows (off : Nat) (s : State) : Grows s (findAt off s).1 := by
  obtain ⟨h1, h2, h3, h4⟩ := findAt_frame off s
  rw [h1]
  exact Grows.ofDict h2 fun h _ => ⟨h4 h, le_of_eq h3.symm⟩

theorem dataLen_dict {s : State} {d : Dict} (h : d.dsel = s.dict.dsel) : dataLen { s with dict := d } = dataLen s := by
  simp only [dataLen, h]

theorem dataBuf_dict {s : State} {d : Dict} (h : d.dsel = s.dict.dsel) : dataBuf { s with dict := d } = dataBuf s := by
  simp only [dataBuf, h]

/-- An insert whose operands are in range (R166) completes. -/
theorem insertAt_grows {off len : Nat} {s : State} (h1 : off < dataLen s) (h2 : len ≠ 0) :
    ∃ d i, insertAt off len s = .ok ({ s with dict := d }, i) ∧ d.dsel = s.dict.dsel ∧ Grows s { s with dict := d } := by
  obtain ⟨d, i, h⟩ := insertAt_completes h1 h2
  obtain ⟨_, g2, g3⟩ := insertAt_ok h
  exact ⟨d, i, h, g2, Grows.ofDict g2 g3⟩

/-- The inserts after a match (R202, R212) raise nothing when they lie in the data. -/
theorem insertSuffixes_grows {pos len : Nat} (n : Nat) {k : Nat} {s : State}
    (h : ∀ j, k ≤ j → j < k + n → pos - j < dataLen s ∧ len + j ≠ 0) :
    ∃ d, insertSuffixes pos len k n s = .ok { s with dict := d } ∧ d.dsel = s.dict.dsel ∧ Grows s { s with dict := d } := by
  induction n generalizing k s with
  | zero => exact ⟨s.dict, rfl, rfl, Grows.refl s⟩
  | succ n ih =>
    obtain ⟨d, i, h1, h2, h3⟩ := insertAt_grows (h k (le_refl _) (by omega)).1 (h k (le_refl _) (by omega)).2
    obtain ⟨d', g1, g2, g3⟩ := ih (s := { s with dict := d }) (k := k + 1) fun j a b => by
      rw [dataLen_dict h2]; exact h j (by omega) (by omega)
    exact ⟨d', by rw [insertSuffixes, h1, Res.bind_ok]; exact g1, g2.trans h2, h3.trans g3⟩

/-- The insert of a literal run (R202, R211). -/
theorem insertRun_grows {pos lit : Nat} {s : State} (h : pos - lit < dataLen s) :
    ∃ d, insertRun pos lit s = .ok { s with dict := d } ∧ d.dsel = s.dict.dsel ∧ Grows s { s with dict := d } := by
  unfold insertRun
  split_ifs with h0
  · obtain ⟨d, i, h1, h2, h3⟩ := insertAt_grows h (Nat.succ_ne_zero lit)
    exact ⟨d, by rw [h1]; rfl, h2, h3⟩
  · exact ⟨s.dict, rfl, rfl, Grows.refl s⟩

/-! ### Pass 1 -/

/-- `Pass1` completes always, touches neither `OUT` nor `IN`, and records at most one unit for each byte
left (R201, R202). -/
theorem pass1_spec (fuel : Nat) {pos lit : Nat} {s : State} (hd : s.dict.dsel = .inSpace)
    (hw : dictWf s.cfg.cap s.dict = true) (hc : 0 < s.cfg.cap) :
    ∃ t, pass1 fuel pos lit s = .ok t ∧ Grows s t ∧ t.outb = s.outb ∧ t.outLen = s.outLen ∧
      t.unitLen ≤ s.unitLen + (s.inLen - pos) := by
  induction fuel generalizing pos lit s with
  | zero => exact ⟨s, rfl, Grows.refl s, rfl, rfl, by omega⟩
  | succ fuel ih =>
    rw [pass1]
    by_cases hend : s.inLen ≤ pos
    · rw [if_pos hend]
      exact ⟨s, rfl, Grows.refl s, rfl, rfl, by omega⟩
    · rw [if_neg hend]
      have g1 := startUnit_grows s
      have e1 := startUnit_eq s
      generalize hs1 : (startUnit s).1 = s1 at g1 e1
      have hsu : startUnit s = (s1, (startUnit s).2) := by rw [← hs1]
      rw [hsu]
      simp only
      have g2 := findAt_grows pos s1
      obtain ⟨f1, f2, f3, f4⟩ := findAt_frame pos s1
      rcases hf : findAt pos s1 with ⟨s2, m⟩
      rw [hf] at g2 f1 f2 f3
      simp only at g2 f1 f2 f3
      have g12 := g1.trans g2
      have hin : s2.dict.dsel = .inSpace := by rw [g12.dsel, hd]
      have hdl : dataLen s2 = s.inLen := by simp only [dataLen, hin]; exact g12.inLen
      have hul : s2.unitLen = s.unitLen := by rw [f1, e1]
      have hob : s2.outb = s.outb := by rw [f1, e1]
      have hol : s2.outLen = s.outLen := by rw [f1, e1]
      cases m with
      | none =>
        simp only
        obtain ⟨d, i1, i2, i3⟩ := insertRun_grows (pos := pos) (lit := lit) (s := s2) (by omega)
        rw [i1, Res.bind_ok]
        have g4 := recordUnit_grows (litUnit (bufRead s2.inb pos)) { s2 with dict := d }
        have g := (g12.trans i3).trans g4
        obtain ⟨t, t1, t2, t3, t4, t5⟩ := ih (pos := pos + 1) (lit := lit + 1)
          (s := recordUnit (litUnit (bufRead s2.inb pos)) { s2 with dict := d })
          (by rw [recordUnit_dict]; exact i2.trans hin)
          (by have := (g.dictKept hw hc).1; rw [g.cfg]; exact this) (by rw [g.cfg]; exact hc)
        refine ⟨t, t1, g.trans t2, by rw [t3]; exact hob, by rw [t4]; exact hol, ?_⟩
        rw [g.inLen, recordUnit_unitLen] at t5
        simp only at t5
        omega
      | some q =>
        obtain ⟨i, len⟩ := q
        simp only
        have hwf1 : trieWf s1.dict.roots = true := by
          have := (g1.dictKept hw hc).1
          exact ((dictWf_iff _ _).1 this).1
        obtain ⟨_, u, _, hu1, hu2, _, _⟩ := findAt_some hwf1 hf
        have hlen : len ≠ 0 := by rw [← hu2]; simpa using hu1
        have g4 := recordUnit_grows (tokUnit i (startUnit s).2) s2
        obtain ⟨d, i1, i2, i3⟩ := insertSuffixes_grows (pos := pos) (len := len) lit (k := 1)
          (s := recordUnit (tokUnit i (startUnit s).2) s2) fun j a b => by
            have : dataLen (recordUnit (tokUnit i (startUnit s).2) s2) = dataLen s2 := rfl
            rw [this, hdl]; omega
        rw [i1, Res.bind_ok]
        have g := (g12.trans g4).trans i3
        obtain ⟨t, t1, t2, t3, t4, t5⟩ := ih (pos := pos + len) (lit := 0)
          (s := { recordUnit (tokUnit i (startUnit s).2) s2 with dict := d }) (i2.trans hin)
          (by have := (g.dictKept hw hc).1; rw [g.cfg]; exact this) (by rw [g.cfg]; exact hc)
        refine ⟨t, t1, g.trans t2, by rw [t3]; exact hob, by rw [t4]; exact hol, ?_⟩
        rw [g.inLen] at t5
        have : ({ recordUnit (tokUnit i (startUnit s).2) s2 with dict := d } : State).unitLen = s2.unitLen + 1 := rfl
        rw [this] at t5
        omega

/-! ### Pass 2 -/

/-- What an emission can end in: it completes with at most `n` bytes more, or `Capacity` is raised, and
not when `n` bytes fit. -/
def EmitsAtMost (n : Nat) (s : State) {α : Type} (st : α → State) (P : α → Prop) (r : Res α) : Prop :=
  r.All (fun a => Grows s (st a) ∧ (st a).outLen ≤ s.outLen + n ∧ (st a).unitLen = s.unitLen ∧
      (st a).outLen ≤ s.cfg.bufCap ∧ P a)
    (fun e i t => e = .capacity ∧ i = s.cfg.bufCap ∧ Grows s t ∧ t.outLen ≤ s.cfg.bufCap ∧
      s.cfg.bufCap < s.outLen + n ∧ t.unitLen = s.unitLen)

theorem appendAll_emits (l : List Byte) (s : State) (h : s.outLen ≤ s.cfg.bufCap) :
    EmitsAtMost l.length s id (fun t => t = appended l s) (appendAll l s) := by
  unfold EmitsAtMost
  rw [appendAll_eq l s h]
  split_ifs with h0
  · exact ⟨appended_grows l s, le_refl _, rfl, by simpa using h0, rfl⟩
  · refine ⟨rfl, rfl, appended_grows _ s, ?_, by omega, rfl⟩
    rw [appended_outLen, List.length_take]
    omega

/-- The address of a held byte lies in what has been written (R206). -/
def heldOk (x : Emit) : Prop := ∀ h, x.held = some h → h < x.s.outLen

theorem heldWrite_grows {s : State} {h : Nat} (v : Byte) (hh : h < s.outLen) :
    Grows s { s with outb := bufWrite s.outb h v } where
  frame := rfl
  dsel := rfl
  outLe := le_refl _
  unitLe := le_refl _
  outAbove := fun a ha => by
    have hne : a ≠ h := by simp only at ha; omega
    exact bufRead_bufWrite_other _ _ hne
  unitKept := fun _ _ => rfl
  unitAbove := fun _ _ => rfl
  outSorted := fun x => bufWrite_sorted _ _ x
  unitSorted := fun x => x
  outBelow := fun n hn x => cellSet_below _ x (lt_of_lt_of_le hh hn)
  unitBelow := fun _ _ x => x
  dictKept := fun x _ => ⟨x, le_refl _⟩

/-- Following an emission by another. -/
theorem EmitsAtMost.bind {α β : Type} {m n : Nat} {s : State} {st : α → State} {st' : β → State} {P : α → Prop}
    {Q : β → Prop} {r : Res α} {f : α → Res β} (h : EmitsAtMost m s st P r)
    (hf : ∀ a, P a → (st a).outLen ≤ (st a).cfg.bufCap → EmitsAtMost n (st a) st' Q (f a)) :
    EmitsAtMost (m + n) s st' Q (r.bind f) := by
  cases r with
  | raised e i t =>
    obtain ⟨h1, h2, h3, h4, h5, h6⟩ := h
    exact ⟨h1, h2, h3, h4, by omega, h6⟩
  | ok a =>
    obtain ⟨h1, h2, h3, h4, h5⟩ := h
    have g := hf a h5 (by rw [h1.cfg]; exact h4)
    show EmitsAtMost _ _ _ _ (f a)
    cases hfa : f a with
    | ok b =>
      rw [hfa] at g
      obtain ⟨g1, g2, g3, g4, g5⟩ := g
      rw [h1.cfg] at g4
      exact ⟨h1.trans g1, by omega, g3.trans h3, g4, g5⟩
    | raised e i t =>
      rw [hfa] at g
      obtain ⟨g1, g2, g3, g4, g5, g6⟩ := g
      rw [h1.cfg] at g2 g4 g5
      exact ⟨g1, g2, h1.trans g3, g4, by omega, g6.trans h3⟩

theorem EmitsAtMost.ok {α : Type} {s : State} {st : α → State} {P : α → Prop} {a : α} (h : st a = s)
    (hle : s.outLen ≤ s.cfg.bufCap) (hP : P a) : EmitsAtMost 0 s st P (.ok a) := by
  refine ⟨?_, ?_, ?_, ?_, hP⟩
  · rw [h]; exact Grows.refl s
  · rw [h]; omega
  · rw [h]
  · rw [h]; exact hle

theorem EmitsAtMost.mono {α : Type} {m n : Nat} {s : State} {st : α → State} {P Q : α → Prop} {r : Res α}
    (h : EmitsAtMost m s st P r) (hmn : m ≤ n) (hPQ : ∀ a, P a → Q a) : EmitsAtMost n s st Q r := by
  cases r with
  | ok a => exact ⟨h.1, by have := h.2.1; omega, h.2.2.1, h.2.2.2.1, hPQ a h.2.2.2.2⟩
  | raised e i t => exact ⟨h.1, h.2.1, h.2.2.1, h.2.2.2.1, by have := h.2.2.2.2.1; omega, h.2.2.2.2.2⟩

theorem append_emits (v : Byte) (s : State) (h : s.outLen ≤ s.cfg.bufCap) :
    EmitsAtMost 1 s id (fun t => t = appended [v] s) (append v s) := by
  have := appendAll_emits [v] s h
  rw [show appendAll [v] s = append v s from by
    rw [appendAll]; cases append v s <;> rfl] at this
  exact this

theorem putToken_emits (v w : Nat) (x : Emit) (hx : heldOk x) (hle : x.s.outLen ≤ x.s.cfg.bufCap) :
    EmitsAtMost 2 x.s Emit.s heldOk (putToken v w x) := by
  unfold putToken
  split_ifs with h1 h2 h3
  · rcases hh : x.held with _ | h
    · simp only
      have := (appendAll_emits [BitVec.ofNat 8 (v / 16), BitVec.ofNat 8 (v % 16 * 16)] x.s hle).bind (n := 0)
        (st' := Emit.s) (Q := heldOk) (f := fun s1 => .ok { s := s1, held := some (s1.outLen - 1) })
        fun a ha hb => EmitsAtMost.ok rfl hb (by
          intro h hh
          cases hh
          show a.outLen - 1 < a.outLen
          rw [ha, appended_outLen]; simp)
      exact this
    · simp only
      have hlt := hx h hh
      generalize hs1 : ({ x.s with outb := bufWrite x.s.outb h (bufRead x.s.outb h ||| BitVec.ofNat 8 (v / 256 % 16)) } : State) = s1
      have g1 : Grows x.s s1 := by rw [← hs1]; exact heldWrite_grows _ hlt
      have e1 : s1.outLen = x.s.outLen := by rw [← hs1]
      have e2 : s1.unitLen = x.s.unitLen := by rw [← hs1]
      have hle1 : s1.outLen ≤ s1.cfg.bufCap := by rw [e1, g1.cfg]; exact hle
      have := (append_emits (BitVec.ofNat 8 (v % 256)) s1 hle1).bind (n := 0)
        (st' := Emit.s) (Q := heldOk) (f := fun s2 => .ok { s := s2, held := none })
        fun a _ hb => EmitsAtMost.ok rfl hb (by intro h hh; cases hh)
      generalize (append (BitVec.ofNat 8 (v % 256)) s1).bind (fun s2 => Res.ok { s := s2, held := none : Emit }) = r at this
      cases r with
      | ok a =>
        obtain ⟨a1, a2, a3, a4, a5⟩ := this
        rw [g1.cfg] at a4
        exact ⟨g1.trans a1, by omega, a3.trans e2, a4, a5⟩
      | raised e i t =>
        obtain ⟨a1, a2, a3, a4, a5, a6⟩ := this
        rw [g1.cfg] at a2 a4 a5
        exact ⟨a1, a2, g1.trans a3, a4, by omega, a6.trans e2⟩
  · have := (append_emits (BitVec.ofNat 8 v) x.s hle).bind (n := 0)
      (st' := Emit.s) (Q := heldOk) (f := fun s1 => .ok { s := s1, held := none })
      fun a _ hb => EmitsAtMost.ok rfl hb (by intro h hh; cases hh)
    exact this.mono (by omega) fun _ h => h
  · have := (appendAll_emits [BitVec.ofNat 8 (v / 256), BitVec.ofNat 8 (v % 256)] x.s hle).bind (n := 0)
      (st' := Emit.s) (Q := heldOk) (f := fun s1 => .ok { s := s1, held := none })
      fun a _ hb => EmitsAtMost.ok rfl hb (by intro h hh; cases hh)
    exact this
  · exact (EmitsAtMost.ok (st := Emit.s) (a := { x with held := none }) rfl hle (by intro h hh; cases hh)).mono (by omega) fun _ h => h

theorem putUnit_emits (u : PyrUnit) (x : Emit) (hx : heldOk x) (hle : x.s.outLen ≤ x.s.cfg.bufCap) :
    EmitsAtMost 2 x.s Emit.s heldOk (putUnit u x) := by
  unfold putUnit
  split_ifs with h
  · exact putToken_emits _ _ x hx hle
  · have := (append_emits (BitVec.ofNat 8 u.value) x.s hle).bind (n := 0)
      (st' := Emit.s) (Q := heldOk) (f := fun s1 => .ok { x with s := s1 })
      fun a ha hb => EmitsAtMost.ok rfl hb (by
        intro h hh
        have := hx h hh
        show h < a.outLen
        rw [ha, appended_outLen]; omega)
    exact this.mono (by omega) fun _ h => h

theorem putUnits_emits (us : List PyrUnit) (x : Emit) (hx : heldOk x) (hle : x.s.outLen ≤ x.s.cfg.bufCap) :
    EmitsAtMost (2 * us.length) x.s Emit.s heldOk (putUnits us x) := by
  induction us generalizing x with
  | nil => exact EmitsAtMost.ok rfl hle hx
  | cons u us ih =>
    have := (putUnit_emits u x hx hle).bind (f := fun x1 => putUnits us x1) fun a ha hb => ih a ha hb
    rw [List.length_cons]
    exact this.mono (by omega) fun _ h => h

theorem emitGroup_emits (hdr : List Byte) (us : List PyrUnit) (x : Emit) (hx : heldOk x)
    (hle : x.s.outLen ≤ x.s.cfg.bufCap) :
    EmitsAtMost (hdr.length + 2 * us.length) x.s Emit.s heldOk (emitGroup hdr us x) := by
  unfold emitGroup
  exact (appendAll_emits hdr x.s hle).bind (st' := Emit.s) (Q := heldOk) (f := fun s1 => putUnits us { x with s := s1 })
    fun a ha hb => putUnits_emits us { x with s := a } (by
      intro h hh
      have := hx h hh
      show h < a.outLen
      rw [ha, appended_outLen]; omega) hb

theorem extBytes_length (e : Nat) : (extBytes e).length = e / 255 + 1 := by simp [extBytes]

/-- The header of a Header0 group of at least 8 units is no longer than its units (R102, R103). -/
theorem header0_length (a b : Nat) (h : 8 ≤ a + b) : (header0 a b).length ≤ a + b := by
  unfold header0
  simp only [List.length_append, List.length_cons, List.length_nil]
  split_ifs <;> simp only [extBytes_length, List.length_nil] <;> omega

theorem runLengths_le (us : List PyrUnit) : (runLengths us).1 + (runLengths us).2 ≤ us.length := by
  unfold runLengths
  simp only
  have h1 := (List.takeWhile_sublist (fun u : PyrUnit => !u.isTok) (l := us)).length_le
  have h2 := (List.takeWhile_sublist (fun u : PyrUnit => u.isTok)
    (l := us.drop (us.takeWhile fun u => !u.isTok).length)).length_le
  rw [List.length_drop] at h2
  omega

/-- `Pass2` writes at most three bytes for each unit; `Capacity` is its only error (R201, R205). -/
theorem pass2_emits (fuel : Nat) (us : List PyrUnit) (x : Emit) (hx : heldOk x) (hle : x.s.outLen ≤ x.s.cfg.bufCap) :
    EmitsAtMost (3 * us.length) x.s Emit.s heldOk (pass2 fuel us x) := by
  induction fuel generalizing us x with
  | zero => exact (EmitsAtMost.ok rfl hle hx).mono (by omega) fun _ h => h
  | succ fuel ih =>
    rw [pass2]
    split_ifs with h0
    · exact (EmitsAtMost.ok rfl hle hx).mono (by omega) fun _ h => h
    · have hr := runLengths_le us
      rcases hrl : runLengths us with ⟨a, b⟩
      rw [hrl] at hr
      simp only at hr ⊢
      split_ifs with h8
      · have h1 := emitGroup_emits (header0 a b) (us.take (a + b)) x hx hle
        have h2 := h1.bind (f := fun x1 => pass2 fuel (us.drop (a + b)) x1) fun y hy hb => ih (us.drop (a + b)) y hy hb
        refine h2.mono ?_ fun _ h => h
        have := header0_length a b h8
        rw [List.length_take, List.length_drop]
        omega
      · have h1 := emitGroup_emits [BitVec.ofNat 8 (128 + maskOf 0 (us.take 7))] (us.take 7) x hx hle
        have h2 := h1.bind (f := fun x1 => pass2 fuel (us.drop 7) x1) fun y hy hb => ih (us.drop 7) y hy hb
        refine h2.mono ?_ fun _ h => h
        have : us.length ≠ 0 := by simpa using h0
        rw [List.length_take, List.length_drop, List.length_singleton]
        omega

end Sys2Proof.Machine
end

