-- ==== Sys2Proof/Laws/Expand.lean ====
section
/-! SUPPORT. `PYR.COMPRESS` and `PYR.EXPAND` as wholes (R201, R210, R216): what they change, that they
record no more units than bytes, which errors they can raise. -/

namespace Sys2Proof.Machine

/-- Everything `PYR.COMPRESS` can end in (R201, R304). -/
theorem pyrCompress_spec (s : State) (hc : 0 < s.cfg.cap) :
    (∃ u, pyrCompress s = .ok (setRes u.outLen u.unitLen u) ∧ Grows (pyrStart .inSpace s) u ∧
      u.unitLen ≤ s.inLen ∧ u.outLen ≤ 3 * s.inLen ∧ u.outLen ≤ s.cfg.bufCap) ∨
    (∃ u, pyrCompress s = .raised .capacity s.cfg.bufCap u ∧ Grows (pyrStart .inSpace s) u ∧
      u.unitLen ≤ s.inLen ∧ u.outLen ≤ s.cfg.bufCap ∧ s.cfg.bufCap < 3 * s.inLen) := by
  obtain ⟨t, t1, t2, _, t4, t5⟩ := pass1_spec s.inLen (pos := 0) (lit := 0) (s := pyrStart .inSpace s) rfl
    (empty_wf _ _) hc
  have h0 : t.outLen = 0 := by rw [t4]; rfl
  have hu : t.unitLen ≤ s.inLen := by
    have : (pyrStart .inSpace s).unitLen + ((pyrStart .inSpace s).inLen - 0) = s.inLen := by
      simp [pyrStart]
    omega
  have hcfg : t.cfg = s.cfg := t2.cfg
  have hlen : ∀ (n k : Nat), (unitsFrom t k n).length = n := by
    intro n
    induction n with
    | zero => intro k; rfl
    | succ n ih => intro k; simp [unitsFrom, ih]
  have h2 := pass2_emits t.unitLen (unitsOf t) { s := t, held := none } (by intro h hh; cases hh) (by rw [h0]; omega)
  rw [unitsOf, hlen] at h2
  unfold pyrCompress
  rw [t1, Res.bind_ok]
  rw [unitsOf]
  cases hr : pass2 t.unitLen (unitsFrom t 0 t.unitLen) { s := t, held := none } with
  | ok x =>
    rw [hr] at h2
    obtain ⟨a1, a2, a3, a4, _⟩ := h2
    left
    simp only [hcfg, h0] at a2 a3 a4
    exact ⟨x.s, rfl, t2.trans a1, by rw [a3]; exact hu, by omega, a4⟩
  | raised e i u =>
    rw [hr] at h2
    obtain ⟨a1, a2, a3, a4, a5, a6⟩ := h2
    right
    simp only [hcfg, h0] at a2 a4 a5
    subst a1; subst a2
    exact ⟨u, rfl, t2.trans a3, by rw [a6]; exact hu, a4, by omega⟩

/-! ### The reader of the Pyr stream -/

/-- What holds of the reader between two parts (R210 to R212). -/
structure ExpOk (x : Expander) : Prop where
  dsel : x.s.dict.dsel = .outSpace
  dict : dictWf x.s.cfg.cap x.s.dict = true
  cap : 0 < x.s.cfg.cap
  lit : x.lit ≤ x.s.outLen
  out : x.s.outLen ≤ x.s.cfg.bufCap
  ip : x.ip ≤ x.s.inLen

/-- What a part of `PYR.EXPAND` does to the state: `OUT` and `UNIT` grow, no more units than bytes. -/
structure ExpGrows (s t : State) : Prop where
  grows : Grows s t
  kept : OutKept s t
  units : t.unitLen + s.outLen ≤ s.unitLen + t.outLen

theorem ExpGrows.refl (s : State) : ExpGrows s s := ⟨Grows.refl s, OutKept.refl s, le_refl _⟩

theorem ExpGrows.trans {s t u : State} (h : ExpGrows s t) (g : ExpGrows t u) : ExpGrows s u :=
  ⟨h.grows.trans g.grows, h.kept.trans h.grows.outLe g.kept, by have := h.units; have := g.units; omega⟩

/-- The errors of `PYR.EXPAND` and their diagnostic values (R216, R303). -/
def ExpErr (x : Expander) (e : ErrKind) (i : Nat) (t : State) : Prop :=
  ExpGrows x.s t ∧ t.outLen ≤ x.s.cfg.bufCap ∧
  ((e = .unexpectedEnd ∧ i = x.s.inLen) ∨ (e = .data ∧ x.ip ≤ i ∧ i < x.s.inLen) ∨ (e = .capacity ∧ i = x.s.cfg.bufCap))

/-- What a part of the reader can end in. -/
def Expands {α : Type} (x : Expander) (st : α → Expander) (r : Res α) : Prop :=
  r.All (fun a => ExpOk (st a) ∧ ExpGrows x.s (st a).s ∧ x.ip ≤ (st a).ip) (ExpErr x)

theorem Expands.ok {α : Type} {x : Expander} {st : α → Expander} {a : α} (h1 : ExpOk (st a)) (h2 : ExpGrows x.s (st a).s)
    (h3 : x.ip ≤ (st a).ip) : Expands x st (.ok a) := ⟨h1, h2, h3⟩

theorem Expands.bind {α β : Type} {x : Expander} {st : α → Expander} {st' : β → Expander} {r : Res α} {f : α → Res β}
    (h : Expands x st r) (hf : ∀ a, ExpOk (st a) → Expands (st a) st' (f a)) : Expands x st' (r.bind f) := by
  cases r with
  | raised e i t => exact h
  | ok a =>
    obtain ⟨h1, h2, h3⟩ := h
    have g := hf a h1
    show Expands _ _ (f a)
    have hcfg := h2.grows.cfg
    have hin := h2.grows.inLen
    cases hfa : f a with
    | ok b =>
      rw [hfa] at g
      exact ⟨g.1, h2.trans g.2.1, le_trans h3 g.2.2⟩
    | raised e i t =>
      rw [hfa] at g
      obtain ⟨g1, g2, g3⟩ := g
      rw [hcfg, hin] at g3
      rw [hcfg] at g2
      refine ⟨h2.trans g1, g2, ?_⟩
      rcases g3 with g3 | ⟨g3, g4, g5⟩ | g3
      · exact .inl g3
      · exact .inr (.inl ⟨g3, le_trans h3 g4, g5⟩)
      · exact .inr (.inr g3)

theorem nextByte_expands {x : Expander} (hx : ExpOk x) : Expands x Prod.snd (nextByte x) := by
  unfold nextByte
  split_ifs with h
  · exact ⟨ExpGrows.refl _, hx.out, .inl ⟨rfl, le_antisymm hx.ip h⟩⟩
  · exact Expands.ok ⟨hx.dsel, hx.dict, hx.cap, hx.lit, hx.out, by simp only; omega⟩ (ExpGrows.refl _) (by simp)

theorem readExt_expands (fuel : Nat) {x : Expander} (hx : ExpOk x) (hf : x.s.inLen < x.ip + fuel) :
    Expands x Prod.snd (readExt fuel x) := by
  induction fuel generalizing x with
  | zero => have := hx.ip; omega
  | succ fuel ih =>
    rw [readExt]
    by_cases h : x.s.inLen ≤ x.ip
    · have e : nextByte x = .raised .unexpectedEnd x.ip x.s := by unfold nextByte; rw [if_pos h]
      rw [e]
      exact ⟨ExpGrows.refl _, hx.out, .inl ⟨rfl, le_antisymm hx.ip h⟩⟩
    · have e : nextByte x = .ok (bufRead x.s.inb x.ip, { x with ip := x.ip + 1 }) := by
        unfold nextByte; rw [if_neg h]
      have hn := nextByte_expands hx
      rw [e] at hn ⊢
      rw [Res.bind_ok]
      simp only
      split_ifs
      · have g := ih (x := { x with ip := x.ip + 1 }) hn.1 (by simp only; omega)
        have g2 := g.bind (f := fun q => Res.ok (255 + q.1, q.2)) (st' := Prod.snd) fun a ha =>
          Expands.ok ha (ExpGrows.refl _) (le_refl _)
        cases hr : (readExt fuel { x with ip := x.ip + 1 }).bind fun q => Res.ok (255 + q.1, q.2) with
        | ok a =>
          rw [hr] at g2
          exact ⟨g2.1, g2.2.1, le_trans hn.2.2 g2.2.2⟩
        | raised e i t =>
          rw [hr] at g2
          obtain ⟨g1, g2, g3⟩ := g2
          refine ⟨g1, g2, ?_⟩
          rcases g3 with g3 | ⟨g3, g4, g5⟩ | g3
          · exact .inl g3
          · simp only at g4 g5
            exact .inr (.inl ⟨g3, by omega, g5⟩)
          · exact .inr (.inr g3)
      · exact hn

theorem startUnit_expOk {x : Expander} (hx : ExpOk x) : ExpOk { x with s := (startUnit x.s).1 } := by
  have e := startUnit_eq x.s
  have h1 : (startUnit x.s).1.dict = x.s.dict := by rw [e]
  have h2 : (startUnit x.s).1.cfg = x.s.cfg := by rw [e]
  have h3 : (startUnit x.s).1.outLen = x.s.outLen := by rw [e]
  have h4 : (startUnit x.s).1.inLen = x.s.inLen := by rw [e]
  exact ⟨by rw [h1]; exact hx.dsel, by rw [h1, h2]; exact hx.dict, by rw [h2]; exact hx.cap, by rw [h3]; exact hx.lit,
    by rw [h3, h2]; exact hx.out, by rw [h4]; exact hx.ip⟩

theorem startUnit_expGrows (s : State) : ExpGrows s (startUnit s).1 := by
  have e := startUnit_eq s
  refine ⟨startUnit_grows s, ?_, ?_⟩
  · rw [e]; exact OutKept.refl s
  · rw [e]

/-- One byte at the end of `OUT`. -/
theorem append_expands {x : Expander} (hx : ExpOk x) (v : Byte) :
    Expands x (fun t => { x with s := t }) (append v x.s) ∧
      ∀ t, append v x.s = .ok t → t = appended [v] x.s := by
  rcases Nat.lt_or_ge x.s.cfg.bufCap (x.s.outLen + 1) with h | h
  · rw [append_full h]
    refine ⟨⟨ExpGrows.refl _, hx.out, .inr (.inr ⟨rfl, rfl⟩)⟩, fun t ht => by cases ht⟩
  · rw [append_ok h]
    refine ⟨Expands.ok ⟨hx.dsel, hx.dict, hx.cap, ?_, ?_, hx.ip⟩ ⟨appended_grows _ _, appended_kept _ _, ?_⟩ (le_refl _),
      fun t ht => by cases ht; rfl⟩
    · have := hx.lit
      show x.lit ≤ x.s.outLen + 1
      omega
    · exact h
    · rw [appended_outLen]
      show x.s.unitLen + x.s.outLen ≤ _
      omega

theorem literalStep_expands {x : Expander} (hx : ExpOk x) : Expands x id (literalStep x) := by
  unfold literalStep
  simp only
  have hx1 := startUnit_expOk hx
  have g1 := startUnit_expGrows x.s
  have main : Expands { x with s := (startUnit x.s).1 } id
      ((nextByte { x with s := (startUnit x.s).1 }).bind fun r =>
        (append r.1 r.2.s).bind fun s2 =>
          (insertRun ((recordUnit (litUnit r.1) s2).outLen - 1) r.2.lit (recordUnit (litUnit r.1) s2)).bind fun s4 =>
            .ok { r.2 with s := s4, lit := r.2.lit + 1 }) := by
    refine (nextByte_expands hx1).bind fun r hr => ?_
    have ha := append_expands hr r.1
    cases hap : append r.1 r.2.s with
    | raised e i t => rw [hap] at ha; exact ha.1
    | ok s2 =>
      rw [hap] at ha
      have hs2 : s2 = appended [r.1] r.2.s := ha.2 s2 rfl
      obtain ⟨b1, b2, _⟩ := ha.1
      rw [Res.bind_ok]
      have hol : s2.outLen = r.2.s.outLen + 1 := by rw [hs2, appended_outLen]; rfl
      have hul : s2.unitLen = r.2.s.unitLen := by rw [hs2]; rfl
      have hdl : dataLen (recordUnit (litUnit r.1) s2) = s2.outLen := by
        have := b1.dsel
        simp only at this
        simp only [dataLen, recordUnit_dict, this, recordUnit_outLen]
      obtain ⟨d, i1, i2, i3⟩ := insertRun_grows (pos := (recordUnit (litUnit r.1) s2).outLen - 1) (lit := r.2.lit)
        (s := recordUnit (litUnit r.1) s2) (by rw [hdl, recordUnit_outLen]; omega)
      rw [i1, Res.bind_ok]
      have g4 := recordUnit_grows (litUnit r.1) s2
      have gg := (b2.grows.trans g4).trans i3
      have hdw := gg.dictKept hr.dict hr.cap
      refine Expands.ok ⟨?_, ?_, ?_, ?_, ?_, ?_⟩ ⟨gg, ?_, ?_⟩ (le_refl _)
      · exact i2.trans b1.dsel
      · rw [show (id { r.2 with s := { recordUnit (litUnit r.1) s2 with dict := d }, lit := r.2.lit + 1 } : Expander).s.cfg =
          r.2.s.cfg from gg.cfg]
        exact hdw.1
      · exact lt_of_lt_of_eq hr.cap (congrArg Config.cap gg.cfg.symm)
      · show r.2.lit + 1 ≤ s2.outLen
        have := hr.lit; omega
      · show s2.outLen ≤ s2.cfg.bufCap
        exact b1.out
      · show r.2.ip ≤ s2.inLen
        exact b1.ip
      · exact b2.kept
      · show s2.unitLen + 1 + r.2.s.outLen ≤ r.2.s.unitLen + s2.outLen
        omega
  generalize ((nextByte { x with s := (startUnit x.s).1 }).bind fun r =>
        (append r.1 r.2.s).bind fun s2 =>
          (insertRun ((recordUnit (litUnit r.1) s2).outLen - 1) r.2.lit (recordUnit (litUnit r.1) s2)).bind fun s4 =>
            Res.ok { r.2 with s := s4, lit := r.2.lit + 1 }) = r at main ⊢
  exact (Expands.ok (st := fun _ : Unit => ({ x with s := (startUnit x.s).1 } : Expander)) (a := ()) hx1 g1 (le_refl _)).bind
    (f := fun _ => r) fun _ _ => main

theorem readToken_expands (w : Nat) {x : Expander} (hx : ExpOk x) : Expands x Prod.snd (readToken w x) := by
  have hn : ExpOk { x with heldNib := none } := ⟨hx.dsel, hx.dict, hx.cap, hx.lit, hx.out, hx.ip⟩
  unfold readToken
  split_ifs
  · split
    · refine (nextByte_expands hx).bind fun r0 h0 => (nextByte_expands h0).bind fun r1 h1 => ?_
      exact Expands.ok ⟨h1.dsel, h1.dict, h1.cap, h1.lit, h1.out, h1.ip⟩ (ExpGrows.refl _) (le_refl _)
    · refine (nextByte_expands hx).bind fun r0 h0 => ?_
      exact Expands.ok ⟨h0.dsel, h0.dict, h0.cap, h0.lit, h0.out, h0.ip⟩ (ExpGrows.refl _) (le_refl _)
  · have := (nextByte_expands hn).bind (f := fun r => Res.ok (r.1.toNat, r.2)) (st' := Prod.snd) fun r0 h0 =>
      Expands.ok h0 (ExpGrows.refl _) (le_refl _)
    exact this
  · have := (nextByte_expands hn).bind (f := fun hi => (nextByte hi.2).bind fun lo =>
        Res.ok (hi.1.toNat * 256 + lo.1.toNat, lo.2)) (st' := Prod.snd) fun r0 h0 =>
      (nextByte_expands h0).bind (f := fun lo => Res.ok (r0.1.toNat * 256 + lo.1.toNat, lo.2)) (st' := Prod.snd)
        fun r1 h1 => Expands.ok h1 (ExpGrows.refl _) (le_refl _)
    exact this

/-- A token field that is read has its first byte in the input. -/
theorem readToken_ok_ip {w : Nat} {x : Expander} {r : Nat × Expander} (h : readToken w x = .ok r) : x.ip < x.s.inLen := by
  by_contra hge
  have key : ∀ y : Expander, y.s = x.s → y.ip = x.ip → nextByte y = .raised .unexpectedEnd x.ip x.s := by
    intro y h1 h2
    unfold nextByte
    rw [h1, h2, if_pos (by omega)]
  unfold readToken at h
  split_ifs at h
  · split at h
    · rw [key x rfl rfl] at h; cases h
    · rw [key x rfl rfl] at h; cases h
  · rw [key { x with heldNib := none } rfl rfl] at h; cases h
  · rw [key { x with heldNib := none } rfl rfl] at h; cases h

theorem readToken_state {w : Nat} {x : Expander} {r : Nat × Expander} (h : readToken w x = .ok r) :
    r.2.s = x.s ∧ r.2.lit = x.lit := by
  have key : ∀ (y : Expander) (q : Byte × Expander), nextByte y = .ok q → q.2.s = y.s ∧ q.2.lit = y.lit := by
    intro y q hq
    unfold nextByte at hq
    split_ifs at hq
    cases hq
    exact ⟨rfl, rfl⟩
  unfold readToken at h
  split_ifs at h
  · split at h
    · obtain ⟨a, h1, h⟩ := Res.bind_eq_ok.1 h
      obtain ⟨b, h2, h⟩ := Res.bind_eq_ok.1 h
      cases h
      obtain ⟨k1, k2⟩ := key _ _ h1
      obtain ⟨k3, k4⟩ := key _ _ h2
      exact ⟨k3.trans k1, k4.trans k2⟩
    · obtain ⟨a, h1, h⟩ := Res.bind_eq_ok.1 h
      cases h
      exact key _ _ h1
  · obtain ⟨a, h1, h⟩ := Res.bind_eq_ok.1 h
    cases h
    exact key { x with heldNib := none } _ h1
  · obtain ⟨a, h1, h⟩ := Res.bind_eq_ok.1 h
    obtain ⟨b, h2, h⟩ := Res.bind_eq_ok.1 h
    cases h
    obtain ⟨k1, k2⟩ := key { x with heldNib := none } _ h1
    obtain ⟨k3, k4⟩ := key _ _ h2
    exact ⟨k3.trans k1, k4.trans k2⟩

theorem tokenStep_expands {x : Expander} (hx : ExpOk x) : Expands x id (tokenStep x) := by
  unfold tokenStep
  have hx1 := startUnit_expOk hx
  have g1 := startUnit_expGrows x.s
  have hin1 : (startUnit x.s).1.inLen = x.s.inLen := g1.grows.inLen
  generalize hsu : (startUnit x.s).1 = s1 at hx1 g1 hin1
  rw [show startUnit x.s = (s1, (startUnit x.s).2) from by rw [← hsu]]
  simp only
  have main : Expands { x with s := s1 } id ((readToken (startUnit x.s).2 { x with s := s1 }).bind fun r =>
      match lookupToken r.1 r.2.s.dict with
      | none => .raised .data x.ip r.2.s
      | some (d, str) =>
        (appendAll str { r.2.s with dict := d }).bind fun s2 =>
          (insertSuffixes ((recordUnit (tokUnit r.1 (startUnit x.s).2) s2).outLen - str.length) str.length 1 r.2.lit
            (recordUnit (tokUnit r.1 (startUnit x.s).2) s2)).bind fun s4 => .ok { r.2 with s := s4, lit := 0 }) := by
    have hrt := readToken_expands (startUnit x.s).2 hx1
    cases hr : readToken (startUnit x.s).2 { x with s := s1 } with
    | raised e i t => rw [hr] at hrt; exact hrt
    | ok r =>
      rw [hr] at hrt
      obtain ⟨r1, r2, r3⟩ := hrt
      have hip := readToken_ok_ip hr
      obtain ⟨hrs, hrl⟩ := readToken_state hr
      simp only at hip hrs hrl
      rw [Res.bind_ok]
      have hwf := (dictWf_iff _ _).1 r1.dict
      cases hlk : lookupToken r.1 r.2.s.dict with
      | none =>
        simp only
        rw [hrs]
        exact ⟨ExpGrows.refl _, by have := hx1.out; simpa using this, .inr (.inl ⟨rfl, le_refl _, hip⟩)⟩
      | some q =>
        obtain ⟨d, str⟩ := q
        simp only
        obtain ⟨hd, hstr, _⟩ := lookupToken_eq_some hwf.1 hwf.2.1 hlk
        have hstr' : str.length ≠ 0 := by simpa using hstr
        have hd1 : d.dsel = r.2.s.dict.dsel := by rw [hd]; rfl
        have gd : ExpGrows r.2.s { r.2.s with dict := d } := by
          refine ⟨Grows.ofDict hd1 fun h _ => ⟨by rw [hd]; exact dictTouch_wf _ h, by rw [hd]; exact le_refl _⟩,
            OutKept.refl _, le_refl _⟩
        have hle : ({ r.2.s with dict := d } : State).outLen ≤ ({ r.2.s with dict := d } : State).cfg.bufCap := r1.out
        have eap := appendAll_eq str { r.2.s with dict := d } hle
        by_cases hfit : r.2.s.outLen + str.length ≤ r.2.s.cfg.bufCap
        · rw [eap, if_pos hfit, Res.bind_ok]
          generalize hs2 : appended str { r.2.s with dict := d } = s2
          have ga : ExpGrows { r.2.s with dict := d } s2 := by
            rw [← hs2]
            refine ⟨appended_grows _ _, appended_kept _ _, ?_⟩
            show r.2.s.unitLen + r.2.s.outLen ≤ r.2.s.unitLen + (r.2.s.outLen + str.length)
            omega
          have hol : s2.outLen = r.2.s.outLen + str.length := by rw [← hs2]; rfl
          have hul : s2.unitLen = r.2.s.unitLen := by rw [← hs2]; rfl
          have hdsel : s2.dict.dsel = .outSpace := by rw [← hs2]; exact hd1.trans r1.dsel
          have g4 := recordUnit_grows (tokUnit r.1 (startUnit x.s).2) s2
          have hdl : dataLen (recordUnit (tokUnit r.1 (startUnit x.s).2) s2) = s2.outLen := by
            simp only [dataLen, recordUnit_dict, hdsel, recordUnit_outLen]
          obtain ⟨d', i1, i2, i3⟩ := insertSuffixes_grows
            (pos := (recordUnit (tokUnit r.1 (startUnit x.s).2) s2).outLen - str.length) (len := str.length) r.2.lit (k := 1)
            (s := recordUnit (tokUnit r.1 (startUnit x.s).2) s2) fun j a b => by
              rw [hdl, recordUnit_outLen]; omega
          rw [i1, Res.bind_ok]
          have gg := ((gd.grows.trans ga.grows).trans g4).trans i3
          have hdw := gg.dictKept r1.dict r1.cap
          have e4 : ({ recordUnit (tokUnit r.1 (startUnit x.s).2) s2 with dict := d' } : State).outLen = s2.outLen := rfl
          have e5 : ({ recordUnit (tokUnit r.1 (startUnit x.s).2) s2 with dict := d' } : State).unitLen = s2.unitLen + 1 := rfl
          refine Expands.ok ⟨?_, ?_, ?_, ?_, ?_, ?_⟩ ⟨?_, ?_, ?_⟩ r3
          · exact i2.trans hdsel
          · rw [show (id { r.2 with s := { recordUnit (tokUnit r.1 (startUnit x.s).2) s2 with dict := d' }, lit := 0 } : Expander).s.cfg =
              r.2.s.cfg from gg.cfg]
            exact hdw.1
          · exact lt_of_lt_of_eq r1.cap (congrArg Config.cap gg.cfg.symm)
          · exact Nat.zero_le _
          · show s2.outLen ≤ s2.cfg.bufCap
            rw [hol]
            have : s2.cfg = r.2.s.cfg := (gd.grows.trans ga.grows).cfg
            rw [this]; exact hfit
          · show r.2.ip ≤ s2.inLen
            have : s2.inLen = r.2.s.inLen := (gd.grows.trans ga.grows).inLen
            rw [this]; exact r1.ip
          · show Grows s1 _
            rw [← hrs]; exact gg
          · show OutKept s1 _
            rw [← hrs]; exact gd.kept.trans gd.grows.outLe ga.kept
          · show s2.unitLen + 1 + s1.outLen ≤ s1.unitLen + s2.outLen
            rw [← hrs]; omega
        · have gt : ExpGrows { r.2.s with dict := d }
              (appended (str.take (r.2.s.cfg.bufCap - r.2.s.outLen)) { r.2.s with dict := d }) := by
            refine ⟨appended_grows _ _, appended_kept _ _, ?_⟩
            show r.2.s.unitLen + r.2.s.outLen ≤ r.2.s.unitLen + (r.2.s.outLen + _)
            omega
          rw [eap, if_neg (show ¬ ({ r.2.s with dict := d } : State).outLen + str.length ≤
            ({ r.2.s with dict := d } : State).cfg.bufCap from hfit), Res.bind_raised]
          refine ⟨?_, ?_, .inr (.inr ⟨rfl, ?_⟩)⟩
          · show ExpGrows s1 _
            rw [← hrs]
            exact gd.trans gt
          · rw [appended_outLen, List.length_take]
            show r.2.s.outLen + min (r.2.s.cfg.bufCap - r.2.s.outLen) str.length ≤ s1.cfg.bufCap
            rw [← hrs]; have := r1.out; omega
          · show r.2.s.cfg.bufCap = s1.cfg.bufCap
            rw [hrs]
  generalize ((readToken (startUnit x.s).2 { x with s := s1 }).bind fun r =>
      match lookupToken r.1 r.2.s.dict with
      | none => Res.raised .data x.ip r.2.s
      | some (d, str) =>
        (appendAll str { r.2.s with dict := d }).bind fun s2 =>
          (insertSuffixes ((recordUnit (tokUnit r.1 (startUnit x.s).2) s2).outLen - str.length) str.length 1 r.2.lit
            (recordUnit (tokUnit r.1 (startUnit x.s).2) s2)).bind fun s4 => Res.ok { r.2 with s := s4, lit := 0 }) = r at main ⊢
  exact (Expands.ok (st := fun _ : Unit => ({ x with s := s1 } : Expander)) (a := ()) hx1 g1 (le_refl _)).bind
    (f := fun _ => r) fun _ _ => main

theorem literalSteps_expands (n : Nat) {x : Expander} (hx : ExpOk x) : Expands x id (literalSteps n x) := by
  induction n generalizing x with
  | zero => exact Expands.ok hx (ExpGrows.refl _) (le_refl _)
  | succ n ih => exact (literalStep_expands hx).bind fun y hy => ih hy

theorem tokenSteps_expands (n : Nat) {x : Expander} (hx : ExpOk x) : Expands x id (tokenSteps n x) := by
  induction n generalizing x with
  | zero => exact Expands.ok hx (ExpGrows.refl _) (le_refl _)
  | succ n ih => exact (tokenStep_expands hx).bind fun y hy => ih hy

theorem maskUnits_expands (bs : List Bool) {x : Expander} (hx : ExpOk x) : Expands x id (maskUnits bs x) := by
  induction bs generalizing x with
  | nil => exact Expands.ok hx (ExpGrows.refl _) (le_refl _)
  | cons b bs ih =>
    rw [maskUnits]
    split_ifs
    · exact Expands.ok hx (ExpGrows.refl _) (le_refl _)
    · exact (tokenStep_expands hx).bind fun y hy => ih hy
    · exact (literalStep_expands hx).bind fun y hy => ih hy

theorem readCount_expands (direct limit : Nat) {x : Expander} (hx : ExpOk x) :
    Expands x Prod.snd (readCount direct limit x) := by
  unfold readCount
  split_ifs
  · have := (readExt_expands (x.s.inLen - x.ip + 1) hx (by have := hx.ip; omega)).bind
      (f := fun q => Res.ok (limit + q.1, q.2)) (st' := Prod.snd) fun a ha => Expands.ok ha (ExpGrows.refl _) (le_refl _)
    exact this
  · exact Expands.ok hx (ExpGrows.refl _) (le_refl _)

theorem expandGroup_expands {x : Expander} (hx : ExpOk x) : Expands x id (expandGroup x) := by
  unfold expandGroup
  refine (nextByte_expands hx).bind fun r hr => ?_
  simp only
  split_ifs
  · exact maskUnits_expands _ hr
  · exact (readCount_expands _ _ hr).bind fun a ha => (readCount_expands _ _ ha).bind fun b hb =>
      (literalSteps_expands _ hb).bind fun y hy => tokenSteps_expands _ hy

theorem expandLoop_expands (fuel : Nat) {x : Expander} (hx : ExpOk x) : Expands x id (expandLoop fuel x) := by
  induction fuel generalizing x with
  | zero => exact Expands.ok hx (ExpGrows.refl _) (le_refl _)
  | succ fuel ih =>
    rw [expandLoop]
    split_ifs
    · exact Expands.ok hx (ExpGrows.refl _) (le_refl _)
    · exact (expandGroup_expands hx).bind fun y hy => ih hy

/-- A group reads its header byte at least, when it completes. -/
theorem expandGroup_ip {x y : Expander} (hx : ExpOk x) (h : expandGroup x = .ok y) : x.ip < y.ip := by
  unfold expandGroup at h
  obtain ⟨r, h1, h2⟩ := Res.bind_eq_ok.1 h
  have hr := nextByte_expands hx
  rw [h1] at hr
  have hip : r.2.ip = x.ip + 1 := by
    unfold nextByte at h1
    split_ifs at h1
    cases h1; rfl
  have rest : Expands r.2 id (if r.1.getLsbD 7 then maskUnits (byteBits r.1 7) r.2
      else (readCount (r.1.toNat % 16) 15 r.2).bind fun a =>
        (readCount (r.1.toNat / 16 % 8) 7 a.2).bind fun b =>
          (literalSteps a.1 b.2).bind fun x1 => tokenSteps b.1 x1) := by
    split_ifs
    · exact maskUnits_expands _ hr.1
    · exact (readCount_expands _ _ hr.1).bind fun a ha => (readCount_expands _ _ ha).bind fun b hb =>
        (literalSteps_expands _ hb).bind fun y hy => tokenSteps_expands _ hy
  simp only at h2
  rw [h2] at rest
  have := rest.2.2
  simp only [id_eq] at this
  omega

/-- The loop ends with the input used up: the turns are enough (R210, R214). -/
theorem expandLoop_ip (fuel : Nat) {x y : Expander} (hx : ExpOk x) (hf : x.s.inLen ≤ x.ip + fuel)
    (h : expandLoop fuel x = .ok y) : y.ip = y.s.inLen := by
  induction fuel generalizing x with
  | zero =>
    cases h
    have := hx.ip
    omega
  | succ fuel ih =>
    rw [expandLoop] at h
    split_ifs at h with h0
    · cases h
      exact le_antisymm hx.ip h0
    · obtain ⟨z, h1, h2⟩ := Res.bind_eq_ok.1 h
      have hz := expandGroup_expands hx
      rw [h1] at hz
      have hlt := expandGroup_ip hx h1
      refine ih hz.1 ?_ h2
      have : z.s.inLen = x.s.inLen := hz.2.1.grows.inLen
      show z.s.inLen ≤ z.ip + fuel
      omega

/-- Everything `PYR.EXPAND` can end in (R210, R216, R304). -/
theorem pyrExpand_spec (s : State) (hc : 0 < s.cfg.cap) :
    (∃ u, pyrExpand s = .ok (setRes u.outLen u.unitLen u) ∧ Grows (pyrStart .outSpace s) u ∧
      u.unitLen ≤ u.outLen ∧ u.outLen ≤ s.cfg.bufCap) ∨
    (∃ e i u, pyrExpand s = .raised e i u ∧ Grows (pyrStart .outSpace s) u ∧
      u.unitLen ≤ u.outLen ∧ u.outLen ≤ s.cfg.bufCap ∧
      ((e = .unexpectedEnd ∧ i = s.inLen) ∨ (e = .data ∧ i < s.inLen) ∨ (e = .capacity ∧ i = s.cfg.bufCap))) := by
  have hx : ExpOk { s := pyrStart .outSpace s, ip := 0, lit := 0, heldNib := none } :=
    ⟨rfl, empty_wf _ _, hc, Nat.zero_le _, Nat.zero_le _, Nat.zero_le _⟩
  have h := expandLoop_expands s.inLen hx
  unfold pyrExpand
  cases hr : expandLoop s.inLen { s := pyrStart .outSpace s, ip := 0, lit := 0, heldNib := none } with
  | ok x =>
    rw [hr] at h
    left
    obtain ⟨h1, h2, _⟩ := h
    have hu := h2.units
    have h3 := h1.out
    have hcfg := h2.grows.cfg
    simp only [id_eq, pyrStart_outLen, pyrStart_unitLen, pyrStart_cfg] at hu h3 hcfg
    rw [hcfg] at h3
    exact ⟨x.s, rfl, h2.grows, by omega, h3⟩
  | raised e i t =>
    rw [hr] at h
    right
    obtain ⟨h1, h2, h3⟩ := h
    have hu := h1.units
    simp only [pyrStart_outLen, pyrStart_unitLen, pyrStart_cfg, pyrStart_inLen] at hu h2 h3
    refine ⟨e, i, t, rfl, h1.grows, by omega, h2, ?_⟩
    rcases h3 with h3 | ⟨h3, _, h4⟩ | h3
    · exact .inl h3
    · exact .inr (.inl ⟨h3, h4⟩)
    · exact .inr (.inr h3)

end Sys2Proof.Machine
end

