-- ==== Sys2Proof/Laws/Match.lean ====
section
/-! SUPPORT. `PYR.MATCHDEC` (R230 to R233) and `RLE0` (R280, R281): they only append. -/

namespace Sys2Proof.Machine

/-- What a part of a command that only appends can end in, with output kept within `cap` bytes. -/
def Appends {α : Type} (cap : Nat) (s : State) (st : α → State) (Q : ErrKind → Nat → Prop) (r : Res α) : Prop :=
  r.All (fun a => ∃ l, st a = appended l s ∧ s.outLen + l.length ≤ cap)
    (fun e i t => (∃ l, t = appended l s ∧ s.outLen + l.length ≤ cap) ∧ Q e i)

theorem Appends.ok {α : Type} {cap : Nat} {s : State} {st : α → State} {Q : ErrKind → Nat → Prop} {a : α} (h : st a = s)
    (hc : s.outLen ≤ cap) : Appends cap s st Q (.ok a) := ⟨[], h, by simpa using hc⟩

theorem Appends.bind {α β : Type} {cap : Nat} {s : State} {st : α → State} {st' : β → State} {Q : ErrKind → Nat → Prop}
    {r : Res α} {f : α → Res β} (h : Appends cap s st Q r)
    (hf : ∀ a, r = .ok a → (st a).outLen ≤ cap → Appends cap (st a) st' Q (f a)) : Appends cap s st' Q (r.bind f) := by
  cases r with
  | raised e i t => exact h
  | ok a =>
    obtain ⟨l, h1, h2⟩ := h
    have g := hf a rfl (by rw [h1, appended_outLen]; exact h2)
    show Appends _ _ _ _ (f a)
    cases hfa : f a with
    | ok b =>
      rw [hfa] at g
      obtain ⟨m, g1, g2⟩ := g
      refine ⟨l ++ m, by rw [g1, h1, appended_append], ?_⟩
      rw [h1, appended_outLen] at g2
      rw [List.length_append]; omega
    | raised e i t =>
      rw [hfa] at g
      obtain ⟨⟨m, g1, g2⟩, g3⟩ := g
      refine ⟨⟨l ++ m, by rw [g1, h1, appended_append], ?_⟩, g3⟩
      rw [h1, appended_outLen] at g2
      rw [List.length_append]; omega

/-- The match copy (R232, R353): it appends `n` bytes, each equal to the byte `off` places before it,
earlier bytes of the same copy included. -/
theorem copyBack_spec (off n : Nat) (s : State) (h1 : 0 < off) (h2 : off ≤ s.outLen) (h3 : s.outLen + n ≤ s.cfg.bufCap) :
    ∃ l, l.length = n ∧ copyBack off n s = .ok (appended l s) ∧
      ∀ k, k < n → bufRead (appended l s).outb (s.outLen + k) = bufRead (appended l s).outb (s.outLen + k - off) := by
  induction n generalizing s with
  | zero => exact ⟨[], rfl, rfl, fun k hk => absurd hk (Nat.not_lt_zero k)⟩
  | succ n ih =>
    obtain ⟨l, l1, l2, l3⟩ := ih (appended [bufRead s.outb (s.outLen - off)] s)
      (by show off ≤ s.outLen + 1; omega) (by show s.outLen + 1 + n ≤ s.cfg.bufCap; omega)
    refine ⟨bufRead s.outb (s.outLen - off) :: l, by rw [List.length_cons, l1], ?_, ?_⟩
    · rw [copyBack, append_ok (by omega), Res.bind_ok, l2, ← appended_append]
      rfl
    · intro k hk
      have e : appended (bufRead s.outb (s.outLen - off) :: l) s = appended l (appended [bufRead s.outb (s.outLen - off)] s) := by
        rw [← appended_append]; rfl
      rw [e]
      cases k with
      | zero =>
        rw [Nat.add_zero]
        rw [appended_kept l (appended [bufRead s.outb (s.outLen - off)] s) s.outLen (by show s.outLen < s.outLen + 1; omega),
          appended_kept l (appended [bufRead s.outb (s.outLen - off)] s) (s.outLen - off)
            (by show s.outLen - off < s.outLen + 1; omega),
          appended_kept _ s (s.outLen - off) (by omega)]
        exact bufRead_bufWrite_same _ _ _
      | succ k =>
        have := l3 k (by omega)
        have e1 : (appended [bufRead s.outb (s.outLen - off)] s).outLen + k = s.outLen + (k + 1) := by
          show s.outLen + 1 + k = _; omega
        rw [e1] at this
        exact this

/-- The errors of `PYR.MATCHDEC` once its argument is accepted (R233). -/
def matchErr (inLen : Nat) (e : ErrKind) (i : Nat) : Prop :=
  (e = .unexpectedEnd ∧ i ≤ inLen) ∨ (e = .data ∧ i < inLen)

/-- What holds of the reader between two parts. -/
def MatchOk (target : Nat) (x : MatchReader) : Prop :=
  target ≤ x.s.cfg.bufCap ∧ x.s.outLen ≤ target ∧ x.ip ≤ x.s.inLen

theorem matchLiteral_appends {target : Nat} {x : MatchReader} (hx : MatchOk target x) (hlt : x.s.outLen < target) :
    Appends target x.s MatchReader.s (matchErr x.s.inLen) (matchLiteral x) ∧
      ∀ y, matchLiteral x = .ok y → MatchOk target y ∧ y.ip = x.ip + 1 ∧ y.s.outLen = x.s.outLen + 1 := by
  obtain ⟨h1, h2, h3⟩ := hx
  unfold matchLiteral nextMatchByte
  by_cases h : x.s.inLen ≤ x.ip
  · rw [if_pos h]
    exact ⟨⟨⟨[], rfl, by simpa using h2⟩, .inl ⟨rfl, h3⟩⟩, fun y hy => by cases hy⟩
  · rw [if_neg h, Res.bind_ok]
    simp only
    rw [append_ok (by omega), Res.bind_ok]
    refine ⟨⟨[_], rfl, by simp; omega⟩, ?_⟩
    rintro y ⟨⟩
    exact ⟨⟨h1, by show x.s.outLen + 1 ≤ target; omega, by show x.ip + 1 ≤ x.s.inLen; omega⟩, rfl, rfl⟩

theorem matchUnit_appends {target : Nat} {x : MatchReader} (hx : MatchOk target x) :
    Appends target x.s MatchReader.s (matchErr x.s.inLen) (matchUnit target x) ∧
      ∀ y, matchUnit target x = .ok y → MatchOk target y ∧ y.ip = x.ip + 2 ∧ x.s.outLen ≤ y.s.outLen := by
  obtain ⟨h1, h2, h3⟩ := hx
  unfold matchUnit
  by_cases g1 : x.s.inLen < x.ip + 2
  · rw [if_pos g1]
    exact ⟨⟨⟨[], rfl, by simpa using h2⟩, .inl ⟨rfl, h3⟩⟩, fun y hy => by cases hy⟩
  · rw [if_neg g1]
    simp only
    by_cases g2 : matchOffset (bufRead x.s.inb x.ip) (bufRead x.s.inb (x.ip + 1)) = 0 ∨
        x.s.outLen < matchOffset (bufRead x.s.inb x.ip) (bufRead x.s.inb (x.ip + 1))
    · rw [if_pos g2]
      exact ⟨⟨⟨[], rfl, by simpa using h2⟩, .inr ⟨rfl, by omega⟩⟩, fun y hy => by cases hy⟩
    · rw [if_neg g2]
      by_cases g3 : target < x.s.outLen + matchLength (bufRead x.s.inb x.ip)
      · rw [if_pos g3]
        exact ⟨⟨⟨[], rfl, by simpa using h2⟩, .inr ⟨rfl, by omega⟩⟩, fun y hy => by cases hy⟩
      · rw [if_neg g3]
        obtain ⟨l, l1, l2, _⟩ := copyBack_spec (matchOffset (bufRead x.s.inb x.ip) (bufRead x.s.inb (x.ip + 1)))
          (matchLength (bufRead x.s.inb x.ip)) x.s (by omega) (by omega) (by omega)
        rw [l2, Res.bind_ok]
        refine ⟨⟨l, rfl, by omega⟩, ?_⟩
        rintro y ⟨⟩
        exact ⟨⟨h1, by show x.s.outLen + l.length ≤ target; omega, by show x.ip + 2 ≤ x.s.inLen; omega⟩, rfl,
          by show x.s.outLen ≤ x.s.outLen + l.length; omega⟩

theorem flagUnits_appends {target : Nat} (bs : List Bool) {x : MatchReader} (hx : MatchOk target x) :
    Appends target x.s MatchReader.s (matchErr x.s.inLen) (flagUnits target bs x) ∧
      ∀ y, flagUnits target bs x = .ok y → MatchOk target y ∧ x.ip ≤ y.ip := by
  induction bs generalizing x with
  | nil => exact ⟨Appends.ok rfl hx.2.1, fun y hy => by cases hy; exact ⟨hx, le_refl _⟩⟩
  | cons b bs ih =>
    rw [flagUnits]
    by_cases h : target ≤ x.s.outLen
    · rw [if_pos h]
      exact ⟨Appends.ok rfl hx.2.1, fun y hy => by cases hy; exact ⟨hx, le_refl _⟩⟩
    · rw [if_neg h]
      have key : Appends target x.s MatchReader.s (matchErr x.s.inLen) (if b then matchLiteral x else matchUnit target x) ∧
          ∀ y, (if b then matchLiteral x else matchUnit target x) = .ok y → MatchOk target y ∧ x.ip ≤ y.ip := by
        split_ifs
        · obtain ⟨a1, a2⟩ := matchLiteral_appends hx (by omega)
          exact ⟨a1, fun y hy => ⟨(a2 y hy).1, by have := (a2 y hy).2.1; omega⟩⟩
        · obtain ⟨a1, a2⟩ := matchUnit_appends hx
          exact ⟨a1, fun y hy => ⟨(a2 y hy).1, by have := (a2 y hy).2.1; omega⟩⟩
      obtain ⟨k1, k2⟩ := key
      constructor
      · refine k1.bind fun a ha _ => ?_
        obtain ⟨m1, m2⟩ := k2 a ha
        have hin : a.s.inLen = x.s.inLen := by
          rw [ha] at k1
          obtain ⟨l, hl, _⟩ := k1
          rw [hl]; rfl
        rw [← hin]
        exact (ih m1).1
      · intro y hy
        obtain ⟨a, ha, hy⟩ := Res.bind_eq_ok.1 hy
        obtain ⟨m1, m2⟩ := k2 a ha
        obtain ⟨n1, n2⟩ := (ih m1).2 y hy
        exact ⟨n1, le_trans m2 n2⟩

/-- The loop over flag bytes: when it completes, exactly the bytes wanted have been written (R230). -/
theorem matchLoop_appends {target : Nat} (fuel : Nat) {x : MatchReader} (hx : MatchOk target x)
    (hf : x.s.inLen < x.ip + fuel) :
    Appends target x.s MatchReader.s (matchErr x.s.inLen) (matchLoop target fuel x) ∧
      ∀ y, matchLoop target fuel x = .ok y → MatchOk target y ∧ y.s.outLen = target ∧ x.ip ≤ y.ip := by
  induction fuel generalizing x with
  | zero => have := hx.2.2; omega
  | succ fuel ih =>
    rw [matchLoop]
    by_cases h : target ≤ x.s.outLen
    · rw [if_pos h]
      exact ⟨Appends.ok rfl hx.2.1, fun y hy => by cases hy; exact ⟨hx, le_antisymm hx.2.1 h, le_refl _⟩⟩
    · rw [if_neg h]
      unfold nextMatchByte
      by_cases g : x.s.inLen ≤ x.ip
      · rw [if_pos g]
        exact ⟨⟨⟨[], rfl, by simpa using hx.2.1⟩, .inl ⟨rfl, hx.2.2⟩⟩, fun y hy => by cases hy⟩
      · rw [if_neg g, Res.bind_ok]
        simp only
        have hx1 : MatchOk target { x with ip := x.ip + 1 } := ⟨hx.1, hx.2.1, by show x.ip + 1 ≤ x.s.inLen; omega⟩
        obtain ⟨k1, k2⟩ := flagUnits_appends (byteBits (bufRead x.s.inb x.ip) 8) hx1
        have hrec : ∀ a, flagUnits target (byteBits (bufRead x.s.inb x.ip) 8) { x with ip := x.ip + 1 } = .ok a →
            a.s.inLen = x.s.inLen ∧ a.s.inLen < a.ip + fuel := by
          intro a ha
          rw [ha] at k1
          obtain ⟨l, hl, _⟩ := k1
          have hin : a.s.inLen = x.s.inLen := by rw [hl]; rfl
          have := (k2 a ha).2
          simp only at this
          exact ⟨hin, by omega⟩
        constructor
        · refine k1.bind fun a ha _ => ?_
          obtain ⟨e1, e2⟩ := hrec a ha
          show Appends target a.s MatchReader.s (matchErr x.s.inLen) _
          rw [← e1]
          exact (ih (k2 a ha).1 e2).1
        · intro y hy
          obtain ⟨a, ha, hy⟩ := Res.bind_eq_ok.1 hy
          obtain ⟨e1, e2⟩ := hrec a ha
          obtain ⟨n1, n2, n3⟩ := (ih (k2 a ha).1 e2).2 y hy
          have := (k2 a ha).2
          simp only at this
          exact ⟨n1, n2, by omega⟩

/-- Literals at the front of a flag byte (R115, R117): as many 1 bits as bytes append the bytes. -/
theorem flagUnits_literals (target : Nat) (l : List Byte) : ∀ (bs : List Bool) (x : MatchReader),
   slice x.s.inb x.ip l.length = l → x.ip + l.length ≤ x.s.inLen → x.s.outLen + l.length ≤ target → target ≤ x.s.cfg.bufCap →
   flagUnits target (List.replicate l.length true ++ bs) x = flagUnits target bs { s := appended l x.s, ip := x.ip + l.length } := by
  induction l with
  | nil => intro bs x _ _ _ _; rfl
  | cons b l ih =>
    intro bs x h1 h2 h3 h4
    simp only [List.length_cons] at *
    rw [slice] at h1
    obtain ⟨hb, hl⟩ := List.cons.inj h1
    rw [List.replicate_succ, List.cons_append, flagUnits, if_neg (by omega), if_pos rfl]
    simp only [matchLiteral, nextMatchByte]
    rw [if_neg (by omega)]
    simp only [Res.bind_ok]
    rw [append_ok (by simp; omega)]
    simp only [Res.bind_ok]
    rw [ih bs { s := appended [bufRead x.s.inb x.ip] x.s, ip := x.ip + 1 } hl (by show x.ip + 1 + l.length ≤ x.s.inLen; omega) (by show x.s.outLen + 1 + l.length ≤ target; omega) h4]
    simp only
    rw [← appended_append, hb, Nat.add_assoc, Nat.add_comm 1]
    rfl

theorem byteBits_ff : byteBits 0xFF#8 8 = List.replicate 8 true := by decide

/-- Groups of 8 literals under flag bytes `0xFF` append their bytes. -/
theorem matchLoop_groups (target : Nat) (gs : List (List Byte)) : ∀ (n : Nat) (x : MatchReader), (∀ g ∈ gs, g.length = 8) →
   slice x.s.inb x.ip (9 * gs.length) = (gs.map fun g => 0xFF#8 :: g).flatten → x.ip + 9 * gs.length ≤ x.s.inLen →
   x.s.outLen + 8 * gs.length ≤ target → target ≤ x.s.cfg.bufCap →
   matchLoop target (gs.length + n) x = matchLoop target n { s := appended gs.flatten x.s, ip := x.ip + 9 * gs.length } := by
  induction gs with
  | nil => intro n x _ _ _ _ _; simp
  | cons g gs ih =>
    intro n x h0 h1 h2 h3 h4
    have hg : g.length = 8 := h0 g (by simp)
    simp only [List.length_cons] at *
    rw [show 9 * (gs.length + 1) = 1 + (8 + 9 * gs.length) by omega, List.map_cons, List.flatten_cons] at h1
    rw [slice_append, slice_append, List.cons_append, show (0xFF#8 :: (g ++ (gs.map fun g => 0xFF#8 :: g).flatten)) = [0xFF#8] ++ (g ++ (gs.map fun g => 0xFF#8 :: g).flatten) from rfl] at h1
    obtain ⟨e1, e2⟩ := List.append_inj h1 (by simp)
    obtain ⟨e2, e3⟩ := List.append_inj e2 (by simp [hg])
    have e1 : bufRead x.s.inb x.ip = 0xFF#8 := (List.cons.inj e1).1
    rw [show gs.length + 1 + n = (gs.length + n) + 1 by omega, matchLoop, if_neg (by omega), nextMatchByte, if_neg (by omega)]
    simp only [Res.bind_ok]
    rw [e1, byteBits_ff, show List.replicate 8 true = List.replicate g.length true ++ [] by rw [hg]; rfl]
    rw [flagUnits_literals target g [] { x with ip := x.ip + 1 } (by rw [hg]; exact e2) (by show x.ip + 1 + g.length ≤ x.s.inLen; omega) (by show x.s.outLen + g.length ≤ target; omega) h4]
    rw [flagUnits, Res.bind_ok]
    rw [ih n { s := appended g x.s, ip := x.ip + 1 + g.length } (fun g hg => h0 g (by simp [hg])) (by show slice x.s.inb (x.ip + 1 + g.length) _ = _; rw [hg]; exact e3) (by show x.ip + 1 + g.length + _ ≤ x.s.inLen; omega)
      (by show x.s.outLen + g.length + _ ≤ target; omega) h4]
    rw [← appended_append, List.flatten_cons, hg]
    congr 2; simp only; omega

/-- The first bits of a byte are 1. -/
theorem byteBits_ones (f : Byte) (n j : Nat) : (∀ i, i < j → f.getLsbD (n + j - 1 - i) = true) → byteBits f (n + j) = List.replicate j true ++ byteBits f n := by
  induction j with
  | zero => intro _; rfl
  | succ j ih =>
    intro h
    rw [← Nat.add_assoc, byteBits, show f.getLsbD (n + j) = true by have := h 0 (by omega); simpa using this, ih (fun i hi => ?_)]
    · rfl
    · have := h (i + 1) (by omega); rw [show n + (j + 1) - 1 - (i + 1) = n + j - 1 - i by omega] at this; exact this

/-- Everything `PYR.MATCHDEC` can end in (R230, R233): `InvalidArgument` before any change, or as many
bytes as were asked for, or an error with the bytes written before it. -/
theorem pyrMatchdec_spec (s : State) :
    (s.cfg.bufCap < argNat0 s ∧ pyrMatchdec s = .raised .invalidArgument (argNat0 s) s) ∨
    (∃ l ip, pyrMatchdec s = .ok (setRes (argNat0 s) ip (appended l { s with outLen := 0 })) ∧
      argNat0 s ≤ s.cfg.bufCap ∧ l.length = argNat0 s ∧ ip ≤ s.inLen) ∨
    (∃ e i l, pyrMatchdec s = .raised e i (appended l { s with outLen := 0 }) ∧ argNat0 s ≤ s.cfg.bufCap ∧
      l.length ≤ argNat0 s ∧ matchErr s.inLen e i) := by
  unfold pyrMatchdec
  by_cases h : s.cfg.bufCap < argNat0 s
  · rw [if_pos h]; exact .inl ⟨h, rfl⟩
  · rw [if_neg h]
    right
    have hx : MatchOk (argNat0 s) { s := { s with outLen := 0 }, ip := 0 } :=
      ⟨by simp only; omega, Nat.zero_le _, Nat.zero_le _⟩
    obtain ⟨k1, k2⟩ := matchLoop_appends (s.inLen + 1) hx (by simp only; omega)
    cases hr : matchLoop (argNat0 s) (s.inLen + 1) { s := { s with outLen := 0 }, ip := 0 } with
    | ok y =>
      rw [hr] at k1
      obtain ⟨l, hl, hle⟩ := k1
      obtain ⟨m1, m2, _⟩ := k2 y hr
      left
      have hlen : l.length = argNat0 s := by
        rw [hl, appended_outLen] at m2
        simpa using m2
      refine ⟨l, y.ip, ?_, by omega, hlen, ?_⟩
      · rw [Res.bind_ok, m2, hl]
      · have := m1.2.2
        rw [hl] at this
        exact this
    | raised e i t =>
      rw [hr] at k1
      obtain ⟨⟨l, hl, hle⟩, hq⟩ := k1
      right
      refine ⟨e, i, l, by rw [hl]; rfl, by omega, by simpa using hle, hq⟩

/-! ### RLE0 -/

/-- Everything `RLE0.COMPRESS` can end in (R280, R304). -/
theorem rle0Compress_eq (s : State) : rle0Compress s =
    if (rleEncode 0 (inputBytes s)).length ≤ s.cfg.bufCap then
      .ok (setRes0 (rleEncode 0 (inputBytes s)).length (appended (rleEncode 0 (inputBytes s)) { s with outLen := 0 }))
    else .raised .capacity s.cfg.bufCap (appended ((rleEncode 0 (inputBytes s)).take s.cfg.bufCap) { s with outLen := 0 }) := by
  unfold rle0Compress
  rw [appendAll_eq _ _ (Nat.zero_le _)]
  simp only [Nat.zero_add, Nat.sub_zero]
  split_ifs
  · rw [Res.bind_ok, appended_outLen]
    simp only [Nat.zero_add]
  · rfl

/-- Everything `RLE0.DECOMPRESS` can end in (R281, R304). -/
theorem rle0Decompress_eq (s : State) : rle0Decompress s =
    if (rleDecode (inputBytes s)).1.length ≤ s.cfg.bufCap then
      if (rleDecode (inputBytes s)).2 then
        .raised .unexpectedEnd s.inLen (appended (rleDecode (inputBytes s)).1 { s with outLen := 0 })
      else .ok (setRes0 (rleDecode (inputBytes s)).1.length (appended (rleDecode (inputBytes s)).1 { s with outLen := 0 }))
    else .raised .capacity s.cfg.bufCap (appended ((rleDecode (inputBytes s)).1.take s.cfg.bufCap) { s with outLen := 0 }) := by
  unfold rle0Decompress
  simp only
  rw [appendAll_eq _ _ (Nat.zero_le _)]
  simp only [Nat.zero_add, Nat.sub_zero]
  split_ifs <;> simp_all

end Sys2Proof.Machine
end

