-- ==== Sys2Proof/Laws/Huffman.lean ====
section
/-! SUPPORT. The Huffman unit: leaves, merges, code table, decode walk (R250 to R259). -/

namespace Sys2Proof.Machine

/-! ### Symbols through sorting and merging -/

/-- The symbols of a working list. -/
def listSymbols (l : List HufTree) : List Nat := (l.map treeSymbols).flatten

theorem treeSymbols_ne_nil (t : HufTree) : treeSymbols t ≠ [] := by
  induction t with
  | leaf v f => simp [treeSymbols]
  | inner f l r ihl _ => simp [treeSymbols, ihl]

theorem insertByFreq_perm (t : HufTree) (l : List HufTree) : (insertByFreq t l).Perm (t :: l) := by
  induction l with
  | nil => exact List.Perm.refl _
  | cons u us ih =>
    rw [insertByFreq]
    split_ifs
    · exact (ih.cons u).trans (List.Perm.swap t u us)
    · exact List.Perm.refl _

theorem insertByFreq_length (t : HufTree) (l : List HufTree) : (insertByFreq t l).length = l.length + 1 := by
  rw [(insertByFreq_perm t l).length_eq, List.length_cons]

theorem sortByFreq_perm (l : List HufTree) : (sortByFreq l).Perm l := by
  have key : ∀ (l acc : List HufTree), (l.foldl (fun acc t => insertByFreq t acc) acc).Perm (l ++ acc) := by
    intro l
    induction l with
    | nil => intro acc; exact List.Perm.refl _
    | cons t l ih =>
      intro acc
      rw [List.foldl_cons]
      exact (ih _).trans (((insertByFreq_perm t acc).append_left l).trans List.perm_middle)
  simpa [sortByFreq] using key l []

theorem listSymbols_perm {l m : List HufTree} (h : l.Perm m) : (listSymbols l).Perm (listSymbols m) := by
  unfold listSymbols
  exact (h.map treeSymbols).flatten

/-- Merging keeps the symbols, and ends in a tree exactly when there was a leaf (R251, R255, R257). -/
theorem mergeAll_spec (fuel : Nat) (l : List HufTree) (hf : l.length ≤ fuel) :
    (l = [] ∧ mergeAll fuel l = none) ∨
    (∃ t, mergeAll fuel l = some t ∧ (treeSymbols t).Perm (listSymbols l)) := by
  induction fuel generalizing l with
  | zero =>
    have : l = [] := by simpa using hf
    subst this
    exact .inl ⟨rfl, rfl⟩
  | succ fuel ih =>
    match l, hf with
    | [], _ => exact .inl ⟨rfl, rfl⟩
    | [t], _ => exact .inr ⟨t, rfl, by simp [listSymbols]⟩
    | x :: y :: rest, hf =>
      right
      rw [mergeAll]
      rcases ih (insertByFreq (.inner (hufFreq x + hufFreq y) x y) rest)
          (by rw [insertByFreq_length]; simp only [List.length_cons] at hf; omega) with ⟨h, _⟩ | ⟨t, h1, h2⟩
      · have := insertByFreq_length (.inner (hufFreq x + hufFreq y) x y) rest
        rw [h] at this; cases this
      · refine ⟨t, h1, h2.trans ((listSymbols_perm (insertByFreq_perm _ _)).trans ?_)⟩
        simp [listSymbols, treeSymbols]

/-! ### Leaves -/

theorem byteLeaves_symbols (f : List (Nat × Word)) (b n : Nat) :
    (∀ v, v ∈ listSymbols (byteLeaves f b n) ↔ b ≤ v ∧ v < b + n ∧ freqRead f v ≠ 0) ∧
    (listSymbols (byteLeaves f b n)).Nodup ∧ (listSymbols (byteLeaves f b n)).length = (byteLeaves f b n).length := by
  induction n generalizing b with
  | zero => simp [byteLeaves, listSymbols]; omega
  | succ n ih =>
    obtain ⟨i1, i2, i3⟩ := ih (b + 1)
    have hz : (freqRead f b).toNat = 0 ↔ freqRead f b = 0 := by
      constructor
      · intro h; exact BitVec.eq_of_toNat_eq h
      · intro h; rw [h]; rfl
    simp only [byteLeaves]
    split_ifs with h
    · refine ⟨fun v => ?_, i2, i3⟩
      rw [i1 v]
      rw [hz] at h
      constructor
      · rintro ⟨h1, h2, h3⟩; exact ⟨by omega, by omega, h3⟩
      · rintro ⟨h1, h2, h3⟩
        have : v ≠ b := by
          rintro rfl
          exact h3 h
        exact ⟨by omega, by omega, h3⟩
    · have e : listSymbols (.leaf b ((freqRead f b).toNat * ((freqRead f b).toNat + 1)) :: byteLeaves f (b + 1) n) =
          b :: listSymbols (byteLeaves f (b + 1) n) := by simp [listSymbols, treeSymbols]
      rw [e]
      refine ⟨fun v => ?_, ?_, by simp [i3]⟩
      · rw [List.mem_cons, i1 v]
        constructor
        · rintro (rfl | ⟨h1, h2, h3⟩)
          · exact ⟨le_refl _, by omega, fun g => h (hz.2 g)⟩
          · exact ⟨by omega, by omega, h3⟩
        · rintro ⟨h1, h2, h3⟩
          by_cases hv : v = b
          · exact .inl hv
          · exact .inr ⟨by omega, by omega, h3⟩
      · rw [List.nodup_cons]
        refine ⟨fun g => ?_, i2⟩
        have := (i1 b).1 g
        omega

/-- A list of extra symbols that passes the check (R253). -/
theorem badExtra_none {i : Nat} {seen l : List Nat} :
    badExtra i seen l = none ↔ (∀ v ∈ l, 255 < v ∧ v ≤ Config.maxSymbol ∧ v ∉ seen) ∧ l.Nodup := by
  induction l generalizing i seen with
  | nil => simp [badExtra]
  | cons v vs ih =>
    rw [badExtra]
    split_ifs with h
    · simp only [false_iff, not_and, List.nodup_cons]
      intro h1
      have h2 := h1 v (by simp)
      rcases h with h | h | h
      · omega
      · omega
      · exact absurd h h2.2.2
    · rw [ih]
      simp only [not_or, not_le, not_lt] at h
      simp only [List.mem_cons, forall_eq_or_imp, List.nodup_cons, not_or]
      constructor
      · rintro ⟨h1, h2⟩
        exact ⟨⟨⟨by omega, by omega, h.2.2⟩, fun w hw => ⟨(h1 w hw).1, (h1 w hw).2.1, (h1 w hw).2.2.2⟩⟩,
          fun hv => (h1 v hv).2.2.1 rfl, h2⟩
      · rintro ⟨⟨_, h1⟩, h2, h3⟩
        exact ⟨fun w hw => ⟨(h1 w hw).1, (h1 w hw).2.1, fun e => h2 (e ▸ hw), (h1 w hw).2.2⟩, h3⟩

theorem xsymValues_length (x : WordBuf) (i n : Nat) : (xsymValues x i n).length = n := by
  induction n generalizing i with
  | zero => rfl
  | succ n ih => simp [xsymValues, ih]

/-- The list of extra symbols of a state (R52). -/
def extraSymbols (s : State) : List Nat := xsymValues s.xsym 0 s.hufNx.toNat

theorem checkExtras_none {s : State} : checkExtras s = none ↔
    s.hufNx.toNat ≤ s.cfg.hufXmax ∧ (∀ v ∈ extraSymbols s, 255 < v ∧ v ≤ Config.maxSymbol) ∧ (extraSymbols s).Nodup := by
  unfold checkExtras
  split_ifs with h
  · simp; omega
  · rw [badExtra_none]
    simp only [List.not_mem_nil, not_false_eq_true, and_true]
    have : s.hufNx.toNat ≤ s.cfg.hufXmax := by omega
    simp [this, extraSymbols]

/-- The leaves of a build (R252): one for each byte with a count, one for each extra symbol. -/
theorem hufLeaves_symbols {s : State} (h : checkExtras s = none) :
    (∀ v, v ∈ listSymbols (hufLeaves s) ↔ (v < 256 ∧ freqRead s.freq v ≠ 0) ∨ v ∈ extraSymbols s) ∧
    (listSymbols (hufLeaves s)).Nodup ∧ (listSymbols (hufLeaves s)).length = (hufLeaves s).length ∧
    (∀ v ∈ listSymbols (hufLeaves s), v ≤ Config.maxSymbol) ∧
    (hufLeaves s).length = (byteLeaves s.freq 0 256).length + s.hufNx.toNat := by
  obtain ⟨h1, h2, h3⟩ := checkExtras_none.1 h
  obtain ⟨b1, b2, b3⟩ := byteLeaves_symbols s.freq 0 256
  have hx : listSymbols ((extraSymbols s).map fun v => HufTree.leaf v (v * v)) = extraSymbols s := by
    have : ∀ l : List Nat, listSymbols (l.map fun v => HufTree.leaf v (v * v)) = l := by
      intro l
      induction l with
      | nil => rfl
      | cons v l ih => simp only [List.map_cons]; rw [show listSymbols (HufTree.leaf v (v * v) ::
          l.map fun v => HufTree.leaf v (v * v)) = v :: listSymbols (l.map fun v => HufTree.leaf v (v * v)) from by
            simp [listSymbols, treeSymbols], ih]
    exact this _
  have happ : listSymbols (byteLeaves s.freq 0 256 ++ (extraSymbols s).map fun v => HufTree.leaf v (v * v)) =
      listSymbols (byteLeaves s.freq 0 256) ++ extraSymbols s := by
    have happend : ∀ l m : List HufTree, listSymbols (l ++ m) = listSymbols l ++ listSymbols m := by
      intro l m
      simp [listSymbols]
    rw [happend, hx]
  have hp : (listSymbols (hufLeaves s)).Perm (listSymbols (byteLeaves s.freq 0 256) ++ extraSymbols s) := by
    rw [← happ]
    exact listSymbols_perm (sortByFreq_perm _)
  have hmem : ∀ v, v ∈ listSymbols (hufLeaves s) ↔ (v < 256 ∧ freqRead s.freq v ≠ 0) ∨ v ∈ extraSymbols s := by
    intro v
    rw [hp.mem_iff, List.mem_append, b1 v]
    simp
  have hlen : (hufLeaves s).length = (byteLeaves s.freq 0 256).length + s.hufNx.toNat := by
    unfold hufLeaves
    rw [(sortByFreq_perm _).length_eq, List.length_append, List.length_map, xsymValues_length]
  refine ⟨hmem, ?_, ?_, ?_, hlen⟩
  · rw [hp.nodup_iff, List.nodup_append]
    refine ⟨b2, h3, ?_⟩
    intro a ha b hb hab
    have := (b1 a).1 ha
    have := (h2 b hb).1
    omega
  · rw [hp.length_eq, List.length_append, b3, hlen]
    simp [extraSymbols, xsymValues_length]
  · intro v hv
    rcases (hmem v).1 hv with g | g
    · simp only [Config.maxSymbol]; omega
    · exact (h2 v g).2

/-! ### The code table -/

theorem treeCodes_map_fst (t : HufTree) (code : List Bool) : (treeCodes code t).map Prod.fst = treeSymbols t := by
  induction t generalizing code with
  | leaf v f => rfl
  | inner f l r ihl ihr => simp [treeCodes, treeSymbols, ihl, ihr]

/-- `Assign` stores exactly the codes of the leaves (R256). -/
theorem cellGet?_assignCodes (t : HufTree) (code : List Bool) (tbl : List (Nat × List Bool)) (v : Nat)
    (hn : (treeSymbols t).Nodup) :
    (∀ c, (v, c) ∈ treeCodes code t → cellGet? (assignCodes t code tbl) v = some c) ∧
    (v ∉ treeSymbols t → cellGet? (assignCodes t code tbl) v = cellGet? tbl v) := by
  induction t generalizing code tbl with
  | leaf w f =>
    constructor
    · intro c hc
      simp only [treeCodes, List.mem_singleton, Prod.mk.injEq] at hc
      obtain ⟨rfl, rfl⟩ := hc
      exact cellGet?_cellSet_same _ _ _
    · intro h
      exact cellGet?_cellSet_other _ _ (by simpa [treeSymbols] using h)
  | inner f l r ihl ihr =>
    simp only [treeSymbols, List.nodup_append] at hn
    obtain ⟨n1, n2, n3⟩ := hn
    obtain ⟨l1, l2⟩ := ihl (code ++ [false]) tbl n1
    obtain ⟨r1, r2⟩ := ihr (code ++ [true]) (assignCodes l (code ++ [false]) tbl) n2
    constructor
    · intro c hc
      simp only [treeCodes, List.mem_append] at hc
      rcases hc with hc | hc
      · rw [assignCodes, r2, l1 c hc]
        intro hv
        have : v ∈ treeSymbols l := by
          rw [← treeCodes_map_fst l (code ++ [false])]
          exact List.mem_map.2 ⟨_, hc, rfl⟩
        exact n3 v this v hv rfl
      · exact r1 c hc
    · intro h
      simp only [treeSymbols, List.mem_append, not_or] at h
      rw [assignCodes, r2 h.2, l2 h.1]

theorem assignCodes_sorted (t : HufTree) (code : List Bool) {tbl : List (Nat × List Bool)}
    (h : cellsSorted tbl = true) : cellsSorted (assignCodes t code tbl) = true := by
  induction t generalizing code tbl with
  | leaf v f => exact cellSet_sorted _ _ h
  | inner f l r ihl ihr => exact ihr _ (ihl _ h)

theorem assignCodes_below {n : Nat} (t : HufTree) (code : List Bool) {tbl : List (Nat × List Bool)}
    (h : cellsBelow n tbl = true) (ht : ∀ v ∈ treeSymbols t, v < n) : cellsBelow n (assignCodes t code tbl) = true := by
  induction t generalizing code tbl with
  | leaf v f => exact cellSet_below _ h (ht v (by simp [treeSymbols]))
  | inner f l r ihl ihr =>
    exact ihr _ (ihl _ h fun v hv => ht v (by simp [treeSymbols, hv])) fun v hv => ht v (by simp [treeSymbols, hv])

/-- A symbol of the tree has exactly one code, and it is what the table gives (R51, R256). -/
theorem code_of_symbol {t : HufTree} (hn : (treeSymbols t).Nodup) (v : Nat) (c : List Bool) :
    cellGet? (assignCodes t [] []) v = some c ↔ (v, c) ∈ treeCodes [] t := by
  constructor
  · intro h
    by_cases hv : v ∈ treeSymbols t
    · rw [← treeCodes_map_fst t []] at hv
      obtain ⟨⟨w, d⟩, h1, rfl⟩ := List.mem_map.1 hv
      have := (cellGet?_assignCodes t [] [] w hn).1 d h1
      rw [h] at this
      cases this
      exact h1
    · rw [(cellGet?_assignCodes t [] [] v hn).2 hv] at h
      cases h
  · exact (cellGet?_assignCodes t [] [] v hn).1 c

theorem code_isSome {t : HufTree} (hn : (treeSymbols t).Nodup) (v : Nat) :
    (cellGet? (assignCodes t [] []) v).isSome = true ↔ v ∈ treeSymbols t := by
  constructor
  · intro h
    obtain ⟨c, hc⟩ := Option.isSome_iff_exists.1 h
    rw [← treeCodes_map_fst t []]
    exact List.mem_map.2 ⟨_, (code_of_symbol hn v c).1 hc, rfl⟩
  · intro h
    rw [← treeCodes_map_fst t []] at h
    obtain ⟨⟨w, c⟩, h1, rfl⟩ := List.mem_map.1 h
    rw [(code_of_symbol hn w c).2 h1]; rfl

/-- The bits of a code stand under the prefix the leaf was reached by. -/
theorem treeCodes_prefix {t : HufTree} {pre c : List Bool} {v : Nat} (h : (v, c) ∈ treeCodes pre t) : pre <+: c := by
  induction t generalizing pre with
  | leaf w f =>
    simp only [treeCodes, List.mem_singleton, Prod.mk.injEq] at h
    rw [h.2]
  | inner f l r ihl ihr =>
    simp only [treeCodes, List.mem_append] at h
    rcases h with h | h
    · exact (List.prefix_append _ _).trans (ihl h)
    · exact (List.prefix_append _ _).trans (ihr h)

/-! ### Building -/

/-- Everything `HUF.BUILD` can do (R251 to R257). -/
theorem hufBuild_spec (s : State) :
    (∃ i, checkExtras s = some i ∧ hufBuild s = .raised .invalidArgument i s) ∨
    (checkExtras s = none ∧ hufLeaves s = [] ∧
      hufBuild s = .ok (setRes0 0 { s with hroot := none, hcode := [], hufInfo := hufInfoWord 0 })) ∨
    (∃ t, checkExtras s = none ∧ (treeSymbols t).Perm (listSymbols (hufLeaves s)) ∧
      (treeSymbols t).length = (hufLeaves s).length ∧
      hufBuild s = .ok (setRes0 (hufLeaves s).length { s with
        hroot := some t, hcode := assignCodes t [] [], hufInfo := hufInfoWord (hufLeaves s).length })) := by
  unfold hufBuild
  cases hc : checkExtras s with
  | some i => exact .inl ⟨i, rfl, rfl⟩
  | none =>
    right
    rcases mergeAll_spec (hufLeaves s).length (hufLeaves s) (le_refl _) with ⟨h1, h2⟩ | ⟨t, h1, h2⟩
    · left
      refine ⟨rfl, h1, ?_⟩
      simp only [h1]
      rfl
    · right
      refine ⟨t, rfl, h2, ?_, by simp only [h1]⟩
      rw [h2.length_eq]
      exact (hufLeaves_symbols hc).2.2.1

/-! ### The decode walk -/

/-- The walk reads forward, not past the end of the stream (R259). -/
theorem hufWalk_pos (s : State) (t : HufTree) (p : Nat) :
    p ≤ (hufWalk s t p).2 ∧ (hufWalk s t p).2 ≤ max p (8 * s.bsLen) := by
  induction t generalizing p with
  | leaf v f => simp [hufWalk]
  | inner f l r ihl ihr =>
    simp only [hufWalk]
    split_ifs with h1 h2
    · simp
    · have := ihr (p + 1); omega
    · have := ihl (p + 1); omega

/-- The walk over the bits of a code ends at its leaf (R256, R259). -/
theorem hufWalk_code {s : State} {t : HufTree} {pre c : List Bool} {v p : Nat} (h : (v, pre ++ c) ∈ treeCodes pre t)
    (hlen : p + c.length ≤ 8 * s.bsLen) (hb : ∀ k, k < c.length → (c)[k]? = some (getBit s (p + k))) :
    hufWalk s t p = (some v, p + c.length) := by
  induction t generalizing pre c p with
  | leaf w f =>
    simp only [treeCodes, List.mem_singleton, Prod.mk.injEq] at h
    obtain ⟨rfl, hc⟩ := h
    have hc0 : c = [] := by simpa using hc
    subst hc0
    rfl
  | inner f l r ihl ihr =>
    simp only [treeCodes, List.mem_append] at h
    cases c with
    | nil =>
      rw [List.append_nil] at h
      rcases h with h | h
      · have := (treeCodes_prefix h).length_le
        simp at this
      · have := (treeCodes_prefix h).length_le
        simp at this
    | cons b c =>
      rw [List.length_cons] at hlen
      have hb0 : b = getBit s p := by simpa using hb 0 (by simp)
      have hbs : ∀ k, k < c.length → (c)[k]? = some (getBit s (p + 1 + k)) := by
        intro k hk
        have := hb (k + 1) (by simpa using hk)
        rw [List.getElem?_cons_succ] at this
        rw [this]; congr 2; omega
      have hle : ¬ 8 * s.bsLen ≤ p := by omega
      simp only [hufWalk]
      rw [if_neg hle, ← hb0]
      have e : pre ++ b :: c = pre ++ [b] ++ c := by simp
      have hlen' : p + 1 + c.length = p + (b :: c).length := by rw [List.length_cons]; omega
      rw [e] at h
      cases b with
      | true =>
        rw [if_pos rfl]
        rcases h with h | h
        · have h1 := treeCodes_prefix h
          rw [List.append_assoc] at h1
          have := (List.prefix_append_right_inj pre).1 h1
          simp at this
        · rw [ihr h (by omega) hbs, hlen']
      | false =>
        rw [if_neg (by simp)]
        rcases h with h | h
        · rw [ihl h (by omega) hbs, hlen']
        · have h1 := treeCodes_prefix h
          rw [List.append_assoc] at h1
          have := (List.prefix_append_right_inj pre).1 h1
          simp at this

end Sys2Proof.Machine
end

