-- ==== Sys2Proof/Laws/Exec.lean ====
section
/-! SUPPORT. What each command can end in, said once: the next states of `exec`, with the conditions of the
rules. A proof about a command takes these cases and unfolds no meaning. -/

namespace Sys2Proof.Machine

/-- A command that completes with `P` or raises from a state with `Q`. -/
def Ends (i : Instr) (s : State) (P : State → Prop) (Q : ErrKind → Nat → State → Prop) : Prop :=
  (∃ t, exec i s = .next t ∧ P t) ∨ ∃ e n u, exec i s = .next (raise e n (encode i) u) ∧ Q e n u

/-- The cases of a next state. -/
theorem Ends.cases {i : Instr} {s t : State} {P : State → Prop} {Q : ErrKind → Nat → State → Prop} (h : Ends i s P Q)
    (ht : exec i s = .next t) : P t ∨ ∃ e n u, t = raise e n (encode i) u ∧ Q e n u := by
  rcases h with ⟨t', h1, h2⟩ | ⟨e, n, u, h1, h2⟩ <;> rw [h1] at ht <;> cases ht
  · exact .inl h2
  · exact .inr ⟨e, n, u, rfl, h2⟩

/-- A precise command raises in the state it started from (R313). -/
def Precise (s : State) (Q : ErrKind → Nat → Prop) (e : ErrKind) (n : Nat) (u : State) : Prop := u = s ∧ Q e n

/-! ### SYS -/

theorem sysNop_ends (s : State) : Ends .sysNop s (fun t => t = s) (fun _ _ _ => False) := .inl ⟨s, rfl, rfl⟩

theorem sysClrerr_ends (s : State) :
    Ends .sysClrerr s (fun t => t = if s.halt then s else clearError s) (fun _ _ _ => False) := .inl ⟨_, rfl, rfl⟩

theorem sysReset_ends (s : State) :
    Ends .sysReset s (fun t => t = if s.halt then s else resetBlock s) (fun _ _ _ => False) := .inl ⟨_, rfl, rfl⟩

theorem sysXchg_ends (s : State) : Ends .sysXchg s
    (fun t => t = { s with
      inb := s.outb, inLen := s.outLen, outb := s.inb, outLen := s.inLen, dict := Dict.empty .inSpace })
    (fun _ _ _ => False) := .inl ⟨_, rfl, rfl⟩

/-! ### BS -/

theorem bsClear_ends (s : State) : Ends .bsClear s (fun t => t = { s with bsLen := 0, bsByte := 0, bsBit := 0 })
    (fun _ _ _ => False) := .inl ⟨_, rfl, rfl⟩

theorem bsGetpos_ends (s : State) : Ends .bsGetpos s (fun t => t = { s with res0 := toWord (bitPos s) })
    (fun _ _ _ => False) := .inl ⟨_, rfl, rfl⟩

theorem bsSetpos_ends (s : State) : Ends .bsSetpos s
    (fun t => t = setPos (argNat0 s) s ∧ argNat0 s ≤ 8 * s.cfg.bufCap)
    (Precise s fun e n => e = .invalidArgument ∧ n = argNat0 s ∧ 8 * s.cfg.bufCap < argNat0 s) := by
  have h : exec .bsSetpos s = finish (encode .bsSetpos) (bsSetpos s) := rfl
  unfold Ends
  rw [h, bsSetpos]
  split_ifs with hc
  · exact .inr ⟨_, _, _, rfl, rfl, rfl, rfl, hc⟩
  · exact .inl ⟨_, rfl, rfl, by omega⟩

/-- What `BS.READ` and `BS.PEEK` fetch (R134, R140). -/
theorem bsFetch_cases (n : Nat) (s : State) :
    (n ≤ s.cfg.maxBits ∧ (n = 0 ∨ bitPos s + n ≤ 8 * s.bsLen) ∧ bsFetch n s = .ok { s with res0 := readBits s (bitPos s) n }) ∨
    (s.cfg.maxBits < n ∧ bsFetch n s = .raised .invalidArgument n s) ∨
    (0 < n ∧ n ≤ s.cfg.maxBits ∧ 8 * s.bsLen < bitPos s + n ∧ bsFetch n s = .raised .unexpectedEnd (bitPos s) s) := by
  unfold bsFetch
  split_ifs with h1 h2 h3
  · exact .inr (.inl ⟨h1, rfl⟩)
  · subst h2; exact .inl ⟨by omega, .inl rfl, rfl⟩
  · exact .inr (.inr ⟨by omega, by omega, h3, rfl⟩)
  · exact .inl ⟨by omega, .inr (by omega), rfl⟩

/-- The errors of `BS.READ` and `BS.PEEK` (R134, R140). -/
def fetchErr (n : Nat) (s : State) (e : ErrKind) (i : Nat) : Prop :=
  (e = .invalidArgument ∧ i = n ∧ s.cfg.maxBits < n) ∨
  (e = .unexpectedEnd ∧ i = bitPos s ∧ 0 < n ∧ n ≤ s.cfg.maxBits ∧ 8 * s.bsLen < bitPos s + n)

theorem bsRead_ends (n : Nat) (s : State) : Ends (.bsRead n) s
    (fun t => t = setPos (bitPos s + n) { s with res0 := readBits s (bitPos s) n } ∧
      n ≤ s.cfg.maxBits ∧ (n = 0 ∨ bitPos s + n ≤ 8 * s.bsLen))
    (Precise s (fetchErr n s)) := by
  have h : exec (.bsRead n) s =
    finish (encode (.bsRead n)) ((bsFetch n s).bind fun s1 => .ok (setPos (bitPos s1 + n) s1)) := rfl
  unfold Ends
  rw [h]
  rcases bsFetch_cases n s with ⟨h1, h2, h3⟩ | ⟨h1, h3⟩ | ⟨h0, h1, h2, h3⟩ <;> rw [h3]
  · exact .inl ⟨_, rfl, rfl, h1, h2⟩
  · exact .inr ⟨_, _, _, rfl, rfl, .inl ⟨rfl, rfl, h1⟩⟩
  · exact .inr ⟨_, _, _, rfl, rfl, .inr ⟨rfl, rfl, h0, h1, h2⟩⟩

theorem bsPeek_ends (n : Nat) (s : State) : Ends (.bsPeek n) s
    (fun t => t = { s with res0 := readBits s (bitPos s) n } ∧ n ≤ s.cfg.maxBits ∧ (n = 0 ∨ bitPos s + n ≤ 8 * s.bsLen))
    (Precise s (fetchErr n s)) := by
  have h : exec (.bsPeek n) s = finish (encode (.bsPeek n)) (bsFetch n s) := rfl
  unfold Ends
  rw [h]
  rcases bsFetch_cases n s with ⟨h1, h2, h3⟩ | ⟨h1, h3⟩ | ⟨h0, h1, h2, h3⟩ <;> rw [h3]
  · exact .inl ⟨_, rfl, rfl, h1, h2⟩
  · exact .inr ⟨_, _, _, rfl, rfl, .inl ⟨rfl, rfl, h1⟩⟩
  · exact .inr ⟨_, _, _, rfl, rfl, .inr ⟨rfl, rfl, h0, h1, h2⟩⟩

theorem bsWrite_ends (n : Nat) (s : State) : Ends (.bsWrite n) s
    (fun t => t = bitsWritten (bitsOf s.arg0 n) s ∧ n ≤ s.cfg.maxBits ∧ bitPos s + n ≤ 8 * s.cfg.bufCap)
    (Precise s fun e i => (e = .invalidArgument ∧ i = n ∧ s.cfg.maxBits < n) ∨
      (e = .capacity ∧ i = bitPos s ∧ n ≤ s.cfg.maxBits ∧ 8 * s.cfg.bufCap < bitPos s + n)) := by
  have h : exec (.bsWrite n) s = finish (encode (.bsWrite n)) (bsWrite n s) := rfl
  unfold Ends
  rw [h, bsWrite]
  split_ifs with h1 h2
  · exact .inr ⟨_, _, _, rfl, rfl, .inl ⟨rfl, rfl, h1⟩⟩
  · exact .inr ⟨_, _, _, rfl, rfl, .inr ⟨rfl, rfl, by omega, h2⟩⟩
  · rw [writeBits_ok (by rw [bitsOf_length]; omega)]
    exact .inl ⟨_, rfl, rfl, by omega, by omega⟩

theorem bsAlign_ends (s : State) : Ends .bsAlign s
    (fun t => t = if s.bsBit = 0 then s else { s with bsByte := s.bsByte + 1, bsBit := 0 })
    (fun _ _ _ => False) := .inl ⟨_, rfl, rfl⟩

theorem bsReadbyte_ends (s : State) : Ends .bsReadbyte s
    (fun t => t = setPos (alignedPos s + 8) { s with res0 := (bufRead s.bsb (alignedPos s / 8)).setWidth 32 } ∧
      alignedPos s + 8 ≤ 8 * s.bsLen)
    (Precise s fun e i => e = .unexpectedEnd ∧ i = bitPos s ∧ 8 * s.bsLen < alignedPos s + 8) := by
  have h : exec .bsReadbyte s = finish (encode .bsReadbyte) (bsReadbyte s) := rfl
  unfold Ends
  rw [h, bsReadbyte]
  split_ifs with h1
  · exact .inr ⟨_, _, _, rfl, rfl, rfl, rfl, h1⟩
  · exact .inl ⟨_, rfl, rfl, by omega⟩

theorem bsWritebyte_ends (s : State) : Ends .bsWritebyte s
    (fun t => t = bitsWritten (bitsOf s.arg0 8) (setPos (alignedPos s) s) ∧ alignedPos s + 8 ≤ 8 * s.cfg.bufCap)
    (Precise s fun e i => e = .capacity ∧ i = bitPos s ∧ 8 * s.cfg.bufCap < alignedPos s + 8) := by
  have h : exec .bsWritebyte s = finish (encode .bsWritebyte) (bsWritebyte s) := rfl
  unfold Ends
  rw [h, bsWritebyte]
  split_ifs with h1
  · exact .inr ⟨_, _, _, rfl, rfl, rfl, rfl, h1⟩
  · rw [writeBits_ok (by rw [bitsOf_length, bitPos_setPos]; exact Nat.not_lt.mp h1)]
    exact .inl ⟨_, rfl, rfl, by omega⟩

/-! ### DICT -/

theorem dictClear_ends (sel : Nat) (s : State) : Ends (.dictClear sel) s
    (fun t => t = { s with dict := Dict.empty (if sel = 0 then .inSpace else .outSpace) } ∧ sel ≤ 1)
    (Precise s fun e i => e = .invalidArgument ∧ i = sel ∧ 1 < sel) := by
  have h : exec (.dictClear sel) s = finish (encode (.dictClear sel)) (dictClear sel s) := rfl
  unfold Ends
  rw [h, dictClear]
  by_cases h1 : 1 < sel
  · rw [if_pos h1]; exact .inr ⟨_, _, _, rfl, rfl, rfl, rfl, h1⟩
  · rw [if_neg h1]; exact .inl ⟨_, rfl, rfl, by omega⟩

/-- The string `DICT.INSERT` and the codec insert: `DATA[off : off + min(len, DLEN - off)]` (R165). -/
theorem dictInsert_ends (s : State) : Ends .dictInsert s
    (fun t => t = setRes0 (dictInsert s.cfg.cap (argNat0 s) (dataSlice (argNat0 s) (argNat1 s) s) s.dict).2
        { s with dict := (dictInsert s.cfg.cap (argNat0 s) (dataSlice (argNat0 s) (argNat1 s) s) s.dict).1 } ∧
      argNat0 s < dataLen s ∧ argNat1 s ≠ 0)
    (Precise s fun e i => e = .invalidArgument ∧ i = argNat0 s ∧ (dataLen s ≤ argNat0 s ∨ argNat1 s = 0)) := by
  have h : exec .dictInsert s = finish (encode .dictInsert)
    ((insertAt (argNat0 s) (argNat1 s) s).bind fun r => .ok (setRes0 r.2 r.1)) := rfl
  unfold Ends
  rw [h, insertAt_eq]
  split_ifs with h1
  · exact .inr ⟨_, _, _, rfl, rfl, rfl, rfl, h1⟩
  · exact .inl ⟨_, rfl, rfl, by omega, by omega⟩

theorem dictFind_ends (s : State) : Ends .dictFind s
    (fun t => t = match (findAt (argNat0 s) s).2 with
      | some (idx, len) => setRes idx len (findAt (argNat0 s) s).1
      | none => { (findAt (argNat0 s) s).1 with res0 := none32, res1 := 0 })
    (fun _ _ _ => False) := by
  have h : exec .dictFind s = execDictFind s := rfl
  unfold Ends
  rw [h, execDictFind]
  rcases findAt (argNat0 s) s with ⟨s1, _ | ⟨idx, len⟩⟩
  · exact .inl ⟨_, rfl, rfl⟩
  · exact .inl ⟨_, rfl, rfl⟩

theorem dictFree_ends (s : State) : Ends .dictFree s
    (fun t => t = setRes0 (freeIndex s.dict).2 { s with dict := (freeIndex s.dict).1 } ∧ s.dict.count = s.cfg.cap)
    (Precise s fun e i => e = .invalidArgument ∧ i = s.dict.count ∧ s.dict.count ≠ s.cfg.cap) := by
  have h : exec .dictFree s = finish (encode .dictFree) (dictFree s) := rfl
  unfold Ends
  rw [h, dictFree]
  split_ifs with h1
  · exact .inr ⟨_, _, _, rfl, rfl, rfl, rfl, h1⟩
  · exact .inl ⟨_, rfl, rfl, not_not.mp h1⟩

/-! ### PYR -/

theorem pyrCompress_ends (s : State) (hc : 0 < s.cfg.cap) : Ends .pyrCompress s
    (fun t => ∃ u, t = setRes u.outLen u.unitLen u ∧ Grows (pyrStart .inSpace s) u ∧
      u.unitLen ≤ s.inLen ∧ u.outLen ≤ 3 * s.inLen ∧ u.outLen ≤ s.cfg.bufCap)
    (fun e i u => e = .capacity ∧ i = s.cfg.bufCap ∧ Grows (pyrStart .inSpace s) u ∧
      u.unitLen ≤ s.inLen ∧ u.outLen ≤ s.cfg.bufCap ∧ s.cfg.bufCap < 3 * s.inLen) := by
  have h : exec .pyrCompress s = finish (encode .pyrCompress) (pyrCompress s) := rfl
  unfold Ends
  rw [h]
  rcases pyrCompress_spec s hc with ⟨u, h1, h2⟩ | ⟨u, h1, h2⟩ <;> rw [h1]
  · exact .inl ⟨_, rfl, u, rfl, h2⟩
  · exact .inr ⟨_, _, u, rfl, rfl, rfl, h2⟩

theorem pyrExpand_ends (s : State) (hc : 0 < s.cfg.cap) : Ends .pyrExpand s
    (fun t => ∃ u, t = setRes u.outLen u.unitLen u ∧ Grows (pyrStart .outSpace s) u ∧
      u.unitLen ≤ u.outLen ∧ u.outLen ≤ s.cfg.bufCap)
    (fun e i u => Grows (pyrStart .outSpace s) u ∧ u.unitLen ≤ u.outLen ∧ u.outLen ≤ s.cfg.bufCap ∧
      ((e = .unexpectedEnd ∧ i = s.inLen) ∨ (e = .data ∧ i < s.inLen) ∨ (e = .capacity ∧ i = s.cfg.bufCap))) := by
  have h : exec .pyrExpand s = finish (encode .pyrExpand) (pyrExpand s) := rfl
  unfold Ends
  rw [h]
  rcases pyrExpand_spec s hc with ⟨u, h1, h2⟩ | ⟨e, i, u, h1, h2⟩ <;> rw [h1]
  · exact .inl ⟨_, rfl, u, rfl, h2⟩
  · exact .inr ⟨_, _, u, rfl, h2⟩

theorem pyrMatchdec_ends (s : State) : Ends .pyrMatchdec s
    (fun t => ∃ l ip, t = setRes (argNat0 s) ip (appended l { s with outLen := 0 }) ∧
      argNat0 s ≤ s.cfg.bufCap ∧ l.length = argNat0 s ∧ ip ≤ s.inLen)
    (fun e i u => (u = s ∧ e = .invalidArgument ∧ i = argNat0 s ∧ s.cfg.bufCap < argNat0 s) ∨
      ∃ l, u = appended l { s with outLen := 0 } ∧ argNat0 s ≤ s.cfg.bufCap ∧ l.length ≤ argNat0 s ∧
        matchErr s.inLen e i) := by
  have h : exec .pyrMatchdec s = finish (encode .pyrMatchdec) (pyrMatchdec s) := rfl
  unfold Ends
  rw [h]
  rcases pyrMatchdec_spec s with ⟨h1, h2⟩ | ⟨l, ip, h1, h2⟩ | ⟨e, i, l, h1, h2⟩
  · rw [h2]; exact .inr ⟨_, _, _, rfl, .inl ⟨rfl, rfl, rfl, h1⟩⟩
  · rw [h1]; exact .inl ⟨_, rfl, l, ip, rfl, h2⟩
  · rw [h1]; exact .inr ⟨_, _, _, rfl, .inr ⟨l, rfl, h2⟩⟩

/-! ### HUF -/

theorem hufBuild_ends (s : State) : Ends .hufBuild s
    (fun t => checkExtras s = none ∧ ((hufLeaves s = [] ∧
        t = setRes0 0 { s with hroot := none, hcode := [], hufInfo := hufInfoWord 0 }) ∨
      ∃ r, (treeSymbols r).Perm (listSymbols (hufLeaves s)) ∧ (treeSymbols r).length = (hufLeaves s).length ∧
        t = setRes0 (hufLeaves s).length { s with
          hroot := some r, hcode := assignCodes r [] [], hufInfo := hufInfoWord (hufLeaves s).length }))
    (Precise s fun e i => e = .invalidArgument ∧ checkExtras s = some i) := by
  have h : exec .hufBuild s = finish (encode .hufBuild) (hufBuild s) := rfl
  unfold Ends
  rw [h]
  rcases hufBuild_spec s with ⟨i, h1, h2⟩ | ⟨h0, h1, h2⟩ | ⟨r, h0, h1, h2, h3⟩
  · rw [h2]; exact .inr ⟨_, _, _, rfl, rfl, rfl, h1⟩
  · rw [h2]; exact .inl ⟨_, rfl, h0, .inl ⟨h1, rfl⟩⟩
  · rw [h3]; exact .inl ⟨_, rfl, h0, .inr ⟨r, h1, h2, rfl⟩⟩

theorem hufEncode_ends (s : State) : Ends .hufEncode s
    (fun t => ∃ c, t = setRes0 c.length (bitsWritten c s) ∧ argNat0 s ≤ Config.maxSymbol ∧
      cellGet? s.hcode (argNat0 s) = some c ∧ bitPos s + c.length ≤ 8 * s.cfg.bufCap)
    (Precise s fun e i =>
      (e = .invalidArgument ∧ i = argNat0 s ∧ (Config.maxSymbol < argNat0 s ∨ cellGet? s.hcode (argNat0 s) = none)) ∨
      (e = .capacity ∧ i = bitPos s ∧ argNat0 s ≤ Config.maxSymbol ∧
        ∃ c, cellGet? s.hcode (argNat0 s) = some c ∧ 8 * s.cfg.bufCap < bitPos s + c.length)) := by
  have h : exec .hufEncode s = finish (encode .hufEncode) (hufEncode s) := rfl
  unfold Ends
  rw [h, hufEncode]
  split_ifs with h1
  · exact .inr ⟨_, _, _, rfl, rfl, .inl ⟨rfl, rfl, .inl h1⟩⟩
  · cases hc : cellGet? s.hcode (argNat0 s) with
    | none => exact .inr ⟨_, _, _, rfl, rfl, .inl ⟨rfl, rfl, .inr rfl⟩⟩
    | some c =>
      simp only
      split_ifs with h2
      · exact .inr ⟨_, _, _, rfl, rfl, .inr ⟨rfl, rfl, by omega, c, rfl, h2⟩⟩
      · rw [writeBits_ok (by omega)]
        exact .inl ⟨_, rfl, c, rfl, by omega, rfl, by omega⟩

theorem hufDecode_ends (s : State) : Ends .hufDecode s
    (fun t => (s.hroot = none ∧ t = { s with res0 := none32, res1 := 0 }) ∨
      ∃ r, s.hroot = some r ∧ t = match (hufWalk s r (bitPos s)).1 with
        | some v => setRes v ((hufWalk s r (bitPos s)).2 - bitPos s) (setPos (hufWalk s r (bitPos s)).2 s)
        | none => { setPos (hufWalk s r (bitPos s)).2 s with
          res0 := none32, res1 := toWord ((hufWalk s r (bitPos s)).2 - bitPos s) })
    (fun _ _ _ => False) := by
  have h : exec .hufDecode s = execHufDecode s := rfl
  unfold Ends
  rw [h, execHufDecode]
  cases hr : s.hroot with
  | none => exact .inl ⟨_, rfl, .inl ⟨rfl, rfl⟩⟩
  | some r =>
    simp only
    rcases hw : hufWalk s r (bitPos s) with ⟨_ | v, p⟩
    · exact .inl ⟨_, rfl, .inr ⟨r, rfl, by rw [hw]⟩⟩
    · exact .inl ⟨_, rfl, .inr ⟨r, rfl, by rw [hw]⟩⟩

/-! ### RLE0 -/

theorem rle0Compress_ends (s : State) : Ends .rle0Compress s
    (fun t => ∃ l, l = rleEncode 0 (inputBytes s) ∧ t = setRes0 l.length (appended l { s with outLen := 0 }) ∧
      l.length ≤ s.cfg.bufCap)
    (fun e i u => ∃ l, l = rleEncode 0 (inputBytes s) ∧ e = .capacity ∧ i = s.cfg.bufCap ∧
      u = appended (l.take s.cfg.bufCap) { s with outLen := 0 } ∧ s.cfg.bufCap < l.length) := by
  have h : exec .rle0Compress s = finish (encode .rle0Compress) (rle0Compress s) := rfl
  unfold Ends
  rw [h, rle0Compress_eq]
  split_ifs with h1
  · exact .inl ⟨_, rfl, _, rfl, rfl, h1⟩
  · exact .inr ⟨_, _, _, rfl, _, rfl, rfl, rfl, rfl, by omega⟩

theorem rle0Decompress_ends (s : State) : Ends .rle0Decompress s
    (fun t => ∃ l, rleDecode (inputBytes s) = (l, false) ∧
      t = setRes0 l.length (appended l { s with outLen := 0 }) ∧ l.length ≤ s.cfg.bufCap)
    (fun e i u => (∃ l, rleDecode (inputBytes s) = (l, true) ∧ e = .unexpectedEnd ∧ i = s.inLen ∧
        u = appended l { s with outLen := 0 } ∧ l.length ≤ s.cfg.bufCap) ∨
      ∃ l, l = (rleDecode (inputBytes s)).1 ∧ e = .capacity ∧ i = s.cfg.bufCap ∧
        u = appended (l.take s.cfg.bufCap) { s with outLen := 0 } ∧ s.cfg.bufCap < l.length) := by
  have h : exec .rle0Decompress s = finish (encode .rle0Decompress) (rle0Decompress s) := rfl
  unfold Ends
  rw [h, rle0Decompress_eq]
  split_ifs with h1 h2
  · exact .inr ⟨_, _, _, rfl, .inl ⟨_, Prod.ext rfl h2, rfl, rfl, rfl, h1⟩⟩
  · exact .inl ⟨_, rfl, _, Prod.ext rfl (by simpa using h2), rfl, h1⟩
  · exact .inr ⟨_, _, _, rfl, .inr ⟨_, rfl, rfl, rfl, rfl, by omega⟩⟩

end Sys2Proof.Machine
end

