-- ==== Sys2Proof/Laws/Flat.lean ====
section
/-! SUPPORT. The flat view of the dictionary (R187) over the trie: entries, leaf entries, priorities. -/

namespace Sys2Proof.Machine

theorem mem_flat {d : Dict} (h : trieWf d.roots = true) (i q : Nat) (u : List Byte) : (i, u, q) ∈ flat d ↔ entryAt d.roots u = some (i, q) :=
  mem_entries_root h i q u

theorem leafEntry_iff {d : Dict} (h : trieWf d.roots = true) (f r : Nat) (v : List Byte) : leafEntry d f v r ↔ isLeafEntry d.roots v f r := by
  unfold leafEntry isLeafEntry
  rw [mem_flat h]
  constructor
  · rintro ⟨a, b⟩
    refine ⟨a, fun z hz => ?_⟩
    cases he : entryAt d.roots (v ++ z) with
    | none => rfl
    | some e =>
      have := b (e.1, v ++ z, e.2) ((mem_flat h _ _ _).2 he) (List.prefix_append _ _)
      simp at this; exact absurd this hz
  · rintro ⟨a, b⟩
    refine ⟨a, ?_⟩
    rintro ⟨i, u, q⟩ he ⟨z, rfl⟩
    rw [mem_flat h] at he
    by_cases hz : z = []
    · simp [hz]
    · rw [b z hz] at he; cases he

theorem entryAt_prio_unique {t : Trie} (ht : trieWf t = true) (hn : (prios t).Nodup) {u v : List Byte} {i j q : Nat}
    (hu : entryAt t u = some (i, q)) (hv : entryAt t v = some (j, q)) : u = v ∧ i = j := by
  induction t generalizing u v with
  | nil => cases hu
  | node off label index prio children next ihc ihn =>
    have hw := trieWf_node.1 ht
    simp only [prios, List.cons_append, List.nodup_cons, List.nodup_append, List.mem_append, not_or] at hn
    obtain ⟨⟨n1, n1'⟩, n2, n4, n5⟩ := hn
    rcases entryAt_node_cases ht hu with ⟨a1, a2, a3⟩ | ⟨x, x1, x2, x3⟩ | ⟨y1, y2, y3⟩ <;>
      rcases entryAt_node_cases ht hv with ⟨b1, b2, b3⟩ | ⟨z, z1, z2, z3⟩ | ⟨w1, w2, w3⟩
    · refine ⟨a1.trans b1.symm, ?_⟩; rw [a2] at b2; cases b2; rfl
    · exact absurd (mem_prios hw.2.2.2.1 z3) (a3 ▸ n1)
    · exact absurd (mem_prios hw.2.2.2.2 w3) (a3 ▸ n1')
    · exact absurd (mem_prios hw.2.2.2.1 x3) (b3 ▸ n1)
    · obtain ⟨rfl, h⟩ := ihc hw.2.2.2.1 n2 x3 z3
      exact ⟨x2.trans z2.symm, h⟩
    · exact absurd rfl (n5 _ (mem_prios hw.2.2.2.1 x3) _ (mem_prios hw.2.2.2.2 w3))
    · exact absurd (mem_prios hw.2.2.2.2 y3) (b3 ▸ n1')
    · exact absurd rfl (n5 _ (mem_prios hw.2.2.2.1 z3) _ (mem_prios hw.2.2.2.2 y3))
    · exact ihn hw.2.2.2.2 n4 y3 w3

end Sys2Proof.Machine
end

