-- ==== Sys2Proof/Laws/Merge.lean ====
section
/-! SUPPORT. `HUF.BUILD`'s working list and merges (R252, R254, R255): what inserting, sorting and merging do. -/

namespace Sys2Proof.Machine

/-- The weight claims use is the weight the merge uses. -/
theorem nodeWeight_eq_hufFreq (t : HufTree) : nodeWeight t = hufFreq t := by cases t <;> rfl

/-- Where an insert puts a node (R255): behind every node that is no heavier, before every heavier one. -/
theorem insertByFreq_split (t : HufTree) (l : List HufTree) (hs : l.Pairwise fun x y => nodeWeight x ≤ nodeWeight y) :
   ∃ a b, l = a ++ b ∧ insertByFreq t l = a ++ t :: b ∧ (∀ u ∈ a, nodeWeight u ≤ nodeWeight t) ∧ ∀ u ∈ b, nodeWeight t < nodeWeight u := by
  induction l with
  | nil => exact ⟨[], [], rfl, rfl, by simp, by simp⟩
  | cons u us ih =>
    rw [List.pairwise_cons] at hs
    rw [insertByFreq]
    split_ifs with h
    · obtain ⟨a, b, rfl, h2, h3, h4⟩ := ih hs.2
      refine ⟨u :: a, b, rfl, by rw [h2]; rfl, ?_, h4⟩
      intro v hv; rw [List.mem_cons] at hv
      rcases hv with rfl | hv
      · rw [nodeWeight_eq_hufFreq, nodeWeight_eq_hufFreq]; exact h
      · exact h3 v hv
    · refine ⟨[], u :: us, rfl, rfl, by simp, ?_⟩
      intro v hv; rw [List.mem_cons] at hv
      rw [← nodeWeight_eq_hufFreq, ← nodeWeight_eq_hufFreq] at h
      rcases hv with rfl | hv
      · omega
      · have := hs.1 v hv; omega

/-- An insert keeps the list in rising weight. -/
theorem insertByFreq_sorted (t : HufTree) (l : List HufTree) (hs : l.Pairwise fun x y => nodeWeight x ≤ nodeWeight y) :
   (insertByFreq t l).Pairwise fun x y => nodeWeight x ≤ nodeWeight y := by
  obtain ⟨a, b, rfl, h2, h3, h4⟩ := insertByFreq_split t l hs
  rw [h2]
  rw [List.pairwise_append] at hs ⊢
  refine ⟨hs.1, List.pairwise_cons.2 ⟨fun v hv => (h4 v hv).le, hs.2.1⟩, ?_⟩
  intro x hx y hy
  rw [List.mem_cons] at hy
  rcases hy with rfl | hy
  · exact h3 x hx
  · exact hs.2.2 x hx y hy

/-- An insert puts a node last among those of its weight. -/
theorem insertByFreq_filter (t : HufTree) (l : List HufTree) (hs : l.Pairwise fun x y => nodeWeight x ≤ nodeWeight y) (w : Nat) :
   (insertByFreq t l).filter (fun x => nodeWeight x == w) = l.filter (fun x => nodeWeight x == w) ++ [t].filter (fun x => nodeWeight x == w) := by
  obtain ⟨a, b, rfl, h2, h3, h4⟩ := insertByFreq_split t l hs
  rw [h2]
  simp only [List.filter_append, List.filter_cons, List.filter_nil, List.append_assoc]
  congr 1
  by_cases h : nodeWeight t = w
  · have : b.filter (fun x => nodeWeight x == w) = [] := by
      rw [List.filter_eq_nil_iff]; intro u hu; have := h4 u hu; simp; omega
    simp [h, this]
  · simp [h]

/-- The working list is the sequence of leaves, stably sorted (R254). -/
theorem sortByFreq_stable (seq : List HufTree) : stablySorted seq (sortByFreq seq) := by
  suffices H : ∀ (seq acc : List HufTree), acc.Pairwise (fun x y => nodeWeight x ≤ nodeWeight y) →
      (seq.foldl (fun acc t => insertByFreq t acc) acc).Pairwise (fun x y => nodeWeight x ≤ nodeWeight y) ∧
      ∀ w, (seq.foldl (fun acc t => insertByFreq t acc) acc).filter (fun x => nodeWeight x == w) = (acc ++ seq).filter (fun x => nodeWeight x == w) by
    exact H seq [] List.Pairwise.nil
  intro seq
  induction seq with
  | nil => intro acc h; exact ⟨h, by simp⟩
  | cons t ts ih =>
    intro acc h
    obtain ⟨h1, h2⟩ := ih _ (insertByFreq_sorted t acc h)
    refine ⟨h1, fun w => ?_⟩
    rw [List.foldl_cons, h2, List.filter_append, insertByFreq_filter t acc h]
    simp [List.filter_append, List.filter_cons]
    split <;> simp

/-- The loop of R255 merges the two lowest until one node is left. -/
theorem mergeAll_mergesTo (n : Nat) : ∀ l : List HufTree, l.length ≤ n → l.Pairwise (fun x y => nodeWeight x ≤ nodeWeight y) → MergesTo l (mergeAll n l) := by
  induction n with
  | zero => intro l h _; have : l = [] := List.length_eq_zero_iff.1 (by omega); subst this; exact .empty
  | succ n ih =>
    intro l h hs
    match l, h, hs with
    | [], _, _ => exact .empty
    | [t], _, _ => exact .root t
    | x :: y :: rest, h, hs =>
      rw [mergeAll]
      rw [List.pairwise_cons, List.pairwise_cons] at hs
      obtain ⟨a, b, h1, h2, h3, h4⟩ := insertByFreq_split (.inner (hufFreq x + hufFreq y) x y) rest hs.2.2
      refine .merge ⟨x, y, a, b, by rw [h1], ?_, ?_, ?_⟩ (ih _ ?_ (insertByFreq_sorted _ _ hs.2.2))
      · rw [h2, nodeWeight_eq_hufFreq, nodeWeight_eq_hufFreq]
      · intro u hu; have := h3 u hu; rwa [show nodeWeight (.inner (hufFreq x + hufFreq y) x y) = hufFreq x + hufFreq y from rfl, ← nodeWeight_eq_hufFreq x, ← nodeWeight_eq_hufFreq y] at this
      · intro u hu; have := h4 u hu; rwa [show nodeWeight (.inner (hufFreq x + hufFreq y) x y) = hufFreq x + hufFreq y from rfl, ← nodeWeight_eq_hufFreq x, ← nodeWeight_eq_hufFreq y] at this
      · rw [insertByFreq_length]; simp at h; omega

/-- The leaves of the counted bytes, in rising order (R252). -/
theorem byteLeaves_eq (f : List (Nat × Word)) (b n : Nat) : byteLeaves f b n = ((List.range' b n).filter fun b => decide (freqRead f b ≠ 0)).map fun b => HufTree.leaf b ((freqRead f b).toNat * ((freqRead f b).toNat + 1)) := by
  induction n generalizing b with
  | zero => rfl
  | succ n ih =>
    rw [byteLeaves, List.range'_succ, List.filter_cons]
    have : (freqRead f b).toNat = 0 ↔ freqRead f b = 0 := by
      constructor
      · intro h; apply BitVec.eq_of_toNat_eq; simpa using h
      · intro h; rw [h]; rfl
    by_cases h : freqRead f b = 0
    · have e : decide (freqRead f b ≠ 0) = false := by simp [h]
      rw [e]; simp only [if_pos (this.2 h), Bool.false_eq_true, if_false]; exact ih _
    · have e : decide (freqRead f b ≠ 0) = true := decide_eq_true h
      rw [e]; simp only [if_neg (fun x => h (this.1 x)), if_true]; rw [ih, List.map_cons]

/-- The extra symbols in their order. -/
theorem xsymValues_eq (x : WordBuf) (i n : Nat) : xsymValues x i n = (List.range' i n).map fun i => (wordRead x i).toNat := by
  induction n generalizing i with
  | zero => rfl
  | succ n ih => rw [xsymValues, List.range'_succ, List.map_cons, ih]

/-- The working list `HUF.BUILD` starts from, as a function of `FREQ`, `XSYM` and `HUF_NX` (R252, R254). -/
theorem hufLeaves_eq (s : State) : hufLeaves s = sortByFreq ((((List.range 256).filter fun b => decide (freqRead s.freq b ≠ 0)).map fun b =>
            .leaf b ((freqRead s.freq b).toNat * ((freqRead s.freq b).toNat + 1))) ++
          ((List.range s.hufNx.toNat).map fun i => .leaf (wordRead s.xsym i).toNat ((wordRead s.xsym i).toNat ^ 2))) := by
  unfold hufLeaves
  rw [byteLeaves_eq, xsymValues_eq, List.range_eq_range', List.range_eq_range', List.map_map]
  congr 2
  apply List.map_congr_left; intro i _; simp [pow_two]

end Sys2Proof.Machine
end

