-- ==== Sys2Proof/Laws/PerInstr.lean ====
section
/-! SUPPORT. The fields of every command word, one lemma per command (R80 to R83). -/

namespace Sys2Proof.Laws

/-- What the word of a well-formed command holds: its opcode in bits 31:24, its immediate in bits 7:0,
zeros between. -/
def OpcodeField.Statement (i : Instr) : Prop :=
  i.wellFormed = true →
    opcodeOf (encode i) = opcode i ∧ (encode i).extractLsb' 8 16 = 0#16 ∧ immOf (encode i) = immediate i

/-- The fields of a word put together as the encoder does. -/
theorem fields_of_word (op imm : Nat) (ho : op < 256) (hi : imm < 256) :
    opcodeOf (BitVec.ofNat 8 op ++ 0#16 ++ BitVec.ofNat 8 imm) = op ∧
    (BitVec.ofNat 8 op ++ 0#16 ++ BitVec.ofNat 8 imm).extractLsb' 8 16 = 0#16 ∧
    immOf (BitVec.ofNat 8 op ++ 0#16 ++ BitVec.ofNat 8 imm) = imm := by
  have e : (BitVec.ofNat 8 op ++ 0#16 ++ BitVec.ofNat 8 imm).toNat = op * 2 ^ 24 + imm := by
    simp only [BitVec.toNat_append, BitVec.toNat_ofNat]
    rw [← Nat.shiftLeft_add_eq_or_of_lt (by omega), ← Nat.shiftLeft_add_eq_or_of_lt (by omega)]
    simp only [Nat.shiftLeft_eq]
    omega
  refine ⟨?_, BitVec.eq_of_toNat_eq ?_, ?_⟩ <;>
    simp only [opcodeOf, immOf, BitVec.extractLsb'_toNat, e, Nat.shiftRight_eq_div_pow, BitVec.toNat_ofNat] <;> omega

theorem OpcodeField.sysNop : OpcodeField.Statement .sysNop := fun _ => fields_of_word _ _ (by decide) (by decide)

theorem OpcodeField.sysClrerr : OpcodeField.Statement .sysClrerr := fun _ => fields_of_word _ _ (by decide) (by decide)

theorem OpcodeField.sysReset : OpcodeField.Statement .sysReset := fun _ => fields_of_word _ _ (by decide) (by decide)

theorem OpcodeField.sysXchg : OpcodeField.Statement .sysXchg := fun _ => fields_of_word _ _ (by decide) (by decide)

theorem OpcodeField.bsClear : OpcodeField.Statement .bsClear := fun _ => fields_of_word _ _ (by decide) (by decide)

theorem OpcodeField.bsGetpos : OpcodeField.Statement .bsGetpos := fun _ => fields_of_word _ _ (by decide) (by decide)

theorem OpcodeField.bsSetpos : OpcodeField.Statement .bsSetpos := fun _ => fields_of_word _ _ (by decide) (by decide)

theorem OpcodeField.bsRead (n : Nat) : OpcodeField.Statement (.bsRead n) := fun h =>
  fields_of_word _ _ (by simp [opcode]) (by simpa [immediate, Instr.wellFormed, Instr.immFits] using h)

theorem OpcodeField.bsPeek (n : Nat) : OpcodeField.Statement (.bsPeek n) := fun h =>
  fields_of_word _ _ (by simp [opcode]) (by simpa [immediate, Instr.wellFormed, Instr.immFits] using h)

theorem OpcodeField.bsWrite (n : Nat) : OpcodeField.Statement (.bsWrite n) := fun h =>
  fields_of_word _ _ (by simp [opcode]) (by simpa [immediate, Instr.wellFormed, Instr.immFits] using h)

theorem OpcodeField.bsAlign : OpcodeField.Statement .bsAlign := fun _ => fields_of_word _ _ (by decide) (by decide)

theorem OpcodeField.bsReadbyte : OpcodeField.Statement .bsReadbyte := fun _ => fields_of_word _ _ (by decide) (by decide)

theorem OpcodeField.bsWritebyte : OpcodeField.Statement .bsWritebyte := fun _ => fields_of_word _ _ (by decide) (by decide)

theorem OpcodeField.dictClear (sel : Nat) : OpcodeField.Statement (.dictClear sel) := fun h =>
  fields_of_word _ _ (by simp [opcode]) (by simpa [immediate, Instr.wellFormed, Instr.immFits] using h)

theorem OpcodeField.dictInsert : OpcodeField.Statement .dictInsert := fun _ => fields_of_word _ _ (by decide) (by decide)

theorem OpcodeField.dictFind : OpcodeField.Statement .dictFind := fun _ => fields_of_word _ _ (by decide) (by decide)

theorem OpcodeField.dictFree : OpcodeField.Statement .dictFree := fun _ => fields_of_word _ _ (by decide) (by decide)

theorem OpcodeField.pyrCompress : OpcodeField.Statement .pyrCompress := fun _ => fields_of_word _ _ (by decide) (by decide)

theorem OpcodeField.pyrExpand : OpcodeField.Statement .pyrExpand := fun _ => fields_of_word _ _ (by decide) (by decide)

theorem OpcodeField.pyrMatchdec : OpcodeField.Statement .pyrMatchdec := fun _ => fields_of_word _ _ (by decide) (by decide)

theorem OpcodeField.hufBuild : OpcodeField.Statement .hufBuild := fun _ => fields_of_word _ _ (by decide) (by decide)

theorem OpcodeField.hufEncode : OpcodeField.Statement .hufEncode := fun _ => fields_of_word _ _ (by decide) (by decide)

theorem OpcodeField.hufDecode : OpcodeField.Statement .hufDecode := fun _ => fields_of_word _ _ (by decide) (by decide)

theorem OpcodeField.rle0Compress : OpcodeField.Statement .rle0Compress := fun _ => fields_of_word _ _ (by decide) (by decide)

theorem OpcodeField.rle0Decompress : OpcodeField.Statement .rle0Decompress := fun _ => fields_of_word _ _ (by decide) (by decide)

end Sys2Proof.Laws
end

