-- ==== Sys2Proof/Laws/Rle.lean ====
section
/-! SUPPORT. The `RLE0` encoder and decoder as functions of byte strings (R120, R280, R281). -/

namespace Sys2Proof.Machine

theorem rleEncode_zeros (n r : Nat) (l : List Byte) : rleEncode r (List.replicate n 0#8 ++ l) = rleEncode (r + n) l := by
  induction n generalizing r with
  | zero => rfl
  | succ n ih => rw [List.replicate_succ, List.cons_append, rleEncode, if_pos rfl, ih]; congr 1; omega

theorem rleEncode_runs (runs : List (Nat × Byte)) (z : Nat) (h : ∀ p ∈ runs, p.2 ≠ 0) :
    rleEncode 0 ((runs.map fun p => List.replicate p.1 0#8 ++ [p.2]).flatten ++ List.replicate z 0#8) =
    (runs.map fun p => zeroPairs p.1 ++ [p.2]).flatten ++ zeroPairs z := by
  induction runs with
  | nil =>
    have := rleEncode_zeros z 0 []
    simp only [List.append_nil, Nat.zero_add] at this
    simp [this, rleEncode]
  | cons p runs ih =>
    simp only [List.map_cons, List.flatten_cons, List.append_assoc, List.cons_append, List.nil_append]
    rw [rleEncode_zeros, rleEncode, if_neg (show ¬ p.2 = 0#8 from h p (by simp)), Nat.zero_add, ih fun q hq => h q (by simp [hq])]

theorem rleDecode_cons {b : Byte} (h : b ≠ 0#8) (l : List Byte) : rleDecode (b :: l) = (b :: (rleDecode l).1, (rleDecode l).2) := by
  cases l with
  | nil => show rleDecode [b] = ([b], false); simp [rleDecode, h]
  | cons c l => rw [rleDecode, if_neg h]

theorem rleDecode_items (items : List (Byte ⊕ Byte)) (rest : List Byte) (h : ∀ b, .inl b ∈ items → b ≠ 0) :
    rleDecode ((items.map fun x => match x with | .inl b => [b] | .inr n => [0#8, n]).flatten ++ rest) =
     ((items.map fun x => match x with | .inl b => [b] | .inr n => List.replicate (n.toNat + 1) 0#8).flatten ++ (rleDecode rest).1, (rleDecode rest).2) := by
  induction items with
  | nil => rfl
  | cons x items ih =>
    have ih := ih fun b hb => h b (by simp [hb])
    cases x with
    | inl b =>
      have hb := h b (by simp)
      simp only [List.map_cons, List.flatten_cons, List.cons_append, List.nil_append]
      rw [rleDecode_cons hb]
      rw [ih]
    | inr n =>
      simp only [List.map_cons, List.flatten_cons, List.append_assoc, List.cons_append, List.nil_append]
      rw [rleDecode, if_pos rfl, ih]

theorem rleDecode_chunks (k : Nat) (rest : List Byte) : rleDecode ((List.replicate k [0#8, 255#8]).flatten ++ rest) = (List.replicate (256 * k) 0#8 ++ (rleDecode rest).1, (rleDecode rest).2) := by
  induction k with
  | zero => rfl
  | succ k ih =>
    simp only [List.replicate_succ, List.flatten_cons, List.cons_append, List.nil_append]
    rw [rleDecode, if_pos rfl, ih]
    simp only
    rw [show (255#8).toNat + 1 = 256 from rfl, ← List.append_assoc, List.replicate_append_replicate]
    rw [show 256 + 256 * k = 256 * (k + 1) by omega]

theorem rleDecode_zeroPairs (r : Nat) (rest : List Byte) : rleDecode (zeroPairs r ++ rest) = (List.replicate r 0#8 ++ (rleDecode rest).1, (rleDecode rest).2) := by
  unfold zeroPairs
  rw [List.append_assoc, rleDecode_chunks]
  split_ifs with h
  · simp only [List.nil_append]; rw [show 256 * (r / 256) = r by omega]
  · simp only [List.cons_append, List.nil_append]
    rw [rleDecode, if_pos rfl]
    simp only
    rw [← List.append_assoc, List.replicate_append_replicate]
    rw [show (BitVec.ofNat 8 (r % 256 - 1)).toNat + 1 = r % 256 by simp; omega, show 256 * (r / 256) + r % 256 = r by omega]

end Sys2Proof.Machine
end

