-- ==== Sys2Proof/Laws/Step.lean ====
section
/-! SUPPORT. What one step can do (R61, R80, R311, R340), said once, for properties that every step keeps. -/

namespace Sys2Proof.Machine

/-- A host access that completes had a cell, and leaves the state it was to leave. -/
theorem atCell_next {size a : Nat} {t u : State} (h : atCell size a t = .next u) : a < size ∧ t = u := by
  unfold atCell at h
  split at h
  · cases h; exact ⟨‹_›, rfl⟩
  · cases h

/-- A property of states that the host moves, the commands an unlatched block accepts, an illegal word and a
reset keep is kept by every step. -/
theorem step_keeps {P : State → Prop} (s t : State)
   (hpend : ∀ s, P s → ∀ r, P { s with pending := r })
   (hreply : ∀ s, P s → ∀ r, P { s with reply := r })
   (hexec : ∀ i s t, P s → accepted (encode i) s = true → exec i s = .next t → P t)
   (hill : ∀ w s, P s → latched s = false → P (raise .illegalCommand w.toNat w s))
   (hreg : ∀ n v s, P s → P (writeReg n v s))
   (hb : ∀ sp a v s, P s → a < s.cfg.bufCap → P (hostByteWrite sp a v s))
   (hw : ∀ sp a v s, P s → a < wordSpaceSize sp s → P (hostWordWrite sp a v s))
   (hreset : ∀ s, P s → P (resetBlock s))
   (enc : ∀ w i, commandOf w = some i → encode i = w)
   (hP : P s) (h : step s = .next t) : P t := by
  unfold step hostStep at h
  split at h
  · cases h; exact hP
  · rename_i m rest hp
    have h0 := hpend s hP rest
    generalize { s with pending := rest } = s0 at h h0
    cases m <;> simp only [hostMove] at h
    case regWrite n v =>
      split at h
      · unfold issue at h
        split at h
        · rename_i hacc
          split at h
          · rename_i i hi
            exact hexec i _ _ h0 (by rw [enc _ _ hi]; exact hacc) h
          · cases h
            by_cases hl : latched s0 = false
            · exact hill _ _ h0 hl
            · rename_i hc
              unfold accepted at hacc
              simp [latched] at hl
              exfalso
              by_cases hh : s0.halt = true
              · simp [hh] at hacc
              · have he : s0.err = true := by
                  cases h' : s0.err; exact absurd (hl h') hh; rfl
                simp [hh, he] at hacc
                rcases hacc with rfl | rfl <;> cases hc
        · cases h; exact h0
      · cases h; exact hreg _ _ _ h0
    case regRead n => cases h; exact hreply _ h0 _
    case byteWrite sp a v =>
      split at h
      · cases h; exact h0
      · obtain ⟨ha, rfl⟩ := atCell_next h; exact hb _ _ _ _ h0 ha
    case byteRead sp a => obtain ⟨-, rfl⟩ := atCell_next h; exact hreply _ h0 _
    case wordWrite sp a v =>
      split at h
      · cases h; exact h0
      · obtain ⟨ha, rfl⟩ := atCell_next h; exact hw _ _ _ _ h0 ha
    case wordRead sp a => obtain ⟨-, rfl⟩ := atCell_next h; exact hreply _ h0 _
    case hcodeWrite sym v => cases h; exact h0
    case hcodeRead sym => cases h; exact hreply _ h0 _
    case hardReset => cases h; exact hreset _ h0

end Sys2Proof.Machine
end

