-- ==== Sys2Proof/Laws/Windows.lean ====
section
/-! SUPPORT. The windows of the labels (R153, R352): every operation on the trie keeps them inside an
occurrence of the whole path. -/

namespace Sys2Proof.Machine

/-- `windowsCoherent`, as a proposition. -/
def windowsIn (buf : ByteBuf) (len : Nat) (path : List Byte) (t : Trie) : Prop := windowsCoherent buf len path t = true

theorem windowsIn_fields {buf len path off label index prio children next} : windowsIn buf len path (.node off label index prio children next) ↔
   path.length ≤ off ∧ off + label.length ≤ len ∧ slice buf (off - path.length) (path.length + label.length) = path ++ label ∧ windowsIn buf len (path ++ label) children ∧ windowsIn buf len path next := by
  simp only [windowsIn, windowsCoherent, Bool.and_eq_true, decide_eq_true_eq]; tauto

theorem windowsIn_nil {buf len path} : windowsIn buf len path .nil := rfl

/-- The string `s` stands in `DATA` at `soff`, right after an occurrence of `path`. -/
def standsAt (buf : ByteBuf) (len : Nat) (path : List Byte) (soff : Nat) (s : List Byte) : Prop :=
  path.length ≤ soff ∧ soff + s.length ≤ len ∧ slice buf (soff - path.length) (path.length + s.length) = path ++ s

theorem standsAt_front {buf len path soff a b} (h : standsAt buf len path soff (a ++ b)) : standsAt buf len path soff a := by
  obtain ⟨h1, h2, h3⟩ := h
  rw [List.length_append] at h2 h3
  refine ⟨h1, by omega, ?_⟩
  have := congrArg (List.take (path.length + a.length)) h3
  rw [slice_take _ _ _ _ (by omega)] at this
  rw [this, ← List.append_assoc, List.take_left' (by simp)]

theorem standsAt_back {buf len path soff a b} (h : standsAt buf len path soff (a ++ b)) : standsAt buf len (path ++ a) (soff + a.length) b := by
  obtain ⟨h1, h2, h3⟩ := h
  rw [List.length_append] at h2 h3
  refine ⟨by rw [List.length_append]; omega, by omega, ?_⟩
  rw [List.length_append, show soff + a.length - (path.length + a.length) = soff - path.length by omega, show path.length + a.length + b.length = path.length + (a.length + b.length) by omega, h3, List.append_assoc]

theorem standsAt_join {buf len path off a b} (h : standsAt buf len (path ++ a) off b) : standsAt buf len path (off - a.length) (a ++ b) := by
  obtain ⟨h1, h2, h3⟩ := h
  rw [List.length_append] at h1 h3
  refine ⟨by omega, by rw [List.length_append]; omega, ?_⟩
  rw [List.length_append, show off - a.length - path.length = off - (path.length + a.length) by omega, show path.length + (a.length + b.length) = path.length + a.length + b.length by omega, h3, List.append_assoc]

theorem windowsIn_node {buf len path off label index prio children next} : windowsIn buf len path (.node off label index prio children next) ↔
   standsAt buf len path off label ∧ windowsIn buf len (path ++ label) children ∧ windowsIn buf len path next := by
  rw [windowsIn_fields]; unfold standsAt; tauto

theorem windowsIn_touchWalk {buf len} (t : Trie) : ∀ path s p, windowsIn buf len path t → windowsIn buf len path (touchWalk t s p).1 := by
  induction t with
  | nil => intro path s p h; exact h
  | node off label index prio children next ihc ihn =>
    intro path s p h
    rw [windowsIn_node] at h
    simp only [touchWalk]
    split_ifs
    · exact windowsIn_node.2 h
    · exact windowsIn_node.2 ⟨h.1, ihc _ _ _ h.2.1, h.2.2⟩
    · exact windowsIn_node.2 h
    · exact windowsIn_node.2 ⟨h.1, h.2.1, ihn _ _ _ h.2.2⟩

theorem windowsIn_place {buf len} (t : Trie) (soff : Nat) (s : List Byte) (idx p : Nat) (ht : trieWf t = true) (hs : s ≠ []) :
   ∀ path, windowsIn buf len path t → standsAt buf len path soff s → windowsIn buf len path (place t soff s idx p).1 := by
  refine place_induction (P := fun t soff s _ t' _ => ∀ path, windowsIn buf len path t → standsAt buf len path soff s → windowsIn buf len path t') ?_ ?_ ?_ ?_ ?_ ?_ ?_ ?_ t soff s p ht hs
  · intro soff s p _ path h ha; exact windowsIn_node.2 ⟨ha, windowsIn_nil, windowsIn_nil⟩
  · intro off label index prio children next soff p _ path h ha
    rw [windowsIn_node] at h ⊢; exact h
  · intro off label index prio children next soff r p ch p' _ _ ih path h ha
    rw [windowsIn_node] at h ⊢
    exact ⟨h.1, ih _ h.2.1 (standsAt_back ha), h.2.2⟩
  · intro off m l' index prio children next soff p _ _ _ path h ha
    rw [windowsIn_node] at h
    refine windowsIn_node.2 ⟨standsAt_front h.1, windowsIn_node.2 ⟨standsAt_back h.1, by rw [List.append_assoc]; exact h.2.1, windowsIn_nil⟩, h.2.2⟩
  · intro off m l' s' index prio children next soff p _ _ _ _ _ path h ha
    rw [windowsIn_node] at h
    refine windowsIn_node.2 ⟨standsAt_front h.1, windowsIn_node.2 ⟨standsAt_back h.1, by rw [List.append_assoc]; exact h.2.1, windowsIn_node.2 ⟨standsAt_back ha, windowsIn_nil, windowsIn_nil⟩⟩, h.2.2⟩
  · intro off m l' s' index prio children next soff p _ _ _ _ _ path h ha
    rw [windowsIn_node] at h
    refine windowsIn_node.2 ⟨standsAt_front h.1, windowsIn_node.2 ⟨standsAt_back ha, windowsIn_nil, windowsIn_node.2 ⟨standsAt_back h.1, by rw [List.append_assoc]; exact h.2.1, windowsIn_nil⟩⟩, h.2.2⟩
  · intro off label index prio children next soff s p nx p' _ _ _ ih path h ha
    rw [windowsIn_node] at h ⊢
    exact ⟨h.1, h.2.1, ih _ h.2.2 ha⟩
  · intro off label index prio children next soff s p _ _ _ path h ha
    exact windowsIn_node.2 ⟨ha, windowsIn_nil, h⟩

theorem windowsIn_normalise {buf len path off label index prio children next} (h : windowsIn buf len path (.node off label index prio children next)) :
   windowsIn buf len path (normalise off label index prio children next).1 := by
  cases index with
  | some i => have : normalise off label (some i) prio children next = (.node off label (some i) prio children next, false) := by cases children <;> rfl
              rw [this]; exact h
  | none =>
    rw [windowsIn_node] at h
    cases children with
    | nil => exact h.2.2
    | node o l i p c n =>
      cases n with
      | node => exact windowsIn_node.2 h
      | nil =>
        simp only [normalise]
        have h2 := windowsIn_node.1 h.2.1
        exact windowsIn_node.2 ⟨standsAt_join h2.1, by rw [← List.append_assoc]; exact h2.2.1, h.2.2⟩

theorem windowsIn_removeLeaf {buf len} (f : Nat) (t : Trie) : ∀ path, windowsIn buf len path t → windowsIn buf len path (removeLeaf f t).1 := by
  induction t with
  | nil => intro path h; exact h
  | node off label index prio children next ihc ihn =>
    intro path h
    have h' := windowsIn_node.1 h
    simp only [removeLeaf]
    split_ifs
    · exact h'.2.2
    · exact windowsIn_normalise (windowsIn_node.2 ⟨h'.1, ihc _ h'.2.1, h'.2.2⟩)
    · exact windowsIn_node.2 ⟨h'.1, ihc _ h'.2.1, ihn _ h'.2.2⟩

theorem windowsIn_freeIndex {buf len path} {d : Dict} (h : windowsIn buf len path d.roots) : windowsIn buf len path (freeIndex d).1.roots := by
  unfold freeIndex
  cases victimIndex d.roots with
  | none => exact h
  | some f => exact windowsIn_removeLeaf _ _ _ h

theorem windowsIn_newIndex {buf len path cap} {d : Dict} (h : windowsIn buf len path d.roots) : windowsIn buf len path (newIndex cap d).1.roots := by
  unfold newIndex
  split_ifs <;> simp only
  all_goals (split_ifs; first | exact windowsIn_freeIndex h | exact h)
  all_goals (first | exact windowsIn_freeIndex h | exact h)

end Sys2Proof.Machine
end

