-- ==== Sys2Proof/Tests/Slice0.lean ====
section
/-! SUPPORT. The model's own tests. Expected values come from the spec: the encodings of R81 to R83, the
examples that stand in the command rules, and the vectors of 95_test_vectors.md (the row is named). -/

namespace Sys2Proof.Tests

set_option Elab.async false

open Sys2Proof.Machine

/-! ### Well-formedness: each check refuses an ill-formed term -/

theorem test_wf_refuses_wide_read_count : (Instr.bsRead 256).wellFormed = false := by decide
theorem test_wf_refuses_wide_peek_count : (Instr.bsPeek 256).wellFormed = false := by decide
theorem test_wf_refuses_wide_write_count : (Instr.bsWrite 1000).wellFormed = false := by decide
theorem test_wf_refuses_wide_selector : (Instr.dictClear 256).wellFormed = false := by decide
theorem test_wf_accepts_widest : (Instr.bsRead 255).wellFormed = true := by decide

/-! ### Decoding: words written out from R83 -/

theorem test_decode_sysNop : decode 0x00000000 = .ok .sysNop := by decide
theorem test_decode_sysClrerr : decode 0x01000000 = .ok .sysClrerr := by decide
theorem test_decode_sysReset : decode 0x02000000 = .ok .sysReset := by decide
theorem test_decode_sysXchg : decode 0x03000000 = .ok .sysXchg := by decide
theorem test_decode_bsClear : decode 0x10000000 = .ok .bsClear := by decide
theorem test_decode_bsGetpos : decode 0x11000000 = .ok .bsGetpos := by decide
theorem test_decode_bsSetpos : decode 0x12000000 = .ok .bsSetpos := by decide
theorem test_decode_bsRead : decode 0x1300000C = .ok (.bsRead 12) := by decide
theorem test_decode_bsPeek : decode 0x14000005 = .ok (.bsPeek 5) := by decide
theorem test_decode_bsWrite : decode 0x1500001F = .ok (.bsWrite 31) := by decide
theorem test_decode_bsAlign : decode 0x16000000 = .ok .bsAlign := by decide
theorem test_decode_bsReadbyte : decode 0x17000000 = .ok .bsReadbyte := by decide
theorem test_decode_bsWritebyte : decode 0x18000000 = .ok .bsWritebyte := by decide
theorem test_decode_dictClear : decode 0x20000001 = .ok (.dictClear 1) := by decide
theorem test_decode_dictInsert : decode 0x21000000 = .ok .dictInsert := by decide
theorem test_decode_dictFind : decode 0x22000000 = .ok .dictFind := by decide
theorem test_decode_dictFree : decode 0x23000000 = .ok .dictFree := by decide
theorem test_decode_pyrCompress : decode 0x30000000 = .ok .pyrCompress := by decide
theorem test_decode_pyrExpand : decode 0x31000000 = .ok .pyrExpand := by decide
theorem test_decode_pyrMatchdec : decode 0x32000000 = .ok .pyrMatchdec := by decide
theorem test_decode_hufBuild : decode 0x40000000 = .ok .hufBuild := by decide
theorem test_decode_hufEncode : decode 0x41000000 = .ok .hufEncode := by decide
theorem test_decode_hufDecode : decode 0x42000000 = .ok .hufDecode := by decide
theorem test_decode_rle0Compress : decode 0x50000000 = .ok .rle0Compress := by decide
theorem test_decode_rle0Decompress : decode 0x51000000 = .ok .rle0Decompress := by decide
/-- 95 section 7: a must-be-zero bit is tested before the count. -/
theorem test_decode_refuses_nonzero_mbz : decode 0x13000120 = .error .mustBeZero := by decide
/-- 95 program 5, variants. -/
theorem test_decode_refuses_unit_six : decode 0x60000000 = .error .unknownOpcode := by decide
theorem test_decode_refuses_unused_operation : decode 0x04000000 = .error .unknownOpcode := by decide
theorem test_decode_refuses_immediate_of_format_n : decode 0x00000001 = .error .mustBeZero := by decide

/-! ### Helpers -/

/-- The bytes of a string at addresses from `a` on. -/
def cellsAt (a : Nat) : List Byte → List Host.Cell
  | [] => []
  | v :: vs => (a, v) :: cellsAt (a + 1) vs

/-- A reset state with bytes in `IN`. -/
def withIn (l : List Byte) : State :=
  { State.reset with inb := { cells := cellsAt 0 l, seed := 0 }, inLen := l.length }

/-- A reset state with bytes in `BSB` and a bit position. -/
def withStream (l : List Byte) (pos : Nat) : State :=
  setPos pos { State.reset with bsb := { cells := cellsAt 0 l, seed := 2 }, bsLen := l.length }

/-- The state with register operands. -/
def withArgs (a b : Word) (s : State) : State := { s with arg0 := a, arg1 := b }

/-- The command ends in a next state of which `p` holds. -/
def answers (o : Host.Outcome State Fault Refusal) (p : State → Bool) : Bool :=
  match o with
  | .next t => p t
  | _ => false

/-- The command ends by latching an error: `STATUS` and `ERRINFO0` as given. -/
def raises (o : Host.Outcome State Fault Refusal) (status info : Word) : Bool :=
  answers o fun t => statusWord t == status && t.errInfo0 == info

/-! ### SYS -/

theorem test_sysNop_changes_nothing : answers (exec .sysNop State.reset) (fun t => t == State.reset) := by
  decide +kernel

/-- 95 program 5: refused in `HALT`. -/
theorem test_sysClrerr_refused_in_halt :
    answers (exec .sysClrerr { State.reset with halt := true, errCode := 1 }) (fun t => t.halt && t.errCode == 1) := by
  decide +kernel

/-- R291's example: `STATUS = 0x302` becomes 0, `ERRINFO0` stays. -/
theorem test_sysClrerr_clears :
    answers (exec .sysClrerr { State.reset with err := true, errCode := 3, errInfo0 := 1 })
      (fun t => statusWord t == 0 && t.errInfo0 == 1) := by
  decide +kernel

theorem test_sysReset_clears_error :
    answers (exec .sysReset { withIn [1] with err := true, errCode := 3, res0 := 7, dict := { Dict.empty .outSpace with prio := 4 } })
      (fun t => statusWord t == 0 && t.res0 == 0 && t.inLen == 0 && t.pyrT12 == none32 && t.dict.prio == 0) := by
  decide +kernel

/-- R293's example. -/
theorem test_sysXchg_swaps :
    answers (exec .sysXchg { withIn [0, 0, 0, 0, 0] with outb := { cells := cellsAt 0 [0, 4], seed := 1 }, outLen := 2 })
      (fun t => inputBytes t == [0, 4] && t.outLen == 5 && outputBytes t == [0, 0, 0, 0, 0]) := by
  decide +kernel

/-! ### BS (95 section 1) -/

theorem test_bsClear : answers (exec .bsClear (withStream [0xFF] 8)) (fun t => t.bsLen == 0 && bitPos t == 0) := by
  decide +kernel

/-- R132's example. -/
theorem test_bsGetpos :
    answers (exec .bsGetpos { State.reset with bsByte := 2, bsBit := 5 }) (fun t => t.res0 == 21) := by decide +kernel

/-- R133's example. -/
theorem test_bsSetpos :
    answers (exec .bsSetpos (withArgs 13 0 State.reset)) (fun t => t.bsByte == 1 && t.bsBit == 5) := by decide +kernel

/-- Row 1.21 at `BUF_CAP` = 2^28. -/
theorem test_bsSetpos_beyond : raises (exec .bsSetpos (withArgs 0x80000001 0 State.reset)) 0x104 0x80000001 := by
  decide +kernel

/-- Row 1.8. -/
theorem test_bsRead_spans_five_bytes :
    answers (exec (.bsRead 31) (withStream [0xDE, 0xAD, 0xBE, 0xEF, 0x55] 2))
      (fun t => t.res0 == 0x3D5B7DDE && bitPos t == 33) := by decide +kernel

/-- Row 1.10. -/
theorem test_bsRead_too_far : raises (exec (.bsRead 8) (withStream [0xDE, 0xAD, 0xBE, 0xEF, 0x55] 33)) 0x302 33 := by
  decide +kernel

/-- R135's example. -/
theorem test_bsPeek :
    answers (exec (.bsPeek 7) (withStream [0xA6, 0x5C] 3)) (fun t => t.res0 == 0x19 && bitPos t == 3) := by
  decide +kernel

/-- Row 1.18, for the peek. -/
theorem test_bsPeek_bad_count : raises (exec (.bsPeek 32) State.reset) 0x104 32 := by decide +kernel

/-- Row 1.7: zero fill up to the position. -/
theorem test_bsWrite_grows :
    answers (exec (.bsWrite 3) (withArgs 7 0 (withStream [] 20)))
      (fun t => streamBytes t == [0, 0, 0x0E] && bitPos t == 23) := by decide +kernel

/-- Row 1.5: the write is an OR. -/
theorem test_bsWrite_ors :
    answers (exec (.bsWrite 4) (withArgs 5 0 (withStream [0xF0] 0))) (fun t => streamBytes t == [0xF0] && bitPos t == 4) := by
  decide +kernel

/-- Row 1.15. -/
theorem test_bsAlign : answers (exec .bsAlign (withStream [0xA6] 3)) (fun t => bitPos t == 8 && t.bsLen == 1) := by
  decide +kernel

/-- Row 1.13. -/
theorem test_bsReadbyte :
    answers (exec .bsReadbyte (withStream [0xDE, 0xAD, 0xBE, 0xEF, 0x55] 25)) (fun t => t.res0 == 0x55 && bitPos t == 40) := by
  decide +kernel

/-- Row 1.12. -/
theorem test_bsReadbyte_too_far :
    raises (exec .bsReadbyte (withStream [0xDE, 0xAD, 0xBE, 0xEF, 0x55] 35)) 0x302 35 := by decide +kernel

/-- Row 1.16. -/
theorem test_bsWritebyte :
    answers (exec .bsWritebyte (withArgs 0x141 0 (withStream [0xA0] 3)))
      (fun t => streamBytes t == [0xA0, 0x41] && bitPos t == 16) := by decide +kernel

/-- Row 1.20, for the byte write. -/
theorem test_bsWritebyte_full :
    raises (exec .bsWritebyte { State.reset with bsByte := 2 ^ 28 }) 0x502 0x80000000 := by decide +kernel

/-! ### DICT (95 section 2) -/

theorem test_dictClear : answers (exec (.dictClear 1) State.reset) (fun t => dictCtlWord t.dict == 1) := by decide +kernel

/-- 95 program 5, last variant. -/
theorem test_dictClear_bad : raises (exec (.dictClear 2) State.reset) 0x104 2 := by decide +kernel

/-- Trace A after its first step: the root `abc` with index 0. -/
def traceA : State :=
  { withIn [0x61, 0x62, 0x63, 0x61, 0x62, 0x64] with
    dict := { Dict.empty .inSpace with
      roots := .node 0 [0x61, 0x62, 0x63] (some 0) 0 .nil .nil, count := 1, prio := 1 } }

/-- Trace A, step 2: the split. -/
theorem test_dictInsert_splits :
    answers (exec .dictInsert (withArgs 3 3 traceA))
      (fun t => t.res0 == 1 && t.dict.roots ==
        .node 0 [0x61, 0x62] none 1 (.node 2 [0x63] (some 0) 0 .nil (.node 5 [0x64] (some 1) 2 .nil .nil)) .nil) := by
  decide +kernel

/-- Trace A, step 9. -/
theorem test_dictInsert_past_end : raises (exec .dictInsert (withArgs 6 1 traceA)) 0x104 6 := by decide +kernel

/-- Trace A, step 4, on the trie of step 3. -/
theorem test_dictFind :
    answers (exec .dictFind (withArgs 3 0 { traceA with dict := { traceA.dict with
        roots := .node 0 [0x61, 0x62] (some 2) 3 (.node 2 [0x63] (some 0) 0 .nil (.node 5 [0x64] (some 1) 2 .nil .nil)) .nil,
        count := 3, prio := 4 } }))
      (fun t => t.res0 == 1 && t.res1 == 3 && t.dict.prio == 6) := by decide +kernel

/-- Trace A, step 6: the offset is `DLEN`. -/
theorem test_dictFind_at_end :
    answers (exec .dictFind (withArgs 6 0 traceA)) (fun t => t.res0 == 0xFFFFFFFF && t.res1 == 0 && t.dict == traceA.dict) := by
  decide +kernel

/-- Trace C, `CAP` = 3: the candidate `ab` is internal, so the leaf beneath it goes. -/
theorem test_dictFree_takes_the_leaf :
    answers (exec .dictFree { withIn [0x61, 0x62, 0x63, 0x78] with
        cfg := { Config.standard with cap := 3 }
        dict := { Dict.empty .inSpace with
          roots := .node 0 [0x61, 0x62] (some 0) 1 (.node 2 [0x63] (some 1) 2 .nil .nil)
            (.node 3 [0x78] (some 2) 3 .nil .nil)
          count := 3, prio := 4 } })
      (fun t => t.res0 == 1 && t.dict.count == 2 && dictCtlWord t.dict == 0x00010002) := by decide +kernel

/-- R180: not full. -/
theorem test_dictFree_not_full : raises (exec .dictFree traceA) 0x104 1 := by decide +kernel

/-! ### PYR (95 section 3) -/

/-- 3.1, the source's example. -/
theorem test_pyrCompress_AAAAAA :
    answers (exec .pyrCompress (withIn [0x41, 0x41, 0x41, 0x41, 0x41, 0x41]))
      (fun t => outputBytes t == [0x98, 0x41, 0x41, 0, 0] && t.res0 == 5 && t.res1 == 4 && t.dict.count == 3) := by
  decide +kernel

/-- 3.4, third row: widths 8, 12 and 16 within seven units, the pairing dropped at the change. -/
theorem test_pyrCompress_widths :
    answers (exec .pyrCompress { withIn (List.replicate 5 [0x61, 0x62, 0x63, 0x64]).flatten with cfg := { Config.standard with t12 := 2, t16 := 5, cap := 8 } })
      (fun t => outputBytes t == [0x87, 0x61, 0x62, 0x63, 0x64, 0, 0x20, 0, 6, 0, 2] && t.pyrT12 == 4 && t.pyrT16 == 5) := by
  decide +kernel

/-- 3.1. -/
theorem test_pyrExpand_AAAAAA :
    answers (exec .pyrExpand (withIn [0x98, 0x41, 0x41, 0, 0]))
      (fun t => outputBytes t == [0x41, 0x41, 0x41, 0x41, 0x41, 0x41] && t.res0 == 6 && t.res1 == 4) := by decide +kernel

/-- 3.7: an index not assigned yet. -/
theorem test_pyrExpand_bad_token :
    answers (exec .pyrExpand (withIn [0x98, 0x41, 0x41, 5]))
      (fun t => statusWord t == 0x402 && t.errInfo0 == 3 && t.outLen == 2 && t.unitLen == 2 && t.dict.count == 1) := by
  decide +kernel

/-- 3.5, second row: the self-overlapping copy. -/
theorem test_pyrMatchdec_overlap :
    answers (exec .pyrMatchdec (withArgs 6 0 (withIn [0x80, 0x41, 2, 1])))
      (fun t => outputBytes t == [0x41, 0x41, 0x41, 0x41, 0x41, 0x41] && t.res1 == 4) := by decide +kernel

/-- 3.5: offset 2 with one byte produced. -/
theorem test_pyrMatchdec_bad_offset :
    raises (exec .pyrMatchdec (withArgs 4 0 (withIn [0x80, 0x41, 0, 2]))) 0x402 2 := by decide +kernel

/-- 3.4: the Pyr stream of a list of units, the pairing of 12-bit fields across a literal. -/
theorem test_pyrStream_pairs :
    pyrStream [tokUnit 0x123 12, litUnit 0x41, tokUnit 0x456 12, tokUnit 0x789 12] =
      [0xD8, 0x12, 0x34, 0x41, 0x56, 0x78, 0x90] := by decide +kernel

/-- 3.4, third row: the pairing dropped at the change of width. -/
theorem test_pyrStream_widths :
    pyrStream [litUnit 0x61, litUnit 0x62, litUnit 0x63, litUnit 0x64, tokUnit 2 12, tokUnit 6 16, tokUnit 2 16] =
      [0x87, 0x61, 0x62, 0x63, 0x64, 0, 0x20, 0, 6, 0, 2] := by decide +kernel

/-- 3.3: one literal and 262 tokens. -/
theorem test_pyrStream_extension :
    (pyrStream (litUnit 0x41 :: List.replicate 262 (tokUnit 0 8))).take 4 = [0x71, 0xFF, 0, 0x41] := by decide +kernel

/-- 3.4, third row: the scan by `DICT` commands, each unit with the entries at its start. -/
theorem test_scanAll_widths :
    (scanAll { withIn (List.replicate 5 [0x61, 0x62, 0x63, 0x64]).flatten with cfg := { Config.standard with t12 := 2, t16 := 5, cap := 8 } }).map (fun q => q.1.take 6) =
      some [(litUnit 0x61, 0), (litUnit 0x62, 0), (litUnit 0x63, 1), (litUnit 0x64, 2), (tokUnit 2 12, 3), (tokUnit 6 16, 7)] := by
  decide +kernel

/-- R230's example: three literals and a match at the offset 3. -/
theorem test_decodeItems :
    decodeItems [.literal 0x41, .literal 0x42, .literal 0x43, .copy 0 3] = some [0x41, 0x42, 0x43, 0x41, 0x42, 0x43] := by
  decide +kernel

/-! ### HUF (95 section 6) -/

/-- Third row: the parent goes behind its equal. -/
theorem test_hufBuild_ties :
    answers (exec .hufBuild { State.reset with freq := [(97, 1), (98, 1), (99, 1)] })
      (fun t => t.hcode == [(97, [true, false]), (98, [true, true]), (99, [false])] && t.res0 == 3 && t.hufInfo == 0x80000003) := by
  decide +kernel

/-- A duplicate extra symbol. -/
theorem test_hufBuild_duplicate :
    raises (exec .hufBuild { State.reset with hufNx := 2, xsym := { cells := [(0, 300), (1, 300)], seed := 4 } }) 0x104 1 := by
  decide +kernel

/-- The tree of R251's example. -/
def treeABC : State :=
  { State.reset with
    hroot := some (.inner 20 (.inner 8 (.leaf 99 2) (.leaf 98 6)) (.leaf 97 12))
    hcode := [(97, [true]), (98, [false, true]), (99, [false, false])]
    hufInfo := 0x80000003 }

theorem test_hufEncode :
    answers (exec .hufEncode (withArgs 98 0 treeABC)) (fun t => streamBytes t == [0x40] && bitPos t == 2 && t.res0 == 2) := by
  decide +kernel

theorem test_hufEncode_no_code : raises (exec .hufEncode (withArgs 100 0 treeABC)) 0x104 100 := by decide +kernel

/-- R258's stream `B2 80` at position 1: the code `01`. -/
theorem test_hufDecode :
    answers (exec .hufDecode { treeABC with bsb := { cells := [(0, 0xB2), (1, 0x80)], seed := 2 }, bsLen := 2, bsBit := 1 })
      (fun t => t.res0 == 98 && t.res1 == 2 && bitPos t == 3) := by decide +kernel

/-- R259's tenth call: one bit, then exhausted. -/
theorem test_hufDecode_exhausted :
    answers (exec .hufDecode { treeABC with bsb := { cells := [(0, 0xB2), (1, 0x80)], seed := 2 }, bsLen := 2, bsByte := 1, bsBit := 7 })
      (fun t => t.res0 == 0xFFFFFFFF && t.res1 == 1 && bitPos t == 16) := by decide +kernel

/-! ### RLE0 (95 section 5) -/

theorem test_rle0Compress :
    answers (exec .rle0Compress (withIn [1, 0, 0, 2, 0, 3]))
      (fun t => outputBytes t == [1, 0, 1, 2, 0, 0, 3] && t.res0 == 7) := by decide +kernel

theorem test_rle0Compress_257 :
    answers (exec .rle0Compress (withIn (List.replicate 257 0))) (fun t => outputBytes t == [0, 0xFF, 0, 0]) := by
  decide +kernel

theorem test_rle0Decompress :
    answers (exec .rle0Decompress (withIn [0, 4])) (fun t => outputBytes t == [0, 0, 0, 0, 0] && t.res0 == 5) := by
  decide +kernel

theorem test_rle0Decompress_cut :
    answers (exec .rle0Decompress (withIn [1, 0])) (fun t => statusWord t == 0x302 && t.errInfo0 == 2 && outputBytes t == [1]) := by
  decide +kernel

/-! ### Witnesses: concrete states and operands that meet the hypotheses of the statements of
Certificates/Slice0/Obligations.lean, clause by clause, at the edges of their ranges -/

/-- A command that answers a next state of which `p` holds. -/
theorem answers_next {o : Host.Outcome State Fault Refusal} {p : State → Bool} (h : answers o p = true) :
    ∃ t, o = .next t ∧ p t = true := by
  cases o with
  | next t => exact ⟨t, rfl, h⟩
  | fault _ => cases h
  | refused _ => cases h

/-- One host move waits. -/
def asks (m : HostMove) (s : State) : State := { s with pending := [m] }

/-- A class D error is latched. -/
def errState : State := { State.reset with err := true, errCode := 3 }

/-- A class P error is latched. -/
def haltState : State := { State.reset with halt := true, errCode := 2 }

/-- A block with room for four bytes in each byte space. -/
def tiny : State := { State.reset with cfg := { Config.standard with bufCap := 4 } }

theorem witness_DecodeAndEncodeAgree :
    (Instr.bsRead 255).wellFormed = true ∧ decode 0x130000FF = .ok (.bsRead 255) := by decide +kernel

theorem witness_StepRunsCommand :
    ((asks (.regWrite 0 0x1400001F) State.reset).pending = [.regWrite 0 0x1400001F] ∧ State.reset.halt = false ∧
      State.reset.err = false ∧ decode 0x1400001F = .ok (.bsPeek 31)) ∧
    ((asks (.regWrite 0 0x01000000) errState).pending = [.regWrite 0 0x01000000] ∧ errState.halt = false ∧
      errState.err = true ∧ decode 0x01000000 = .ok .sysClrerr) ∧
    ((asks (.regWrite 0 0x02000000) errState).pending = [.regWrite 0 0x02000000] ∧
      decode 0x02000000 = .ok .sysReset ∧ Instr.sysReset.wellFormed = true) := by decide +kernel

/-- R83: `SYS.NOP` with a bit set that must be zero. -/
theorem witness_IllegalWordRaises :
    (asks (.regWrite 0 1) State.reset).pending = [.regWrite 0 1] ∧ latched (asks (.regWrite 0 1) State.reset) = false ∧
    ∀ i : Instr, i.wellFormed = true → encode i ≠ 0x00000001#32 := by
  refine ⟨rfl, by decide +kernel, fun i hi e => ?_⟩
  have h := congrArg opcodeOf e
  cases i
  case bsRead n => rw [(Laws.OpcodeField.bsRead n hi).1] at h; simp [opcode, opcodeOf] at h
  case bsPeek n => rw [(Laws.OpcodeField.bsPeek n hi).1] at h; simp [opcode, opcodeOf] at h
  case bsWrite n => rw [(Laws.OpcodeField.bsWrite n hi).1] at h; simp [opcode, opcodeOf] at h
  case dictClear n => rw [(Laws.OpcodeField.dictClear n hi).1] at h; simp [opcode, opcodeOf] at h
  all_goals exact absurd e (by decide +kernel)

theorem witness_RefusedWhileLatched :
    ((asks (.regWrite 0 0) errState).pending = [.regWrite 0 0] ∧ errState.err = true ∧
      0x00000000#32 ≠ encode .sysClrerr ∧ 0x00000000#32 ≠ encode .sysReset) ∧
    ((asks (.regWrite 0 0x01000000) haltState).pending = [.regWrite 0 0x01000000] ∧ haltState.halt = true) ∧
    latched errState = true ∧ latched haltState = true ∧
    (2 ^ 28 - 1 < errState.cfg.bufCap ∧ (asks (.byteRead .bsb (2 ^ 28 - 1)) errState).pending = [.byteRead .bsb (2 ^ 28 - 1)]) ∧
    255 < wordSpaceSize .freq errState ∧ 65279 < wordSpaceSize .xsym errState ∧
    2 ^ 28 - 1 < wordSpaceSize .unit errState := by decide +kernel

theorem witness_OnlyResetLeavesHalt :
    isClassD .illegalCommand = false ∧ isClassD .invalidArgument = false ∧ haltState.halt = true ∧
    HostMove.byteRead .inp 4 ≠ .hardReset ∧
    ∃ t, step (asks (.regWrite 0 0x02000000) haltState) = .next t := by
  refine ⟨by decide +kernel, by decide +kernel, rfl, by decide +kernel, ?_⟩
  obtain ⟨t, h, -⟩ := answers_next (o := step (asks (.regWrite 0 0x02000000) haltState)) (p := fun t => t.halt)
    (by decide +kernel)
  exact ⟨t, h⟩

theorem witness_PackedRegisterFields : State.reset.cfg = Config.standard ∧ 19 < 20 := ⟨rfl, by decide⟩

/-- The last cell of every space, and a register number with no register. -/
theorem witness_HostReadsAnswerCells :
    (asks (.regRead 20) State.reset).pending = .regRead 20 :: [] ∧
    (2 ^ 28 - 1 < State.reset.cfg.bufCap ∧
      (asks (.byteRead .inp (2 ^ 28 - 1)) State.reset).pending = .byteRead .inp (2 ^ 28 - 1) :: [] ∧
      (asks (.byteRead .out (2 ^ 28 - 1)) State.reset).pending = .byteRead .out (2 ^ 28 - 1) :: [] ∧
      (asks (.byteRead .bsb (2 ^ 28 - 1)) State.reset).pending = .byteRead .bsb (2 ^ 28 - 1) :: [] ∧
      (asks (.wordRead .unit (2 ^ 28 - 1)) State.reset).pending = .wordRead .unit (2 ^ 28 - 1) :: []) ∧
    (asks (.wordRead .freq 255) State.reset).pending = .wordRead .freq 255 :: [] ∧
    (65279 < State.reset.cfg.hufXmax ∧ (asks (.wordRead .xsym 65279) State.reset).pending = .wordRead .xsym 65279 :: []) ∧
    (asks (.hcodeRead 65535) State.reset).pending = .hcodeRead 65535 :: [] ∧
    (asks (.hcodeRead 65536) State.reset).pending = .hcodeRead 65536 :: [] ∧ 65535 < 65536 := by decide +kernel

/-- The clauses meet at `v = BUF_CAP`. -/
theorem witness_HostRegisterWrite :
    (asks (.regWrite 8 0x10000000) State.reset).pending = .regWrite 8 0x10000000 :: [] ∧
    (0x10000000#32).toNat ≤ State.reset.cfg.bufCap ∧ ¬ (0x10000001#32).toNat ≤ State.reset.cfg.bufCap := by decide +kernel

/-- A write that is ignored needs no cell. -/
theorem test_ignored_host_writes :
    (answers (step (asks (.byteWrite .out (2 ^ 28) 1) State.reset)) fun t => t == State.reset) &&
    (answers (step (asks (.wordWrite .unit (2 ^ 28) 1) State.reset)) fun t => t == State.reset) &&
    (answers (step (asks (.hcodeWrite 65536 1) State.reset)) fun t => t == State.reset) = true := by decide +kernel

theorem witness_HostSpaceWrites :
    2 ^ 28 - 1 < State.reset.cfg.bufCap ∧ freqWf State.reset.freq = true ∧
    255 < wordSpaceSize .freq State.reset ∧ 65279 < wordSpaceSize .xsym State.reset ∧
    2 ^ 28 - 1 < wordSpaceSize .unit State.reset := by decide +kernel

theorem witness_AccessOutsideSpaceFaults :
    State.reset.cfg.bufCap ≤ 2 ^ 28 ∧ State.reset.cfg.hufXmax ≤ 65280 ∧
    (asks (.byteRead .out (2 ^ 28)) State.reset).pending = .byteRead .out (2 ^ 28) :: [] ∧
    (asks (.byteWrite .inp (2 ^ 28) 1) State.reset).pending = .byteWrite .inp (2 ^ 28) 1 :: [] ∧
    (asks (.wordRead .freq 256) State.reset).pending = .wordRead .freq 256 :: [] ∧
    (asks (.wordRead .xsym 65280) State.reset).pending = .wordRead .xsym 65280 :: [] ∧
    (asks (.wordRead .unit (2 ^ 28)) State.reset).pending = .wordRead .unit (2 ^ 28) :: [] ∧
    (asks (.wordWrite .freq 256 1) State.reset).pending = .wordWrite .freq 256 1 :: [] ∧
    ByteSpace.inp ≠ .out ∧ WordSpace.freq ≠ .unit := by decide +kernel

theorem witness_RaiseEffect : 2 ^ 32 - 1 < 2 ^ 32 ∧ latched State.reset = false := by decide +kernel

/-- `BS.PEEK 32` raises from a reset state: a precise command. -/
theorem witness_OnlyListedErrors :
    State.reset.cfg.wf = true ∧ latched State.reset = false ∧ Instr.bsPeek 32 ≠ .sysClrerr ∧
    Instr.bsPeek 32 ≠ .sysReset ∧ ∃ t, exec (.bsPeek 32) State.reset = .next t ∧ latched t = true := by
  refine ⟨by decide +kernel, by decide +kernel, by decide +kernel, by decide +kernel, answers_next (by decide +kernel)⟩

theorem witness_GeneralRegistersKept :
    writesRes0 .bsAlign = false ∧ writesRes1 .bsGetpos = false ∧
    ∃ t, exec .bsGetpos State.reset = .next t ∧ (!latched t) = true := by
  refine ⟨by decide +kernel, by decide +kernel, answers_next (by decide +kernel)⟩

/-- A precise command is in `witness_OnlyListedErrors`; this is a partial one. -/
theorem witness_PreciseAndPartial :
    (withIn [1, 0]).cfg.wf = true ∧ latched (withIn [1, 0]) = false ∧ isPartial .rle0Decompress = true ∧
    isPartial (.bsPeek 32) = false ∧ ∃ t, exec .rle0Decompress (withIn [1, 0]) = .next t ∧ latched t = true := by
  refine ⟨by decide +kernel, by decide +kernel, by decide +kernel, by decide +kernel, answers_next (by decide +kernel)⟩

theorem witness_ResetValues :
    State.reset.cfg.wf = true ∧ (withIn [1]).halt = false ∧
    (∃ t, exec .sysReset (withIn [1]) = .next t ∧ t.cfg.wf = true) ∧
    ∃ t, step (asks .hardReset haltState) = .next t ∧ t.cfg.wf = true := by
  refine ⟨by decide +kernel, rfl, answers_next (p := fun t => t.cfg.wf) (by decide +kernel),
    answers_next (p := fun t => t.cfg.wf) (by decide +kernel)⟩

theorem witness_ResetsComplete :
    (asks .hardReset haltState).pending = .hardReset :: [] ∧ errState.halt = false ∧ haltState.halt = true := by decide +kernel

theorem witness_SysNopAndClrerr :
    haltState.halt = true ∧ errState.halt = false ∧ latched State.reset = false ∧ State.reset.errCode = 0 := by decide +kernel

theorem witness_BsCursorCommands :
    (withArgs 0x80000000 0 State.reset).arg0.toNat ≤ 8 * State.reset.cfg.bufCap ∧
    8 * State.reset.cfg.bufCap < (withArgs 0x80000001 0 State.reset).arg0.toNat ∧
    (withStream [0xA6] 3).bsBit ≠ 0 ∧ (withStream [0xA6] 8).bsBit = 0 := by decide +kernel

/-- Five bytes: 31 bits from position 9 end at the last bit, from 10 they do not fit. -/
theorem witness_BsReadAndPeek :
    (withStream [1, 2, 3, 4, 5] 39).bsBit < 8 ∧
    bitPos (withStream [1, 2, 3, 4, 5] 9) + 31 ≤ 8 * (withStream [1, 2, 3, 4, 5] 9).bsLen ∧
    bitPos (withStream [1, 2, 3, 4, 5] 39) + 1 ≤ 8 * (withStream [1, 2, 3, 4, 5] 39).bsLen ∧
    8 * (withStream [1, 2, 3, 4, 5] 10).bsLen < bitPos (withStream [1, 2, 3, 4, 5] 10) + 31 ∧
    8 * (withStream [1, 2, 3, 4, 5] 40).bsLen < bitPos (withStream [1, 2, 3, 4, 5] 40) + 1 ∧
    31 = (withStream [1, 2, 3, 4, 5] 9).cfg.maxBits ∧ 7 = { Config.standard with maxBits := 7 }.maxBits ∧ 7 ≤ 31 := by
  decide +kernel

theorem witness_BsWriteResult :
    bitPos (setPos 32 tiny) ≤ 8 * tiny.cfg.bufCap ∧ bitPos (setPos 1 tiny) + 31 ≤ 8 * tiny.cfg.bufCap ∧
    bitPos (setPos 31 tiny) + 1 ≤ 8 * tiny.cfg.bufCap ∧ 8 * tiny.cfg.bufCap < bitPos (setPos 32 tiny) + 1 ∧
    8 * tiny.cfg.bufCap < bitPos (setPos 2 tiny) + 31 ∧ 31 = tiny.cfg.maxBits := by decide +kernel

theorem witness_BsByteCommands :
    (bitPos (withStream [7, 8] 8) + 7) / 8 < (withStream [7, 8] 8).bsLen ∧
    (withStream [7, 8] 9).bsLen ≤ (bitPos (withStream [7, 8] 9) + 7) / 8 ∧
    (bitPos (setPos 24 tiny) + 7) / 8 < tiny.cfg.bufCap ∧ tiny.cfg.bufCap ≤ (bitPos (setPos 25 tiny) + 7) / 8 := by
  decide +kernel

/-- Fields of the widths 0, 3 and 31 fit from an empty stream. -/
theorem witness_BitStreamFidelity :
    (withStream [0xFF] 8).cfg.wf = true ∧ latched (withStream [0xFF] 8) = false ∧
    ∃ s0, exec .bsClear (withStream [0xFF] 8) = .next s0 ∧
      (writeFields [(0, 9), (3, 0xFF), (31, 0x12345678)] s0).isSome = true := by
  refine ⟨by decide +kernel, by decide +kernel,
    answers_next (p := fun s0 => (writeFields [(0, 9), (3, 0xFF), (31, 0x12345678)] s0).isSome) ?_⟩
  decide +kernel

theorem witness_DictClearAndArguments :
    dataLen traceA ≤ (withArgs 6 1 traceA).arg0.toNat ∧ (withArgs 5 1 traceA).arg0.toNat < dataLen traceA ∧
    (withArgs 5 1 traceA).arg1 ≠ 0 := by decide +kernel

/-- The string `abc` is there; the request runs past the end of `DATA` from the last byte on. -/
theorem witness_DictInsertExactHit :
    dictWf traceA.cfg.cap traceA.dict = true ∧ (withArgs 0 3 traceA).arg0.toNat < dataLen traceA ∧
    (withArgs 0 3 traceA).arg1 ≠ 0 ∧ (0, dataSlice 0 3 traceA, 0) ∈ flat traceA.dict := by decide +kernel

/-- With no freed index. -/
theorem witness_DictInsertNewEntry :
    traceA.cfg.wf = true ∧ dictWf traceA.cfg.cap traceA.dict = true ∧
    (withArgs 5 9 traceA).arg0.toNat < dataLen traceA ∧ (withArgs 5 9 traceA).arg1 ≠ 0 ∧
    (∀ e ∈ flat traceA.dict, e.2.1 ≠ dataSlice 5 9 traceA) ∧ traceA.dict.count < traceA.cfg.cap := by decide +kernel

/-- Trace C with `CAP` = 3, full. -/
def traceC : State :=
  { withIn [0x61, 0x62, 0x63, 0x78] with
    cfg := { Config.standard with cap := 3 }
    dict := { Dict.empty .inSpace with
      roots := .node 0 [0x61, 0x62] (some 0) 1 (.node 2 [0x63] (some 1) 2 .nil .nil) (.node 3 [0x78] (some 2) 3 .nil .nil)
      count := 3, prio := 4 } }

/-- Trace C after `DICT.FREE`: the index 1 is free. -/
def traceCFreed : State :=
  { traceC with
    dict := { Dict.empty .inSpace with
      roots := .node 0 [0x61, 0x62] (some 0) 1 .nil (.node 3 [0x78] (some 2) 3 .nil .nil)
      count := 2, prio := 4, freeValid := true, freeIdx := 1 } }

/-- With a freed index. -/
theorem witness_DictInsertNewEntry_reuses :
    traceCFreed.cfg.wf = true ∧ dictWf traceCFreed.cfg.cap traceCFreed.dict = true ∧
    (withArgs 1 1 traceCFreed).arg0.toNat < dataLen traceCFreed ∧ (withArgs 1 1 traceCFreed).arg1 ≠ 0 ∧
    (∀ e ∈ flat traceCFreed.dict, e.2.1 ≠ dataSlice 1 1 traceCFreed) ∧
    traceCFreed.dict.count < traceCFreed.cfg.cap := by decide +kernel

/-- The victim of trace C: `ab` has the lowest priority, `abc` is the leaf beneath it. -/
theorem traceC_victim : victimEntry traceC.dict 1 [0x61, 0x62, 0x63] := by
  have e : flat traceC.dict = [(0, [0x61, 0x62], 1), (1, [0x61, 0x62, 0x63], 2), (2, [0x78], 3)] := by decide +kernel
  refine ⟨[0x61, 0x62], 2, ⟨0, 1, ?_, ?_⟩, by decide +kernel, ⟨?_, ?_⟩, ?_⟩
  all_goals try (rw [e]; decide +kernel)
  · intro f v r hw h
    have hm := h.1
    have hl := h.2
    rw [e] at hm hl
    simp only [List.mem_cons, Prod.mk.injEq, List.not_mem_nil, or_false] at hm
    rcases hm with ⟨-, rfl, rfl⟩ | ⟨-, -, rfl⟩ | ⟨-, -, rfl⟩
    · exact absurd (hl _ (.tail _ (.head _)) (by decide +kernel)) (by decide +kernel)
    · exact Nat.le_refl _
    · decide +kernel

theorem witness_DictInsertEvictsWhenFull :
    traceC.cfg.wf = true ∧ dictWf traceC.cfg.cap traceC.dict = true ∧
    (withArgs 1 3 traceC).arg0.toNat < dataLen traceC ∧ (withArgs 1 3 traceC).arg1 ≠ 0 ∧
    (∀ e ∈ flat traceC.dict, e.2.1 ≠ dataSlice 1 3 traceC) ∧ traceC.dict.count = traceC.cfg.cap ∧
    victimEntry traceC.dict 1 [0x61, 0x62, 0x63] := by
  refine ⟨by decide +kernel, by decide +kernel, by decide +kernel, by decide +kernel, by decide +kernel, rfl, traceC_victim⟩

/-- At the end of `DATA`; with a longest entry (`abc` over `ab`); with none. -/
theorem witness_DictFindLongest :
    dictWf traceC.cfg.cap traceC.dict = true ∧ dataLen traceC ≤ (withArgs 4 0 traceC).arg0.toNat ∧
    (withArgs 3 0 traceC).arg0.toNat < dataLen traceC ∧
    (1, [0x61, 0x62, 0x63], 2) ∈ flat traceC.dict ∧ [0x61, 0x62, 0x63] <+: slice (dataBuf traceC) 0 4 ∧
    (∀ e ∈ flat traceC.dict, e.2.1 <+: slice (dataBuf traceC) 0 4 → e.2.1.length ≤ 3) ∧
    (∀ e ∈ flat traceC.dict, ¬ e.2.1 <+: slice (dataBuf traceC) 1 3) := by decide +kernel

theorem witness_DictFreeEvictsLowest :
    traceCFreed.dict.count ≠ traceCFreed.cfg.cap ∧ traceC.cfg.wf = true ∧
    dictWf traceC.cfg.cap traceC.dict = true ∧ traceC.dict.count = traceC.cfg.cap ∧
    victimEntry traceC.dict 1 [0x61, 0x62, 0x63] := by
  refine ⟨by decide +kernel, by decide +kernel, by decide +kernel, rfl, traceC_victim⟩

theorem witness_DictVictimExists : dictWf 3 traceC.dict = true ∧ 0 < traceC.dict.count ∧
    victimEntry traceC.dict 1 [0x61, 0x62, 0x63] := ⟨by decide +kernel, by decide +kernel, traceC_victim⟩

theorem witness_DictNodeBound : dictWf 3 traceC.dict = true ∧ 0 < traceC.dict.count ∧
    dictWf 3 (Dict.empty .inSpace) = true ∧ (Dict.empty .inSpace).count = 0 := by decide +kernel

theorem witness_DictKeepsWindows :
    traceC.cfg.wf = true ∧ dictWf traceC.cfg.cap traceC.dict = true ∧ dictCoherent traceC = true ∧
    (∃ t, exec (.dictClear 1) traceC = .next t ∧ (!latched t) = true) ∧
    (∃ t, exec .dictInsert (withArgs 1 3 traceC) = .next t ∧ (!latched t) = true) ∧
    (∃ t, exec .dictFind traceC = .next t ∧ (!latched t) = true) ∧
    ∃ t, exec .dictFree traceC = .next t ∧ (!latched t) = true := by
  have h : traceC.cfg.wf ∧ dictWf traceC.cfg.cap traceC.dict ∧ dictCoherent traceC := by decide +kernel
  have run : ∀ i ∈ [Instr.dictClear 1, .dictInsert, .dictFind, .dictFree],
      answers (exec i (if i = .dictInsert then withArgs 1 3 traceC else traceC)) fun t => !latched t := by decide +kernel
  exact ⟨h.1, h.2.1, h.2.2, answers_next (run (.dictClear 1) (by decide)), answers_next (run .dictInsert (by decide)),
    answers_next (run .dictFind (by decide)), answers_next (run .dictFree (by decide))⟩

/-- The room is used up exactly; and a run that completes with room for two bytes for each of the input. -/
theorem witness_PyrCompressCompletes :
    ({ withIn [5, 6] with cfg := { Config.standard with bufCap := 6 } }.cfg.wf = true ∧
      3 * (withIn [5, 6]).inLen ≤ 6) ∧
    { withIn [5, 5, 5, 5] with cfg := { Config.standard with bufCap := 8 } }.cfg.wf = true ∧
    latched { withIn [5, 5, 5, 5] with cfg := { Config.standard with bufCap := 8 } } = false ∧
    ∃ t, exec .pyrCompress { withIn [5, 5, 5, 5] with cfg := { Config.standard with bufCap := 8 } } = .next t ∧
      (!latched t) = true := by
  refine ⟨by decide +kernel, by decide +kernel, by decide +kernel, answers_next (by decide +kernel)⟩

theorem witness_PyrFirstTwoLiterals :
    (withIn [5]).cfg.wf = true ∧ latched (withIn [5]) = false ∧ (withIn [5]).inLen = 1 ∧ (withIn [5, 5]).inLen = 2 ∧
    (∃ t, exec .pyrCompress (withIn [5]) = .next t ∧ (!latched t) = true) ∧
    ∃ t, exec .pyrCompress (withIn [5, 5]) = .next t ∧ (!latched t) = true := by
  refine ⟨by decide +kernel, by decide +kernel, rfl, rfl, answers_next (by decide +kernel), answers_next (by decide +kernel)⟩

/-- The third unit: a token, and a literal for want of one more byte. -/
theorem witness_PyrFirstTwoLiterals_third :
    (withIn [5, 6, 5, 6]).inLen = 4 ∧ bufRead (withIn [5, 6, 5, 6]).inb 2 = bufRead (withIn [5, 6, 5, 6]).inb 0 ∧
    bufRead (withIn [5, 6, 5, 6]).inb 3 = bufRead (withIn [5, 6, 5, 6]).inb 1 ∧ (withIn [5, 6, 5]).inLen = 3 ∧
    boundsWf (withIn [5, 6, 5, 6]) = true ∧ latched (withIn [5, 6, 5, 6]) = false ∧
    (∃ t, exec .pyrCompress (withIn [5, 6, 5, 6]) = .next t ∧ (!latched t) = true) ∧
    ∃ t, exec .pyrCompress (withIn [5, 6, 5]) = .next t ∧ (!latched t) = true := by
  refine ⟨rfl, by decide +kernel, by decide +kernel, rfl, by decide +kernel, by decide +kernel, answers_next (by decide +kernel),
    answers_next (by decide +kernel)⟩

/-- A literal at unit 0 and a token at unit 2. -/
theorem witness_PyrTransitionPoints :
    (withIn [5, 5, 5, 5]).cfg.wf = true ∧ boundsWf (withIn [5, 5, 5, 5]) = true ∧
    latched (withIn [5, 5, 5, 5]) = false ∧
    ∃ t, exec .pyrCompress (withIn [5, 5, 5, 5]) = .next t ∧
      (decide (2 < t.unitLen) && !(wordUnit (wordRead t.unit 0)).isTok && (wordUnit (wordRead t.unit 2)).isTok) = true := by
  refine ⟨by decide +kernel, by decide +kernel, by decide +kernel, answers_next (p := fun t => decide (2 < t.unitLen) &&
    !(wordUnit (wordRead t.unit 0)).isTok && (wordUnit (wordRead t.unit 2)).isTok) (by decide +kernel)⟩

/-- The entries left are just `T12`. -/
theorem witness_PyrTransitionPoints_at_limit :
    { Config.standard with t12 := 3 }.wf = true ∧
    ∃ t, exec .pyrCompress { withIn [5, 5, 5, 5] with cfg := { Config.standard with t12 := 3 } } = .next t ∧
      (t.dict.count == 3) = true := by
  refine ⟨by decide +kernel, answers_next (p := fun t => t.dict.count == 3) (by decide +kernel)⟩

/-- Groups of 2, 0 and 14 literals. -/
theorem witness_PyrExpandLiteralGroups :
    (withIn [2, 7, 8, 0, 14, 1, 2, 3, 4, 5, 6, 7, 8, 9, 10, 11, 12, 13, 14]).cfg.wf = true ∧
    inputBytes (withIn [2, 7, 8, 0, 14, 1, 2, 3, 4, 5, 6, 7, 8, 9, 10, 11, 12, 13, 14]) =
      ([[7, 8], [], [1, 2, 3, 4, 5, 6, 7, 8, 9, 10, 11, 12, 13, 14]].map
        fun g : List Byte => BitVec.ofNat 8 g.length :: g).flatten := by decide +kernel

theorem witness_PyrExpandStreamEnds :
    (2 ≤ (withIn [0xC0, 0]).inLen ∧ bufRead (withIn [0xC0, 0]).inb 0 = 0xC0 ∧ (0xC0#8).extractLsb' 6 2 = 3#2) ∧
    ((withIn [0x0F]).inLen = 1 ∧ bufRead (withIn [0x0F]).inb 0 = 0x0F ∧ (0x0F#8).getLsbD 7 = false ∧
      (0x0F#8).extractLsb' 0 4 ≠ 0#4) ∧
    (bufRead (withIn [0x80]).inb 0 = 0x80 ∧ (0x80#8).getLsbD 7 = true) := by decide +kernel

theorem witness_PyrRoundTrip :
    (withIn [5, 5, 5, 5]).cfg.wf = true ∧ boundsWf (withIn [5, 5, 5, 5]) = true ∧ latched (withIn [5, 5, 5, 5]) = false ∧
    ∃ t, exec .pyrCompress (withIn [5, 5, 5, 5]) = .next t ∧
      (!latched t && answers (exec .sysXchg t) fun _ => true) = true := by
  refine ⟨by decide +kernel, by decide +kernel, by decide +kernel, answers_next (p := fun t => !latched t && answers (exec .sysXchg t) fun _ => true)
    (by decide +kernel)⟩

theorem witness_PyrMatchdecLiterals :
    (∀ g ∈ [[1, 2, 3, 4, 5, 6, 7, (8 : Byte)]], g.length = 8) ∧
    inputBytes (withArgs 8 0 (withIn [0xFF, 1, 2, 3, 4, 5, 6, 7, 8])) =
      ([[1, 2, 3, 4, 5, 6, 7, (8 : Byte)]].map fun g => 0xFF#8 :: g).flatten ∧
    (withArgs 8 0 (withIn [0xFF, 1, 2, 3, 4, 5, 6, 7, 8])).arg0.toNat = 8 * 1 ∧
    8 ≤ State.reset.cfg.bufCap := by decide +kernel

/-- The longest copy, to the end of `OUT`. -/
theorem witness_PyrMatchdecOverlap :
    slice (withIn [0x80, 9, 15, 1]).inb 0 4 = [0x80#8, 9, BitVec.ofNat 8 15, 1#8] ∧
    (withArgs 19 0 (withIn [0x80, 9, 15, 1])).arg0.toNat = 15 + 4 ∧ 4 ≤ (withIn [0x80, 9, 15, 1]).inLen ∧
    15 + 4 ≤ { Config.standard with bufCap := 19 }.bufCap := by decide +kernel

/-- 33 groups of 8 literals, then a group with a match of 4 bytes at the offset 0x103 between literals. -/
def farGroups : List (Byte × List MatchItem) :=
  List.replicate 33 (0xFF, List.replicate 8 (.literal 7)) ++
    [(0xEF, [.literal 1, .literal 2, .literal 3, .copy 0x11 3, .literal 4, .literal 5, .literal 6, .literal 7])]

/-- The last units: a match first, a literal after it. -/
def lastUnits : List MatchItem := [.copy 0 3, .literal 8]

theorem farGroups_full : fullGroups farGroups := by
  intro g hg
  rw [farGroups, List.mem_append, List.mem_singleton] at hg
  have h : g = (0xFF, List.replicate 8 (.literal 7)) ∨
      g = (0xEF, [.literal 1, .literal 2, .literal 3, .copy 0x11 3, .literal 4, .literal 5, .literal 6, .literal 7]) :=
    hg.imp_left List.eq_of_mem_replicate
  refine ⟨by rcases h with rfl | rfl <;> rfl, by rcases h with rfl | rfl <;> decide, fun j b first second => ?_⟩
  match j with
  | 0 | 1 | 2 | 3 | 4 | 5 | 6 | 7 => rcases h with rfl | rfl <;> simp
  | j + 8 => rcases h with rfl | rfl <;> simp

/-- A spare bit of the last flag byte is set, a byte is left over. -/
theorem witness_PyrMatchdecOverlap_far :
    fullGroups farGroups ∧ flagFits 0x60 lastUnits ∧ lastUnits ≠ [] ∧
    inputBytes (withArgs 279 0 (withIn (groupsBytes farGroups ++ [0x60, 0, 3, 8] ++ [9]))) =
      (groupsBytes farGroups ++ flagGroup 0x60 lastUnits) ++ [9] ∧
    copyOffset 0x11 3 = 0x103 ∧ copyLength 0x11 = 4 ∧
    decodeItems (groupsItems farGroups ++ lastUnits) = some (List.replicate 264 7 ++
      [1, 2, 3, 7, 7, 7, 7, 4, 5, 6, 7, 5, 6, 7, 8]) ∧
    (withArgs 279 0 State.reset).arg0.toNat = 264 + 15 ∧ 279 ≤ State.reset.cfg.bufCap := by
  refine ⟨farGroups_full, ⟨by decide, fun j b first second => ?_⟩, by decide +kernel⟩
  match j with
  | 0 | 1 => simp [lastUnits]
  | j + 2 => simp [lastUnits]

theorem witness_PyrMatchdecErrors :
    tiny.cfg.bufCap < (withArgs 5 0 tiny).arg0.toNat ∧
    (0 < (withArgs 4 0 tiny).arg0.toNat ∧ (withArgs 4 0 tiny).arg0.toNat ≤ tiny.cfg.bufCap ∧ tiny.inLen = 0) ∧
    (3 ≤ (withIn [0x7F, 0, 1]).inLen ∧ (bufRead (withIn [0x7F, 0, 1]).inb 0).getLsbD 7 = false) ∧
    State.reset.arg0 = 0 := by decide +kernel

/-- A full group with a match in it, 10 bytes of output. -/
def oneGroup : List (Byte × List MatchItem) :=
  [(0xEF, [.literal 1, .literal 2, .literal 3, .copy 0 3, .literal 4, .literal 5, .literal 6, .literal 7])]

theorem oneGroup_full : fullGroups oneGroup := by
  intro g hg
  rw [oneGroup, List.mem_singleton] at hg
  subst hg
  refine ⟨rfl, by decide, fun j b first second => ?_⟩
  match j with
  | 0 | 1 | 2 | 3 | 4 | 5 | 6 | 7 => simp
  | j + 8 => simp

/-- After that group: the input ends; it ends after the next flag byte and a literal; with a byte of a match left;
a match with the offset 0, one that reaches before the output, one that goes one byte beyond `ARG0`. -/
theorem witness_PyrMatchdecErrors_after_output :
    fullGroups oneGroup ∧ flagFits 0x80 [.literal 9] ∧ flagFits 0 [] ∧
    decodeItems (groupsItems oneGroup ++ []) = some [1, 2, 3, 1, 2, 3, 4, 5, 6, 7] ∧
    decodeItems (groupsItems oneGroup ++ [.literal 9]) = some [1, 2, 3, 1, 2, 3, 4, 5, 6, 7, 9] ∧
    inputBytes (withIn [0xEF, 1, 2, 3, 0, 3, 4, 5, 6, 7]) = groupsBytes oneGroup ∧
    (∀ tail ∈ [[], [5], [0x0F, 0], [0x0F, 12], [0x0F, (11 : Byte)]],
      inputBytes (withIn ([0xEF, 1, 2, 3, 0, 3, 4, 5, 6, 7, 0x80, 9] ++ tail)) =
        groupsBytes oneGroup ++ flagGroup 0x80 [.literal 9] ++ tail) ∧
    (0x80#8).getLsbD (7 - 1) = false ∧ copyOffset 0x0F 0 = 0 ∧ 11 < copyOffset 0x0F 12 ∧ copyOffset 0x0F 11 = 11 ∧
    (withArgs 28 0 State.reset).arg0.toNat < 11 + copyLength 0x0F ∧ 11 < (withArgs 28 0 State.reset).arg0.toNat := by
  refine ⟨oneGroup_full, ⟨by decide, fun j b first second => ?_⟩, ⟨by decide, fun j b first second => by simp⟩,
    by decide +kernel⟩
  match j with
  | 0 => simp
  | j + 1 => simp

/-- Two extra symbols, the smallest and the largest. -/
def withXsym (a b : Word) : State :=
  { State.reset with hufNx := 2, xsym := { cells := [(0, a), (1, b)], seed := 4 }, freq := [(7, 3)] }

/-- The sequence of leaves of that state: the byte 7 with 3·4, the squares of the extra symbols. -/
theorem witness_HufBuildCodes_sequence :
    (((List.range 256).filter fun b => decide (freqRead (withXsym 256 65535).freq b ≠ 0)).map fun b =>
        HufTree.leaf b ((freqRead (withXsym 256 65535).freq b).toNat * ((freqRead (withXsym 256 65535).freq b).toNat + 1))) ++
      ((List.range (withXsym 256 65535).hufNx.toNat).map fun i =>
        .leaf (wordRead (withXsym 256 65535).xsym i).toNat ((wordRead (withXsym 256 65535).xsym i).toNat ^ 2)) =
    [.leaf 7 12, .leaf 256 (256 ^ 2), .leaf 65535 (65535 ^ 2)] := by decide +kernel

theorem witness_HufBuildCodes :
    (withXsym 256 65535).hufNx.toNat ≤ (withXsym 256 65535).cfg.hufXmax ∧
    (∀ i, i < (withXsym 256 65535).hufNx.toNat →
      255 < (wordRead (withXsym 256 65535).xsym i).toNat ∧ (wordRead (withXsym 256 65535).xsym i).toNat ≤ 65535) ∧
    (∀ i j, i < j → j < (withXsym 256 65535).hufNx.toNat →
      wordRead (withXsym 256 65535).xsym i ≠ wordRead (withXsym 256 65535).xsym j) := by
  have e : (withXsym 256 65535).hufNx.toNat = 2 := by decide +kernel
  refine ⟨by decide +kernel, ?_, ?_⟩
  · rw [e]; decide +kernel
  · rw [e]; intro i j hij hj
    have h : i = 0 ∧ j = 1 := by omega
    rw [h.1, h.2]; decide +kernel

/-- Too many; too small; too large; twice the same. -/
theorem witness_HufBuildChecks :
    { Config.standard with hufXmax := 1 }.hufXmax < (withXsym 256 257).hufNx.toNat ∧
    (wordRead (withXsym 255 257).xsym 0).toNat ≤ 255 ∧ 65535 < (wordRead (withXsym 65536 257).xsym 0).toNat ∧
    (wordRead (withXsym 256 256).xsym 0 = wordRead (withXsym 256 256).xsym 1 ∧
      255 < (wordRead (withXsym 256 256).xsym 0).toNat ∧ (wordRead (withXsym 256 256).xsym 0).toNat ≤ 65535) := by
  decide +kernel

theorem witness_HufPrefixFree :
    latched (withXsym 256 65535) = false ∧
    ∃ t, exec .hufBuild (withXsym 256 65535) = .next t ∧
      (!latched t && (cellGet? t.hcode 7).isSome && (cellGet? t.hcode 256).isSome) = true := by
  refine ⟨by decide +kernel, answers_next (p := fun t => !latched t && (cellGet? t.hcode 7).isSome && (cellGet? t.hcode 256).isSome)
    (by decide +kernel)⟩

/-- A code of two bits that just fits, one that does not; a symbol beyond 65535 and one with no code. -/
theorem witness_HufEncodeWrites :
    cellGet? treeABC.hcode 98 = some [false, true] ∧ cellGet? treeABC.hcode 100 = none ∧
    bitPos (setPos 30 tiny) + 2 ≤ 8 * tiny.cfg.bufCap ∧ 8 * tiny.cfg.bufCap < bitPos (setPos 31 tiny) + 2 ∧
    65535 < (65536#32).toNat := by decide +kernel

/-- R258's stream: from position 1 the code `01` of 98; from 15 one bit that is no code. -/
def decodeABC (pos : Nat) : State :=
  setPos pos { treeABC with bsb := { cells := [(0, 0xB2), (1, 0x80)], seed := 2 }, bsLen := 2 }

theorem witness_HufDecodeResult :
    State.reset.hroot = none ∧
    (hufWf (decodeABC 1) = true ∧ (decodeABC 1).bsBit < 8 ∧ cellGet? (decodeABC 1).hcode 98 = some [false, true] ∧
      bitPos (decodeABC 1) + 2 ≤ 8 * (decodeABC 1).bsLen ∧
      ∀ k, k < 2 → ([false, true])[k]? = some (getBit (decodeABC 1) (bitPos (decodeABC 1) + k))) ∧
    (hufWf (decodeABC 15) = true ∧ (decodeABC 15).bsBit < 8 ∧ (decodeABC 15).hroot ≠ none ∧
      bitPos (decodeABC 15) ≤ 8 * (decodeABC 15).bsLen ∧
      ∀ v c, cellGet? (decodeABC 15).hcode v = some c → bitPos (decodeABC 15) + c.length ≤ 8 * (decodeABC 15).bsLen →
        ∃ k, k < c.length ∧ (c)[k]? ≠ some (getBit (decodeABC 15) (bitPos (decodeABC 15) + k))) := by
  refine ⟨rfl, by decide +kernel, by decide +kernel, by decide +kernel, by decide +kernel, by decide +kernel, fun v c h => ?_⟩
  have hc : c = [true] ∨ c = [false, true] ∨ c = [false, false] := by
    simp only [decodeABC, setPos, treeABC, cellGet?] at h
    repeat' split at h
    all_goals simp_all
  rcases hc with rfl | rfl | rfl <;> decide +kernel

/-- At the end of the data and beyond it (R354); a tree of one leaf. -/
theorem witness_HufDecodeResult_beyond :
    (decodeABC 16).hroot = some (.inner 20 (.inner 8 (.leaf 99 2) (.leaf 98 6)) (.leaf 97 12)) ∧
    8 * (decodeABC 16).bsLen = bitPos (decodeABC 16) ∧ (decodeABC 29).bsBit < 8 ∧
    8 * (decodeABC 29).bsLen < bitPos (decodeABC 29) ∧
    { decodeABC 29 with hroot := some (.leaf 7 2) }.hroot = some (.leaf 7 2) := by decide +kernel

theorem witness_HufRoundTrip :
    hufWf treeABC = true ∧ treeABC.bsBit < 8 ∧ latched treeABC = false ∧
    (∀ q, bitPos treeABC ≤ q → bitAt treeABC q = false) ∧ (encodeSymbols [98, 97, 99] treeABC).isSome = true := by
  refine ⟨by decide +kernel, by decide +kernel, by decide +kernel, fun q _ => ?_, by decide +kernel⟩
  simp [bitAt, treeABC, State.reset, State.resetWith]

theorem witness_RleCompressOutput :
    ∃ pairs : Nat → List Byte,
      (∀ r, pairs r = (List.replicate (r / 256) [0#8, 0xFF#8]).flatten ++
        if r % 256 = 0 then [] else [0#8, BitVec.ofNat 8 (r % 256 - 1)]) ∧
      (∀ p ∈ [(0, 3#8), (257, 4)], p.2 ≠ 0) ∧
      inputBytes (withIn ([3] ++ List.replicate 257 0 ++ [4] ++ List.replicate 256 0)) =
        ([(0, 3#8), (257, 4)].map fun p => List.replicate p.1 0#8 ++ [p.2]).flatten ++ List.replicate 256 0#8 ∧
      [3#8, 0, 0xFF, 0, 0, 4, 0, 0xFF] =
        ([(0, 3#8), (257, 4)].map fun p => pairs p.1 ++ [p.2]).flatten ++ pairs 256 ∧
      [3#8, 0, 0xFF, 0, 0, 4, 0, 0xFF].length ≤ State.reset.cfg.bufCap ∧
      tiny.cfg.bufCap < [3#8, 0, 0xFF, 0, 0, 4, 0, 0xFF].length :=
  ⟨fun r => (List.replicate (r / 256) [0#8, 0xFF#8]).flatten ++
      if r % 256 = 0 then [] else [0#8, BitVec.ofNat 8 (r % 256 - 1)],
    fun _ => rfl, by decide +kernel, by decide +kernel, by decide +kernel, by decide +kernel, by decide +kernel⟩

theorem witness_RleDecompressOutput :
    (∀ b, Sum.inl b ∈ [Sum.inl 5#8, Sum.inr 0xFF#8] → b ≠ 0) ∧
    inputBytes (withIn [5, 0, 0xFF]) = ([.inl 5#8, .inr 0xFF#8].map fun x : Byte ⊕ Byte =>
      match x with | .inl b => [b] | .inr n => [0#8, n]).flatten ∧
    ([.inl 5#8, .inr 0xFF#8].map fun x : Byte ⊕ Byte =>
      match x with | .inl b => [b] | .inr n => List.replicate (n.toNat + 1) 0#8).flatten.length ≤ State.reset.cfg.bufCap ∧
    inputBytes (withIn [5, 0, 0xFF, 0]) = [5#8, 0, 0xFF] ++ [0#8] := by
  refine ⟨fun b h => ?_, by decide +kernel, by decide +kernel, by decide +kernel⟩
  simp at h; subst h; decide

theorem witness_RleRoundTrip :
    boundsWf (withIn [1, 0, 0]) = true ∧ latched (withIn [1, 0, 0]) = false ∧
    ∃ t, exec .rle0Compress (withIn [1, 0, 0]) = .next t ∧
      (!latched t && answers (exec .sysXchg t) fun _ => true) = true := by
  refine ⟨by decide +kernel, by decide +kernel, answers_next (p := fun t => !latched t && answers (exec .sysXchg t) fun _ => true)
    (by decide +kernel)⟩

/-- One command of each family, with a state it completes from. -/
def completingRuns : List (Instr × State) :=
  [(.bsRead 0, State.reset), (.dictInsert, withArgs 3 3 traceA), (.hufBuild, withXsym 256 65535),
    (.hufDecode, decodeABC 1), (.pyrCompress, withIn [5, 5, 5, 5]), (.pyrExpand, withIn [0x98, 0x41, 0x41, 0, 0]),
    (.pyrMatchdec, withArgs 6 0 (withIn [0x80, 0x41, 2, 1])), (.rle0Compress, withIn [1, 0, 0]),
    (.rle0Decompress, withIn [0, 4])]

theorem witness_UnitsChangeTheirOwn :
    ∀ p ∈ completingRuns, p.2.cfg.wf = true ∧ ∃ t, exec p.1 p.2 = .next t ∧ (!latched t) = true := by
  have h : (completingRuns.all fun p => p.2.cfg.wf && answers (exec p.1 p.2) fun t => !latched t) = true := by
    decide +kernel
  intro p hp
  have := List.all_eq_true.1 h p hp
  rw [Bool.and_eq_true] at this
  exact ⟨this.1, answers_next this.2⟩

/-- A state with every invariant, a full dictionary and a tree, whose next step issues a command. -/
def busyState : State :=
  { traceC with
    hroot := treeABC.hroot, hcode := treeABC.hcode, hufInfo := treeABC.hufInfo
    pending := [.regWrite 0 (encode .dictFree)] }

/-- The hypotheses of `StepKeepsMemory`, `StepKeepsStatus`, `StepKeepsBounds`, `StepKeepsDictionary` and
`StepKeepsHuffman` together. -/
theorem witness_StepKeeps :
    busyState.cfg.wf = true ∧ memoryWf busyState = true ∧ statusWf busyState = true ∧ boundsWf busyState = true ∧
    spacesWf busyState = true ∧ dictWf busyState.cfg.cap busyState.dict = true ∧ hufWf busyState = true ∧
    ∃ t, step busyState = .next t ∧ (!latched t) = true := by
  have h : busyState.cfg.wf ∧ memoryWf busyState ∧ statusWf busyState ∧ boundsWf busyState ∧ spacesWf busyState ∧
      dictWf busyState.cfg.cap busyState.dict ∧ hufWf busyState := by decide +kernel
  exact ⟨h.1, h.2.1, h.2.2.1, h.2.2.2.1, h.2.2.2.2.1, h.2.2.2.2.2.1, h.2.2.2.2.2.2, answers_next (by decide +kernel)⟩

end Sys2Proof.Tests
end

section
/-! PROOFS. The word of a command: what decodes is its own encoding, and which words an erring block takes. -/

namespace Sys2Proof.Machine

/-! ### The word of a command (R80 to R83) -/

/-- A word is its opcode field, its middle bits and its immediate field (R80). -/
theorem word_eq_fields (w : Word) :
    BitVec.ofNat 8 (opcodeOf w) ++ w.extractLsb' 8 16 ++ BitVec.ofNat 8 (immOf w) = w := by
  simp only [opcodeOf, immOf, BitVec.ofNat_toNat, BitVec.setWidth_eq]
  rw [BitVec.extractLsb'_append_extractLsb'_eq_extractLsb' (show 24 = 8 + 16 from rfl),
    BitVec.extractLsb'_append_extractLsb'_eq_extractLsb' (show 8 = 0 + 8 from rfl)]
  exact BitVec.extractLsb'_eq_self

/-- The encoder's word for a command is `w`, if `w` holds its opcode, zeros and its immediate. -/
theorem encode_eq_of_fields {w : Word} {i : Instr} (hop : opcode i = opcodeOf w) (hmid : w.extractLsb' 8 16 = 0#16)
    (himm : immediate i = immOf w) : encode i = w := by
  rw [encode, hop, himm, ← hmid, word_eq_fields]

theorem encode_of_decodeN {w : Word} {i j : Instr} {op : Nat} (hop : opcodeOf w = op) (h : decodeN w i = .ok j)
    (hi : opcode i = op) (hz : immediate i = 0) : encode j = w := by
  unfold decodeN at h
  split_ifs at h with hw
  obtain rfl := Except.ok.inj h
  have hjoin : w.extractLsb' 8 16 ++ w.extractLsb' 0 8 = 0#16 ++ 0#8 := by
    rw [BitVec.extractLsb'_append_extractLsb'_eq_extractLsb' (show 8 = 0 + 8 from rfl)]
    exact hw
  have hmid : w.extractLsb' 8 16 = 0#16 := by
    simpa only [BitVec.extractLsb'_append_eq_left] using congrArg (BitVec.extractLsb' 8 16) hjoin
  have himm : w.extractLsb' 0 8 = 0#8 := by
    simpa only [BitVec.extractLsb'_append_eq_right] using congrArg (BitVec.extractLsb' 0 8) hjoin
  exact encode_eq_of_fields (hi.trans hop.symm) hmid (by rw [hz, immOf, himm]; rfl)

theorem encode_of_decodeB {w : Word} {f : Nat → Instr} {j : Instr} {op : Nat} (hop : opcodeOf w = op)
    (h : decodeB w f = .ok j) (hi : opcode (f (immOf w)) = op) (hz : immediate (f (immOf w)) = immOf w) :
    encode j = w := by
  unfold decodeB at h
  split_ifs at h with hmid
  obtain rfl := Except.ok.inj h
  exact encode_eq_of_fields (hi.trans hop.symm) hmid hz

/-- No word but its own decodes to a command (R83, R85). -/
theorem encode_of_decode {w : Word} {i : Instr} (h : decode w = .ok i) : encode i = w := by
  unfold decode at h
  split at h
  case h_8 | h_9 | h_10 | h_14 => exact encode_of_decodeB ‹_› h rfl rfl
  case h_26 => cases h
  all_goals exact encode_of_decodeN ‹_› h rfl rfl

theorem encode_of_commandOf {w : Word} {i : Instr} (h : commandOf w = some i) : encode i = w := by
  unfold commandOf at h
  split at h
  · next hd => cases h; exact encode_of_decode hd
  · cases h

/-- Bits 31:24 of an encoding are the opcode, whatever the immediate. -/
theorem opcodeOf_encode (i : Instr) : opcodeOf (encode i) = opcode i := by
  have hlt : opcode i < 2 ^ 8 := by cases i <;> simp [opcode]
  rw [opcodeOf, encode, BitVec.extractLsb'_append_eq_of_le (by decide), BitVec.extractLsb'_append_eq_of_le (by decide)]
  show (BitVec.extractLsb' 0 8 _).toNat = _
  rw [BitVec.extractLsb'_eq_self, BitVec.toNat_ofNat, Nat.mod_eq_of_lt hlt]

theorem opcode_eq_one {i : Instr} : opcode i = 0x01 ↔ i = .sysClrerr := by cases i <;> simp [opcode]

theorem opcode_eq_two {i : Instr} : opcode i = 0x02 ↔ i = .sysReset := by cases i <;> simp [opcode]

/-- While `HALT` is latched the block takes no command, while `ERR` is only two (R311). -/
theorem accepted_encode {i : Instr} {s : State} (h : accepted (encode i) s = true) :
    s.halt = false ∧ (s.err = false ∨ i = .sysClrerr ∨ i = .sysReset) := by
  have hop : ∀ j, (encode i == encode j) = true → opcode i = opcode j := fun j e => by
    rw [← opcodeOf_encode, ← opcodeOf_encode, eq_of_beq e]
  unfold accepted at h
  split_ifs at h with hh he
  · refine ⟨Bool.eq_false_iff.2 hh, .inr ?_⟩
    rcases Bool.or_eq_true _ _ |>.mp h with h | h
    · exact .inl (opcode_eq_one.1 (hop _ h))
    · exact .inr (opcode_eq_two.1 (hop _ h))
  · exact ⟨Bool.eq_false_iff.2 hh, .inl (Bool.eq_false_iff.2 he)⟩

end Sys2Proof.Machine
end

section
/-! PROOFS. The frame of every command, said once: its results, what its unit owns, the error state. -/

namespace Sys2Proof.Machine

/-! ### What a command can change (R20, R60, R84, R313) -/

/-- `s` with what the command's unit owns taken from `u`: `BS` the stream, `DICT` the dictionary, `HUF` the tree and
its table or the stream, `PYR` and `RLE0` the output, `PYR.COMPRESS` and `PYR.EXPAND` the units and the dictionary
too. -/
def takeOwn (i : Instr) (s u : State) : State :=
  match i with
  | .sysNop => s
  | .sysClrerr => { s with err := u.err, errCode := u.errCode }
  | .sysReset => u
  | .sysXchg => { s with inb := u.inb, inLen := u.inLen, outb := u.outb, outLen := u.outLen, dict := u.dict }
  | .bsClear | .bsGetpos | .bsSetpos | .bsRead _ | .bsPeek _ | .bsWrite _ | .bsAlign | .bsReadbyte | .bsWritebyte
  | .hufEncode | .hufDecode =>
    { s with bsb := u.bsb, bsLen := u.bsLen, bsByte := u.bsByte, bsBit := u.bsBit }
  | .dictClear _ | .dictInsert | .dictFind | .dictFree => { s with dict := u.dict }
  | .hufBuild => { s with hroot := u.hroot, hcode := u.hcode, hufInfo := u.hufInfo }
  | .pyrCompress | .pyrExpand =>
    { s with
      outb := u.outb, outLen := u.outLen, unit := u.unit, unitLen := u.unitLen
      pyrT12 := u.pyrT12, pyrT16 := u.pyrT16, dict := u.dict }
  | .pyrMatchdec | .rle0Compress | .rle0Decompress => { s with outb := u.outb, outLen := u.outLen }

/-- `s` with the results the command lists (R84) taken from `u`. -/
def takeResults (i : Instr) (s u : State) : State :=
  { s with
    res0 := if writesRes0 i then u.res0 else s.res0
    res1 := if writesRes1 i then u.res1 else s.res1 }

@[simp] theorem takeOwn_self (i : Instr) (s : State) : takeOwn i s s = s := by cases i <;> rfl

/-- The next state of a command: it completed and changed its results and what its unit owns, or it raised one
error in a state that differs from the first in what its unit owns. -/
def Framed (i : Instr) (s t : State) : Prop :=
  t = takeOwn i (takeResults i s t) t ∨ ∃ e n u, t = raise e n (encode i) u ∧ u = takeOwn i s u

/-- From the cases a command can end in to its frame. -/
theorem Ends.framed {i : Instr} {s t : State} {P : State → Prop} {Q : ErrKind → Nat → State → Prop}
    (h : Ends i s P Q) (ht : exec i s = .next t) (hP : P t → t = takeOwn i (takeResults i s t) t)
    (hQ : ∀ e n u, Q e n u → u = takeOwn i s u) : Framed i s t := by
  rcases h.cases ht with hp | ⟨e, n, u, rfl, hq⟩
  · exact .inl (hP hp)
  · exact .inr ⟨e, n, u, rfl, hQ e n u hq⟩

/-- A property of states that neither the results, nor what the unit owns, nor the error state can break. -/
theorem Framed.keeps {i : Instr} {s t : State} (h : Framed i s t) {R : State → Prop} (hs : R s)
    (hres : R s → R (takeResults i s t)) (hown : ∀ r u, R r → R (takeOwn i r u))
    (hraise : ∀ e n u, R u → R (raise e n (encode i) u)) : R t := by
  rcases h with h | ⟨e, n, u, rfl, hu⟩
  · rw [h]; exact hown _ t (hres hs)
  · refine hraise e n u ?_
    rw [hu]; exact hown s u hs

theorem Precise.takeOwn {i : Instr} {s u : State} {Q : ErrKind → Nat → Prop} {e : ErrKind} {n : Nat}
    (h : Precise s Q e n u) : u = takeOwn i s u := by
  rw [h.1, takeOwn_self]

theorem Ends.framed_of_precise {i : Instr} {s t : State} {P : State → Prop} {Q : ErrKind → Nat → Prop}
    (h : Ends i s P (Precise s Q)) (ht : exec i s = .next t) (hP : P t → t = takeOwn i (takeResults i s t) t) :
    Framed i s t := h.framed ht hP fun _ _ _ => Precise.takeOwn

theorem Ends.framed_of_noError {i : Instr} {s t : State} {P : State → Prop}
    (h : Ends i s P fun _ _ _ => False) (ht : exec i s = .next t) (hP : P t → t = takeOwn i (takeResults i s t) t) :
    Framed i s t := h.framed ht hP fun _ _ _ => False.elim

theorem Grows.fields_of_pyrStart {sel : DataSel} {s u : State} (h : Grows (pyrStart sel s) u) :
    u = { s with
      outb := u.outb, outLen := u.outLen, unit := u.unit, unitLen := u.unitLen
      pyrT12 := u.pyrT12, pyrT16 := u.pyrT16, dict := u.dict } := h.frame

/-- What each command changes, said once (R20, R60). The premise is needed for the two commands that fill the
dictionary on their own. -/
theorem exec_framed {i : Instr} {s t : State} (hw : i = .pyrCompress ∨ i = .pyrExpand → 0 < s.cfg.cap)
    (ht : exec i s = .next t) : Framed i s t := by
  cases i with
  | sysNop => exact (sysNop_ends s).framed_of_noError ht fun h => by rw [h]; rfl
  | sysClrerr =>
    refine (sysClrerr_ends s).framed_of_noError ht fun h => ?_
    rw [h]; split_ifs <;> rfl
  | sysReset => exact .inl rfl
  | sysXchg => exact (sysXchg_ends s).framed_of_noError ht fun h => by rw [h]; rfl
  | bsClear => exact (bsClear_ends s).framed_of_noError ht fun h => by rw [h]; rfl
  | bsGetpos => exact (bsGetpos_ends s).framed_of_noError ht fun h => by rw [h]; rfl
  | bsSetpos => exact (bsSetpos_ends s).framed_of_precise ht fun h => by rw [h.1]; rfl
  | bsRead n => exact (bsRead_ends n s).framed_of_precise ht fun h => by rw [h.1]; rfl
  | bsPeek n => exact (bsPeek_ends n s).framed_of_precise ht fun h => by rw [h.1]; rfl
  | bsWrite n => exact (bsWrite_ends n s).framed_of_precise ht fun h => by rw [h.1]; exact bitsWritten_frame _ s
  | bsAlign =>
    refine (bsAlign_ends s).framed_of_noError ht fun h => ?_
    rw [h]; split_ifs <;> rfl
  | bsReadbyte => exact (bsReadbyte_ends s).framed_of_precise ht fun h => by rw [h.1]; rfl
  | bsWritebyte =>
    exact (bsWritebyte_ends s).framed_of_precise ht fun h => by rw [h.1]; exact bitsWritten_frame _ (setPos _ s)
  | dictClear sel => exact (dictClear_ends sel s).framed_of_precise ht fun h => by rw [h.1]; rfl
  | dictInsert => exact (dictInsert_ends s).framed_of_precise ht fun h => by rw [h.1]; rfl
  | dictFind =>
    refine (dictFind_ends s).framed_of_noError ht fun h => ?_
    rw [(findAt_frame (argNat0 s) s).1] at h
    rw [h]; split <;> rfl
  | dictFree => exact (dictFree_ends s).framed_of_precise ht fun h => by rw [h.1]; rfl
  | pyrCompress =>
    refine (pyrCompress_ends s (hw (.inl rfl))).framed ht ?_ ?_
    · rintro ⟨u, rfl, hg, -⟩; rw [hg.fields_of_pyrStart]; rfl
    · rintro e n u ⟨-, -, hg, -⟩; exact hg.fields_of_pyrStart
  | pyrExpand =>
    refine (pyrExpand_ends s (hw (.inr rfl))).framed ht ?_ ?_
    · rintro ⟨u, rfl, hg, -⟩; rw [hg.fields_of_pyrStart]; rfl
    · rintro e n u ⟨hg, -⟩; exact hg.fields_of_pyrStart
  | pyrMatchdec =>
    refine (pyrMatchdec_ends s).framed ht ?_ ?_
    · rintro ⟨l, ip, rfl, -⟩; rfl
    · rintro e n u (⟨rfl, -⟩ | ⟨l, rfl, -⟩)
      · exact (takeOwn_self _ _).symm
      · rfl
  | hufBuild =>
    refine (hufBuild_ends s).framed_of_precise ht ?_
    rintro ⟨-, ⟨-, rfl⟩ | ⟨r, -, -, rfl⟩⟩ <;> rfl
  | hufEncode =>
    refine (hufEncode_ends s).framed_of_precise ht ?_
    rintro ⟨c, rfl, -⟩
    rw [bitsWritten_frame]; rfl
  | hufDecode =>
    refine (hufDecode_ends s).framed_of_noError ht ?_
    rintro (⟨-, rfl⟩ | ⟨r, -, rfl⟩)
    · rfl
    · split <;> rfl
  | rle0Compress =>
    refine (rle0Compress_ends s).framed ht ?_ ?_
    · rintro ⟨l, -, rfl, -⟩; rfl
    · rintro e n u ⟨l, -, -, -, rfl, -⟩; rfl
  | rle0Decompress =>
    refine (rle0Decompress_ends s).framed ht ?_ ?_
    · rintro ⟨l, -, rfl, -⟩; rfl
    · rintro e n u (⟨l, -, -, -, rfl, -⟩ | ⟨l, -, -, -, rfl, -⟩) <;> rfl

end Sys2Proof.Machine
end

section
/-! PROOFS. The register file, host reads and writes of it, and its values after a reset (O8, O9, O10, O18). -/

namespace Sys2Proof.Machine

/-! ### Steps of the host -/

theorem step_of_pending {s : State} {m : HostMove} {rest : List HostMove} (h : s.pending = m :: rest) :
    step s = hostMove m { s with pending := rest } := by
  rw [step, hostStep, h]

theorem atCell_of_lt {size a : Nat} {t : State} (h : a < size) : atCell size a t = .next t := if_pos h

/-- Settles O9. -/
theorem hostReadsAnswerCells : Obligations.HostReadsAnswerCells := by
  intro s rest
  refine ⟨fun n h => step_of_pending h, fun a ha => ⟨?_, ?_, ?_, ?_⟩, fun a ha h => ?_, fun a ha h => ?_,
    fun sym h => ⟨fun hle => ?_, fun hlt => ?_⟩⟩
  iterate 4 exact fun h => (step_of_pending h).trans (atCell_of_lt ha)
  · exact (step_of_pending h).trans (atCell_of_lt ha)
  · exact (step_of_pending h).trans (atCell_of_lt ha)
  · rw [step_of_pending h, hostMove, if_pos hle]
  · rw [step_of_pending h, hostMove, if_neg (Nat.not_le.2 hlt)]

/-! ### The register file (R20, R24, R29, R204) -/

/-- The fields of `STATUS` (R24). -/
theorem statusWord_fields (s : State) :
    (statusWord s).getLsbD 0 = false ∧ (statusWord s).getLsbD 1 = s.err ∧ (statusWord s).getLsbD 2 = s.halt ∧
    (statusWord s).extractLsb' 3 5 = 0#5 ∧ (statusWord s).extractLsb' 8 8 = s.errCode ∧
    (statusWord s).extractLsb' 16 16 = 0#16 := by
  unfold statusWord
  refine ⟨?_, ?_, ?_, ?_, ?_, ?_⟩
  · rw [BitVec.getLsbD_append]; rfl
  · rw [BitVec.getLsbD_append, BitVec.getLsbD_append]; simp
  · rw [BitVec.getLsbD_append, BitVec.getLsbD_append, BitVec.getLsbD_append]; simp
  · rw [BitVec.extractLsb'_append_eq_of_le (by decide), BitVec.extractLsb'_append_eq_of_le (by decide),
      BitVec.extractLsb'_append_eq_of_le (by decide)]
    exact BitVec.extractLsb'_append_eq_right
  · iterate 4 rw [BitVec.extractLsb'_append_eq_of_le (by decide)]
    exact BitVec.extractLsb'_append_eq_right
  · iterate 5 rw [BitVec.extractLsb'_append_eq_of_le (by decide)]
    rfl

/-- The fields of `DICT_CTL` (R29). -/
theorem dictCtlWord_fields (d : Dict) :
    (dictCtlWord d).getLsbD 0 = dselBit d.dsel ∧ (dictCtlWord d).getLsbD 1 = d.freeValid ∧
    (dictCtlWord d).extractLsb' 2 14 = 0#14 ∧ (dictCtlWord d).extractLsb' 16 16 = BitVec.ofNat 16 d.freeIdx := by
  unfold dictCtlWord
  refine ⟨?_, ?_, ?_, ?_⟩
  · rw [BitVec.getLsbD_append]; simp
  · rw [BitVec.getLsbD_append, BitVec.getLsbD_append]; simp
  · iterate 2 rw [BitVec.extractLsb'_append_eq_of_le (by decide)]
    exact BitVec.extractLsb'_append_eq_right
  · iterate 3 rw [BitVec.extractLsb'_append_eq_of_le (by decide)]
    exact BitVec.extractLsb'_eq_self

theorem readReg_width (s : State) : readReg 14 s =
    if s.dict.count ≤ s.cfg.t12 then 8 else if s.dict.count ≤ s.cfg.t16 then 12 else 16 := by
  show toWord (fieldWidth s.cfg s.dict.count) = _
  unfold fieldWidth
  split_ifs <;> rfl

theorem readReg_above {n : Nat} (h : 19 < n) (s : State) : readReg n s = 0 := by
  unfold readReg
  split
  case h_20 => rfl
  all_goals omega

/-- Settles O8. -/
theorem packedRegisterFields : Obligations.PackedRegisterFields := by
  intro s
  refine ⟨statusWord_fields s, dictCtlWord_fields s.dict, readReg_width s, fun h => ?_, ?_⟩
  · rw [readReg_width, h]; rfl
  · exact ⟨rfl, rfl, rfl, rfl, rfl, rfl, rfl, rfl, rfl, rfl, rfl, rfl, rfl, rfl, rfl, rfl, rfl,
      fun n hn => readReg_above hn s⟩

/-! ### A host write to a register (R20, R27) -/

theorem toWord_toNat (v : Word) : toWord v.toNat = v := (BitVec.ofNat_toNat 32 v).trans (BitVec.setWidth_eq v)

/-- Which values a register takes from the host (R20, R27). -/
def takesWrite (n : Nat) (v : Word) (s : State) : Prop :=
  n = 4 ∨ n = 5 ∨ n = 19 ∨ (n = 8 ∨ n = 10) ∧ v.toNat ≤ s.cfg.bufCap

theorem readReg_writeReg_same {n : Nat} {v : Word} {s : State} (h : takesWrite n v s) :
    readReg n (writeReg n v s) = v := by
  rcases h with rfl | rfl | rfl | ⟨rfl | rfl, hv⟩
  · rfl
  · rfl
  · rfl
  · rw [writeReg, if_pos hv]; exact toWord_toNat v
  · rw [writeReg, if_pos hv]; exact toWord_toNat v

/-- A write that is not taken is ignored (93 U5, U6). -/
theorem writeReg_ignored {n : Nat} {v : Word} {s : State} (h : ¬ takesWrite n v s) : writeReg n v s = s := by
  unfold takesWrite at h
  unfold writeReg
  split
  case h_3 | h_4 => rw [if_neg (by simpa using h)]
  case h_6 => rfl
  all_goals simp at h

theorem readReg_writeReg_other {k n : Nat} (h : k ≠ n) (v : Word) (s : State) :
    readReg k (writeReg n v s) = readReg k s := by
  by_cases hn : takesWrite n v s
  · rcases hn with rfl | rfl | rfl | ⟨rfl | rfl, hv⟩
    case inr.inr.inr.inl | inr.inr.inr.inr =>
      rw [writeReg, if_pos hv]
      unfold readReg
      split <;> first | exact absurd rfl h | rfl
    all_goals
      unfold readReg
      split <;> first | exact absurd rfl h | rfl
  · rw [writeReg_ignored hn]

theorem readReg_pending (n : Nat) (s : State) (rest : List HostMove) :
    readReg n { s with pending := rest } = readReg n s := rfl

/-- The fields a host write to a register can change. -/
theorem writeReg_frame (n : Nat) (v : Word) (s : State) : writeReg n v s =
    { s with
      arg0 := (writeReg n v s).arg0, arg1 := (writeReg n v s).arg1, inLen := (writeReg n v s).inLen
      bsLen := (writeReg n v s).bsLen, hufNx := (writeReg n v s).hufNx } := by
  unfold writeReg
  split
  case h_3 | h_4 => split_ifs <;> rfl
  all_goals rfl

/-- Settles O10. -/
theorem hostRegisterWrite : Obligations.HostRegisterWrite := by
  intro s n v rest hp hn
  have hstep : step s = .next (writeReg n v { s with pending := rest }) := by
    rw [step_of_pending hp, hostMove, if_neg hn]
  refine ⟨_, hstep, ?_, fun k hk => readReg_writeReg_other hk v _, writeReg_frame n v _⟩
  split_ifs with h
  · exact readReg_writeReg_same h
  · have hig : writeReg n v { s with pending := rest } = { s with pending := rest } := writeReg_ignored h
    rw [hig, readReg_pending]

/-! ### Reset (R54) -/

/-- The states a reset leaves: every item of R54, the host's own fields free. -/
def resetOf (cfg : Config) (seed : Nat) (pending : List HostMove) (reply : HostReply) : State :=
  { State.resetWith cfg seed with pending := pending, reply := reply }

theorem readReg_resetOf (cfg : Config) (seed : Nat) (pending : List HostMove) (reply : HostReply) (n : Nat) :
    readReg n (resetOf cfg seed pending reply) = if n = 14 then 8 else if n = 15 ∨ n = 16 then 0xFFFFFFFF else 0 := by
  unfold readReg
  split
  case h_1 =>
    show 0#16 ++ 0#8 ++ 0#5 ++ BitVec.ofBool false ++ BitVec.ofBool false ++ 0#1 = 0#32
    decide
  case h_13 =>
    show dictCtlWord (Dict.empty .inSpace) = 0#32
    decide
  case h_14 => exact readReg_width (resetOf cfg seed pending reply)
  case h_20 => simp_all
  all_goals rfl

/-- Settles O18: each of the three ways leaves a state of the form `resetOf`. -/
theorem resetValues : Obligations.ResetValues := by
  intro t ht _
  obtain ⟨cfg, seed, pending, reply, rfl⟩ : ∃ cfg seed pending reply, t = resetOf cfg seed pending reply := by
    rcases ht with rfl | ⟨s, rest, hp, h⟩ | ⟨s, hh, h⟩
    · exact ⟨_, _, [], .none, rfl⟩
    · rw [step_of_pending hp] at h
      cases h; exact ⟨_, _, _, _, rfl⟩
    · obtain rfl := ((sysReset_ends s).cases h).resolve_right (by simp)
      rw [hh]; exact ⟨_, _, _, _, rfl⟩
  exact ⟨readReg_resetOf _ _ _ _, rfl, rfl, rfl, rfl, rfl, rfl, rfl, rfl, rfl, rfl, rfl, fun _ => rfl, fun _ => rfl⟩

end Sys2Proof.Machine
end

section
/-! PROOFS. Every step keeps lengths, cursor and stores within their bounds (O57). -/

namespace Sys2Proof.Machine

/-! ### Lengths, cursor and spaces (R25, R27, R28, R60) -/

/-- A byte space whose length and whose listed cells are within its size. -/
structure Fits (cap : Nat) (b : ByteBuf) (len : Nat) : Prop where
  len : len ≤ cap
  cells : cellsBelow cap b.cells = true

/-- `boundsWf` and `spacesWf` under a legal configuration, space by space. -/
structure InBounds (s : State) : Prop where
  cfg : s.cfg.wf = true
  inp : Fits s.cfg.bufCap s.inb s.inLen
  out : Fits s.cfg.bufCap s.outb s.outLen
  bs : Fits s.cfg.bufCap s.bsb s.bsLen
  bit : s.bsBit < 8
  pos : bitPos s ≤ 8 * s.cfg.bufCap
  unitLen : s.unitLen ≤ s.cfg.bufCap
  unit : cellsBelow s.cfg.bufCap s.unit.cells = true
  xsym : cellsBelow s.cfg.hufXmax s.xsym.cells = true
  freq : cellsBelow 256 s.freq = true
  hcode : cellsBelow (Config.maxSymbol + 1) s.hcode = true

theorem inBounds_iff {s : State} : InBounds s ↔ s.cfg.wf = true ∧ boundsWf s = true ∧ spacesWf s = true := by
  simp only [boundsWf, spacesWf, Bool.and_eq_true, decide_eq_true_eq]
  constructor
  · rintro ⟨h0, ⟨h1, h2⟩, ⟨h3, h4⟩, ⟨h5, h6⟩, h7, h8, h9, h10, h11, h12, h13⟩
    exact ⟨h0, ⟨⟨⟨⟨⟨h1, h3⟩, h5⟩, h7⟩, h8⟩, h9⟩, ⟨⟨⟨⟨⟨h2, h4⟩, h6⟩, h10⟩, h11⟩, h12⟩, h13⟩
  · rintro ⟨h0, ⟨⟨⟨⟨⟨h1, h3⟩, h5⟩, h7⟩, h8⟩, h9⟩, ⟨⟨⟨⟨⟨h2, h4⟩, h6⟩, h10⟩, h11⟩, h12⟩, h13⟩
    exact ⟨h0, ⟨h1, h2⟩, ⟨h3, h4⟩, ⟨h5, h6⟩, h7, h8, h9, h10, h11, h12, h13⟩

theorem cap_pos_of_wf {c : Config} (h : c.wf = true) : 0 < c.cap := by
  simp only [Config.wf, Bool.and_eq_true, decide_eq_true_eq] at h
  omega

theorem Fits.empty (cap seed : Nat) : Fits cap { cells := [], seed := seed } 0 := ⟨Nat.zero_le _, rfl⟩

/-- A shorter length fits. -/
theorem Fits.shorter {cap : Nat} {b : ByteBuf} {m n : Nat} (h : Fits cap b m) (hn : n ≤ cap) : Fits cap b n :=
  ⟨hn, h.cells⟩

theorem Fits.write {cap : Nat} {b : ByteBuf} {len a : Nat} (v : Byte) (h : Fits cap b len) (ha : a < cap) :
    Fits cap (bufWrite b a v) len := ⟨h.len, cellSet_below v h.cells ha⟩

theorem Fits.storeAll {cap : Nat} {b : ByteBuf} {len : Nat} {l : List Byte} (h : Fits cap b len)
    (hl : len + l.length ≤ cap) : Fits cap (storeAll b len l) (len + l.length) := ⟨hl, storeAll_below h.cells hl⟩

section updates
variable {s : State} (h : InBounds s)
include h

theorem InBounds.raise (e : ErrKind) (n : Nat) (w : Word) : InBounds (raise e n w s) := { h with }

theorem InBounds.setRes0 (n : Nat) : InBounds (setRes0 n s) := { h with }

theorem InBounds.setRes (m n : Nat) : InBounds (setRes m n s) := { h with }

theorem InBounds.withRes0 (v : Word) : InBounds { s with res0 := v } := { h with }

theorem InBounds.withResults (v w : Word) : InBounds { s with res0 := v, res1 := w } := { h with }

theorem InBounds.withDict (d : Dict) : InBounds { s with dict := d } := { h with }

theorem InBounds.setPos {p : Nat} (hp : p ≤ 8 * s.cfg.bufCap) : InBounds (setPos p s) :=
  { h with
    bit := Nat.mod_lt p (by decide)
    pos := by rw [bitPos_setPos]; exact hp }

theorem InBounds.appended {l : List Byte} (hl : s.outLen + l.length ≤ s.cfg.bufCap) : InBounds (appended l s) :=
  { h with out := h.out.storeAll hl }

theorem InBounds.bitOred {p : Nat} (b : Bool) (hp : p / 8 < s.cfg.bufCap) : InBounds (bitOred p b s) := by
  have hgrow : s.bsLen + (List.replicate (p / 8 + 1 - s.bsLen) (0#8 : Byte)).length ≤ s.cfg.bufCap := by
    have := h.bs.len
    rw [List.length_replicate]; omega
  have hbs := h.bs.storeAll hgrow
  unfold Machine.bitOred
  rw [growZero_eq]
  rw [List.length_replicate] at hbs
  exact { h with bs := hbs.write _ hp }

theorem InBounds.reset : InBounds (resetBlock s) where
  cfg := h.cfg
  inp := Fits.empty _ _
  out := Fits.empty _ _
  bs := Fits.empty _ _
  bit := Nat.succ_pos 7
  pos := Nat.zero_le _
  unitLen := Nat.zero_le _
  unit := rfl
  xsym := rfl
  freq := rfl
  hcode := rfl

end updates

theorem InBounds.bitsWritten {l : List Bool} {s : State} (h : InBounds s)
    (hl : bitPos s + l.length ≤ 8 * s.cfg.bufCap) : InBounds (bitsWritten l s) := by
  induction l generalizing s with
  | nil => exact h
  | cons b l ih =>
    rw [List.length_cons] at hl
    have hb : InBounds (Machine.bitOred (bitPos s) b s) := h.bitOred b (by omega)
    refine ih (hb.setPos ?_) ?_
    · rw [bitOred_cfg]; omega
    · rw [bitPos_setPos, setPos_cfg, bitOred_cfg]; omega

/-- What a codec pass leaves is in bounds when its lengths are. -/
theorem InBounds.grows {sel : DataSel} {s u : State} (h : InBounds s) (hg : Grows (pyrStart sel s) u)
    (hout : u.outLen ≤ s.cfg.bufCap) (hunit : u.unitLen ≤ s.cfg.bufCap) : InBounds u := by
  have hcells := hg.outBelow _ hout h.out.cells
  have hunits := hg.unitBelow _ hunit h.unit
  rw [hg.fields_of_pyrStart]
  exact { h with out := ⟨hout, hcells⟩, unitLen := hunit, unit := hunits }

/-- A state every error is latched from is in bounds, so the state after is. -/
theorem Ends.inBounds {i : Instr} {s t : State} {P : State → Prop} {Q : ErrKind → Nat → State → Prop}
    (h : Ends i s P Q) (ht : exec i s = .next t) (hP : P t → InBounds t) (hQ : ∀ e n u, Q e n u → InBounds u) :
    InBounds t := by
  rcases h.cases ht with hp | ⟨e, n, u, rfl, hq⟩
  · exact hP hp
  · exact (hQ e n u hq).raise e n _

theorem Ends.inBounds_of_precise {i : Instr} {s t : State} {P : State → Prop} {Q : ErrKind → Nat → Prop}
    (h : Ends i s P (Precise s Q)) (hs : InBounds s) (ht : exec i s = .next t) (hP : P t → InBounds t) : InBounds t :=
  h.inBounds ht hP fun _ _ _ hq => hq.1 ▸ hs

theorem Ends.inBounds_of_noError {i : Instr} {s t : State} {P : State → Prop}
    (h : Ends i s P fun _ _ _ => False) (ht : exec i s = .next t) (hP : P t → InBounds t) : InBounds t :=
  h.inBounds ht hP fun _ _ _ => False.elim

theorem hufBuild_inBounds {s t : State} (hs : InBounds s) (ht : exec .hufBuild s = .next t) : InBounds t := by
  refine (hufBuild_ends s).inBounds_of_precise hs ht ?_
  rintro ⟨hx, ⟨-, rfl⟩ | ⟨r, hperm, -, rfl⟩⟩
  · exact { hs with hcode := rfl }
  · have hsym : ∀ v ∈ treeSymbols r, v < Config.maxSymbol + 1 := fun v hv =>
      Nat.lt_succ_of_le ((hufLeaves_symbols hx).2.2.2.1 v (hperm.mem_iff.1 hv))
    exact { hs with hcode := assignCodes_below r [] rfl hsym }

theorem hufDecode_inBounds {s t : State} (hs : InBounds s) (ht : exec .hufDecode s = .next t) : InBounds t := by
  refine (hufDecode_ends s).inBounds_of_noError ht ?_
  rintro (⟨-, rfl⟩ | ⟨r, -, rfl⟩)
  · exact hs.withResults _ _
  · have hp : (hufWalk s r (bitPos s)).2 ≤ 8 * s.cfg.bufCap := by
      have := (hufWalk_pos s r (bitPos s)).2
      have := hs.pos
      have := hs.bs.len
      omega
    split
    · exact (hs.setPos hp).setRes _ _
    · exact (hs.setPos hp).withResults _ _

/-- Every command keeps lengths, cursor and stores within their bounds. -/
theorem exec_inBounds {i : Instr} {s t : State} (hs : InBounds s) (ht : exec i s = .next t) : InBounds t := by
  have hcap := cap_pos_of_wf hs.cfg
  have hin := hs.inp.len
  have hbs := hs.bs.len
  have hempty : InBounds { s with outLen := 0 } := { hs with out := hs.out.shorter (Nat.zero_le _) }
  cases i with
  | sysNop => exact (sysNop_ends s).inBounds_of_noError ht fun h => h ▸ hs
  | sysClrerr =>
    refine (sysClrerr_ends s).inBounds_of_noError ht fun h => ?_
    rw [h]; split_ifs
    · exact hs
    · exact { hs with }
  | sysReset =>
    refine (sysReset_ends s).inBounds_of_noError ht fun h => ?_
    rw [h]; split_ifs
    · exact hs
    · exact hs.reset
  | sysXchg =>
    exact (sysXchg_ends s).inBounds_of_noError ht fun h => h ▸ { hs with inp := hs.out, out := hs.inp }
  | bsClear =>
    exact (bsClear_ends s).inBounds_of_noError ht fun h => h ▸
      { hs with bs := hs.bs.shorter (Nat.zero_le _), bit := Nat.succ_pos 7, pos := Nat.zero_le _ }
  | bsGetpos => exact (bsGetpos_ends s).inBounds_of_noError ht fun h => h ▸ hs.withRes0 _
  | bsSetpos =>
    refine (bsSetpos_ends s).inBounds_of_precise hs ht ?_
    rintro ⟨rfl, hp⟩; exact hs.setPos hp
  | bsRead n =>
    refine (bsRead_ends n s).inBounds_of_precise hs ht ?_
    rintro ⟨rfl, -, hp⟩
    refine (hs.withRes0 _).setPos ?_
    have := hs.pos
    show bitPos s + n ≤ 8 * s.cfg.bufCap
    omega
  | bsPeek n => exact (bsPeek_ends n s).inBounds_of_precise hs ht fun h => h.1 ▸ hs.withRes0 _
  | bsWrite n =>
    refine (bsWrite_ends n s).inBounds_of_precise hs ht ?_
    rintro ⟨rfl, -, hp⟩; exact hs.bitsWritten (by rw [bitsOf_length]; exact hp)
  | bsAlign =>
    refine (bsAlign_ends s).inBounds_of_noError ht fun h => ?_
    rw [h]; split_ifs with h0
    · exact hs
    · have hpos := hs.pos
      refine { hs with bit := Nat.succ_pos 7, pos := ?_ }
      simp only [bitPos] at hpos ⊢
      omega
  | bsReadbyte =>
    refine (bsReadbyte_ends s).inBounds_of_precise hs ht ?_
    rintro ⟨rfl, hp⟩
    refine (hs.withRes0 _).setPos ?_
    show alignedPos s + 8 ≤ 8 * s.cfg.bufCap
    omega
  | bsWritebyte =>
    refine (bsWritebyte_ends s).inBounds_of_precise hs ht ?_
    rintro ⟨rfl, hp⟩
    refine (hs.setPos (Nat.le_of_add_right_le hp)).bitsWritten ?_
    rw [bitPos_setPos, bitsOf_length]; exact hp
  | dictClear sel => exact (dictClear_ends sel s).inBounds_of_precise hs ht fun h => h.1 ▸ hs.withDict _
  | dictInsert => exact (dictInsert_ends s).inBounds_of_precise hs ht fun h => h.1 ▸ (hs.withDict _).setRes0 _
  | dictFind =>
    refine (dictFind_ends s).inBounds_of_noError ht fun h => ?_
    rw [(findAt_frame (argNat0 s) s).1] at h
    rw [h]; split
    · exact (hs.withDict _).setRes _ _
    · exact (hs.withDict _).withResults _ _
  | dictFree => exact (dictFree_ends s).inBounds_of_precise hs ht fun h => h.1 ▸ (hs.withDict _).setRes0 _
  | pyrCompress =>
    refine (pyrCompress_ends s hcap).inBounds ht ?_ ?_
    · rintro ⟨u, rfl, hg, hunit, -, hout⟩; exact (hs.grows hg hout (hunit.trans hin)).setRes _ _
    · rintro e n u ⟨-, -, hg, hunit, hout, -⟩; exact hs.grows hg hout (hunit.trans hin)
  | pyrExpand =>
    refine (pyrExpand_ends s hcap).inBounds ht ?_ ?_
    · rintro ⟨u, rfl, hg, hunit, hout⟩; exact (hs.grows hg hout (hunit.trans hout)).setRes _ _
    · rintro e n u ⟨hg, hunit, hout, -⟩; exact hs.grows hg hout (hunit.trans hout)
  | pyrMatchdec =>
    refine (pyrMatchdec_ends s).inBounds ht ?_ ?_
    · rintro ⟨l, ip, rfl, harg, hl, -⟩
      exact (hempty.appended (by simp only; omega)).setRes _ _
    · rintro e n u (⟨rfl, -⟩ | ⟨l, rfl, harg, hl, -⟩)
      · exact hs
      · exact hempty.appended (by simp only; omega)
  | hufBuild => exact hufBuild_inBounds hs ht
  | hufEncode =>
    refine (hufEncode_ends s).inBounds_of_precise hs ht ?_
    rintro ⟨c, rfl, -, -, hp⟩; exact (hs.bitsWritten hp).setRes0 _
  | hufDecode => exact hufDecode_inBounds hs ht
  | rle0Compress =>
    refine (rle0Compress_ends s).inBounds ht ?_ ?_
    · rintro ⟨l, -, rfl, hl⟩; exact (hempty.appended (by simpa using hl)).setRes0 _
    · rintro e n u ⟨l, -, -, -, rfl, -⟩; exact hempty.appended (by simp)
  | rle0Decompress =>
    refine (rle0Decompress_ends s).inBounds ht ?_ ?_
    · rintro ⟨l, -, rfl, hl⟩; exact (hempty.appended (by simpa using hl)).setRes0 _
    · rintro e n u (⟨l, -, -, -, rfl, hl⟩ | ⟨l, -, -, -, rfl, -⟩)
      · exact hempty.appended (by simpa using hl)
      · exact hempty.appended (by simp)

theorem writeReg_inBounds {s : State} (hs : InBounds s) (n : Nat) (v : Word) : InBounds (writeReg n v s) := by
  unfold writeReg
  split
  · exact { hs with }
  · exact { hs with }
  · split_ifs with hv
    · exact { hs with inp := hs.inp.shorter hv }
    · exact hs
  · split_ifs with hv
    · exact { hs with bs := hs.bs.shorter hv }
    · exact hs
  · exact { hs with }
  · exact hs

theorem hostByteWrite_inBounds {s : State} (hs : InBounds s) (sp : ByteSpace) {a : Nat} (v : Byte)
    (ha : a < s.cfg.bufCap) : InBounds (hostByteWrite sp a v s) := by
  cases sp with
  | inp => exact { hs with inp := hs.inp.write v ha }
  | out => exact hs
  | bsb => exact { hs with bs := hs.bs.write v ha }

theorem freqWrite_below {n : Nat} {f : List (Nat × Word)} {a : Nat} (v : Word) (h : cellsBelow n f = true)
    (ha : a < n) : cellsBelow n (freqWrite f a v) = true := by
  unfold freqWrite
  split_ifs
  · exact cellErase_below a h
  · exact cellSet_below v h ha

theorem hostWordWrite_inBounds {s : State} (hs : InBounds s) (sp : WordSpace) {a : Nat} (v : Word)
    (ha : a < wordSpaceSize sp s) : InBounds (hostWordWrite sp a v s) := by
  cases sp with
  | freq => exact { hs with freq := freqWrite_below v hs.freq ha }
  | xsym => exact { hs with xsym := cellSet_below v hs.xsym ha }
  | unit => exact hs

/-- Settles O57: each command and each host access keeps the bounds, so every step does. -/
theorem stepKeepsBounds : Obligations.StepKeepsBounds := by
  intro s t hcfg hb hsp ht
  refine (inBounds_iff.1 (step_keeps (P := InBounds) s t ?_ ?_ ?_ ?_ ?_ ?_ ?_ ?_ ?_
    (inBounds_iff.2 ⟨hcfg, hb, hsp⟩) ht)).2
  · exact fun s hs _ => { hs with }
  · exact fun s hs _ => { hs with }
  · exact fun i s t hs _ h => exec_inBounds hs h
  · exact fun w s hs _ => hs.raise _ _ _
  · exact fun n v s hs => writeReg_inBounds hs n v
  · exact fun sp a v s hs ha => hostByteWrite_inBounds hs sp v ha
  · exact fun sp a v s hs ha => hostWordWrite_inBounds hs sp v ha
  · exact fun s hs => hs.reset
  · exact fun w i h => encode_of_commandOf h

end Sys2Proof.Machine
end

section
/-! PROOFS. Every step keeps `STATUS` legal and the Huffman state whole (O56, O59); a reset has every invariant (O60). -/

namespace Sys2Proof.Machine

/-! ### STATUS (R24, R302) -/

/-- `statusWf` as the three states the latch can be in. -/
theorem statusWf_iff {s : State} : statusWf s = true ↔
    (s.err = true ∧ s.halt = false ∧ s.errCode ∈ classDCodes) ∨
    (s.err = false ∧ s.halt = true ∧ s.errCode ∈ classPCodes) ∨
    (s.err = false ∧ s.halt = false ∧ s.errCode = 0) := by
  unfold statusWf
  cases s.err <;> cases s.halt <;> simp

theorem zero_notMem_classDCodes : (0 : Byte) ∉ classDCodes := by decide
theorem zero_notMem_classPCodes : (0 : Byte) ∉ classPCodes := by decide

/-- R24: the code is 0 exactly when nothing is latched, and no two classes are latched at once. -/
theorem errCode_eq_zero_iff {s : State} (h : statusWf s = true) :
    (s.errCode = 0 ↔ s.err = false ∧ s.halt = false) ∧ ¬ (s.err = true ∧ s.halt = true) := by
  rcases statusWf_iff.1 h with ⟨he, hh, hc⟩ | ⟨he, hh, hc⟩ | ⟨he, hh, hc⟩
  · simpa [he, hh] using fun h0 : s.errCode = 0 => zero_notMem_classDCodes (h0 ▸ hc)
  · simpa [he, hh] using fun h0 : s.errCode = 0 => zero_notMem_classPCodes (h0 ▸ hc)
  · simp [he, hh, hc]

theorem latched_eq_false {s : State} : latched s = false ↔ s.err = false ∧ s.halt = false := by simp [latched]

/-- Raising from an unlatched state latches one error, with a code of its class (R302, R310). -/
theorem raise_statusWf {s : State} (hl : latched s = false) (e : ErrKind) (n : Nat) (w : Word) :
    statusWf (raise e n w s) = true := by
  obtain ⟨he, hh⟩ := latched_eq_false.1 hl
  rw [statusWf_iff, raise_err, raise_halt, raise_errCode, he, hh]
  cases e <;> decide

/-- A completing command leaves the error state (R24), save `SYS.CLRERR` and `SYS.RESET`, which own it (R291, R292). -/
theorem sameError_takeOwn {i : Instr} (hc : i ≠ .sysClrerr) (hr : i ≠ .sysReset) {s r : State} (u : State)
    (h : sameError s r) : sameError s (takeOwn i r u) := by
  cases i
  case sysClrerr => exact absurd rfl hc
  case sysReset => exact absurd rfl hr
  all_goals exact h

/-- No command touches what is the host's (log 2, log 12). -/
theorem exec_sameHost {i : Instr} {s t : State} (hw : i = .pyrCompress ∨ i = .pyrExpand → 0 < s.cfg.cap)
    (ht : exec i s = .next t) : sameHost s t := by
  by_cases hr : i = .sysReset
  · subst hr
    obtain rfl := ((sysReset_ends s).cases ht).resolve_right (by simp)
    split_ifs <;> exact ⟨rfl, rfl, rfl⟩
  refine (exec_framed hw ht).keeps ⟨rfl, rfl, rfl⟩ id (fun r u h => ?_) fun _ _ _ => id
  cases i
  case sysReset => exact absurd rfl hr
  all_goals exact h

theorem exec_statusWf {i : Instr} {s t : State} (hcfg : s.cfg.wf = true) (hs : statusWf s = true)
    (hacc : accepted (encode i) s = true) (ht : exec i s = .next t) : statusWf t = true := by
  obtain ⟨hh, hacc⟩ := accepted_encode hacc
  by_cases hc : i = .sysClrerr
  · subst hc
    obtain rfl := ((sysClrerr_ends s).cases ht).resolve_right (by simp)
    rw [hh, statusWf_iff]
    exact .inr (.inr ⟨rfl, hh, rfl⟩)
  by_cases hr : i = .sysReset
  · subst hr
    obtain rfl := ((sysReset_ends s).cases ht).resolve_right (by simp)
    rw [hh]
    rfl
  have hl : latched s = false := latched_eq_false.2 ⟨by tauto, hh⟩
  rcases exec_framed (fun _ => cap_pos_of_wf hcfg) ht with h | ⟨e, n, u, rfl, hu⟩
  · obtain ⟨h1, h2, h3, -⟩ : sameError s t := by
      rw [h]; exact sameError_takeOwn hc hr t ⟨rfl, rfl, rfl, rfl, rfl⟩
    rw [statusWf, h1, h2, h3]; exact hs
  · have hue : sameError s u := by
      rw [hu]; exact sameError_takeOwn hc hr u ⟨rfl, rfl, rfl, rfl, rfl⟩
    exact raise_statusWf (by rw [latched, hue.1, hue.2.1]; exact hl) e n _

/-- Settles O56. -/
theorem stepKeepsStatus : Obligations.StepKeepsStatus := by
  intro s t hcfg hs ht
  have key : t.cfg.wf = true ∧ statusWf t = true := by
    refine step_keeps (P := fun s => s.cfg.wf = true ∧ statusWf s = true) s t ?_ ?_ ?_ ?_ ?_ ?_ ?_ ?_ ?_ ⟨hcfg, hs⟩ ht
    · exact fun s hs _ => hs
    · exact fun s hs _ => hs
    · exact fun i s t hs hacc h =>
        ⟨(exec_sameHost (fun _ => cap_pos_of_wf hs.1) h).1 ▸ hs.1, exec_statusWf hs.1 hs.2 hacc h⟩
    · exact fun w s hs hl => ⟨hs.1, raise_statusWf hl _ _ _⟩
    · exact fun n v s hs => by rw [writeReg_frame]; exact hs
    · exact fun sp a v s hs _ => by cases sp <;> exact hs
    · exact fun sp a v s hs _ => by cases sp <;> exact hs
    · exact fun s hs => ⟨hs.1, rfl⟩
    · exact fun w i h => encode_of_commandOf h
  exact ⟨key.2, errCode_eq_zero_iff key.2⟩

/-! ### The Huffman state (R50, R51, R31) -/

theorem hufWf_congr {s t : State} (h : sameHufTree s t) : hufWf t = hufWf s := by
  rw [hufWf, hufWf, h.1, h.2.1, h.2.2]

/-- The state without a tree. -/
theorem hufWf_none {s : State} (hr : s.hroot = none) (hc : s.hcode = []) (hi : s.hufInfo = hufInfoWord 0) :
    hufWf s = true := by
  simp [hufWf, hr, hc, hi]

/-- The state a build of a tree leaves (R251). -/
theorem hufWf_some {s : State} {r : HufTree} (hr : s.hroot = some r) (hn : (treeSymbols r).Nodup)
    (hle : ∀ v ∈ treeSymbols r, v ≤ Config.maxSymbol) (hc : s.hcode = assignCodes r [] [])
    (hi : s.hufInfo = hufInfoWord (treeSymbols r).length) : hufWf s = true := by
  simp only [hufWf, hr, Bool.and_eq_true, decide_eq_true_eq, List.all_eq_true, beq_iff_eq]
  exact ⟨⟨⟨hn, hle⟩, hc⟩, hi⟩

theorem resetBlock_hufWf (s : State) : hufWf (resetBlock s) = true :=
  hufWf_none rfl rfl (show (0 : Word) = hufInfoWord 0 by decide)

/-- A build leaves no tree, or one over the leaves of R252, whose symbols are distinct and in range. -/
theorem hufBuild_hufWf {s t : State} (hs : hufWf s = true) (ht : exec .hufBuild s = .next t) : hufWf t = true := by
  rcases (hufBuild_ends s).cases ht with ⟨hx, ⟨-, rfl⟩ | ⟨r, hperm, hlen, rfl⟩⟩ | ⟨e, n, u, rfl, rfl, -⟩
  · exact hufWf_none rfl rfl rfl
  · obtain ⟨-, hnodup, -, hle, -⟩ := hufLeaves_symbols hx
    exact hufWf_some rfl (hperm.nodup_iff.2 hnodup) (fun v hv => hle v (hperm.mem_iff.1 hv)) rfl (by rw [hlen]; rfl)
  · exact hs

/-- Only `HUF.BUILD` and `SYS.RESET` own the tree, the table and `HUF_INFO` (R251). -/
theorem exec_sameHufTree {i : Instr} {s t : State} (hw : i = .pyrCompress ∨ i = .pyrExpand → 0 < s.cfg.cap)
    (hb : i ≠ .hufBuild) (hr : i ≠ .sysReset) (ht : exec i s = .next t) : sameHufTree s t := by
  refine (exec_framed hw ht).keeps ⟨rfl, rfl, rfl⟩ id (fun r u h => ?_) fun _ _ _ => id
  cases i
  case hufBuild => exact absurd rfl hb
  case sysReset => exact absurd rfl hr
  all_goals exact h

theorem exec_hufWf {i : Instr} {s t : State} (hw : i = .pyrCompress ∨ i = .pyrExpand → 0 < s.cfg.cap)
    (hs : hufWf s = true) (ht : exec i s = .next t) : hufWf t = true := by
  by_cases hb : i = .hufBuild
  · subst hb; exact hufBuild_hufWf hs ht
  by_cases hr : i = .sysReset
  · subst hr
    obtain rfl := ((sysReset_ends s).cases ht).resolve_right (by simp)
    split_ifs
    · exact hs
    · exact resetBlock_hufWf s
  rw [hufWf_congr (exec_sameHufTree hw hb hr ht)]
  exact hs

/-- Settles O59. -/
theorem stepKeepsHuffman : Obligations.StepKeepsHuffman := by
  intro s t hcfg hs ht
  refine (step_keeps (P := fun s => s.cfg.wf = true ∧ hufWf s = true) s t ?_ ?_ ?_ ?_ ?_ ?_ ?_ ?_ ?_ ⟨hcfg, hs⟩ ht).2
  · exact fun s hs _ => hs
  · exact fun s hs _ => hs
  · intro i s t hs _ h
    have hw : i = .pyrCompress ∨ i = .pyrExpand → 0 < s.cfg.cap := fun _ => cap_pos_of_wf hs.1
    exact ⟨(exec_sameHost hw h).1 ▸ hs.1, exec_hufWf hw hs.2 h⟩
  · exact fun w s hs _ => hs
  · exact fun n v s hs => by rw [writeReg_frame]; exact hs
  · exact fun sp a v s hs _ => by cases sp <;> exact hs
  · exact fun sp a v s hs _ => by cases sp <;> exact hs
  · exact fun s hs => ⟨hs.1, resetBlock_hufWf s⟩
  · exact fun w i h => encode_of_commandOf h

/-- Settles O60. -/
theorem resetHasInvariants : Obligations.ResetHasInvariants := by
  unfold Obligations.ResetHasInvariants
  decide

end Sys2Proof.Machine
end

section
/-! PROOFS. What the commands leave unchanged: the general registers and the other units' state (O16, O54). -/

namespace Sys2Proof.Machine

/-! ### Argument and result registers (R21, R84) -/

theorem exec_sameArgs {i : Instr} {s t : State} (hw : i = .pyrCompress ∨ i = .pyrExpand → 0 < s.cfg.cap)
    (hr : i ≠ .sysReset) (ht : exec i s = .next t) : sameArgs s t := by
  refine (exec_framed hw ht).keeps ⟨rfl, rfl⟩ id (fun r u h => ?_) fun _ _ _ => id
  cases i
  case sysReset => exact absurd rfl hr
  all_goals exact h

/-- No unit but the whole block's reset owns the results. -/
theorem sameResults_takeOwn {i : Instr} (hr : i ≠ .sysReset) (r u : State) : sameResults r (takeOwn i r u) := by
  cases i
  case sysReset => exact absurd rfl hr
  all_goals exact ⟨rfl, rfl⟩

theorem takeResults_res0 {i : Instr} (s u : State) (h : writesRes0 i = false) : (takeResults i s u).res0 = s.res0 := by
  simp [takeResults, h]

theorem takeResults_res1 {i : Instr} (s u : State) (h : writesRes1 i = false) : (takeResults i s u).res1 = s.res1 := by
  simp [takeResults, h]

/-- Settles O16: a completing command writes the results it lists, a raising one none. -/
theorem generalRegistersKept : Obligations.GeneralRegistersKept := by
  intro i s t hr hcfg hl ht
  have hw : i = .pyrCompress ∨ i = .pyrExpand → 0 < s.cfg.cap := fun _ => cap_pos_of_wf hcfg
  refine ⟨exec_sameArgs hw hr ht, ?_⟩
  rcases exec_framed hw ht with h | ⟨e, n, u, rfl, hu⟩
  · obtain ⟨h0, h1⟩ := sameResults_takeOwn hr (takeResults i s t) t
    rw [← h] at h0 h1
    refine ⟨fun hi => h0.trans (takeResults_res0 s t hi), fun hi => h1.trans (takeResults_res1 s t hi), fun hlt => ?_⟩
    by_cases hc : i = .sysClrerr
    · subst hc; exact ⟨h0, h1⟩
    · have he : sameError s t := by
        rw [h]; exact sameError_takeOwn hc hr t ⟨rfl, rfl, rfl, rfl, rfl⟩
      rw [latched, he.1, he.2.1] at hlt
      exact absurd hl (by rw [latched, hlt]; decide)
  · have hres : sameResults s u := by rw [hu]; exact sameResults_takeOwn hr s u
    exact ⟨fun _ => hres.1, fun _ => hres.2, fun _ => hres⟩

/-! ### Each unit and its own state (R20, R60, R251) -/

/-- What no command but those of the system unit touches: the parameters, the host's moves and reply, the families
of free values, the arguments, `IN` and the inputs of the Huffman unit. -/
def sameOutside (s t : State) : Prop :=
  sameHost s t ∧ sameSeeds s t ∧ sameArgs s t ∧ sameIn s t ∧ sameHufInputs s t

theorem sameOutside_refl (s : State) : sameOutside s s :=
  ⟨⟨rfl, rfl, rfl⟩, rfl, ⟨rfl, rfl⟩, ⟨rfl, rfl⟩, rfl, rfl, rfl⟩

/-- What a `BS` command leaves. -/
def keepsBesidesStream (s t : State) : Prop :=
  sameOutside s t ∧ sameOut s t ∧ t.dict = s.dict ∧ sameUnits s t ∧ sameHufTree s t ∧ t.res1 = s.res1

/-- What a `DICT` command leaves. -/
def keepsBesidesDict (s t : State) : Prop :=
  sameOutside s t ∧ sameOut s t ∧ sameStream s t ∧ sameUnits s t ∧ sameHufTree s t

/-- What `HUF.BUILD` leaves (R251). -/
def keepsBesidesTree (s t : State) : Prop :=
  sameOutside s t ∧ sameOut s t ∧ sameStream s t ∧ t.dict = s.dict ∧ sameUnits s t ∧ t.res1 = s.res1

/-- What `HUF.ENCODE` and `HUF.DECODE` leave. -/
def keepsBesidesCoder (s t : State) : Prop :=
  sameOutside s t ∧ sameOut s t ∧ t.dict = s.dict ∧ sameUnits s t ∧ sameHufTree s t

/-- What every `PYR` and `RLE0` command leaves. -/
def keepsBesidesCodec (s t : State) : Prop := sameOutside s t ∧ sameStream s t ∧ sameHufTree s t

theorem bs_keeps {i : Instr} {s t : State}
    (hi : (∃ n, i = .bsRead n ∨ i = .bsPeek n ∨ i = .bsWrite n) ∨ i = .bsClear ∨ i = .bsGetpos ∨ i = .bsSetpos ∨
      i = .bsAlign ∨ i = .bsReadbyte ∨ i = .bsWritebyte) (ht : exec i s = .next t) : keepsBesidesStream s t := by
  have hf := exec_framed (fun h => by rcases h with rfl | rfl <;> simp at hi) ht
  refine hf.keeps ⟨sameOutside_refl s, ⟨rfl, rfl⟩, rfl, ⟨rfl, rfl, rfl, rfl⟩, ⟨rfl, rfl, rfl⟩, rfl⟩ (fun h => ?_)
    (fun r u h => ?_) fun _ _ _ => id
  all_goals rcases hi with ⟨n, rfl | rfl | rfl⟩ | rfl | rfl | rfl | rfl | rfl | rfl <;> exact h

theorem dict_keeps {i : Instr} {s t : State}
    (hi : (∃ sel, i = .dictClear sel) ∨ i = .dictInsert ∨ i = .dictFind ∨ i = .dictFree) (ht : exec i s = .next t) :
    keepsBesidesDict s t := by
  have hf := exec_framed (fun h => by rcases h with rfl | rfl <;> simp at hi) ht
  refine hf.keeps ⟨sameOutside_refl s, ⟨rfl, rfl⟩, ⟨rfl, rfl, rfl, rfl⟩, ⟨rfl, rfl, rfl, rfl⟩, ⟨rfl, rfl, rfl⟩⟩ id
    (fun r u h => ?_) fun _ _ _ => id
  rcases hi with ⟨sel, rfl⟩ | rfl | rfl | rfl <;> exact h

theorem hufBuild_keeps {s t : State} (ht : exec .hufBuild s = .next t) : keepsBesidesTree s t :=
  (exec_framed (by simp) ht).keeps
    ⟨sameOutside_refl s, ⟨rfl, rfl⟩, ⟨rfl, rfl, rfl, rfl⟩, rfl, ⟨rfl, rfl, rfl, rfl⟩, rfl⟩ id (fun _ _ => id)
    fun _ _ _ => id

theorem hufCoder_keeps {i : Instr} {s t : State} (hi : i = .hufEncode ∨ i = .hufDecode)
    (ht : exec i s = .next t) : keepsBesidesCoder s t := by
  have hf := exec_framed (fun h => by rcases h with rfl | rfl <;> simp at hi) ht
  refine hf.keeps ⟨sameOutside_refl s, ⟨rfl, rfl⟩, rfl, ⟨rfl, rfl, rfl, rfl⟩, ⟨rfl, rfl, rfl⟩⟩ id (fun r u h => ?_)
    fun _ _ _ => id
  rcases hi with rfl | rfl <;> exact h

theorem codec_keeps {i : Instr} {s t : State} (hcap : 0 < s.cfg.cap)
    (hi : i = .pyrCompress ∨ i = .pyrExpand ∨ i = .pyrMatchdec ∨ i = .rle0Compress ∨ i = .rle0Decompress)
    (ht : exec i s = .next t) : keepsBesidesCodec s t := by
  refine (exec_framed (fun _ => hcap) ht).keeps ⟨sameOutside_refl s, ⟨rfl, rfl, rfl, rfl⟩, ⟨rfl, rfl, rfl⟩⟩ id
    (fun r u h => ?_) fun _ _ _ => id
  rcases hi with rfl | rfl | rfl | rfl | rfl <;> exact h

/-- The decoder of matches and the run-length coders use neither dictionary nor units. -/
theorem byteCodec_keeps {i : Instr} {s t : State}
    (hi : i = .pyrMatchdec ∨ i = .rle0Compress ∨ i = .rle0Decompress) (ht : exec i s = .next t) :
    t.dict = s.dict ∧ sameUnits s t := by
  have hf := exec_framed (fun h => by rcases h with rfl | rfl <;> simp at hi) ht
  refine hf.keeps (R := fun t => t.dict = s.dict ∧ sameUnits s t) ⟨rfl, rfl, rfl, rfl, rfl⟩ id (fun r u h => ?_)
    fun _ _ _ => id
  rcases hi with rfl | rfl | rfl <;> exact h

theorem rle0_keeps_res1 {i : Instr} {s t : State} (hi : i = .rle0Compress ∨ i = .rle0Decompress)
    (ht : exec i s = .next t) : t.res1 = s.res1 := by
  have hf := exec_framed (fun h => by rcases h with rfl | rfl <;> simp at hi) ht
  refine hf.keeps (R := fun t => t.res1 = s.res1) rfl (fun h => ?_) (fun r u h => ?_) fun _ _ _ => id
  all_goals rcases hi with rfl | rfl <;> exact h

/-! ### The cells beyond the new lengths (R62) -/

/-- The cells of `OUT` and `UNIT` at and above the lengths of `t` are those of `s`. -/
def SameBeyond (s t : State) : Prop :=
  (∀ a, t.outLen ≤ a → bufRead t.outb a = bufRead s.outb a) ∧
  ∀ k, t.unitLen ≤ k → wordRead t.unit k = wordRead s.unit k

theorem Grows.sameBeyond {s t : State} (h : Grows s t) : SameBeyond s t := ⟨h.outAbove, h.unitAbove⟩

/-- A codec appends to `OUT` and `UNIT` from 0 on, so what lies beyond the end stays. -/
theorem exec_sameBeyond {i : Instr} {s t : State} (hcap : 0 < s.cfg.cap)
    (hi : i = .pyrCompress ∨ i = .pyrExpand ∨ i = .pyrMatchdec ∨ i = .rle0Compress ∨ i = .rle0Decompress)
    (ht : exec i s = .next t) : SameBeyond s t := by
  have happ : ∀ l, SameBeyond s (appended l { s with outLen := 0 }) := fun l => (appended_grows l _).sameBeyond
  rcases hi with rfl | rfl | rfl | rfl | rfl
  · rcases (pyrCompress_ends s hcap).cases ht with ⟨u, rfl, hg, -⟩ | ⟨e, n, u, rfl, -, -, hg, -⟩ <;> exact hg.sameBeyond
  · rcases (pyrExpand_ends s hcap).cases ht with ⟨u, rfl, hg, -⟩ | ⟨e, n, u, rfl, hg, -⟩ <;> exact hg.sameBeyond
  · rcases (pyrMatchdec_ends s).cases ht with ⟨l, ip, rfl, -⟩ | ⟨e, n, u, rfl, ⟨rfl, -⟩ | ⟨l, rfl, -⟩⟩
    · exact happ l
    · exact ⟨fun _ _ => rfl, fun _ _ => rfl⟩
    · exact happ l
  · rcases (rle0Compress_ends s).cases ht with ⟨l, -, rfl, -⟩ | ⟨e, n, u, rfl, l, -, -, -, rfl, -⟩ <;> exact happ _
  · rcases (rle0Decompress_ends s).cases ht with
      ⟨l, -, rfl, -⟩ | ⟨e, n, u, rfl, ⟨l, -, -, -, rfl, -⟩ | ⟨l, -, -, -, rfl, -⟩⟩ <;> exact happ _

/-- Settles O54, family by family. -/
theorem unitsChangeTheirOwn : Obligations.UnitsChangeTheirOwn := by
  intro i s t ht
  refine ⟨fun hi => ?_, fun hi => ?_, ?_, fun hi => ?_, fun hcfg hi => ?_, fun hi => byteCodec_keeps hi ht,
    fun hi => rle0_keeps_res1 hi ht⟩
  · obtain ⟨⟨hhost, hseed, -, hin, hhuf⟩, hout, hdict, hunits, htree, hres⟩ := bs_keeps hi ht
    exact ⟨hhost, hseed, hin, hout, hdict, hunits, hhuf, htree, hres⟩
  · obtain ⟨⟨hhost, hseed, -, hin, hhuf⟩, hout, hstream, hunits, htree⟩ := dict_keeps hi ht
    exact ⟨hhost, hseed, hin, hout, hstream, hunits, hhuf, htree⟩
  · rintro rfl
    obtain ⟨⟨hhost, hseed, -, hin, hhuf⟩, hout, hstream, hdict, hunits, hres⟩ := hufBuild_keeps ht
    exact ⟨hhost, hseed, hin, hout, hstream, hdict, hunits, hhuf, hres⟩
  · obtain ⟨⟨hhost, hseed, -, hin, hhuf⟩, hout, hdict, hunits, htree⟩ := hufCoder_keeps hi ht
    exact ⟨hhost, hseed, hin, hout, hdict, hunits, hhuf, htree⟩
  · have hcap := cap_pos_of_wf hcfg
    obtain ⟨⟨hhost, hseed, hargs, hin, hhuf⟩, hstream, htree⟩ := codec_keeps hcap hi ht
    obtain ⟨hout, hunit⟩ := exec_sameBeyond hcap hi ht
    exact ⟨hhost, hseed, hargs, hin, hstream, hhuf, htree, hout, hunit⟩

end Sys2Proof.Machine
end

section
/-! PROOFS. The `DICT` commands keep the windows of the labels (O35). -/

namespace Sys2Proof.Machine

/-! ### The windows of the labels (R153) -/

theorem windowsIn_dictTouch {buf : ByteBuf} {len : Nat} {d : Dict} (str : List Byte)
    (h : windowsIn buf len [] d.roots) : windowsIn buf len [] (dictTouch str d).roots :=
  windowsIn_touchWalk _ _ _ _ h

/-- The inserted string stands in `DATA` where the insert takes it from (R165). -/
theorem standsAt_dataSlice {s : State} {off len : Nat} (h : off < dataLen s) :
    standsAt (dataBuf s) (dataLen s) [] off (dataSlice off len s) := by
  refine ⟨Nat.zero_le _, ?_, ?_⟩
  · rw [dataSlice, slice_length]; omega
  · simp only [dataSlice, slice_length, List.length_nil, Nat.sub_zero, Nat.zero_add, List.nil_append]

theorem windowsIn_dictInsert {buf : ByteBuf} {len cap soff : Nat} {str : List Byte} {d : Dict}
    (hw : dictWf cap d = true) (hcap : 0 < cap) (hs : str ≠ []) (h : windowsIn buf len [] d.roots)
    (hstr : standsAt buf len [] soff str) : windowsIn buf len [] (dictInsert cap soff str d).1.roots := by
  rw [dictInsert_eq ((dictWf_iff cap d).1 hw).1 soff hs]
  cases entryAt d.roots str with
  | some e => exact windowsIn_dictTouch str h
  | none => exact windowsIn_place _ _ _ _ _ (newIndex_spec hw hcap).1 hs [] (windowsIn_newIndex h) hstr

/-- A new dictionary over the same space `DATA` keeps the windows if its labels agree with it. -/
theorem dictCoherent_withDict {s : State} {d : Dict} (hsel : d.dsel = s.dict.dsel)
    (h : windowsIn (dataBuf s) (dataLen s) [] d.roots) : dictCoherent { s with dict := d } = true := by
  rw [dictCoherent, dataBuf_dict hsel, dataLen_dict hsel]
  exact h

/-- A precise command that raises leaves dictionary and data, so the windows agree if its completion keeps them. -/
theorem Ends.dictCoherent_of_precise {i : Instr} {s t : State} {P : State → Prop} {Q : ErrKind → Nat → Prop}
    (h : Ends i s P (Precise s Q)) (hs : dictCoherent s = true) (ht : exec i s = .next t)
    (hP : P t → dictCoherent t = true) : dictCoherent t = true := by
  rcases h.cases ht with hp | ⟨e, n, u, rfl, rfl, -⟩
  · exact hP hp
  · exact hs

theorem dictInsert_keeps_windows {s t : State} (hcap : 0 < s.cfg.cap) (hw : dictWf s.cfg.cap s.dict = true)
    (hs : dictCoherent s = true) (ht : exec .dictInsert s = .next t) : dictCoherent t = true := by
  refine (dictInsert_ends s).dictCoherent_of_precise hs ht ?_
  rintro ⟨rfl, hoff, hlen⟩
  have hne : dataSlice (argNat0 s) (argNat1 s) s ≠ [] := insertAt_str (by omega)
  have h := dictCoherent_withDict (dictInsert_dsel _ _ _ s.dict)
    (windowsIn_dictInsert hw hcap hne hs (standsAt_dataSlice hoff))
  exact h

theorem windowsIn_findAt {s : State} {off : Nat} (hs : dictCoherent s = true) :
    windowsIn (dataBuf s) (dataLen s) [] (findAt off s).1.dict.roots := by
  rw [findAt_eq]
  split_ifs
  · exact hs
  · exact windowsIn_dictTouch _ hs

theorem dictFind_keeps_windows {s t : State} (hs : dictCoherent s = true) (ht : exec .dictFind s = .next t) :
    dictCoherent t = true := by
  obtain ⟨hframe, hsel, -, -⟩ := findAt_frame (argNat0 s) s
  have h := dictCoherent_withDict hsel (windowsIn_findAt hs)
  rw [← hframe] at h
  obtain rfl := ((dictFind_ends s).cases ht).resolve_right (by simp)
  split <;> exact h

theorem dictFree_keeps_windows {s t : State} (hs : dictCoherent s = true) (ht : exec .dictFree s = .next t) :
    dictCoherent t = true := by
  refine (dictFree_ends s).dictCoherent_of_precise hs ht ?_
  rintro ⟨rfl, -⟩
  have h := dictCoherent_withDict (freeIndex_dsel s.dict) (windowsIn_freeIndex hs)
  exact h

/-- Settles O35, command by command. -/
theorem dictKeepsWindows : Obligations.DictKeepsWindows := by
  intro i s t hcfg hw hs hi ht
  rcases hi with ⟨sel, rfl⟩ | rfl | rfl | rfl
  · refine (dictClear_ends sel s).dictCoherent_of_precise hs ht ?_
    rintro ⟨rfl, -⟩; rfl
  · exact dictInsert_keeps_windows (cap_pos_of_wf hcfg) hw hs ht
  · exact dictFind_keeps_windows hs ht
  · exact dictFree_keeps_windows hs ht

end Sys2Proof.Machine
end

section
/-! PROOFS. The memory spaces: every step keeps their canonical form (O55), where a host write reaches (O11),
and where a host access stops (O12). -/

namespace Sys2Proof.Machine

/-! ### The canonical form (R60, log 4) -/

/-- `memoryWf`, space by space. -/
structure Canonical (s : State) : Prop where
  inp : cellsSorted s.inb.cells = true
  out : cellsSorted s.outb.cells = true
  bs : cellsSorted s.bsb.cells = true
  unit : cellsSorted s.unit.cells = true
  xsym : cellsSorted s.xsym.cells = true
  freq : freqWf s.freq = true
  hcode : cellsSorted s.hcode = true

theorem canonical_iff {s : State} : Canonical s ↔ memoryWf s = true := by
  simp only [memoryWf, Bool.and_eq_true]
  constructor
  · rintro ⟨h1, h2, h3, h4, h5, h6, h7⟩
    exact ⟨⟨⟨⟨⟨⟨h1, h2⟩, h3⟩, h4⟩, h5⟩, h6⟩, h7⟩
  · rintro ⟨⟨⟨⟨⟨⟨h1, h2⟩, h3⟩, h4⟩, h5⟩, h6⟩, h7⟩
    exact ⟨h1, h2, h3, h4, h5, h6, h7⟩

section updates
variable {s : State} (h : Canonical s)
include h

theorem Canonical.raise (e : ErrKind) (n : Nat) (w : Word) : Canonical (raise e n w s) := { h with }

theorem Canonical.setPos (p : Nat) : Canonical (setPos p s) := { h with }

theorem Canonical.setRes0 (n : Nat) : Canonical (setRes0 n s) := { h with }

theorem Canonical.setRes (m n : Nat) : Canonical (setRes m n s) := { h with }

theorem Canonical.withDict (d : Dict) : Canonical { s with dict := d } := { h with }

/-- A codec stores its output in `OUT` from address 0 on. -/
theorem Canonical.output (l : List Byte) : Canonical (appended l { s with outLen := 0 }) :=
  { h with out := storeAll_sorted _ _ h.out }

theorem Canonical.bitsWritten (l : List Bool) : Canonical (bitsWritten l s) := by
  have hbs : cellsSorted (Machine.bitsWritten l s).bsb.cells = true := bitsWritten_sorted h.bs
  rw [bitsWritten_frame]
  exact { h with bs := hbs }

/-- `PYR.COMPRESS` and `PYR.EXPAND` store in `OUT` and `UNIT` alone. -/
theorem Canonical.grows {sel : DataSel} {u : State} (hg : Grows (pyrStart sel s) u) : Canonical u := by
  have hout := hg.outSorted h.out
  have hunit := hg.unitSorted h.unit
  rw [hg.fields_of_pyrStart]
  exact { h with out := hout, unit := hunit }

end updates

theorem resetBlock_canonical (s : State) : Canonical (resetBlock s) := ⟨rfl, rfl, rfl, rfl, rfl, rfl, rfl⟩

/-- An error latched keeps every memory, so a command keeps the form if each of its ends does. -/
theorem Ends.canonical {i : Instr} {s t : State} {P : State → Prop} {Q : ErrKind → Nat → State → Prop}
    (h : Ends i s P Q) (ht : exec i s = .next t) (hP : P t → Canonical t) (hQ : ∀ e n u, Q e n u → Canonical u) :
    Canonical t := by
  rcases h.cases ht with hp | ⟨e, n, u, rfl, hq⟩
  · exact hP hp
  · exact (hQ e n u hq).raise e n _

theorem Ends.canonical_of_precise {i : Instr} {s t : State} {P : State → Prop} {Q : ErrKind → Nat → Prop}
    (h : Ends i s P (Precise s Q)) (hs : Canonical s) (ht : exec i s = .next t) (hP : P t → Canonical t) :
    Canonical t :=
  h.canonical ht hP fun _ _ _ hq => hq.1 ▸ hs

theorem Ends.canonical_of_noError {i : Instr} {s t : State} {P : State → Prop}
    (h : Ends i s P fun _ _ _ => False) (ht : exec i s = .next t) (hP : P t → Canonical t) : Canonical t :=
  h.canonical ht hP fun _ _ _ => False.elim

/-- Every command keeps the canonical form: what it stores goes through `storeAll`, `bitsWritten`, `assignCodes` or
the codec passes. -/
theorem exec_canonical {i : Instr} {s t : State} (hcap : 0 < s.cfg.cap) (hs : Canonical s)
    (ht : exec i s = .next t) : Canonical t := by
  cases i with
  | sysNop => exact (sysNop_ends s).canonical_of_noError ht fun h => h ▸ hs
  | sysClrerr =>
    refine (sysClrerr_ends s).canonical_of_noError ht fun h => ?_
    rw [h]; split_ifs
    · exact hs
    · exact { hs with }
  | sysReset =>
    refine (sysReset_ends s).canonical_of_noError ht fun h => ?_
    rw [h]; split_ifs
    · exact hs
    · exact resetBlock_canonical s
  | sysXchg =>
    exact (sysXchg_ends s).canonical_of_noError ht fun h => h ▸ { hs with inp := hs.out, out := hs.inp }
  | bsClear => exact (bsClear_ends s).canonical_of_noError ht fun h => h ▸ { hs with }
  | bsGetpos => exact (bsGetpos_ends s).canonical_of_noError ht fun h => h ▸ { hs with }
  | bsSetpos => exact (bsSetpos_ends s).canonical_of_precise hs ht fun h => h.1 ▸ hs.setPos _
  | bsRead n => exact (bsRead_ends n s).canonical_of_precise hs ht fun h => h.1 ▸ { hs with }
  | bsPeek n => exact (bsPeek_ends n s).canonical_of_precise hs ht fun h => h.1 ▸ { hs with }
  | bsWrite n => exact (bsWrite_ends n s).canonical_of_precise hs ht fun h => h.1 ▸ hs.bitsWritten _
  | bsAlign =>
    refine (bsAlign_ends s).canonical_of_noError ht fun h => ?_
    rw [h]; split_ifs
    · exact hs
    · exact { hs with }
  | bsReadbyte => exact (bsReadbyte_ends s).canonical_of_precise hs ht fun h => h.1 ▸ { hs with }
  | bsWritebyte =>
    exact (bsWritebyte_ends s).canonical_of_precise hs ht fun h => h.1 ▸ (hs.setPos _).bitsWritten _
  | dictClear sel => exact (dictClear_ends sel s).canonical_of_precise hs ht fun h => h.1 ▸ hs.withDict _
  | dictInsert => exact (dictInsert_ends s).canonical_of_precise hs ht fun h => h.1 ▸ (hs.withDict _).setRes0 _
  | dictFind =>
    refine (dictFind_ends s).canonical_of_noError ht fun h => ?_
    rw [(findAt_frame (argNat0 s) s).1] at h
    rw [h]; split
    · exact (hs.withDict _).setRes _ _
    · exact { hs with }
  | dictFree => exact (dictFree_ends s).canonical_of_precise hs ht fun h => h.1 ▸ (hs.withDict _).setRes0 _
  | pyrCompress =>
    refine (pyrCompress_ends s hcap).canonical ht ?_ ?_
    · rintro ⟨u, rfl, hg, -⟩; exact (hs.grows hg).setRes _ _
    · rintro e n u ⟨-, -, hg, -⟩; exact hs.grows hg
  | pyrExpand =>
    refine (pyrExpand_ends s hcap).canonical ht ?_ ?_
    · rintro ⟨u, rfl, hg, -⟩; exact (hs.grows hg).setRes _ _
    · rintro e n u ⟨hg, -⟩; exact hs.grows hg
  | pyrMatchdec =>
    refine (pyrMatchdec_ends s).canonical ht ?_ ?_
    · rintro ⟨l, ip, rfl, -⟩; exact (hs.output l).setRes _ _
    · rintro e n u (⟨rfl, -⟩ | ⟨l, rfl, -⟩)
      · exact hs
      · exact hs.output l
  | hufBuild =>
    refine (hufBuild_ends s).canonical_of_precise hs ht ?_
    rintro ⟨-, ⟨-, rfl⟩ | ⟨r, -, -, rfl⟩⟩
    · exact { hs with hcode := rfl }
    · exact { hs with hcode := assignCodes_sorted r [] rfl }
  | hufEncode =>
    refine (hufEncode_ends s).canonical_of_precise hs ht ?_
    rintro ⟨c, rfl, -⟩; exact (hs.bitsWritten c).setRes0 _
  | hufDecode =>
    refine (hufDecode_ends s).canonical_of_noError ht ?_
    rintro (⟨-, rfl⟩ | ⟨r, -, rfl⟩)
    · exact { hs with }
    · split
      · exact (hs.setPos _).setRes _ _
      · exact { hs with }
  | rle0Compress =>
    refine (rle0Compress_ends s).canonical ht ?_ ?_
    · rintro ⟨l, -, rfl, -⟩; exact (hs.output l).setRes0 _
    · rintro e n u ⟨l, -, -, -, rfl, -⟩; exact hs.output _
  | rle0Decompress =>
    refine (rle0Decompress_ends s).canonical ht ?_ ?_
    · rintro ⟨l, -, rfl, -⟩; exact (hs.output l).setRes0 _
    · rintro e n u (⟨l, -, -, -, rfl, -⟩ | ⟨l, -, -, -, rfl, -⟩) <;> exact hs.output _

theorem hostByteWrite_canonical {s : State} (hs : Canonical s) (sp : ByteSpace) (a : Nat) (v : Byte) :
    Canonical (hostByteWrite sp a v s) := by
  cases sp with
  | inp => exact { hs with inp := bufWrite_sorted a v hs.inp }
  | out => exact hs
  | bsb => exact { hs with bs := bufWrite_sorted a v hs.bs }

theorem hostWordWrite_canonical {s : State} (hs : Canonical s) (sp : WordSpace) (a : Nat) (v : Word) :
    Canonical (hostWordWrite sp a v s) := by
  cases sp with
  | freq => exact { hs with freq := freqWrite_wf a v hs.freq }
  | xsym => exact { hs with xsym := wordWrite_sorted a v hs.xsym }
  | unit => exact hs

/-- Settles O55: each command and each host access keeps the form, so every step does. -/
theorem stepKeepsMemory : Obligations.StepKeepsMemory := by
  intro s t hcfg hs ht
  refine canonical_iff.1 (step_keeps (P := fun s => s.cfg.wf = true ∧ Canonical s) s t ?_ ?_ ?_ ?_ ?_ ?_ ?_ ?_ ?_
    ⟨hcfg, canonical_iff.2 hs⟩ ht).2
  · exact fun s hs _ => ⟨hs.1, { hs.2 with }⟩
  · exact fun s hs _ => ⟨hs.1, { hs.2 with }⟩
  · intro i s t hs _ h
    have hcap := cap_pos_of_wf hs.1
    exact ⟨(exec_sameHost (fun _ => hcap) h).1 ▸ hs.1, exec_canonical hcap hs.2 h⟩
  · exact fun w s hs _ => ⟨hs.1, hs.2.raise _ _ _⟩
  · exact fun n v s hs => by rw [writeReg_frame]; exact ⟨hs.1, { hs.2 with }⟩
  · exact fun sp a v s hs _ => ⟨by cases sp <;> exact hs.1, hostByteWrite_canonical hs.2 sp a v⟩
  · exact fun sp a v s hs _ => ⟨by cases sp <;> exact hs.1, hostWordWrite_canonical hs.2 sp a v⟩
  · exact fun s hs => ⟨hs.1, resetBlock_canonical s⟩
  · exact fun w i h => encode_of_commandOf h

/-! ### Host writes to the spaces (R61) -/

theorem wordRead_wordWrite (b : WordBuf) (a c : Nat) (v : Word) :
    wordRead (wordWrite b a v) c = if c = a then v else wordRead b c := by
  split_ifs with h
  · rw [h, wordRead_wordWrite_same]
  · exact wordRead_wordWrite_other b v h

theorem bufRead_hostByteWrite_inb (sp : ByteSpace) (a : Nat) (v : Byte) (s : State) (b : Nat) :
    bufRead (hostByteWrite sp a v s).inb b = if sp = .inp ∧ b = a then v else bufRead s.inb b := by
  cases sp with
  | inp => simpa [hostByteWrite] using bufRead_bufWrite s.inb a b v
  | out => simp [hostByteWrite]
  | bsb => simp [hostByteWrite]

theorem bufRead_hostByteWrite_bsb (sp : ByteSpace) (a : Nat) (v : Byte) (s : State) (b : Nat) :
    bufRead (hostByteWrite sp a v s).bsb b = if sp = .bsb ∧ b = a then v else bufRead s.bsb b := by
  cases sp with
  | inp => simp [hostByteWrite]
  | out => simp [hostByteWrite]
  | bsb => simpa [hostByteWrite] using bufRead_bufWrite s.bsb a b v

/-- `OUT` is not the host's to write. -/
theorem hostByteWrite_frame (sp : ByteSpace) (a : Nat) (v : Byte) (s : State) : hostByteWrite sp a v s =
    { s with inb := (hostByteWrite sp a v s).inb, bsb := (hostByteWrite sp a v s).bsb } := by
  cases sp <;> rfl

theorem freqRead_hostWordWrite {s : State} (hf : freqWf s.freq = true) (sp : WordSpace) (a : Nat) (v : Word)
    (b : Nat) : freqRead (hostWordWrite sp a v s).freq b = if sp = .freq ∧ b = a then v else freqRead s.freq b := by
  cases sp with
  | freq => simpa [hostWordWrite] using freqRead_freqWrite a b v hf
  | xsym => simp [hostWordWrite]
  | unit => simp [hostWordWrite]

theorem wordRead_hostWordWrite_xsym (sp : WordSpace) (a : Nat) (v : Word) (s : State) (b : Nat) :
    wordRead (hostWordWrite sp a v s).xsym b = if sp = .xsym ∧ b = a then v else wordRead s.xsym b := by
  cases sp with
  | freq => simp [hostWordWrite]
  | xsym => simpa [hostWordWrite] using wordRead_wordWrite s.xsym a b v
  | unit => simp [hostWordWrite]

/-- `UNIT` is not the host's to write. -/
theorem hostWordWrite_frame (sp : WordSpace) (a : Nat) (v : Word) (s : State) : hostWordWrite sp a v s =
    { s with freq := (hostWordWrite sp a v s).freq, xsym := (hostWordWrite sp a v s).xsym } := by
  cases sp <;> rfl

/-- The move of a host byte write inside the space; an ignored one needs no cell. -/
theorem hostMove_byteWrite {s : State} {a : Nat} (sp : ByteSpace) (v : Byte) (ha : a < s.cfg.bufCap) :
    hostMove (.byteWrite sp a v) s = .next (hostByteWrite sp a v s) := by
  rw [hostMove]
  split_ifs with h
  · rw [h]; rfl
  · exact atCell_of_lt ha

theorem hostMove_wordWrite {s : State} {a : Nat} (sp : WordSpace) (v : Word) (ha : a < wordSpaceSize sp s) :
    hostMove (.wordWrite sp a v) s = .next (hostWordWrite sp a v s) := by
  rw [hostMove]
  split_ifs with h
  · rw [h]; rfl
  · exact atCell_of_lt ha

/-- Settles O11. -/
theorem hostSpaceWrites : Obligations.HostSpaceWrites := by
  refine ⟨fun s sp a v rest hp ha => ?_, fun s sp a v rest hp ha hf => ?_, fun s a rest => ⟨fun v hp => ?_,
    fun v hp => ?_, fun v hp => ?_⟩⟩
  · exact ⟨_, (step_of_pending hp).trans (hostMove_byteWrite sp v ha), bufRead_hostByteWrite_inb sp a v _,
      bufRead_hostByteWrite_bsb sp a v _, hostByteWrite_frame sp a v _⟩
  · have hsize : a < wordSpaceSize sp { s with pending := rest } := by cases sp <;> exact ha
    refine ⟨_, (step_of_pending hp).trans (hostMove_wordWrite sp v hsize), ?_,
      wordRead_hostWordWrite_xsym sp a v _, hostWordWrite_frame sp a v _⟩
    exact freqRead_hostWordWrite (s := { s with pending := rest }) hf sp a v
  · exact step_of_pending hp
  · exact step_of_pending hp
  · exact step_of_pending hp

/-! ### Host accesses without a cell (R60, log 8) -/

theorem atCell_of_ge {size a : Nat} (t : State) (h : size ≤ a) :
    atCell size a t = .fault (.hostAddressOutsideSpace a) :=
  if_neg (Nat.not_lt.2 h)

/-- Settles O12. -/
theorem accessOutsideSpaceFaults : Obligations.AccessOutsideSpaceFaults := by
  intro s a rest
  refine ⟨fun sp ha => ⟨fun v hsp hp => ?_, fun hp => ?_⟩, ?_⟩
  · rw [step_of_pending hp, hostMove, if_neg hsp]
    exact atCell_of_ge _ ha
  · exact (step_of_pending hp).trans (atCell_of_ge _ ha)
  · rintro sp _ rfl ha
    have hle : wordSpaceSize sp { s with pending := rest } ≤ a := by cases sp <;> exact ha
    refine ⟨fun v hsp hp => ?_, fun hp => ?_⟩
    · rw [step_of_pending hp, hostMove, if_neg hsp]
      exact atCell_of_ge _ hle
    · exact (step_of_pending hp).trans (atCell_of_ge _ hle)

end Sys2Proof.Machine
end

section
/-! PROOFS. The command decoder inverts the encoder and is the row test of R83; a host write to `CMD` issues the
decoded command (O1 to O4). -/

namespace Sys2Proof.Machine

/-! ### Decoder and encoder (R81 to R85) -/

theorem wellFormed_iff {i : Instr} : i.wellFormed = true ↔ immediate i < 256 := by
  cases i <;> simp [Instr.wellFormed, Instr.immFits, immediate]

theorem opcode_lt (i : Instr) : opcode i < 256 := by cases i <;> simp [opcode]

theorem immOf_lt (w : Word) : immOf w < 256 := (w.extractLsb' 0 8).isLt

theorem decodeN_eq_ok {w : Word} {i j : Instr} : decodeN w i = .ok j ↔ w.extractLsb' 0 24 = 0#24 ∧ i = j := by
  unfold decodeN
  split_ifs with h <;> simp [h]

theorem decodeB_eq_ok {w : Word} {f : Nat → Instr} {j : Instr} :
    decodeB w f = .ok j ↔ w.extractLsb' 8 16 = 0#16 ∧ f (immOf w) = j := by
  unfold decodeB
  split_ifs with h <;> simp [h]

/-- A format-N word has zeros where a format-B word has its middle bits and its immediate. -/
theorem low24_eq_zero {w : Word} (hmid : w.extractLsb' 8 16 = 0#16) (himm : immOf w = 0) :
    w.extractLsb' 0 24 = 0#24 := by
  have hlow : w.extractLsb' 0 8 = 0#8 := BitVec.eq_of_toNat_eq himm
  have hjoin : w.extractLsb' 8 16 ++ w.extractLsb' 0 8 = w.extractLsb' 0 24 :=
    BitVec.extractLsb'_append_extractLsb'_eq_extractLsb' rfl
  rw [← hjoin, hmid, hlow]
  rfl

/-- The row of the opcode decides, and the other fields agree with it. -/
theorem decode_of_fields {w : Word} {i : Instr} (hop : opcodeOf w = opcode i) (hmid : w.extractLsb' 8 16 = 0#16)
    (himm : immOf w = immediate i) : decode w = .ok i := by
  unfold decode
  rw [hop]
  cases i
  case bsRead | bsPeek | bsWrite | dictClear => exact decodeB_eq_ok.2 ⟨hmid, congrArg _ himm⟩
  all_goals exact decodeN_eq_ok.2 ⟨low24_eq_zero hmid himm, rfl⟩

/-- The fields of every command word, as `Laws` has them command by command. -/
theorem encode_fields (i : Instr) : Laws.OpcodeField.Statement i := fun h =>
  Laws.fields_of_word _ _ (opcode_lt i) (wellFormed_iff.1 h)

theorem decode_encode {i : Instr} (h : i.wellFormed = true) : decode (encode i) = .ok i := by
  obtain ⟨hop, hmid, himm⟩ := encode_fields i h
  exact decode_of_fields hop hmid himm

/-- Only a format-B row has an operand, and it takes eight bits of the word. -/
theorem wellFormed_of_decode {w : Word} {i : Instr} (h : decode w = .ok i) : i.wellFormed = true := by
  unfold decode at h
  split at h
  case h_8 | h_9 | h_10 | h_14 =>
    obtain ⟨-, rfl⟩ := decodeB_eq_ok.1 h
    exact wellFormed_iff.2 (immOf_lt w)
  case h_26 => cases h
  all_goals
    obtain ⟨-, rfl⟩ := decodeN_eq_ok.1 h
    rfl

theorem decode_eq_ok_iff {w : Word} {i : Instr} : decode w = .ok i ↔ i.wellFormed = true ∧ encode i = w :=
  ⟨fun h => ⟨wellFormed_of_decode h, encode_of_decode h⟩, fun ⟨hi, hw⟩ => hw ▸ decode_encode hi⟩

/-- Settles O1. -/
theorem decodeAndEncodeAgree : Obligations.DecodeAndEncodeAgree :=
  ⟨fun _ hi => decode_encode hi, fun _ _ h => decode_eq_ok_iff.1 h⟩

/-! ### The row tests (R83) -/

/-- `opcode << 24` is the opcode in front of 24 zeros. -/
theorem shifted_opcode (op : Nat) : BitVec.ofNat 32 op <<< 24 = BitVec.ofNat 8 op ++ 0#16 ++ 0#8 := by
  apply BitVec.eq_of_toNat_eq
  rw [BitVec.toNat_append, BitVec.toNat_append]
  simp only [BitVec.toNat_shiftLeft, BitVec.toNat_ofNat, Nat.shiftLeft_eq, Nat.zero_mod, Nat.or_zero]
  omega

/-- The mask `0xFFFFFF00` clears the immediate and nothing else. -/
theorem masked_word (w : Word) :
    w &&& 0xFFFFFF00#32 = BitVec.ofNat 8 (opcodeOf w) ++ w.extractLsb' 8 16 ++ 0#8 := by
  have hmask : 0xFFFFFF00#32 = BitVec.allOnes 8 ++ BitVec.allOnes 16 ++ 0#8 := rfl
  conv_lhs => rw [← word_eq_fields w, hmask]
  rw [BitVec.and_append, BitVec.and_append, BitVec.and_allOnes, BitVec.and_allOnes, BitVec.and_zero]

/-- The test of a format-B row: the word is the encoder's for that opcode and the word's own immediate. -/
theorem masked_eq_shifted_opcode {w : Word} {op : Nat} : w &&& 0xFFFFFF00#32 = BitVec.ofNat 32 op <<< 24 ↔
    BitVec.ofNat 8 op ++ 0#16 ++ BitVec.ofNat 8 (immOf w) = w := by
  conv_rhs => rhs; rw [← word_eq_fields w]
  rw [masked_word, shifted_opcode, BitVec.append_left_inj, BitVec.append_left_inj, eq_comm]

/-- With the immediate compared, the test of a format-B row is exact on every row. -/
theorem decode_eq_ok_iff_masked {w : Word} {i : Instr} : decode w = .ok i ↔
    w &&& 0xFFFFFF00#32 = BitVec.ofNat 32 (opcode i) <<< 24 ∧ immediate i = immOf w := by
  rw [decode_eq_ok_iff, masked_eq_shifted_opcode]
  constructor
  · rintro ⟨hi, rfl⟩
    obtain ⟨-, -, himm⟩ := encode_fields i hi
    exact ⟨by rw [himm, encode], himm.symm⟩
  · rintro ⟨hw, himm⟩
    exact ⟨wellFormed_iff.2 (himm ▸ immOf_lt w), by rw [encode, himm, hw]⟩

theorem immediate_of_formatN {i : Instr} (h : ¬ takesImmediate i) : immediate i = 0 := by
  cases i <;> simp_all [takesImmediate, immediate]

theorem decode_eq_ok_iff_of_formatN {w : Word} {i : Instr} (h : ¬ takesImmediate i) :
    decode w = .ok i ↔ w = BitVec.ofNat 32 (opcode i) <<< 24 := by
  have himm := immediate_of_formatN h
  have hi : i.wellFormed = true := wellFormed_iff.2 (by omega)
  rw [decode_eq_ok_iff, and_iff_right hi, shifted_opcode, encode, himm]
  exact eq_comm

/-- Settles O2: the opcodes are read off the table, and each format has its own test. -/
theorem decoderTestsEachRow : Obligations.DecoderTestsEachRow := by
  refine ⟨by simp only [opcode, and_self, implies_true], fun w i => ?_⟩
  split_ifs with h
  · exact decode_eq_ok_iff_masked
  · exact decode_eq_ok_iff_of_formatN h

/-- Settles O3. -/
theorem sampleWordsDecode : Obligations.SampleWordsDecode := by
  unfold Obligations.SampleWordsDecode
  decide

/-! ### Issuing a command (R80, R311) -/

theorem accepted_encode_iff {i : Instr} {s : State} : accepted (encode i) s = true ↔
    s.halt = false ∧ (s.err = false ∨ i = .sysClrerr ∨ i = .sysReset) := by
  refine ⟨accepted_encode, ?_⟩
  rintro ⟨hh, he | rfl | rfl⟩
  · simp [accepted, hh, he]
  · simp [accepted, hh]
  · simp [accepted, hh]

theorem commandOf_of_decode {w : Word} {i : Instr} (h : decode w = .ok i) : commandOf w = some i := by
  rw [commandOf, h]

theorem issue_of_decode {w : Word} {i : Instr} {s : State} (hw : decode w = .ok i) (hh : s.halt = false)
    (he : s.err = false ∨ i = .sysClrerr ∨ i = .sysReset) : issue w s = exec i s := by
  have hacc : accepted w s = true := encode_of_decode hw ▸ accepted_encode_iff.2 ⟨hh, he⟩
  rw [issue, if_pos hacc, commandOf_of_decode hw]

/-- A host write to `CMD` issues its word. -/
theorem step_of_cmdWrite {s : State} {w : Word} {rest : List HostMove} (h : s.pending = .regWrite 0 w :: rest) :
    step s = issue w { s with pending := rest } :=
  step_of_pending h

/-- A word fetched for the next step is a write to `CMD` ahead of what waits. -/
theorem withFetchWord_pending (s : State) (w : Word) :
    (s.withFetchWord 32 w.toNat).pending = .regWrite 0 w :: s.pending := by
  show HostMove.regWrite 0 (BitVec.ofNat 32 (w.toNat % 2 ^ 32)) :: s.pending = _
  rw [Nat.mod_eq_of_lt w.isLt, BitVec.ofNat_toNat, BitVec.setWidth_eq]

/-- Settles O4. -/
theorem stepRunsCommand : Obligations.StepRunsCommand := by
  refine ⟨fun s w rest i hp hh he hw => ?_, fun s i hi hh he => ?_⟩
  · exact (step_of_cmdWrite hp).trans (issue_of_decode hw hh he)
  · exact (step_of_cmdWrite (withFetchWord_pending s _)).trans (issue_of_decode (decode_encode hi) hh he)

end Sys2Proof.Machine
end

section
/-! PROOFS. The bit-stream unit: what each `BS` command answers (O22 to O25), and that fields written from an empty
stream are read back (O26). -/

namespace Sys2Proof.Machine

/-! ### Which end a command takes -/

/-- A command none of whose errors applies completes. -/
theorem Ends.completes {i : Instr} {s : State} {P : State → Prop} {Q : ErrKind → Nat → State → Prop} (h : Ends i s P Q)
    (hq : ∀ e n u, ¬ Q e n u) : ∃ t, exec i s = .next t ∧ P t :=
  h.resolve_right fun ⟨e, n, u, _, hu⟩ => hq e n u hu

/-- A precise command that cannot complete raises in the state it started from (R313). -/
theorem Ends.raises {i : Instr} {s : State} {P : State → Prop} {Q : ErrKind → Nat → Prop} (h : Ends i s P (Precise s Q))
    (hp : ∀ t, ¬ P t) : ∃ e n, exec i s = .next (Machine.raise e n (encode i) s) ∧ Q e n := by
  obtain ⟨t, -, ht⟩ | ⟨e, n, u, hu, rfl, hq⟩ := h
  · exact absurd ht (hp t)
  · exact ⟨e, n, hu, hq⟩

theorem latched_raise (e : ErrKind) (n : Nat) (w : Word) (s : State) : latched (raise e n w s) = true := by
  cases e <;> simp [latched, isClassD]

/-- A command that ends with nothing latched has not raised. -/
theorem Ends.of_completed {i : Instr} {s t : State} {P : State → Prop} {Q : ErrKind → Nat → State → Prop}
    (h : Ends i s P Q) (ht : completed (exec i s) = some t) : P t := by
  obtain ⟨hnext, hlatch⟩ := completed_eq_some ht
  obtain hp | ⟨e, n, u, rfl, -⟩ := h.cases hnext
  · exact hp
  · rw [latched_raise] at hlatch
    cases hlatch

theorem completed_next {t : State} (h : latched t = false) : completed (.next t) = some t := by
  simp [completed, h]

/-- A command word as a number: the opcode in front of 16 zeros and the immediate (R80). -/
theorem encode_eq_ofNat {i : Instr} {k : Nat} (h : immediate i < 256) (hk : opcode i * 2 ^ 24 + immediate i = k) :
    encode i = BitVec.ofNat 32 k := by
  subst hk
  have hop := opcode_lt i
  apply BitVec.eq_of_toNat_eq
  rw [encode]
  simp only [BitVec.toNat_append, BitVec.toNat_ofNat]
  rw [← Nat.shiftLeft_add_eq_or_of_lt (by omega), ← Nat.shiftLeft_add_eq_or_of_lt (by omega)]
  simp only [Nat.shiftLeft_eq]
  omega

/-! ### The cursor (R131, R132, R133, R137) -/

theorem bsSetpos_completes {s : State} (h : argNat0 s ≤ 8 * s.cfg.bufCap) :
    exec .bsSetpos s = .next (setPos (argNat0 s) s) := by
  obtain ⟨t, ht, rfl, -⟩ := (bsSetpos_ends s).completes (by rintro e n u ⟨-, -, -, hq⟩; omega)
  exact ht

theorem bsSetpos_raises {s : State} (h : 8 * s.cfg.bufCap < argNat0 s) :
    exec .bsSetpos s = .next (raise .invalidArgument (argNat0 s) (encode .bsSetpos) s) := by
  obtain ⟨e, n, ht, rfl, rfl, -⟩ := (bsSetpos_ends s).raises (by rintro t ⟨-, hp⟩; omega)
  exact ht

theorem bsAlign_eq (s : State) :
    exec .bsAlign s = .next (if s.bsBit = 0 then s else { s with bsByte := s.bsByte + 1, bsBit := 0 }) := rfl

/-- Settles O22. -/
theorem bsCursorCommands : Obligations.BsCursorCommands := by
  refine ⟨rfl, rfl, rfl, rfl, fun _ => rfl, fun _ => rfl, fun _ => bsSetpos_completes, fun _ => bsSetpos_raises,
    fun s h => ?_, fun s h => ?_⟩
  · rw [bsAlign_eq, if_neg h]
  · rw [bsAlign_eq, if_pos h]

/-! ### Reading (R134, R135, R140) -/

/-- `n` bits make a number below `2^n`. -/
theorem readBits_lt (s : State) (p : Nat) {n : Nat} (hn : n ≤ 32) : (readBits s p n).toNat < 2 ^ n := by
  refine Nat.lt_pow_two_of_testBit _ fun j hj => ?_
  rw [BitVec.testBit_toNat, getLsbD_readBits s p n j hn]
  simp [Nat.not_lt.2 hj]

/-- The first bit read becomes bit `n-1`, the last bit 0 (R134). -/
theorem getLsbD_readBits_of_lt (s : State) (p : Nat) {n k : Nat} (hn : n ≤ 32) (hk : k < n) :
    (readBits s p n).getLsbD (n - 1 - k) = getBit s (p + k) := by
  have hlt : n - 1 - k < n := by omega
  have hback : n - 1 - (n - 1 - k) = k := by omega
  rw [getLsbD_readBits s p n _ hn, hback]
  simp [hlt]

theorem bsRead_completes {n : Nat} {s : State} (hn : n ≤ s.cfg.maxBits) (hb : n = 0 ∨ bitPos s + n ≤ 8 * s.bsLen) :
    exec (.bsRead n) s = .next (setPos (bitPos s + n) { s with res0 := readBits s (bitPos s) n }) := by
  obtain ⟨t, ht, rfl, -⟩ := (bsRead_ends n s).completes (by rintro e i u ⟨-, hq⟩; unfold fetchErr at hq; omega)
  exact ht

theorem bsPeek_completes {n : Nat} {s : State} (hn : n ≤ s.cfg.maxBits) (hb : n = 0 ∨ bitPos s + n ≤ 8 * s.bsLen) :
    exec (.bsPeek n) s = .next { s with res0 := readBits s (bitPos s) n } := by
  obtain ⟨t, ht, rfl, -⟩ := (bsPeek_ends n s).completes (by rintro e i u ⟨-, hq⟩; unfold fetchErr at hq; omega)
  exact ht

/-- Where `BS.READ` raises an error of its own, `BS.PEEK` raises the same one. -/
theorem bsFetch_raises {n : Nat} {s : State} {e : ErrKind} {info : Nat} (h : bsFetch n s = .raised e info s) :
    exec (.bsRead n) s = .next (raise e info (encode (.bsRead n)) s) ∧
    exec (.bsPeek n) s = .next (raise e info (encode (.bsPeek n)) s) := by
  constructor
  · show finish _ ((bsFetch n s).bind _) = _
    rw [h, Res.bind_raised, finish_raised]
  · show finish _ (bsFetch n s) = _
    rw [h, finish_raised]

theorem bsFetch_count {n : Nat} {s : State} (h : s.cfg.maxBits < n) : bsFetch n s = .raised .invalidArgument n s :=
  if_pos h

theorem bsFetch_end {n : Nat} {s : State} (h1 : 1 ≤ n) (hn : n ≤ s.cfg.maxBits) (hb : 8 * s.bsLen < bitPos s + n) :
    bsFetch n s = .raised .unexpectedEnd (bitPos s) s := by
  rw [bsFetch, if_neg (by omega), if_neg (by omega), if_pos hb]

/-- Settles O23. -/
theorem bsReadAndPeek : Obligations.BsReadAndPeek := by
  refine ⟨fun n hn => ⟨encode_eq_ofNat hn ?_, encode_eq_ofNat hn ?_⟩, rfl, ?_⟩
  · rw [opcode, immediate]; omega
  · rw [opcode, immediate]; omega
  rintro s n m rfl hm
  refine ⟨?_, fun h1 hn hb => ?_, fun hn => bsFetch_raises (bsFetch_count hn),
    fun h1 hn hb => bsFetch_raises (bsFetch_end h1 hn hb)⟩
  · rintro rfl hbit
    refine ⟨?_, bsPeek_completes (Nat.zero_le _) (.inl rfl)⟩
    rw [bsRead_completes (Nat.zero_le _) (.inl rfl)]
    exact congrArg _ (setPos_bitPos (s := { s with res0 := 0 }) hbit)
  · have hn32 : n ≤ 32 := by omega
    exact ⟨readBits s (bitPos s) n, bsRead_completes hn (.inr hb), bsPeek_completes hn (.inr hb),
      readBits_lt s _ hn32, fun k hk => getLsbD_readBits_of_lt s _ hn32 hk⟩

/-! ### Writing (R136, R140) -/

/-- After a bit has been written the bit index is below 8 (R28). -/
theorem bsBit_bitsWritten {l : List Bool} (hl : l ≠ []) (s : State) : (bitsWritten l s).bsBit < 8 := by
  induction l generalizing s with
  | nil => exact absurd rfl hl
  | cons b l ih =>
    by_cases hnil : l = []
    · subst hnil
      exact Nat.mod_lt _ (by decide)
    · exact ih hnil _

theorem bitsOf_ne_nil (v : Word) {n : Nat} (h : 1 ≤ n) : bitsOf v n ≠ [] :=
  List.ne_nil_of_length_pos (by rw [bitsOf_length]; exact h)

theorem bitsOf_getD (v : Word) {n k : Nat} (h : k < n) : (bitsOf v n)[k]?.getD false = v.getLsbD (n - 1 - k) := by
  rw [bitsOf_getElem?, if_pos h, Option.getD_some]

theorem bsWrite_completes {n : Nat} {s : State} (hn : n ≤ s.cfg.maxBits) (hb : bitPos s + n ≤ 8 * s.cfg.bufCap) :
    exec (.bsWrite n) s = .next (bitsWritten (bitsOf s.arg0 n) s) := by
  obtain ⟨t, ht, rfl, -⟩ := (bsWrite_ends n s).completes (by rintro e i u ⟨-, hq⟩; omega)
  exact ht

theorem bsWrite_count {n : Nat} {s : State} (hn : s.cfg.maxBits < n) :
    exec (.bsWrite n) s = .next (raise .invalidArgument n (encode (.bsWrite n)) s) := by
  obtain ⟨e, i, ht, ⟨rfl, rfl, -⟩ | ⟨-, -, hle, -⟩⟩ := (bsWrite_ends n s).raises (by rintro t ⟨-, hp⟩; omega)
  · exact ht
  · omega

theorem bsWrite_full {n : Nat} {s : State} (hn : n ≤ s.cfg.maxBits) (hb : 8 * s.cfg.bufCap < bitPos s + n) :
    exec (.bsWrite n) s = .next (raise .capacity (bitPos s) (encode (.bsWrite n)) s) := by
  obtain ⟨e, i, ht, ⟨-, -, hlt⟩ | ⟨rfl, rfl, -⟩⟩ := (bsWrite_ends n s).raises (by rintro t ⟨-, hp⟩; omega)
  · omega
  · exact ht

/-- Settles O24. -/
theorem bsWriteResult : Obligations.BsWriteResult := by
  refine ⟨fun n hn => encode_eq_ofNat hn (by rw [opcode, immediate]; omega), rfl, ?_⟩
  rintro s n m rfl -
  refine ⟨?_, fun h1 hn hb => ?_, bsWrite_count, bsWrite_full⟩
  · rintro rfl hb
    exact bsWrite_completes (Nat.zero_le _) hb
  · have hne := bitsOf_ne_nil s.arg0 h1
    obtain ⟨hlen, hfield, hother⟩ := bitsWritten_stream_of_ne (bitsOf s.arg0 n) s hne
    rw [bitsOf_length] at hlen hfield hother
    refine ⟨_, bsWrite_completes hn hb, ?_, bsBit_bitsWritten hne s, hlen, fun k hk => ?_, hother,
      bufRead_bitsWritten_above _ s, bitsWritten_frame _ s⟩
    · rw [bitPos_bitsWritten, bitsOf_length]
    · rw [hfield k hk, bitsOf_getD _ hk]

/-! ### Bytes (R138, R139) -/

/-- Stream bit `j` of byte `a` (R11). -/
theorem getBit_of_byte (s : State) (a : Nat) {j : Nat} (hj : j < 8) :
    getBit s (8 * a + j) = (bufRead s.bsb a).getLsbD (7 - j) := by
  have hdiv : (8 * a + j) / 8 = a := by omega
  have hmod : (8 * a + j) % 8 = j := by omega
  rw [getBit, hdiv, hmod]

/-- Two bytes with the same stream bits are equal. -/
theorem byte_eq_of_streamBits {x y : Byte} (h : ∀ j, j < 8 → x.getLsbD (7 - j) = y.getLsbD (7 - j)) : x = y := by
  refine BitVec.eq_of_getLsbD_eq fun i hi => ?_
  have hback : 7 - (7 - i) = i := by omega
  simpa only [hback] using h (7 - i) (by omega)

/-- Every byte of `BSB` after eight bits have been written at the start of byte `k`: zero fill up to it, and the
low byte of the word OR-ed in there. -/
theorem bufRead_byteWritten (v : Word) (k : Nat) (s : State) (a : Nat) :
    bufRead (bitsWritten (bitsOf v 8) (setPos (8 * k) s)).bsb a =
      (if s.bsLen ≤ a ∧ a ≤ k then 0 else bufRead s.bsb a) ||| if a = k then v.setWidth 8 else 0 := by
  refine byte_eq_of_streamBits fun j hj => ?_
  have hfill : (8 * s.bsLen ≤ 8 * a + j ∧ bitsOf v 8 ≠ [] ∧ (8 * a + j) / 8 ≤ (8 * k + 8 - 1) / 8) ↔
      s.bsLen ≤ a ∧ a ≤ k := by
    rw [and_iff_right (bitsOf_ne_nil v (by decide))]
    omega
  have hold : (if s.bsLen ≤ a ∧ a ≤ k then false else getBit s (8 * a + j)) =
      (if s.bsLen ≤ a ∧ a ≤ k then 0 else bufRead s.bsb a).getLsbD (7 - j) := by
    rw [getBit_of_byte s a hj]
    split_ifs <;> simp
  have hnew : (decide (8 * k ≤ 8 * a + j) && (bitsOf v 8)[8 * a + j - 8 * k]?.getD false) =
      (if a = k then v.setWidth 8 else 0 : Byte).getLsbD (7 - j) := by
    rw [bitsOf_getElem?]
    by_cases hak : a = k
    · subst hak
      have hoff : 8 * a + j - 8 * a = j := by omega
      have hlow : 7 - j < 8 := by omega
      simp [hoff, hj, hlow]
    · rw [if_neg hak]
      by_cases hle : 8 * k ≤ 8 * a + j
      · rw [if_neg (by omega)]
        simp
      · simp [hle]
  rw [← getBit_of_byte _ a hj, getBit_bitsWritten, BitVec.getLsbD_or, bitsOf_length, bitPos_setPos, setPos_bsLen,
    getBit_setPos, if_congr hfill rfl rfl, hold, hnew]

theorem alignedPos_eq (s : State) : alignedPos s = 8 * ((bitPos s + 7) / 8) := Nat.mul_comm _ _

theorem bsReadbyte_completes {s : State} (h : alignedPos s + 8 ≤ 8 * s.bsLen) : exec .bsReadbyte s =
    .next (setPos (alignedPos s + 8) { s with res0 := (bufRead s.bsb (alignedPos s / 8)).setWidth 32 }) := by
  obtain ⟨t, ht, rfl, -⟩ := (bsReadbyte_ends s).completes (by rintro e i u ⟨-, -, -, hq⟩; omega)
  exact ht

theorem bsReadbyte_raises {s : State} (h : 8 * s.bsLen < alignedPos s + 8) :
    exec .bsReadbyte s = .next (raise .unexpectedEnd (bitPos s) (encode .bsReadbyte) s) := by
  obtain ⟨e, n, ht, rfl, rfl, -⟩ := (bsReadbyte_ends s).raises (by rintro t ⟨-, hp⟩; omega)
  exact ht

theorem bsWritebyte_completes {s : State} (h : alignedPos s + 8 ≤ 8 * s.cfg.bufCap) :
    exec .bsWritebyte s = .next (bitsWritten (bitsOf s.arg0 8) (setPos (alignedPos s) s)) := by
  obtain ⟨t, ht, rfl, -⟩ := (bsWritebyte_ends s).completes (by rintro e i u ⟨-, -, -, hq⟩; omega)
  exact ht

theorem bsWritebyte_raises {s : State} (h : 8 * s.cfg.bufCap < alignedPos s + 8) :
    exec .bsWritebyte s = .next (raise .capacity (bitPos s) (encode .bsWritebyte) s) := by
  obtain ⟨e, n, ht, rfl, rfl, -⟩ := (bsWritebyte_ends s).raises (by rintro t ⟨-, hp⟩; omega)
  exact ht

/-- The cursor and the length after eight bits have been written at the start of byte `k`. -/
theorem cursor_byteWritten (v : Word) (k : Nat) (s : State) :
    (bitsWritten (bitsOf v 8) (setPos (8 * k) s)).bsByte = k + 1 ∧
    (bitsWritten (bitsOf v 8) (setPos (8 * k) s)).bsBit = 0 ∧
    (bitsWritten (bitsOf v 8) (setPos (8 * k) s)).bsLen = max s.bsLen (k + 1) := by
  have hne := bitsOf_ne_nil v (n := 8) (by decide)
  have hbit := bsBit_bitsWritten hne (setPos (8 * k) s)
  have hpos := bitPos_bitsWritten (bitsOf v 8) (setPos (8 * k) s)
  rw [bitsOf_length, bitPos_setPos, bitPos] at hpos
  refine ⟨by omega, by omega, ?_⟩
  rw [bsLen_bitsWritten, if_neg hne, bitsOf_length, bitPos_setPos, setPos_bsLen]
  omega

/-- Settles O25: both commands work on byte `k`, whose first bit is at the aligned position. -/
theorem bsByteCommands : Obligations.BsByteCommands := by
  refine ⟨rfl, rfl, ?_⟩
  rintro s k rfl
  have hal := alignedPos_eq s
  generalize (bitPos s + 7) / 8 = k at hal ⊢
  refine ⟨fun hk => ?_, fun hk => bsReadbyte_raises (by omega), fun hk => ?_, fun hk => bsWritebyte_raises (by omega)⟩
  · have hbyte : 8 * k / 8 = k := by omega
    have hnext : (8 * k + 8) / 8 = k + 1 := by omega
    have hbit : (8 * k + 8) % 8 = 0 := by omega
    rw [bsReadbyte_completes (by omega), hal, setPos, hbyte, hnext, hbit]
  · obtain ⟨hbyte, hbit, hlen⟩ := cursor_byteWritten s.arg0 k s
    refine ⟨_, hal ▸ bsWritebyte_completes (by omega), hbyte, hbit, hlen, ?_, fun a ha => ?_, bitsWritten_frame _ _⟩
    · rw [bufRead_byteWritten, if_pos rfl]
      by_cases hk : k < s.bsLen
      · rw [if_pos hk, if_neg (by omega)]
      · rw [if_neg hk, if_pos (by omega)]
    · have hle : (s.bsLen ≤ a ∧ a ≤ k) ↔ s.bsLen ≤ a ∧ a < k := by omega
      rw [bufRead_byteWritten, if_neg ha, if_congr hle rfl rfl]
      exact BitVec.or_zero

/-! ### Fidelity (R141) -/

/-- The stream is the bits `w`, then zeros. -/
structure StreamIs (w : List Bool) (s : State) : Prop where
  fits : w.length ≤ 8 * s.bsLen
  bits : ∀ q, bitAt s q = w[q]?.getD false

/-- An empty `BSB` is the empty stream, whatever its bytes hold (R131). -/
theorem StreamIs.empty {s : State} (h : s.bsLen = 0) : StreamIs [] s where
  fits := Nat.zero_le _
  bits q := by simp [bitAt, h]

/-- Bits written at the end of the stream are appended to it. -/
theorem StreamIs.bitsWritten {w l : List Bool} {s : State} (h : StreamIs w s) (hp : bitPos s = w.length) :
    StreamIs (w ++ l) (bitsWritten l s) := by
  obtain ⟨hlen, hpos, hfield, hother⟩ := bitsWritten_stream l s
  constructor
  · have hfits := h.fits
    by_cases hl : l = []
    · subst hl
      rw [List.append_nil]
      exact hfits
    · have := hpos hl
      rw [List.length_append]; omega
  · intro q
    by_cases hq : w.length ≤ q ∧ q < w.length + l.length
    · obtain ⟨k, rfl⟩ := Nat.exists_eq_add_of_le hq.1
      rw [← hp, hfield k (by omega), h.bits, hp, List.getElem?_append_right (Nat.le_add_right _ _),
        List.getElem?_eq_none (Nat.le_add_right _ _), Nat.add_sub_cancel_left]
      simp
    · rw [hother q (by omega), h.bits]
      rcases Nat.lt_or_ge q w.length with hlt | hge
      · rw [List.getElem?_append_left hlt]
      · rw [List.getElem?_eq_none hge, List.getElem?_eq_none (by rw [List.length_append]; omega)]

/-- The value read from a field is the value written there, taken mod `2^n`. -/
theorem StreamIs.readBits {pre post : List Bool} {v : Word} {n : Nat} {s : State}
    (h : StreamIs (pre ++ (bitsOf v n ++ post)) s) (hn : n ≤ 32) :
    readBits s pre.length n = BitVec.ofNat 32 (v.toNat % 2 ^ n) := by
  have hfits := h.fits
  rw [List.length_append, List.length_append, bitsOf_length] at hfits
  refine BitVec.eq_of_getLsbD_eq fun j hj => ?_
  rw [getLsbD_readBits s _ n j hn, BitVec.getLsbD_ofNat, Nat.testBit_mod_two_pow, BitVec.testBit_toNat]
  by_cases hjn : j < n
  · have hbit := h.bits (pre.length + (n - 1 - j))
    have hin : pre.length + (n - 1 - j) < 8 * s.bsLen := by omega
    have hback : n - 1 - (n - 1 - j) = j := by omega
    rw [List.getElem?_append_right (Nat.le_add_right _ _), Nat.add_sub_cancel_left,
      List.getElem?_append_left (by rw [bitsOf_length]; omega), bitsOf_getD v (by omega), hback] at hbit
    simpa [bitAt, hin, hjn, hj] using hbit
  · simp [hjn]

/-- The bits of a sequence of fields, in stream order. -/
def fieldBits (l : List (Nat × Word)) : List Bool := l.flatMap fun f => bitsOf f.2 f.1

theorem fieldBits_cons (n : Nat) (v : Word) (l : List (Nat × Word)) :
    fieldBits ((n, v) :: l) = bitsOf v n ++ fieldBits l := rfl

/-- Writing fields at the end of the stream appends their bits, no field is wider than `MAXBITS`, and nothing is
latched. -/
theorem StreamIs.writeFields {l : List (Nat × Word)} {w : List Bool} {s t : State} (h : StreamIs w s)
    (hp : bitPos s = w.length) (hs : latched s = false) (ht : writeFields l s = some t) :
    StreamIs (w ++ fieldBits l) t ∧ latched t = false ∧ t.cfg = s.cfg ∧ ∀ f ∈ l, f.1 ≤ s.cfg.maxBits := by
  induction l generalizing w s with
  | nil =>
    cases ht
    exact ⟨by simpa [fieldBits] using h, hs, rfl, by simp⟩
  | cons f l ih =>
    obtain ⟨n, v⟩ := f
    obtain ⟨u, hu, hrest⟩ := Option.bind_eq_some_iff.1 ht
    obtain ⟨rfl, hn, -⟩ := (bsWrite_ends n _).of_completed hu
    have hw : StreamIs w { s with arg0 := v } := ⟨h.fits, h.bits⟩
    obtain ⟨hstream, hlatch, hcfg, hwidth⟩ := ih (hw.bitsWritten hp)
      (by rw [bitPos_bitsWritten, List.length_append]; exact congrArg (· + _) hp)
      (by rw [latched_bitsWritten]; exact hs) hrest
    rw [bitsWritten_cfg] at hcfg hwidth
    rw [List.append_assoc] at hstream
    exact ⟨hstream, hlatch, hcfg, List.forall_mem_cons.2 ⟨hn, hwidth⟩⟩

/-- `BS.READ` at the start of a field answers its value and moves to the next one. -/
theorem StreamIs.bsRead {pre post : List Bool} {v : Word} {n : Nat} {s : State}
    (h : StreamIs (pre ++ (bitsOf v n ++ post)) s) (hp : bitPos s = pre.length) (hs : latched s = false)
    (hcfg : s.cfg.maxBits ≤ 31) (hn : n ≤ s.cfg.maxBits) :
    ∃ t, completed (exec (.bsRead n) s) = some t ∧ t.res0 = BitVec.ofNat 32 (v.toNat % 2 ^ n) ∧
      StreamIs ((pre ++ bitsOf v n) ++ post) t ∧ bitPos t = (pre ++ bitsOf v n).length ∧ latched t = false ∧
      t.cfg = s.cfg := by
  have hfits := h.fits
  rw [List.length_append, List.length_append, bitsOf_length] at hfits
  refine ⟨setPos (bitPos s + n) { s with res0 := Machine.readBits s (bitPos s) n }, ?_, ?_, ?_, ?_, hs, rfl⟩
  · rw [bsRead_completes hn (.inr (by omega))]
    exact completed_next hs
  · rw [setPos_res0, hp, h.readBits (by omega)]
  · rw [List.append_assoc]
    exact ⟨h.fits, h.bits⟩
  · rw [bitPos_setPos, List.length_append, bitsOf_length, hp]

/-- Reading the fields of a stream in turn answers their values and ends behind the last one. -/
theorem StreamIs.readFields {l : List (Nat × Word)} {pre : List Bool} {s : State} (h : StreamIs (pre ++ fieldBits l) s)
    (hp : bitPos s = pre.length) (hs : latched s = false) (hcfg : s.cfg.maxBits ≤ 31)
    (hwidth : ∀ f ∈ l, f.1 ≤ s.cfg.maxBits) :
    ∃ u, readFields (l.map Prod.fst) s = some (l.map fun f => BitVec.ofNat 32 (f.2.toNat % 2 ^ f.1), u) ∧
      bitPos u = pre.length + (l.map Prod.fst).sum := by
  induction l generalizing pre s with
  | nil => exact ⟨s, rfl, hp⟩
  | cons f l ih =>
    obtain ⟨n, v⟩ := f
    obtain ⟨hn, hwidth⟩ := List.forall_mem_cons.1 hwidth
    rw [fieldBits_cons] at h
    obtain ⟨t, ht, hres, hstream, hpos, hlatch, hsame⟩ := h.bsRead hp hs hcfg hn
    obtain ⟨u, hu, hend⟩ := ih hstream hpos hlatch (hsame ▸ hcfg) (hsame ▸ hwidth)
    refine ⟨u, ?_, ?_⟩
    · rw [List.map_cons, Machine.readFields, ht, Option.bind_some, hu, Option.map_some, hres, List.map_cons]
    · rw [hend, List.length_append, bitsOf_length, List.map_cons, List.sum_cons, Nat.add_assoc]

theorem maxBits_le_of_wf {c : Config} (h : c.wf = true) : c.maxBits ≤ 31 := by
  simp only [Config.wf, Bool.and_eq_true, decide_eq_true_eq] at h
  exact h.2

/-- Settles O26: what is written is the stream from its start, and reading takes it apart field by field. -/
theorem bitStreamFidelity : Obligations.BitStreamFidelity := by
  intro s s0 t l hcfg hs hclear hwrite
  obtain rfl : { s with bsLen := 0, bsByte := 0, bsBit := 0 } = s0 := Host.Outcome.next.inj hclear
  have hempty : StreamIs [] { s with bsLen := 0, bsByte := 0, bsBit := 0 } := .empty rfl
  obtain ⟨hstream, hlatch, hsame, hwidth⟩ := hempty.writeFields rfl hs hwrite
  have hmax : t.cfg.maxBits ≤ 31 := hsame ▸ maxBits_le_of_wf hcfg
  obtain ⟨u, hu, hpos⟩ := StreamIs.readFields (pre := []) (s := setPos 0 t) ⟨hstream.fits, hstream.bits⟩
    (bitPos_setPos 0 t) hlatch hmax (hsame ▸ hwidth)
  exact ⟨u, hu, by rw [hpos, List.length_nil, Nat.zero_add]⟩

end Sys2Proof.Machine
end

section
/-! PROOFS. Every step keeps the dictionary invariants (O58), and the bound on nodes they give (O34). -/

namespace Sys2Proof.Machine

/-! ### Every step keeps the invariants (R45, R46) -/

/-- A command whose unit does not own the dictionary leaves it (R20, R60). -/
theorem exec_sameDict {i : Instr} {s t : State} (hw : i = .pyrCompress ∨ i = .pyrExpand → 0 < s.cfg.cap)
    (hi : ∀ r u, (takeOwn i r u).dict = r.dict) (ht : exec i s = .next t) : t.dict = s.dict :=
  (exec_framed hw ht).keeps (R := fun u => u.dict = s.dict) rfl id (fun r u h => (hi r u).trans h) fun _ _ _ => id

theorem dictInsert_keeps_dictWf {s t : State} (hcap : 0 < s.cfg.cap) (hs : dictWf s.cfg.cap s.dict = true)
    (ht : exec .dictInsert s = .next t) : dictWf s.cfg.cap t.dict = true := by
  rcases (dictInsert_ends s).cases ht with ⟨rfl, hoff, hlen⟩ | ⟨e, n, u, rfl, rfl, -⟩
  · exact dictInsert_wf hs hcap _ (insertAt_str (by omega))
  · exact hs

theorem dictFind_keeps_dictWf {s t : State} (hs : dictWf s.cfg.cap s.dict = true)
    (ht : exec .dictFind s = .next t) : dictWf s.cfg.cap t.dict = true := by
  obtain ⟨-, -, -, hfind⟩ := findAt_frame (argNat0 s) s
  obtain rfl := ((dictFind_ends s).cases ht).resolve_right (by simp)
  split <;> exact hfind hs

theorem dictFree_keeps_dictWf {s t : State} (hcap : 0 < s.cfg.cap) (hs : dictWf s.cfg.cap s.dict = true)
    (ht : exec .dictFree s = .next t) : dictWf s.cfg.cap t.dict = true := by
  rcases (dictFree_ends s).cases ht with ⟨rfl, hfull⟩ | ⟨e, n, u, rfl, rfl, -⟩
  · exact freeIndex_wf hs hfull hcap
  · exact hs

/-- The stream commands start from an empty dictionary, and their parts keep the invariants (R201, R210). -/
theorem Grows.dictWf_of_pyrStart {sel : DataSel} {s u : State} (hcap : 0 < s.cfg.cap) (h : Grows (pyrStart sel s) u) :
    dictWf s.cfg.cap u.dict = true :=
  (h.dictKept (empty_wf _ _) hcap).1

theorem exec_dictWf {i : Instr} {s t : State} (hcap : 0 < s.cfg.cap) (hs : dictWf s.cfg.cap s.dict = true)
    (ht : exec i s = .next t) : dictWf s.cfg.cap t.dict = true := by
  have hkept : (∀ r u, (takeOwn i r u).dict = r.dict) → dictWf s.cfg.cap t.dict = true := fun hi => by
    rw [exec_sameDict (fun _ => hcap) hi ht]; exact hs
  cases i
  case sysReset =>
    obtain rfl := ((sysReset_ends s).cases ht).resolve_right (by simp)
    split_ifs
    · exact hs
    · exact empty_wf _ _
  case sysXchg =>
    obtain rfl := ((sysXchg_ends s).cases ht).resolve_right (by simp)
    exact empty_wf _ _
  case dictClear sel =>
    rcases (dictClear_ends sel s).cases ht with ⟨rfl, -⟩ | ⟨e, n, u, rfl, rfl, -⟩
    · exact empty_wf _ _
    · exact hs
  case dictInsert => exact dictInsert_keeps_dictWf hcap hs ht
  case dictFind => exact dictFind_keeps_dictWf hs ht
  case dictFree => exact dictFree_keeps_dictWf hcap hs ht
  case pyrCompress =>
    rcases (pyrCompress_ends s hcap).cases ht with ⟨u, rfl, hg, -⟩ | ⟨e, n, u, rfl, -, -, hg, -⟩
    · exact (hg.dictWf_of_pyrStart hcap :)
    · exact (hg.dictWf_of_pyrStart hcap :)
  case pyrExpand =>
    rcases (pyrExpand_ends s hcap).cases ht with ⟨u, rfl, hg, -⟩ | ⟨e, n, u, rfl, hg, -⟩
    · exact (hg.dictWf_of_pyrStart hcap :)
    · exact (hg.dictWf_of_pyrStart hcap :)
  all_goals exact hkept fun _ _ => rfl

/-- Settles O58: the commands that own the dictionary keep its invariants, and no other move reaches it but a
reset, which empties it. -/
theorem stepKeepsDictionary : Obligations.StepKeepsDictionary := by
  intro s t hcfg hs ht
  refine (step_keeps (P := fun s => s.cfg.wf = true ∧ dictWf s.cfg.cap s.dict = true) s t
    ?_ ?_ ?_ ?_ ?_ ?_ ?_ ?_ ?_ ⟨hcfg, hs⟩ ht).2
  · exact fun s hs _ => hs
  · exact fun s hs _ => hs
  · intro i s t hs _ h
    have hcap := cap_pos_of_wf hs.1
    rw [(exec_sameHost (fun _ => hcap) h).1]
    exact ⟨hs.1, exec_dictWf hcap hs.2 h⟩
  · exact fun w s hs _ => hs
  · exact fun n v s hs => by rw [writeReg_frame]; exact hs
  · exact fun sp a v s hs _ => by cases sp <;> exact hs
  · exact fun sp a v s hs _ => by cases sp <;> exact hs
  · exact fun s hs => ⟨hs.1, empty_wf _ _⟩
  · exact fun w i h => encode_of_commandOf h

/-! ### The bound on nodes (R46 (e), R186) -/

/-- Each un-indexed node has two children, so the nodes of a map and the map's own size together are at most twice
its indices. -/
theorem nodeCount_add_siblings_le {t : Trie} (ht : trieWf t = true) :
    nodeCount t + siblings t ≤ 2 * (indices t).length := by
  induction t with
  | nil => simp [nodeCount, siblings]
  | node off label index prio children next ihc ihn =>
    obtain ⟨-, -, hindex, hc, hn⟩ := trieWf_node.1 ht
    have hchildren := ihc hc
    have hnext := ihn hn
    simp only [nodeCount, siblings, indices, List.length_append]
    cases index with
    | some i => simp only [Option.toList_some, List.length_singleton]; omega
    | none =>
      have htwo : 2 ≤ siblings children := by simpa using hindex
      simp only [Option.toList_none, List.length_nil]; omega

/-- Settles O34. -/
theorem dictNodeBound : Obligations.DictNodeBound := by
  intro cap d hd
  obtain ⟨htrie, -, hcount, hcap, -⟩ := (dictWf_iff cap d).1 hd
  have hle := nodeCount_add_siblings_le htrie
  rw [hcount] at hle
  refine ⟨hcap, fun h0 => by omega, fun _ => ?_⟩
  cases hroots : d.roots with
  | nil => simp [nodeCount]
  | node off label index prio children next =>
    rw [hroots, siblings] at hle
    omega

end Sys2Proof.Machine
end

section
/-! PROOFS. The `DICT` commands in the flat view of R187 (O27 to O33): what touching, evicting and allocating do to the
set of entries, and what each command answers. -/

namespace Sys2Proof.Machine

/-! ### The flat set over the trie -/

theorem exists_entry_iff {o : Option (Nat × Nat)} {i : Nat} : (∃ q, o = some (i, q)) ↔ o.map Prod.fst = some i := by
  cases o <;> simp [Prod.ext_iff]

theorem sameIndex_of_entryAt {c d : Dict} {u : List Byte} (hc : trieWf c.roots = true) (hd : trieWf d.roots = true)
    (h : (entryAt d.roots u).map Prod.fst = (entryAt c.roots u).map Prod.fst) : sameIndex c d u := fun i => by
  simp only [mem_flat hc, mem_flat hd, exists_entry_iff, h]

theorem sameEntry_of_entryAt {c d : Dict} {u : List Byte} (hc : trieWf c.roots = true) (hd : trieWf d.roots = true)
    (h : entryAt d.roots u = entryAt c.roots u) : sameEntry c d u := fun i q => by
  rw [mem_flat hc, mem_flat hd, h]

theorem sameIndex.trans {c d e : Dict} {u : List Byte} (h : sameIndex c d u) (g : sameIndex d e u) : sameIndex c e u :=
  fun i => (g i).trans (h i)

theorem sameEntry.trans {c d e : Dict} {u : List Byte} (h : sameEntry c d u) (g : sameEntry d e u) : sameEntry c e u :=
  fun i q => (g i q).trans (h i q)

theorem sameEntry.sameIndex {c d : Dict} {u : List Byte} (h : sameEntry c d u) : sameIndex c d u :=
  fun i => exists_congr fun q => h i q

/-- Fresh priorities from `p` on, the shorter string the smaller, carried from the trie to the flat set. -/
theorem touchedFrom_of_entryAt {d : Dict} {str : List Byte} {p : Nat} (hd : trieWf d.roots = true)
    (hfresh : ∀ u i q, u <+: str → entryAt d.roots u = some (i, q) → p ≤ q)
    (horder : ∀ u v i j q r, u <+: v → v <+: str → u ≠ v → entryAt d.roots u = some (i, q) →
      entryAt d.roots v = some (j, r) → q < r) : touchedFrom p str d := by
  simp only [touchedFrom, mem_flat hd]
  exact ⟨fun i u q he hu => hfresh u i q hu he,
    fun i u q j v r hu hv huv hvs hne => horder u v i j q r huv hvs hne hu hv⟩

theorem entryAt_eq_none_iff {d : Dict} (hd : trieWf d.roots = true) (u : List Byte) :
    entryAt d.roots u = none ↔ ∀ e ∈ flat d, e.2.1 ≠ u := by
  constructor
  · rintro h ⟨i, v, q⟩ he rfl
    rw [(mem_flat hd i q v).1 he] at h
    cases h
  · intro h
    cases he : entryAt d.roots u with
    | none => rfl
    | some e => exact absurd rfl (h (e.1, u, e.2) ((mem_flat hd _ _ _).2 he))

/-- A string without an entry that keeps its index has none afterwards. -/
theorem sameIndex.forall_ne {c d : Dict} {u : List Byte} (h : sameIndex c d u) (hc : ∀ e ∈ flat c, e.2.1 ≠ u) :
    ∀ e ∈ flat d, e.2.1 ≠ u := by
  rintro ⟨i, v, q⟩ he rfl
  obtain ⟨r, hr⟩ := (h i).1 ⟨q, he⟩
  exact hc _ hr rfl

/-! ### Touching (R163) -/

/-- Touching the prefixes of a string keeps every index, and every priority but those of the prefixes, which become
the highest, shortest first. -/
theorem dictTouch_flat {d : Dict} (hd : trieWf d.roots = true) (str : List Byte) :
    (∀ u, sameIndex d (dictTouch str d) u) ∧ (∀ u, ¬ u <+: str → sameEntry d (dictTouch str d) u) ∧
      touchedFrom d.prio str (dictTouch str d) := by
  have hwf : trieWf (dictTouch str d).roots = true := by rw [dictTouch_roots, trieWf_touchWalk]; exact hd
  obtain ⟨hfresh, horder⟩ := entryAt_touchWalk_fresh hd str d.prio
  refine ⟨fun u => sameIndex_of_entryAt hd hwf (entryAt_touchWalk hd str d.prio u).1,
    fun u hu => sameEntry_of_entryAt hd hwf ((entryAt_touchWalk hd str d.prio u).2 hu),
    touchedFrom_of_entryAt hwf (fun u i q hu he => (hfresh u i q hu he).1) horder⟩

/-! ### Evicting (R181 to R184) -/

/-- Priorities are distinct (R45), so at most one entry is the victim. -/
theorem victimEntry_unique {cap : Nat} {d : Dict} (hd : dictWf cap d = true) {f f' : Nat} {v v' : List Byte}
    (h : victimEntry d f v) (h' : victimEntry d f' v') : f = f' ∧ v = v' := by
  obtain ⟨htrie, -, -, -, -, -, hprios, -⟩ := (dictWf_iff cap d).1 hd
  have hunique : ∀ {i j q : Nat} {u z : List Byte}, (i, u, q) ∈ flat d → (j, z, q) ∈ flat d → u = z ∧ i = j :=
    fun hu hz => entryAt_prio_unique htrie hprios ((mem_flat htrie _ _ _).1 hu) ((mem_flat htrie _ _ _).1 hz)
  obtain ⟨w, r, ⟨m, q, hm, hlow⟩, hwv, hleaf, hmin⟩ := h
  obtain ⟨w', r', ⟨m', q', hm', hlow'⟩, hwv', hleaf', hmin'⟩ := h'
  obtain rfl : q = q' := le_antisymm (hlow _ hm') (hlow' _ hm)
  obtain ⟨rfl, -⟩ := hunique hm hm'
  obtain rfl : r = r' := le_antisymm (hmin _ _ _ hwv' hleaf') (hmin' _ _ _ hwv hleaf)
  exact (hunique hleaf.1 hleaf'.1).symm

/-- `FreeIndex` on a dictionary with an entry: there is a victim, its index is freed, and its entry alone goes. -/
theorem freeIndex_flat {cap : Nat} {d : Dict} (hd : dictWf cap d = true) (hc : 0 < d.count) :
    ∃ f v roots, victimEntry d f v ∧
      freeIndex d = ({ d with roots := roots, count := d.count - 1, freeValid := true, freeIdx := f }, f) ∧
      ∀ e, e ∈ flat { d with roots := roots } ↔ e ∈ flat d ∧ e.2.1 ≠ v := by
  have htrie := ((dictWf_iff cap d).1 hd).1
  obtain ⟨m, w, q, f, v, r, hm, hlow, hwv, hleaf, hmin, hfree, hwf, hent, -⟩ := freeIndex_spec hd hc
  refine ⟨f, v, _, ⟨w, r, ⟨m, q, (mem_flat htrie _ _ _).2 hm, ?_⟩, hwv, (leafEntry_iff htrie _ _ _).2 hleaf, ?_⟩,
    hfree, ?_⟩
  · rintro ⟨i, u, p⟩ he
    exact hlow u i p ((mem_flat htrie _ _ _).1 he)
  · exact fun f' v' r' hw' hleaf' => hmin v' f' r' hw' ((leafEntry_iff htrie _ _ _).1 hleaf')
  · rintro ⟨i, u, p⟩
    rw [mem_flat htrie, mem_flat hwf, hent]
    split_ifs with hu <;> simp [hu]

/-- Settles O33. -/
theorem dictVictimExists : Obligations.DictVictimExists := by
  intro cap d hd hc
  obtain ⟨f, v, -, hv, -⟩ := freeIndex_flat hd hc
  exact ⟨⟨f, v, hv⟩, fun _ _ _ _ => victimEntry_unique hd⟩

/-- Any entry that is the victim is the one `FreeIndex` removes. -/
theorem freeIndex_victim {cap : Nat} {d : Dict} (hd : dictWf cap d = true) (hc : 0 < d.count) {f : Nat}
    {v : List Byte} (hv : victimEntry d f v) :
    ∃ roots, freeIndex d = ({ d with roots := roots, count := d.count - 1, freeValid := true, freeIdx := f }, f) ∧
      ∀ e, e ∈ flat { d with roots := roots } ↔ e ∈ flat d ∧ e.2.1 ≠ v := by
  obtain ⟨f', v', roots, hv', hfree, hflat⟩ := freeIndex_flat hd hc
  obtain ⟨rfl, rfl⟩ := victimEntry_unique hd hv hv'
  exact ⟨roots, hfree, hflat⟩

/-- Without the entry of `v`, every other string keeps its entry. -/
theorem sameEntry_of_without {c d : Dict} {u v : List Byte} (h : ∀ e, e ∈ flat d ↔ e ∈ flat c ∧ e.2.1 ≠ v)
    (hu : u ≠ v) : sameEntry c d u := fun i q => (h (i, u, q)).trans (and_iff_left hu)

/-! ### Allocating (R168 to R171) -/

/-- With room, the next index is the freed one or the next dense one (R168). -/
theorem newIndex_room {cap : Nat} {d : Dict} (hd : dictWf cap d = true) (hc : d.count < cap) :
    newIndex cap d = ({ d with freeValid := false, freeIdx := 0 }, if d.freeValid then d.freeIdx else d.count) := by
  obtain ⟨-, -, -, -, -, hdense, -, -⟩ := (dictWf_iff cap d).1 hd
  have hne : ¬ d.count = cap := by omega
  cases hf : d.freeValid with
  | true => simp [newIndex, hne, hf]
  | false =>
    have hself : d = { d with freeValid := false, freeIdx := 0 } := by rw [← hf, ← (hdense hf).1]
    rw [← hself]
    simp [newIndex, hne, hf]

/-- A full dictionary evicts its victim and uses the freed index at once (R168). -/
theorem newIndex_full {cap : Nat} {d : Dict} (hd : dictWf cap d = true) (hcap : 0 < cap) (hc : d.count = cap) {f : Nat}
    {v : List Byte} (hv : victimEntry d f v) :
    (newIndex cap d).2 = f ∧ ∀ e, e ∈ flat (newIndex cap d).1 ↔ e ∈ flat d ∧ e.2.1 ≠ v := by
  obtain ⟨roots, hfree, hflat⟩ := freeIndex_victim hd (by omega) hv
  have hnext : newIndex cap d =
      ({ d with roots := roots, count := d.count - 1, freeValid := false, freeIdx := 0 }, f) := by
    simp [newIndex, hc, hfree]
  rw [hnext]
  exact ⟨rfl, hflat⟩

/-- The flat set `d` is `c` with an entry for `str` of index `i` and priority `q`, allocated by touching the prefixes
of `str` shortest first and the new entry last (R169, R171, R187). -/
structure Allocates (c d : Dict) (str : List Byte) (i q : Nat) : Prop where
  entry : (i, str, q) ∈ flat d
  unique : ∀ e ∈ flat d, e.2.1 = str → e = (i, str, q)
  index : ∀ u, u ≠ str → sameIndex c d u
  kept : ∀ u, ¬ u <+: str → sameEntry c d u
  touched : touchedFrom c.prio str d
  last : ∀ e ∈ flat d, e.2.1 ≠ str → e.2.2 < q

/-- A placement into a well-formed trie allocates the string's entry (R169, R170). -/
theorem place_allocates {c : Dict} {str : List Byte} (hc : trieWf c.roots = true)
    (hprios : ∀ p ∈ prios c.roots, p < c.prio) (hs : str ≠ []) (idx soff : Nat) {d : Dict}
    (hd : d.roots = (place c.roots soff str idx c.prio).1) : ∃ q, Allocates c d str idx q := by
  have hwf : trieWf d.roots = true := hd ▸ place_wf hc hs
  obtain ⟨hlt, hentry, hother, hfresh, horder⟩ := entryAt_place idx c.roots soff str c.prio hc hs
  rw [← hd] at hentry hother hfresh horder
  generalize (place c.roots soff str idx c.prio).2 = p' at hlt hentry hfresh
  refine ⟨p' - 1, (mem_flat hwf _ _ _).2 hentry, ?_, fun u hu => sameIndex_of_entryAt hc hwf (hother u hu).1, ?_,
    touchedFrom_of_entryAt hwf (fun u i q hu he => (hfresh u i q hu he).1) horder, ?_⟩
  · rintro ⟨i, u, q⟩ he rfl
    rw [mem_flat hwf, hentry] at he
    cases he
    rfl
  · intro u hu
    have hne : u ≠ str := by rintro rfl; exact hu (List.prefix_refl u)
    exact sameEntry_of_entryAt hc hwf ((hother u hne).2 hu)
  · rintro ⟨i, u, q⟩ he hne
    rw [mem_flat hwf] at he
    by_cases hu : u <+: str
    · exact horder u str i idx q (p' - 1) hu (List.prefix_refl str) hne he hentry
    · rw [(hother u hne).2 hu] at he
      have := hprios q (mem_prios hc he)
      show q < p' - 1
      omega

/-- An insert of a string without an entry allocates over the dictionary that `NewIndex` left. -/
theorem insertNew_allocates {cap : Nat} {d : Dict} (hd : dictWf cap d = true) (hcap : 0 < cap) {str : List Byte}
    (hs : str ≠ []) (soff : Nat) :
    ∃ q, Allocates (newIndex cap d).1 (insertNew cap soff str d).1 str (newIndex cap d).2 q := by
  obtain ⟨htrie, -, -, -, -, -, -, -, hprios, -⟩ := newIndex_spec hd hcap
  exact place_allocates htrie hprios hs _ soff rfl

/-! ### `DICT.CLEAR` (R164) -/

theorem dictClear_completes {sel : Nat} {s : State} (h : sel ≤ 1) :
    exec (.dictClear sel) s = .next { s with dict := Dict.empty (if sel = 0 then .inSpace else .outSpace) } := by
  obtain ⟨t, ht, rfl, -⟩ := (dictClear_ends sel s).completes (by rintro e n u ⟨-, -, -, hq⟩; omega)
  exact ht

theorem dictClear_raises {sel : Nat} {s : State} (h : 1 < sel) :
    exec (.dictClear sel) s = .next (raise .invalidArgument sel (encode (.dictClear sel)) s) := by
  obtain ⟨e, n, ht, rfl, rfl, -⟩ := (dictClear_ends sel s).raises (by rintro t ⟨-, hp⟩; omega)
  exact ht

/-! ### `DICT.INSERT` (R165 to R171) -/

theorem argNat1_ne_zero {s : State} (h : s.arg1 ≠ 0) : argNat1 s ≠ 0 := fun h0 => h (BitVec.eq_of_toNat_eq h0)

theorem dictInsert_raises {s : State} (h : dataLen s ≤ argNat0 s ∨ argNat1 s = 0) :
    exec .dictInsert s = .next (raise .invalidArgument (argNat0 s) (encode .dictInsert) s) := by
  obtain ⟨e, n, ht, rfl, rfl, -⟩ := (dictInsert_ends s).raises (by rintro t ⟨-, h1, h2⟩; omega)
  exact ht

theorem dictInsert_completes {s : State} (hoff : argNat0 s < dataLen s) (hlen : argNat1 s ≠ 0) :
    exec .dictInsert s = .next { s with
      dict := (dictInsert s.cfg.cap (argNat0 s) (dataSlice (argNat0 s) (argNat1 s) s) s.dict).1
      res0 := toWord (dictInsert s.cfg.cap (argNat0 s) (dataSlice (argNat0 s) (argNat1 s) s) s.dict).2 } := by
  obtain ⟨t, ht, rfl, -⟩ := (dictInsert_ends s).completes (by rintro e n u ⟨-, -, -, hq⟩; omega)
  exact ht

/-- Settles O27. -/
theorem dictClearAndArguments : Obligations.DictClearAndArguments := by
  refine ⟨fun sel h => encode_eq_ofNat h (by rw [opcode, immediate]; omega), fun _ _ => dictClear_completes,
    fun _ _ => dictClear_raises, fun s h => ?_, fun s hoff hlen => ⟨_, _, dictInsert_completes hoff (argNat1_ne_zero hlen)⟩⟩
  exact dictInsert_raises (h.imp_right fun h0 => by rw [argNat1, h0]; rfl)

/-- Settles O28: the string has its entry already, so the insert only touches its prefixes. -/
theorem dictInsertExactHit : Obligations.DictInsertExactHit := by
  intro s str i q hd hoff hlen hstr hmem
  obtain ⟨htrie, -⟩ := (dictWf_iff _ _).1 hd
  have hentry := (mem_flat htrie i q str).1 hmem
  refine ⟨dictTouch str s.dict, ?_, rfl, dictTouch_flat htrie str⟩
  rw [dictInsert_completes hoff (argNat1_ne_zero hlen), show dataSlice (argNat0 s) (argNat1 s) s = str from hstr.symm,
    dictInsert_eq htrie _ (entryAt_ne_nil htrie hentry), hentry]

/-- `DICT.INSERT` of a string without an entry allocates one (R165, R168, R169). -/
theorem dictInsert_new {s : State} {str : List Byte} (hd : dictWf s.cfg.cap s.dict = true)
    (hoff : s.arg0.toNat < dataLen s) (hlen : s.arg1 ≠ 0) (hstr : str = dataSlice s.arg0.toNat s.arg1.toNat s)
    (hnew : ∀ e ∈ flat s.dict, e.2.1 ≠ str) :
    str ≠ [] ∧ exec .dictInsert s = .next { s with
      dict := (insertNew s.cfg.cap (argNat0 s) str s.dict).1
      res0 := toWord (newIndex s.cfg.cap s.dict).2 } := by
  obtain ⟨htrie, -⟩ := (dictWf_iff _ _).1 hd
  have hne : str ≠ [] := by
    rw [hstr]
    exact insertAt_str (not_or.2 ⟨not_le.2 hoff, argNat1_ne_zero hlen⟩)
  refine ⟨hne, ?_⟩
  rw [dictInsert_completes hoff (argNat1_ne_zero hlen), show dataSlice (argNat0 s) (argNat1 s) s = str from hstr.symm,
    dictInsert_eq htrie _ hne, (entryAt_eq_none_iff htrie str).2 hnew]
  rfl

/-- An index that `NewIndex` answers below `CAP` is in no entry (R46 (b), R168). -/
theorem newIndex_fresh {cap : Nat} {d : Dict} (hd : dictWf cap d = true) (hc : d.count < cap) :
    ∀ e ∈ flat d, e.1 ≠ (newIndex cap d).2 := by
  rintro ⟨i, u, q⟩ he rfl
  obtain ⟨htrie, -⟩ := (dictWf_iff cap d).1 hd
  obtain ⟨-, hnodup, -⟩ := newIndex_spec hd (by omega)
  refine (List.nodup_cons.1 hnodup).1 ?_
  rw [newIndex_room hd hc] at he ⊢
  exact (mem_indices htrie _).2 ⟨u, q, (mem_flat htrie _ _ _).1 he⟩

/-- Settles O29: `NewIndex` leaves the flat set, and the placement adds the string's entry to it. -/
theorem dictInsertNewEntry : Obligations.DictInsertNewEntry := by
  intro s str idx hcfg hd hoff hlen hstr hnew hroom hidx
  obtain ⟨hne, hexec⟩ := dictInsert_new hd hoff hlen hstr hnew
  obtain ⟨q, ha⟩ := insertNew_allocates hd (cap_pos_of_wf hcfg) hne (argNat0 s)
  have hfresh := newIndex_fresh hd hroom
  have hnext := newIndex_room hd hroom
  rw [← hidx] at hnext
  rw [insertNew_eq, hnext] at hexec ha
  rw [hnext] at hfresh
  exact ⟨_, q, hexec, rfl, rfl, rfl, rfl, hfresh, ha.entry, ha.unique, ha.index, ha.kept, ha.touched, ha.last⟩

/-- Settles O30: the eviction takes the victim's entry out of the flat set, then the placement adds the string's. -/
theorem dictInsertEvictsWhenFull : Obligations.DictInsertEvictsWhenFull := by
  intro s str v f hcfg hd hoff hlen hstr hnew hfull hv
  have hcap := cap_pos_of_wf hcfg
  obtain ⟨htrie, -⟩ := (dictWf_iff _ _).1 hd
  obtain ⟨hne, hexec⟩ := dictInsert_new hd hoff hlen hstr hnew
  obtain ⟨q, ha⟩ := insertNew_allocates hd hcap hne (argNat0 s)
  obtain ⟨-, -, -, -, hvalid, hidx, -, -, -, hprio, hsel, -⟩ := newIndex_spec hd hcap
  obtain ⟨hf, hwithout⟩ := newIndex_full hd hcap hfull hv
  have hcount := (insertNew_wf hd hcap (argNat0 s) hne ((entryAt_eq_none_iff htrie str).2 hnew)).2
  rw [if_pos hfull] at hcount
  rw [hf] at hexec ha
  have htouched := ha.touched
  rw [hprio] at htouched
  have hvstr : v ≠ str := by
    obtain ⟨w, r, -, -, hleaf, -⟩ := hv
    exact hnew _ hleaf.1
  refine ⟨_, q, hexec, hcount, hvalid, hidx, hsel, ha.entry, ?_, ?_, ?_, htouched, ha.last⟩
  · exact (ha.index v hvstr).forall_ne fun e he => ((hwithout e).1 he).2
  · exact fun u hu huv => (sameEntry_of_without hwithout huv).sameIndex.trans (ha.index u hu)
  · exact fun u hu huv => (sameEntry_of_without hwithout huv).trans (ha.kept u hu)

/-! ### `DICT.FIND` (R175 to R177) -/

/-- Beyond the data nothing is touched (R177 (a)). -/
theorem dictFind_beyond {s : State} (h : dataLen s ≤ argNat0 s) :
    exec .dictFind s = .next { s with res0 := none32, res1 := 0 } := by
  obtain ⟨t, ht, rfl⟩ := (dictFind_ends s).completes fun _ _ _ => id
  rw [ht, findAt_eq, if_pos h]

/-- Within the data the walk is touched, and its last indexed node answered. -/
theorem dictFind_within {s : State} (h : argNat0 s < dataLen s) {str : List Byte}
    (hstr : str = slice (dataBuf s) (argNat0 s) (dataLen s - argNat0 s)) :
    (∀ i n, lastIndexed (walk 0 s.dict.roots str).1 = some (i, n) →
      exec .dictFind s = .next { s with dict := dictTouch str s.dict, res0 := toWord i, res1 := toWord n }) ∧
    (lastIndexed (walk 0 s.dict.roots str).1 = none →
      exec .dictFind s = .next { s with dict := dictTouch str s.dict, res0 := none32, res1 := 0 }) := by
  obtain ⟨t, ht, rfl⟩ := (dictFind_ends s).completes fun _ _ _ => id
  rw [ht, findAt_eq, if_neg (not_le.2 h), ← hstr]
  refine ⟨fun i n hlast => ?_, fun hlast => ?_⟩
  · simp only [hlast]; rfl
  · simp only [hlast]

/-- The last indexed node of a walk is the longest of the entries the walked string begins with (R175, R187). -/
theorem lastIndexed_of_longest {d : Dict} (hd : trieWf d.roots = true) {str u : List Byte} {i q : Nat}
    (he : (i, u, q) ∈ flat d) (hu : u <+: str) (hmax : ∀ e ∈ flat d, e.2.1 <+: str → e.2.1.length ≤ u.length) :
    lastIndexed (walk 0 d.roots str).1 = some (i, u.length) := by
  rw [mem_flat hd] at he
  obtain ⟨hsome, hnone⟩ := lastIndexed_walk hd 0 str
  cases hlast : lastIndexed (walk 0 d.roots str).1 with
  | none =>
    rw [hnone hlast u hu] at he
    cases he
  | some a =>
    obtain ⟨v, r, -, hv, hlen, hentry, hlongest⟩ := hsome a.1 a.2 hlast
    have hle := hlongest u _ hu he
    have hge := hmax _ ((mem_flat hd a.1 r v).2 hentry) hv
    obtain rfl : u = v := (List.prefix_of_prefix_length_le hu hv hle).eq_of_length (le_antisymm hle hge)
    rw [hentry] at he
    cases he
    rw [Nat.zero_add] at hlen
    rw [← hlen]

theorem lastIndexed_of_noPrefix {d : Dict} (hd : trieWf d.roots = true) {str : List Byte}
    (h : ∀ e ∈ flat d, ¬ e.2.1 <+: str) : lastIndexed (walk 0 d.roots str).1 = none := by
  cases hlast : lastIndexed (walk 0 d.roots str).1 with
  | none => rfl
  | some a =>
    obtain ⟨v, r, -, hv, -, hentry, -⟩ := (lastIndexed_walk hd 0 str).1 a.1 a.2 hlast
    exact absurd hv (h _ ((mem_flat hd a.1 r v).2 hentry))

/-- Settles O31. -/
theorem dictFindLongest : Obligations.DictFindLongest := by
  intro s hd
  obtain ⟨htrie, -⟩ := (dictWf_iff _ _).1 hd
  refine ⟨dictFind_beyond, fun hoff str hstr => ?_⟩
  obtain ⟨hfound, hnone⟩ := dictFind_within hoff hstr
  obtain ⟨hindex, hkept, htouched⟩ := dictTouch_flat htrie str
  refine ⟨dictTouch str s.dict, rfl, hindex, hkept, htouched, ?_, ?_⟩
  · exact fun i u q he hu hmax => hfound _ _ (lastIndexed_of_longest htrie he hu hmax)
  · exact fun h => hnone (lastIndexed_of_noPrefix htrie h)

/-! ### `DICT.FREE` (R180) -/

theorem dictFree_raises {s : State} (h : s.dict.count ≠ s.cfg.cap) :
    exec .dictFree s = .next (raise .invalidArgument s.dict.count (encode .dictFree) s) := by
  obtain ⟨e, n, ht, rfl, rfl, -⟩ := (dictFree_ends s).raises fun t ⟨_, hfull⟩ => h hfull
  exact ht

theorem dictFree_completes {s : State} (h : s.dict.count = s.cfg.cap) :
    exec .dictFree s = .next { s with dict := (freeIndex s.dict).1, res0 := toWord (freeIndex s.dict).2 } := by
  obtain ⟨t, ht, rfl, -⟩ := (dictFree_ends s).completes fun e n u ⟨_, _, _, hq⟩ => hq h
  exact ht

/-- Settles O32. -/
theorem dictFreeEvictsLowest : Obligations.DictFreeEvictsLowest := by
  refine fun s => ⟨dictFree_raises, fun f v hcfg hd hfull hv => ?_⟩
  have hcap := cap_pos_of_wf hcfg
  obtain ⟨roots, hfree, hflat⟩ := freeIndex_victim hd (by omega) hv
  rw [dictFree_completes hfull, hfree, hfull]
  exact ⟨_, rfl, rfl, hflat⟩

end Sys2Proof.Machine
end

section
/-! PROOFS. `PYR.MATCHDEC` (O42 to O44): a stream of flag bytes, literals and matches decodes unit by unit to the output
of its units, and ends in the error of the unit that cannot be decoded. -/

namespace Sys2Proof.Machine

/-! ### The offset and the length of a match (R116) -/

theorem copyLength_eq (first : Byte) : copyLength first = matchLength first := by
  simp only [copyLength, matchLength, BitVec.toNat_and]
  rw [show (0x0F#8).toNat = 2 ^ 4 - 1 from rfl, Nat.and_two_pow_sub_one_eq_mod]

theorem highNibble_toNat : ∀ first : Byte, (first &&& 0xF0#8).toNat = first.toNat / 16 * 16 := by decide

theorem copyOffset_eq (first second : Byte) : copyOffset first second = matchOffset first second := by
  have hf := first.isLt
  have hs := second.isLt
  simp only [copyOffset, matchOffset, BitVec.toNat_or, BitVec.toNat_shiftLeft, BitVec.toNat_setWidth, highNibble_toNat,
    Nat.shiftLeft_eq]
  rw [Nat.mod_eq_of_lt (by omega), Nat.mod_eq_of_lt (by omega), Nat.mod_eq_of_lt (by omega),
    show first.toNat / 16 * 16 * 2 ^ 4 = (first.toNat / 16) <<< 8 by rw [Nat.shiftLeft_eq]; omega,
    ← Nat.shiftLeft_add_eq_or_of_lt hs, Nat.shiftLeft_eq]

/-! ### The decoder between two units (R230) -/

/-- The bytes a match of offset `off` and length `n` adds to the output (R232, R353). -/
def copied (out : List Byte) (off n : Nat) : List Byte :=
  (List.range n).map fun j => out.getD (out.length - off + j % off) 0

theorem decodeItem_copy {out out' : List Byte} {first second : Byte} :
    decodeItem out (.copy first second) = some out' ↔
      ¬ (matchOffset first second = 0 ∨ out.length < matchOffset first second) ∧
        out' = out ++ copied out (matchOffset first second) (matchLength first) := by
  simp only [decodeItem, copyOffset_eq, copyLength_eq, copied]
  split_ifs with h
  · exact ⟨fun hn => (by cases hn), fun hp => absurd h hp.1⟩
  · rw [Option.some.injEq, eq_comm, and_iff_right h]

/-- The decoder of `s` with the output `out` written and `ip` bytes of the input read. -/
def decoderAt (s : State) (out : List Byte) (ip : Nat) : MatchReader :=
  { s := appended out { s with outLen := 0 }, ip := ip }

@[simp] theorem decoderAt_ip (s : State) (out : List Byte) (ip : Nat) : (decoderAt s out ip).ip = ip := rfl
@[simp] theorem decoderAt_inLen (s : State) (out : List Byte) (ip : Nat) : (decoderAt s out ip).s.inLen = s.inLen := rfl
@[simp] theorem decoderAt_inb (s : State) (out : List Byte) (ip : Nat) : (decoderAt s out ip).s.inb = s.inb := rfl
@[simp] theorem decoderAt_cfg (s : State) (out : List Byte) (ip : Nat) : (decoderAt s out ip).s.cfg = s.cfg := rfl
@[simp] theorem decoderAt_outLen (s : State) (out : List Byte) (ip : Nat) :
    (decoderAt s out ip).s.outLen = out.length := by simp [decoderAt]

theorem outputBytes_decoderAt (s : State) (out : List Byte) (ip : Nat) : outputBytes (decoderAt s out ip).s = out := by
  rw [decoderAt, outputBytes_appended]
  rfl

theorem bufRead_decoderAt (s : State) (out : List Byte) (ip : Nat) {k : Nat} (h : k < out.length) :
    bufRead (decoderAt s out ip).s.outb k = out.getD k 0 := by
  have hk := slice_getElem? (decoderAt s out ip).s.outb 0 out.length k
  have hout := outputBytes_decoderAt s out ip
  rw [outputBytes, decoderAt_outLen] at hout
  rw [hout, if_pos h, Nat.zero_add] at hk
  rw [List.getD_eq_getElem?_getD, hk]
  rfl

theorem appended_decoderAt (s : State) (out l : List Byte) (ip jp : Nat) :
    ({ s := appended l (decoderAt s out ip).s, ip := jp } : MatchReader) = decoderAt s (out ++ l) jp := by
  rw [decoderAt, decoderAt, appended_append]

/-- The input of `s` has the bytes `l` at `ip`. -/
def InputAt (s : State) (ip : Nat) (l : List Byte) : Prop := slice s.inb ip l.length = l ∧ ip + l.length ≤ s.inLen

theorem InputAt.split {s : State} {ip : Nat} {l m : List Byte} (h : InputAt s ip (l ++ m)) :
    InputAt s ip l ∧ InputAt s (ip + l.length) m := by
  obtain ⟨hbytes, hend⟩ := h
  rw [List.length_append] at hbytes hend
  rw [slice_append] at hbytes
  obtain ⟨hl, hm⟩ := List.append_inj hbytes (slice_length _ _ _)
  exact ⟨⟨hl, by omega⟩, hm, by omega⟩

theorem InputAt.cons {s : State} {ip : Nat} {v : Byte} {l : List Byte} (h : InputAt s ip (v :: l)) :
    ip < s.inLen ∧ bufRead s.inb ip = v ∧ InputAt s (ip + 1) l := by
  obtain ⟨⟨hv, hend⟩, hl⟩ := InputAt.split (l := [v]) h
  exact ⟨hend, (List.cons.inj hv).1, hl⟩

theorem inputAt_zero {s : State} {l m : List Byte} (h : inputBytes s = l ++ m) : InputAt s 0 (l ++ m) := by
  have hlen := congrArg List.length h
  rw [inputBytes, slice_length] at hlen
  exact ⟨by rw [← hlen]; exact h, by omega⟩

/-! ### One unit (R117, R232) -/

theorem matchLiteral_decoderAt {s : State} {out : List Byte} {ip : Nat} {b : Byte} (h : InputAt s ip [b])
    (hroom : out.length + 1 ≤ s.cfg.bufCap) :
    matchLiteral (decoderAt s out ip) = .ok (decoderAt s (out ++ [b]) (ip + 1)) := by
  obtain ⟨hlt, hb, -⟩ := h.cons
  rw [matchLiteral, nextMatchByte, if_neg (by simpa using hlt), Res.bind_ok, append_ok (by simpa using hroom), Res.bind_ok,
    ← appended_decoderAt s out [b] ip, ← hb]
  rfl

/-- The overlapping copy is the repetition of the last `off` bytes (R232, R353). -/
theorem copyBack_decoderAt {s : State} {out : List Byte} {off n : Nat} (ip : Nat) (h1 : 0 < off) (h2 : off ≤ out.length)
    (h3 : out.length + n ≤ s.cfg.bufCap) :
    copyBack off n (decoderAt s out ip).s = .ok (decoderAt s (out ++ copied out off n) ip).s := by
  obtain ⟨l, hlen, hcopy, hsame⟩ := copyBack_spec off n (decoderAt s out ip).s h1 (by simpa using h2) (by simpa using h3)
  have happ : appended l (decoderAt s out ip).s = (decoderAt s (out ++ l) ip).s :=
    congrArg MatchReader.s (appended_decoderAt s out l ip ip)
  rw [happ, decoderAt_outLen] at hsame
  have hread : ∀ k, k < n → (out ++ l).getD (out.length + k) 0 = (out ++ l).getD (out.length + k - off) 0 := by
    intro k hk
    have := hsame k hk
    rwa [bufRead_decoderAt _ _ _ (by rw [List.length_append]; omega),
      bufRead_decoderAt _ _ _ (by rw [List.length_append]; omega)] at this
  have hrep : ∀ k, k < n → (out ++ l).getD (out.length + k) 0 = out.getD (out.length - off + k % off) 0 := by
    intro k
    induction k using Nat.strong_induction_on with
    | _ k ih =>
      intro hk
      rw [hread k hk]
      rcases Nat.lt_or_ge k off with hlt | hge
      · rw [Nat.mod_eq_of_lt hlt, show out.length + k - off = out.length - off + k by omega,
          List.getD_append _ _ _ _ (by omega)]
      · rw [show out.length + k - off = out.length + (k - off) by omega, ih (k - off) (by omega) (by omega),
          Nat.mod_eq_sub_mod hge]
  have hl : l = copied out off n := by
    refine List.ext_getElem (by simp [copied, hlen]) fun k hk hk' => ?_
    have := hrep k (by omega)
    rw [List.getD_append_right _ _ _ _ (by omega), Nat.add_sub_cancel_left, List.getD_eq_getElem _ _ hk] at this
    simp only [copied, List.getElem_map, List.getElem_range, this]
  rw [hcopy, happ, hl]

/-- What a match that starts inside the input does (R232). -/
theorem matchUnit_decoderAt {s : State} {out : List Byte} {ip target : Nat} {first second : Byte}
    (h : InputAt s ip [first, second]) (hcap : target ≤ s.cfg.bufCap) :
    matchUnit target (decoderAt s out ip) =
      if matchOffset first second = 0 ∨ out.length < matchOffset first second ∨
        target < out.length + matchLength first then .raised .data ip (decoderAt s out ip).s
      else .ok (decoderAt s (out ++ copied out (matchOffset first second) (matchLength first)) (ip + 2)) := by
  obtain ⟨-, hfirst, hrest⟩ := h.cons
  obtain ⟨hlt, hsecond, -⟩ := hrest.cons
  rw [matchUnit, if_neg (by simp only [decoderAt_inLen, decoderAt_ip]; omega)]
  simp only [decoderAt_inb, decoderAt_ip, hfirst, hsecond, decoderAt_outLen]
  by_cases hoff : matchOffset first second = 0 ∨ out.length < matchOffset first second
  · rw [if_pos hoff, if_pos (by tauto)]
  · rw [if_neg hoff]
    by_cases hlen : target < out.length + matchLength first
    · rw [if_pos hlen, if_pos (by tauto)]
    · rw [if_neg hlen, if_neg (by tauto), copyBack_decoderAt ip (by omega) (by omega) (by omega)]
      rfl

/-- Whether a unit is a literal: its flag bit (R115). -/
def isLiteral : MatchItem → Bool
  | .literal _ => true
  | .copy _ _ => false

/-- A unit that decodes within the target is appended. -/
theorem matchItem_decoderAt {s : State} {out out' : List Byte} {ip target : Nat} {it : MatchItem}
    (h : InputAt s ip (itemBytes it)) (hcap : target ≤ s.cfg.bufCap) (hdec : decodeItem out it = some out')
    (htgt : out'.length ≤ target) :
    (if isLiteral it then matchLiteral (decoderAt s out ip) else matchUnit target (decoderAt s out ip)) =
      .ok (decoderAt s out' (ip + (itemBytes it).length)) := by
  cases it with
  | literal b =>
    obtain rfl : out ++ [b] = out' := Option.some.inj hdec
    rw [List.length_append] at htgt
    exact matchLiteral_decoderAt h (le_trans htgt hcap)
  | copy first second =>
    obtain ⟨hoff, rfl⟩ := decodeItem_copy.1 hdec
    rw [List.length_append, copied, List.length_map, List.length_range] at htgt
    have hno : ¬ (matchOffset first second = 0 ∨ out.length < matchOffset first second ∨
      target < out.length + matchLength first) := by omega
    exact (matchUnit_decoderAt h hcap).trans (if_neg hno)

/-- A unit adds a byte at least. -/
theorem decodeItem_length {out out' : List Byte} {it : MatchItem} (h : decodeItem out it = some out') :
    out.length < out'.length := by
  cases it with
  | literal b =>
    obtain rfl : out ++ [b] = out' := Option.some.inj h
    simp
  | copy first second =>
    obtain ⟨-, rfl⟩ := decodeItem_copy.1 h
    simp [copied, matchLength]

/-! ### The units of a flag byte (R115) -/

/-- The output of units in order after the output `out`. -/
def decodeFrom (out : List Byte) (us : List MatchItem) : Option (List Byte) := us.foldlM decodeItem out

@[simp] theorem decodeFrom_nil (out : List Byte) : decodeFrom out [] = some out := rfl

theorem decodeFrom_cons {out out' : List Byte} {it : MatchItem} {us : List MatchItem} :
    decodeFrom out (it :: us) = some out' ↔ ∃ m, decodeItem out it = some m ∧ decodeFrom m us = some out' := by
  rw [decodeFrom, List.foldlM_cons]
  exact Option.bind_eq_some_iff

theorem decodeFrom_append {out out' : List Byte} {us vs : List MatchItem} :
    decodeFrom out (us ++ vs) = some out' ↔ ∃ m, decodeFrom out us = some m ∧ decodeFrom m vs = some out' := by
  rw [decodeFrom, List.foldlM_append]
  exact Option.bind_eq_some_iff

theorem decodeFrom_length {us : List MatchItem} {out out' : List Byte} (h : decodeFrom out us = some out') :
    out.length + us.length ≤ out'.length := by
  induction us generalizing out with
  | nil => cases h; simp
  | cons it us ih =>
    obtain ⟨m, hm, hrest⟩ := decodeFrom_cons.1 h
    have := decodeItem_length hm
    have := ih hrest
    rw [List.length_cons]
    omega

/-- Units under their flag bits are appended one after the other. -/
theorem flagUnits_decoderAt {s : State} {target : Nat} (hcap : target ≤ s.cfg.bufCap) (spare : List Bool)
    {us : List MatchItem} {out out' : List Byte} {ip : Nat} (h : InputAt s ip (us.map itemBytes).flatten)
    (hdec : decodeFrom out us = some out') (htgt : out'.length ≤ target) :
    flagUnits target (us.map isLiteral ++ spare) (decoderAt s out ip) =
      flagUnits target spare (decoderAt s out' (ip + (us.map itemBytes).flatten.length)) := by
  induction us generalizing out ip with
  | nil => cases hdec; rfl
  | cons it us ih =>
    obtain ⟨m, hm, hrest⟩ := decodeFrom_cons.1 hdec
    have hlt := decodeItem_length hm
    have hle := decodeFrom_length hrest
    rw [List.map_cons, List.flatten_cons] at h
    obtain ⟨hit, hus⟩ := h.split
    rw [List.map_cons, List.cons_append, List.map_cons, List.flatten_cons, flagUnits, if_neg (by rw [decoderAt_outLen]; omega),
      matchItem_decoderAt hit hcap hm (by omega), Res.bind_ok, ih hus hrest, List.length_append, Nat.add_assoc]

/-- The bits of a flag byte from bit `n - 1` on: those of its units, then the spare ones. -/
theorem byteBits_of_fits (f : Byte) {us : List MatchItem} {n : Nat} (hn : us.length ≤ n)
    (h : ∀ j it, us[j]? = some it → f.getLsbD (n - 1 - j) = isLiteral it) :
    byteBits f n = us.map isLiteral ++ byteBits f (n - us.length) := by
  induction us generalizing n with
  | nil => rfl
  | cons it us ih =>
    obtain ⟨m, rfl⟩ : ∃ m, n = m + 1 := ⟨n - 1, by rw [List.length_cons] at hn; omega⟩
    rw [List.length_cons] at hn ⊢
    have hbit : f.getLsbD m = isLiteral it := h 0 it rfl
    rw [byteBits, hbit, ih (by omega) fun j jt hj => ?_, List.map_cons, List.cons_append, Nat.add_sub_add_right]
    rw [← h (j + 1) jt hj]
    congr 1
    omega

theorem byteBits_of_flagFits {f : Byte} {us : List MatchItem} (h : flagFits f us) :
    byteBits f 8 = us.map isLiteral ++ byteBits f (8 - us.length) := by
  obtain ⟨hlen, hbits⟩ := h
  refine byteBits_of_fits f hlen fun j it hj => ?_
  cases it with
  | literal b => exact (hbits j b 0 0).1 hj
  | copy first second => exact (hbits j 0 first second).2 hj

/-! ### Flag groups (R115, R230) -/

/-- A turn of the loop reads a flag byte and goes on with its bits. -/
theorem matchLoop_flagByte {s : State} {target : Nat} {out : List Byte} {ip : Nat} {f : Byte} (n : Nat)
    (h : InputAt s ip [f]) (hlt : out.length < target) :
    matchLoop target (n + 1) (decoderAt s out ip) =
      (flagUnits target (byteBits f 8) (decoderAt s out (ip + 1))).bind fun x => matchLoop target n x := by
  obtain ⟨hip, hf, -⟩ := h.cons
  rw [matchLoop, if_neg (by rw [decoderAt_outLen]; omega), nextMatchByte, if_neg (by simpa using hip), Res.bind_ok,
    decoderAt_inb, decoderAt_ip, hf]
  rfl

/-- A turn of the loop with units that decode goes on with the spare bits. -/
theorem matchLoop_flagGroup {s : State} {target : Nat} (hcap : target ≤ s.cfg.bufCap) {f : Byte} {us : List MatchItem}
    {out out' : List Byte} {ip : Nat} (n : Nat) (h : InputAt s ip (flagGroup f us)) (hfit : flagFits f us)
    (hdec : decodeFrom out us = some out') (hlt : out.length < target) (htgt : out'.length ≤ target) :
    matchLoop target (n + 1) (decoderAt s out ip) =
      (flagUnits target (byteBits f (8 - us.length)) (decoderAt s out' (ip + (flagGroup f us).length))).bind
        fun x => matchLoop target n x := by
  obtain ⟨hf, hus⟩ := InputAt.split (l := [f]) h
  rw [List.length_singleton] at hus
  rw [matchLoop_flagByte n hf hlt, byteBits_of_flagFits hfit, flagUnits_decoderAt hcap _ hus hdec htgt, flagGroup,
    List.length_cons, Nat.add_assoc, Nat.add_comm 1]

/-- Full groups that decode within the target are appended. -/
theorem matchLoop_fullGroups {s : State} {target : Nat} (hcap : target ≤ s.cfg.bufCap) (n : Nat)
    {gs : List (Byte × List MatchItem)} {out out' : List Byte} {ip : Nat} (hfull : fullGroups gs)
    (h : InputAt s ip (groupsBytes gs)) (hdec : decodeFrom out (groupsItems gs) = some out')
    (htgt : out'.length ≤ target) :
    matchLoop target (gs.length + n) (decoderAt s out ip) =
      matchLoop target n (decoderAt s out' (ip + (groupsBytes gs).length)) := by
  induction gs generalizing out ip with
  | nil => cases hdec; rw [List.length_nil, Nat.zero_add]; rfl
  | cons g gs ih =>
    obtain ⟨hlen, hfit⟩ := hfull g List.mem_cons_self
    rw [groupsItems, List.map_cons, List.flatten_cons] at hdec
    obtain ⟨m, hm, hrest⟩ := decodeFrom_append.1 hdec
    rw [groupsBytes, List.map_cons, List.flatten_cons] at h
    obtain ⟨hg, hgs⟩ := h.split
    have hle := decodeFrom_length hm
    have hle' := decodeFrom_length hrest
    rw [List.length_cons, Nat.add_right_comm, matchLoop_flagGroup hcap _ hg hfit hm (by omega) (by omega), hlen,
      Nat.sub_self, byteBits, flagUnits, Res.bind_ok, ih (fun x hx => hfull x (List.mem_cons_of_mem _ hx)) hgs hrest,
      groupsBytes, groupsBytes, List.map_cons, List.flatten_cons, List.length_append, Nat.add_assoc]

theorem groupsBytes_length_ge (gs : List (Byte × List MatchItem)) : gs.length ≤ (groupsBytes gs).length := by
  induction gs with
  | nil => exact Nat.zero_le _
  | cons g gs ih =>
    rw [groupsBytes, List.map_cons, List.flatten_cons, List.length_append, flagGroup, List.length_cons, List.length_cons]
    exact Nat.add_comm 1 _ ▸ Nat.add_le_add (by omega) ih

/-! ### The command (R230, R233) -/

theorem flagUnits_done {target : Nat} (bs : List Bool) {x : MatchReader} (h : target ≤ x.s.outLen) :
    flagUnits target bs x = .ok x := by
  cases bs with
  | nil => rfl
  | cons b bs => rw [flagUnits, if_pos h]

theorem matchLoop_done {target : Nat} (n : Nat) {x : MatchReader} (h : target ≤ x.s.outLen) :
    matchLoop target n x = .ok x := by
  cases n with
  | zero => rfl
  | succ n => rw [matchLoop, if_pos h]

/-- With an argument in range the command is its loop over flag bytes. -/
theorem exec_pyrMatchdec {s : State} (h : argNat0 s ≤ s.cfg.bufCap) :
    exec .pyrMatchdec s = finish 0x32000000 ((matchLoop (argNat0 s) (s.inLen + 1) (decoderAt s [] 0)).bind fun x =>
      .ok (setRes x.s.outLen x.ip x.s)) := by
  have hrun : exec .pyrMatchdec s = finish 0x32000000 (pyrMatchdec s) := rfl
  rw [hrun, pyrMatchdec, if_neg (by omega)]
  rfl

/-- What a run with the output `out` changes: `OUT` below the new length, and the length. -/
theorem decoderAt_frame (s : State) (out : List Byte) (ip : Nat) :
    (decoderAt s out ip).s = { s with outb := (decoderAt s out ip).s.outb, outLen := out.length } := by
  simp [decoderAt, appended]

theorem decoderAt_above (s : State) (out : List Byte) (ip : Nat) {a : Nat} (ha : out.length ≤ a) :
    bufRead (decoderAt s out ip).s.outb a = bufRead s.outb a :=
  bufRead_storeAll_above _ _ _ (by simpa using ha)

/-- A loop that ends at the target completes the command. -/
theorem pyrMatchdec_completes {s : State} {out : List Byte} {ip : Nat} (hcap : argNat0 s ≤ s.cfg.bufCap)
    (hout : out.length = argNat0 s)
    (h : matchLoop (argNat0 s) (s.inLen + 1) (decoderAt s [] 0) = .ok (decoderAt s out ip)) :
    ∃ t, exec .pyrMatchdec s = .next t ∧ outputBytes t = out ∧ t.outLen = s.arg0.toNat ∧ t.res0 = s.arg0 ∧
      t.res1 = toWord ip ∧ (∀ a, t.outLen ≤ a → bufRead t.outb a = bufRead s.outb a) ∧
      t = { s with res0 := t.res0, res1 := t.res1, outb := t.outb, outLen := t.outLen } := by
  have hlen : (decoderAt s out ip).s.outLen = argNat0 s := (decoderAt_outLen s out ip).trans hout
  refine ⟨setRes (argNat0 s) ip (decoderAt s out ip).s, ?_, outputBytes_decoderAt s out ip, hlen,
    toWord_toNat s.arg0, rfl, fun a ha => decoderAt_above s out ip ?_, ?_⟩
  · rw [exec_pyrMatchdec hcap, h, Res.bind_ok, hlen]
    rfl
  · exact hout.trans_le (hlen.symm.trans_le ha)
  · rw [setRes, decoderAt_frame]

/-- Settles O42. -/
theorem pyrMatchdecLiterals : Obligations.PyrMatchdecLiterals := by
  intro s gs hgs hin harg hcap
  have hbytes : ((gs.map fun g => 0xFF#8 :: g).flatten).length = 9 * gs.length ∧ gs.flatten.length = 8 * gs.length := by
    clear hin harg
    induction gs with
    | nil => exact ⟨rfl, rfl⟩
    | cons g gs ih =>
      obtain ⟨h1, h2⟩ := ih fun x hx => hgs x (List.mem_cons_of_mem _ hx)
      have hg := hgs g List.mem_cons_self
      simp only [List.map_cons, List.flatten_cons, List.length_append, List.length_cons]
      omega
  obtain ⟨hstream, hflat⟩ := hbytes
  have hlen : s.inLen = 9 * gs.length := by
    rw [← hstream, ← hin, inputBytes, slice_length]
  have hloop : matchLoop (argNat0 s) (s.inLen + 1) (decoderAt s [] 0) = .ok (decoderAt s gs.flatten s.inLen) := by
    obtain ⟨n, hn⟩ : ∃ n, s.inLen + 1 = gs.length + n := ⟨s.inLen + 1 - gs.length, by omega⟩
    rw [hn, matchLoop_groups (argNat0 s) gs n (decoderAt s [] 0) hgs (by rw [← hin, inputBytes, hlen]; rfl)
      (by simp [hlen]) (by rw [decoderAt_outLen, List.length_nil, Nat.zero_add]; exact harg.ge) hcap,
      appended_decoderAt, List.nil_append, decoderAt_ip, Nat.zero_add, ← hlen]
    exact matchLoop_done n (by rw [decoderAt_outLen, hflat]; exact harg.le)
  exact pyrMatchdec_completes hcap (hflat.trans harg.symm) hloop

/-- After full groups and the units of the next flag byte the loop goes on with that byte's spare bits. -/
theorem matchLoop_lastGroup {s : State} {gs : List (Byte × List MatchItem)} {f : Byte} {us : List MatchItem}
    {out rest : List Byte} {target : Nat} (hfull : fullGroups gs) (hfit : flagFits f us)
    (hin : inputBytes s = groupsBytes gs ++ flagGroup f us ++ rest)
    (hdec : decodeItems (groupsItems gs ++ us) = some out) (hcap : target ≤ s.cfg.bufCap)
    (hle : out.length ≤ target) (hwanted : us ≠ [] ∨ out.length < target) :
    ∃ n, matchLoop target (s.inLen + 1) (decoderAt s [] 0) =
      (flagUnits target (byteBits f (8 - us.length))
        (decoderAt s out (groupsBytes gs ++ flagGroup f us).length)).bind fun x => matchLoop target n x := by
  obtain ⟨m, hm, hlast⟩ := decodeFrom_append.1 hdec
  obtain ⟨hgs, hflag⟩ := (inputAt_zero hin).split.1.split
  have hunits := decodeFrom_length hlast
  have hlt : m.length < target := by
    rcases hwanted with hus | hlt
    · have := List.length_pos_iff.2 hus
      omega
    · omega
  have hturns := groupsBytes_length_ge gs
  obtain ⟨n, hn⟩ : ∃ n, s.inLen + 1 = gs.length + (n + 1) := ⟨s.inLen - gs.length, by have := hgs.2; omega⟩
  refine ⟨n, ?_⟩
  rw [hn, matchLoop_fullGroups hcap (n + 1) hfull hgs hm hlt.le, matchLoop_flagGroup hcap n hflag hfit hlast hlt hle,
    Nat.zero_add, List.length_append]

/-- Every stream that decodes to the number of bytes wanted ends the loop. -/
theorem matchLoop_decodes {s : State} {gs : List (Byte × List MatchItem)} {f : Byte} {us : List MatchItem}
    {out rest : List Byte} (hfull : fullGroups gs) (hfit : flagFits f us) (hus : us ≠ [])
    (hin : inputBytes s = groupsBytes gs ++ flagGroup f us ++ rest)
    (hdec : decodeItems (groupsItems gs ++ us) = some out) (hout : out.length = argNat0 s)
    (hcap : argNat0 s ≤ s.cfg.bufCap) :
    matchLoop (argNat0 s) (s.inLen + 1) (decoderAt s [] 0) =
      .ok (decoderAt s out (groupsBytes gs ++ flagGroup f us).length) := by
  obtain ⟨n, hn⟩ := matchLoop_lastGroup hfull hfit hin hdec hcap hout.le (.inl hus)
  have hdone := (decoderAt_outLen s out (groupsBytes gs ++ flagGroup f us).length).trans hout
  rw [hn, flagUnits_done _ hdone.ge, Res.bind_ok, matchLoop_done n hdone.ge]

theorem decodeItems_repeat (x : Byte) {n : Nat} (hn : n < 16) :
    decodeItems [.literal x, .copy (BitVec.ofNat 8 n) 1] = some (List.replicate (n + 4) x) := by
  have hoff : matchOffset (BitVec.ofNat 8 n) 1 = 1 := by
    rw [matchOffset, BitVec.toNat_ofNat, Nat.mod_eq_of_lt (by omega), Nat.div_eq_of_lt hn]
    rfl
  have hlen : matchLength (BitVec.ofNat 8 n) = n + 3 := by
    rw [matchLength, BitVec.toNat_ofNat]
    omega
  refine decodeFrom_cons.2 ⟨[x], rfl, decodeFrom_cons.2 ⟨_, decodeItem_copy.2 ⟨?_, rfl⟩, ?_⟩⟩
  · rw [hoff]
    simp
  · rw [hoff, hlen, decodeFrom_nil]
    simp [copied, Nat.mod_one, List.replicate_succ]

/-- Settles O43: the match at offset 1 is the case of one flag byte with a literal and a match. -/
theorem pyrMatchdecOverlap : Obligations.PyrMatchdecOverlap := by
  have general : ∀ (s : State) (gs : List (Byte × List MatchItem)) (f : Byte) (us : List MatchItem)
      (stream out rest : List Byte), fullGroups gs → flagFits f us → us ≠ [] →
      stream = groupsBytes gs ++ flagGroup f us → inputBytes s = stream ++ rest →
      decodeItems (groupsItems gs ++ us) = some out → s.arg0.toNat = out.length → s.arg0.toNat ≤ s.cfg.bufCap →
      ∃ t, exec .pyrMatchdec s = .next t ∧ outputBytes t = out ∧ t.outLen = s.arg0.toNat ∧ t.res0 = s.arg0 ∧
        t.res1 = toWord stream.length ∧ (∀ a, t.outLen ≤ a → bufRead t.outb a = bufRead s.outb a) ∧
        t = { s with res0 := t.res0, res1 := t.res1, outb := t.outb, outLen := t.outLen } := by
    rintro s gs f us stream out rest hfull hfit hus rfl hin hdec harg hcap
    exact pyrMatchdec_completes hcap harg.symm (matchLoop_decodes hfull hfit hus hin hdec harg.symm hcap)
  refine ⟨fun s x n hn hlen hin harg hcap => ?_, general⟩
  have hfit : flagFits 0x80 [.literal x, .copy (BitVec.ofNat 8 n) 1] :=
    ⟨Nat.le_of_ble_eq_true rfl, fun j b first second => by match j with | 0 | 1 | j + 2 => simp⟩
  have hsplit : inputBytes s = flagGroup 0x80 [.literal x, .copy (BitVec.ofNat 8 n) 1] ++ slice s.inb 4 (s.inLen - 4) := by
    obtain ⟨k, hk⟩ : ∃ k, s.inLen = 4 + k := ⟨s.inLen - 4, by omega⟩
    rw [inputBytes, hk, slice_append, hin, Nat.add_sub_cancel_left]
    rfl
  obtain ⟨t, hrun, hout, hoLen, h0, h1, -, hframe⟩ := general s [] 0x80 _ _ _ _ (by simp [fullGroups]) hfit (by simp) rfl
    hsplit (decodeItems_repeat x hn) (by rw [harg, List.length_replicate]) (harg ▸ hcap)
  exact ⟨t, hrun, hout, hoLen.trans harg, h0, h1, hframe⟩

/-! ### Errors (R233) -/

/-- A loop that raises after the output `out` raises in the command. -/
theorem pyrMatchdec_raises {s : State} {out : List Byte} {ip : Nat} {e : ErrKind} {i : Nat}
    (hcap : argNat0 s ≤ s.cfg.bufCap)
    (h : matchLoop (argNat0 s) (s.inLen + 1) (decoderAt s [] 0) = .raised e i (decoderAt s out ip).s) :
    ∃ t, exec .pyrMatchdec s = .next (raise e i 0x32000000 t) ∧ outputBytes t = out ∧
      t = { s with outb := t.outb, outLen := out.length } :=
  ⟨(decoderAt s out ip).s, by rw [exec_pyrMatchdec hcap, h]; rfl, outputBytes_decoderAt s out ip,
    decoderAt_frame s out ip⟩

theorem matchLoop_inputEnd {s : State} {target : Nat} {out : List Byte} {ip : Nat} (n : Nat) (h : s.inLen ≤ ip)
    (hlt : out.length < target) :
    matchLoop target (n + 1) (decoderAt s out ip) = .raised .unexpectedEnd ip (decoderAt s out ip).s := by
  rw [matchLoop, if_neg (by rw [decoderAt_outLen]; omega), nextMatchByte, if_pos (by simpa using h)]
  rfl

/-- A unit whose bytes are not there: none of a literal, or fewer than two of a match. -/
theorem matchItem_inputEnd {s : State} {target : Nat} {out : List Byte} {ip : Nat} {lit : Bool}
    (h : s.inLen ≤ ip ∨ lit = false ∧ s.inLen < ip + 2) :
    (if lit then matchLiteral (decoderAt s out ip) else matchUnit target (decoderAt s out ip)) =
      .raised .unexpectedEnd ip (decoderAt s out ip).s := by
  cases lit with
  | true =>
    rw [if_pos rfl, matchLiteral, nextMatchByte, if_pos (by simpa using h)]
    rfl
  | false =>
    rw [if_neg (by simp), matchUnit, if_pos (by simp only [decoderAt_inLen, decoderAt_ip]; omega)]
    rfl

/-- After full groups and fewer than 8 units under the next flag byte, what the next unit raises. -/
theorem matchLoop_raises {s : State} {gs : List (Byte × List MatchItem)} {f : Byte} {us : List MatchItem}
    {out tail : List Byte} {e : ErrKind} {i : Nat} {t : State} (hfull : fullGroups gs) (hfit : flagFits f us)
    (hus : us.length < 8) (hin : inputBytes s = groupsBytes gs ++ flagGroup f us ++ tail)
    (hdec : decodeItems (groupsItems gs ++ us) = some out) (hout : out.length < argNat0 s)
    (hcap : argNat0 s ≤ s.cfg.bufCap)
    (h : (if f.getLsbD (7 - us.length) then
        matchLiteral (decoderAt s out (groupsBytes gs ++ flagGroup f us).length)
      else matchUnit (argNat0 s) (decoderAt s out (groupsBytes gs ++ flagGroup f us).length)) = .raised e i t) :
    matchLoop (argNat0 s) (s.inLen + 1) (decoderAt s [] 0) = .raised e i t := by
  obtain ⟨n, hn⟩ := matchLoop_lastGroup hfull hfit hin hdec hcap hout.le (.inr hout)
  rw [hn, show 8 - us.length = 7 - us.length + 1 by omega, byteBits, flagUnits,
    if_neg (by rw [decoderAt_outLen]; omega), h]
  rfl

/-- The input ends after full groups, where a flag byte is needed. -/
theorem matchLoop_groupsEnd {s : State} {gs : List (Byte × List MatchItem)} {out : List Byte} (hfull : fullGroups gs)
    (hin : inputBytes s = groupsBytes gs) (hdec : decodeItems (groupsItems gs) = some out)
    (hout : out.length < argNat0 s) (hcap : argNat0 s ≤ s.cfg.bufCap) :
    matchLoop (argNat0 s) (s.inLen + 1) (decoderAt s [] 0) =
      .raised .unexpectedEnd (groupsBytes gs).length (decoderAt s out (groupsBytes gs).length).s := by
  have hlen := congrArg List.length hin
  rw [inputBytes, slice_length] at hlen
  have hturns := groupsBytes_length_ge gs
  obtain ⟨n, hn⟩ : ∃ n, s.inLen + 1 = gs.length + (n + 1) := ⟨s.inLen - gs.length, by omega⟩
  rw [← List.append_nil (groupsBytes gs)] at hin
  rw [hn, matchLoop_fullGroups hcap (n + 1) hfull (inputAt_zero hin).split.1 hdec hout.le, Nat.zero_add,
    matchLoop_inputEnd n hlen.le hout]

theorem pyrMatchdec_argument {s : State} (h : s.cfg.bufCap < argNat0 s) :
    exec .pyrMatchdec s = .next (raise .invalidArgument (argNat0 s) 0x32000000 s) := by
  have hrun : exec .pyrMatchdec s = finish 0x32000000 (pyrMatchdec s) := rfl
  rw [hrun, pyrMatchdec, if_pos h]
  rfl

theorem pyrMatchdec_emptyInput {s : State} (hpos : 0 < argNat0 s) (hcap : argNat0 s ≤ s.cfg.bufCap) (hin : s.inLen = 0) :
    exec .pyrMatchdec s = .next (raise .unexpectedEnd 0 0x32000000 { s with outLen := 0 }) := by
  rw [exec_pyrMatchdec hcap, matchLoop_inputEnd (out := []) s.inLen hin.le hpos]
  rfl

theorem pyrMatchdec_nothingWanted {s : State} (h : s.arg0 = 0) :
    exec .pyrMatchdec s = .next { s with outLen := 0, res0 := 0, res1 := 0 } := by
  have harg : argNat0 s = 0 := by rw [argNat0, h]; rfl
  rw [exec_pyrMatchdec (by omega), matchLoop_done _ (by omega)]
  rfl

/-- A match that the output so far cannot serve, or that goes beyond the bytes wanted. -/
theorem matchLoop_badMatch {s : State} {gs : List (Byte × List MatchItem)} {f : Byte} {us : List MatchItem}
    {out tail : List Byte} {first second : Byte} (hfull : fullGroups gs) (hfit : flagFits f us) (hus : us.length < 8)
    (hin : inputBytes s = groupsBytes gs ++ flagGroup f us ++ first :: second :: tail)
    (hdec : decodeItems (groupsItems gs ++ us) = some out) (hout : out.length < argNat0 s)
    (hcap : argNat0 s ≤ s.cfg.bufCap) (hbit : f.getLsbD (7 - us.length) = false)
    (hbad : copyOffset first second = 0 ∨ out.length < copyOffset first second ∨
      argNat0 s < out.length + copyLength first) :
    matchLoop (argNat0 s) (s.inLen + 1) (decoderAt s [] 0) =
      .raised .data (groupsBytes gs ++ flagGroup f us).length
        (decoderAt s out (groupsBytes gs ++ flagGroup f us).length).s := by
  refine matchLoop_raises hfull hfit hus hin hdec hout hcap ?_
  have hat : InputAt s (groupsBytes gs ++ flagGroup f us).length [first, second] := by
    have := (inputAt_zero hin).split.2
    rw [Nat.zero_add] at this
    exact (InputAt.split (l := [first, second]) this).1
  rw [copyOffset_eq, copyLength_eq] at hbad
  rw [if_neg (by simp [hbit]), matchUnit_decoderAt hat hcap, if_pos hbad]

/-- A first unit that is a match reaches before the output. -/
theorem pyrMatchdec_firstMatch {s : State} (hpos : 0 < argNat0 s) (hcap : argNat0 s ≤ s.cfg.bufCap) (hin : 3 ≤ s.inLen)
    (hbit : (bufRead s.inb 0).getLsbD 7 = false) :
    exec .pyrMatchdec s = .next (raise .data 1 0x32000000 { s with outLen := 0 }) := by
  obtain ⟨k, hk⟩ : ∃ k, s.inLen = 3 + k := ⟨s.inLen - 3, by omega⟩
  have hbytes : inputBytes s = groupsBytes [] ++ flagGroup (bufRead s.inb 0) [] ++
      bufRead s.inb 1 :: bufRead s.inb 2 :: slice s.inb 3 k := by
    rw [inputBytes, hk, slice_append]
    rfl
  rw [exec_pyrMatchdec hcap, matchLoop_badMatch (out := []) (fun g hg => by cases hg) ⟨Nat.zero_le _, by simp⟩
    (by decide) hbytes rfl hpos hcap hbit (by rw [List.length_nil]; omega)]
  rfl

/-- Settles O44. -/
theorem pyrMatchdecErrors : Obligations.PyrMatchdecErrors := by
  refine ⟨fun s => ⟨pyrMatchdec_argument, pyrMatchdec_emptyInput, pyrMatchdec_firstMatch, pyrMatchdec_nothingWanted⟩, ?_⟩
  rintro s gs f us read out tail hfull hfit hus hdec hout hcap rfl
  refine ⟨?_, fun hin htail => ?_, fun first second hin hbit hbad => ?_⟩
  · rintro rfl hin
    rw [List.append_nil] at hdec
    exact pyrMatchdec_raises hcap (matchLoop_groupsEnd hfull hin hdec hout hcap)
  · refine pyrMatchdec_raises hcap (matchLoop_raises hfull hfit hus hin hdec hout hcap (matchItem_inputEnd ?_))
    have hlen := congrArg List.length hin
    rw [inputBytes, slice_length, List.length_append] at hlen
    rcases htail with rfl | ⟨htail, hbit⟩
    · exact .inl hlen.le
    · exact .inr ⟨hbit, by omega⟩
  · exact pyrMatchdec_raises hcap (matchLoop_badMatch hfull hfit hus hin hdec hout hcap hbit hbad)

end Sys2Proof.Machine
end

section
/-! PROOFS. Pass 2 of `PYR.COMPRESS` writes the Pyr stream of the units it is given (R205, R206), and `PYR.COMPRESS`
as a whole (O36). -/

namespace Sys2Proof.Machine

/-! ### The fields of the units (R106 to R109, R111) -/

/-- The bytes of a unit before the units `us`; `second` says that the first field of a 12-bit pair waits. -/
def unitField (second : Bool) (u : PyrUnit) (us : List PyrUnit) : List Byte :=
  if !u.isTok then [BitVec.ofNat 8 u.value]
  else if u.width = 12 then
    if second then [BitVec.ofNat 8 (u.value % 256)]
    else [BitVec.ofNat 8 (u.value / 16), BitVec.ofNat 8 (u.value % 16 * 16 + nextHighNibble us)]
  else if u.width = 16 then [BitVec.ofNat 8 (u.value / 256), BitVec.ofNat 8 (u.value % 256)]
  else if u.width = 8 then [BitVec.ofNat 8 u.value]
  else []

/-- Whether the first field of a pair waits after a unit (R108, R109). -/
def waitsAfter (second : Bool) (u : PyrUnit) : Bool :=
  if u.isTok then decide (u.width = 12) && !second else second

theorem unitFields_cons (second : Bool) (u : PyrUnit) (us : List PyrUnit) :
    unitFields second (u :: us) = unitField second u us :: unitFields (waitsAfter second u) us := by
  rw [unitFields, unitField, waitsAfter]
  cases u.isTok with
  | false => rfl
  | true =>
    simp only [Bool.not_true, Bool.false_eq_true, if_false, if_true]
    by_cases h12 : u.width = 12
    · cases second <;> simp [h12]
    · by_cases h16 : u.width = 16
      · simp [h16]
      · by_cases h8 : u.width = 8 <;> simp [h12, h16, h8]

/-- The units with their fields. -/
def withFields (second : Bool) (us : List PyrUnit) : List (PyrUnit × List Byte) := us.zip (unitFields second us)

@[simp] theorem withFields_nil (second : Bool) : withFields second [] = [] := rfl

theorem withFields_cons (second : Bool) (u : PyrUnit) (us : List PyrUnit) :
    withFields second (u :: us) = (u, unitField second u us) :: withFields (waitsAfter second u) us := by
  rw [withFields, unitFields_cons, List.zip_cons_cons, withFields]

theorem withFields_units (second : Bool) (us : List PyrUnit) : (withFields second us).map Prod.fst = us := by
  induction us generalizing second with
  | nil => rfl
  | cons u us ih => rw [withFields_cons, List.map_cons, ih]

theorem withFields_eq_cons {second : Bool} {us : List PyrUnit} {p : PyrUnit × List Byte}
    {l : List (PyrUnit × List Byte)} (h : withFields second us = p :: l) :
    ∃ vs, us = p.1 :: vs ∧ p.2 = unitField second p.1 vs ∧ withFields (waitsAfter second p.1) vs = l := by
  cases us with
  | nil => cases h
  | cons u vs =>
    rw [withFields_cons] at h
    cases h
    exact ⟨vs, rfl, rfl, rfl⟩

theorem nextHighNibble_literal {u : PyrUnit} (h : u.isTok = false) (us : List PyrUnit) :
    nextHighNibble (u :: us) = nextHighNibble us := by
  simp [nextHighNibble, h]

theorem nextHighNibble_token {u : PyrUnit} (h : u.isTok = true) (us : List PyrUnit) :
    nextHighNibble (u :: us) = if u.width = 12 then u.value / 256 % 16 else 0 := by
  simp [nextHighNibble, h]

theorem nextHighNibble_lt (us : List PyrUnit) : nextHighNibble us < 16 := by
  rw [nextHighNibble]
  split
  · split_ifs <;> omega
  · omega

/-- A byte whose low half is filled in later (R108). -/
theorem nibble_filled {m n : Nat} (hm : m < 16) (hn : n < 16) :
    BitVec.ofNat 8 (m * 16) ||| BitVec.ofNat 8 n = BitVec.ofNat 8 (m * 16 + n) := by
  apply BitVec.eq_of_toNat_eq
  rw [BitVec.toNat_or, BitVec.toNat_ofNat, BitVec.toNat_ofNat, BitVec.toNat_ofNat, Nat.mod_eq_of_lt (by omega),
    Nat.mod_eq_of_lt (by omega), Nat.mod_eq_of_lt (by omega), show m * 16 = m <<< 4 by rw [Nat.shiftLeft_eq],
    Nat.shiftLeft_add_eq_or_of_lt (by omega)]

/-! ### The output with its held byte filled in (R108, R206) -/

/-- The bytes `out` where the low half of the held byte is given the nibble `n`. -/
def filled (out : List Byte) (held : Option Nat) (n : Nat) : List Byte :=
  match held with
  | none => out
  | some h => out.modify h (· ||| BitVec.ofNat 8 n)

theorem modify_append_of_lt {α : Type} (f : α → α) {l : List α} (m : List α) {h : Nat} (hh : h < l.length) :
    (l ++ m).modify h f = l.modify h f ++ m := by
  refine List.ext_getElem? fun k => ?_
  grind

theorem filled_append {out : List Byte} {held : Option Nat} (l : List Byte) (n : Nat)
    (h : ∀ a, held = some a → a < out.length) : filled (out ++ l) held n = filled out held n ++ l := by
  cases held with
  | none => rfl
  | some a => exact modify_append_of_lt _ l (h a rfl)

theorem filled_zero (out : List Byte) (held : Option Nat) : filled out held 0 = out := by
  cases held with
  | none => rfl
  | some a =>
    refine List.ext_getElem? fun k => ?_
    rw [filled, List.getElem?_modify]
    cases out[k]? <;> simp

theorem slice_modify (b : ByteBuf) {a n : Nat} (h : a < n) (f : Byte → Byte) :
    slice (bufWrite b a (f (bufRead b a))) 0 n = (slice b 0 n).modify a f := by
  refine List.ext_getElem? fun k => ?_
  rw [List.getElem?_modify, slice_getElem?, slice_getElem?, Nat.zero_add, bufRead_bufWrite]
  by_cases hk : k < n
  · by_cases hka : k = a
    · simp [hka]
    · simp [hka, Ne.symm hka]
  · have : a ≠ k := by omega
    simp [hk, this]

/-- The emission has written `out`, but for the nibble the units `us` still to come will fill in. -/
structure Emitting (x : Emit) (second : Bool) (us : List PyrUnit) (out : List Byte) : Prop where
  held : heldOk x
  waits : x.held.isSome = second
  bytes : filled (outputBytes x.s) x.held (nextHighNibble us) = out

theorem outputBytes_length (s : State) : (outputBytes s).length = s.outLen := slice_length _ _ _

theorem emitting_appended {x : Emit} {second : Bool} {us : List PyrUnit} {out : List Byte}
    (h : Emitting x second us out) (l : List Byte) :
    Emitting { x with s := appended l x.s } second us (out ++ l) where
  held := fun a ha => lt_of_lt_of_le (h.held a ha) (by simp)
  waits := h.waits
  bytes := by
    rw [outputBytes_appended, filled_append l _ fun a ha => by rw [outputBytes_length]; exact h.held a ha, h.bytes]

theorem append_inv {v : Byte} {s t : State} (h : append v s = .ok t) : t = appended [v] s :=
  (appendAll_inv (l := [v]) (by rw [appendAll, h]; rfl)).1

/-- A literal at its place (R111). -/
theorem emitting_literal {x y : Emit} {second : Bool} {u : PyrUnit} {us : List PyrUnit} {out : List Byte}
    (h : Emitting x second (u :: us) out) (hlit : u.isTok = false) (hput : putUnit u x = .ok y) :
    Emitting y (waitsAfter second u) us (out ++ unitField second u us) := by
  rw [putUnit, if_neg (by simp [hlit])] at hput
  obtain ⟨s1, hs1, hy⟩ := Res.bind_eq_ok.1 hput
  obtain rfl := append_inv hs1
  cases hy
  have hfield : unitField second u us = [BitVec.ofNat 8 u.value] := by simp [unitField, hlit]
  have hwaits : waitsAfter second u = second := by simp [waitsAfter, hlit]
  rw [hfield, hwaits]
  exact emitting_appended ⟨h.held, h.waits, (nextHighNibble_literal hlit us) ▸ h.bytes⟩ _

/-- Where no byte is held afterwards, the output is what it is. -/
theorem emitting_of_noneHeld (s : State) (us : List PyrUnit) : Emitting { s := s, held := none } false us (outputBytes s) where
  held := fun _ ha => by cases ha
  waits := rfl
  bytes := rfl

/-- The first field of a pair (R108): its second byte is held. -/
theorem emitting_first {x y : Emit} {u : PyrUnit} {us : List PyrUnit} {out : List Byte}
    (h : Emitting x false (u :: us) out) (htok : u.isTok = true) (hw : u.width = 12) (hput : putUnit u x = .ok y) :
    Emitting y true us (out ++ unitField false u us) := by
  have hnone : x.held = none := Option.isNone_iff_eq_none.1 (by simpa using h.waits)
  have hbytes := h.bytes
  rw [hnone] at hbytes
  have hbytes : outputBytes x.s = out := hbytes
  rw [putUnit, if_pos htok, putToken, if_pos hw, hnone] at hput
  obtain ⟨s1, hs1, hy⟩ := Res.bind_eq_ok.1 hput
  obtain rfl := (appendAll_inv hs1).1
  cases hy
  have hlen : x.s.outLen = (outputBytes x.s).length := (outputBytes_length _).symm
  refine ⟨fun a ha => ?_, rfl, ?_⟩
  · cases ha
    show _ - 1 < _
    rw [appended_outLen]
    simp
  · rw [outputBytes_appended, appended_outLen, hbytes, hlen, hbytes]
    simp only [filled, List.length_cons, List.length_nil, unitField, htok, hw, Bool.not_true, Bool.false_eq_true, if_false,
      if_true]
    rw [← nibble_filled (Nat.mod_lt _ (by omega)) (nextHighNibble_lt us),
      show out.length + (0 + 1 + 1) - 1 = out.length + 1 from rfl]
    refine List.ext_getElem? fun k => ?_
    grind

/-- The second field of a pair (R108): it fills the held byte. -/
theorem emitting_second {x y : Emit} {u : PyrUnit} {us : List PyrUnit} {out : List Byte}
    (h : Emitting x true (u :: us) out) (htok : u.isTok = true) (hw : u.width = 12) (hput : putUnit u x = .ok y) :
    Emitting y false us (out ++ unitField true u us) := by
  obtain ⟨a, ha⟩ := Option.isSome_iff_exists.1 h.waits
  have hbytes := h.bytes
  rw [ha, nextHighNibble_token htok, if_pos hw] at hbytes
  rw [putUnit, if_pos htok, putToken, if_pos hw, ha] at hput
  obtain ⟨s1, hs1, hy⟩ := Res.bind_eq_ok.1 hput
  obtain rfl := append_inv hs1
  cases hy
  have hout : outputBytes { x.s with
      outb := bufWrite x.s.outb a (bufRead x.s.outb a ||| BitVec.ofNat 8 (u.value / 256 % 16)) } = out :=
    (slice_modify x.s.outb (h.held a ha) (· ||| BitVec.ofNat 8 (u.value / 256 % 16))).trans hbytes
  have hfield : unitField true u us = [BitVec.ofNat 8 (u.value % 256)] := by simp [unitField, htok, hw]
  rw [hfield, ← hout, ← outputBytes_appended]
  exact emitting_of_noneHeld _ us

/-- A field of 8 or 16 bits, and no field for another width (R107, R109): pairing ends. -/
theorem emitting_other {x y : Emit} {second : Bool} {u : PyrUnit} {us : List PyrUnit} {out : List Byte}
    (h : Emitting x second (u :: us) out) (htok : u.isTok = true) (hw : u.width ≠ 12) (hput : putUnit u x = .ok y) :
    Emitting y false us (out ++ unitField second u us) := by
  have hbytes := h.bytes
  rw [nextHighNibble_token htok, if_neg hw, filled_zero] at hbytes
  have hy : y = { s := appended (unitField second u us) x.s, held := none } := by
    rw [putUnit, if_pos htok, putToken, if_neg hw] at hput
    simp only [unitField, htok, hw, Bool.not_true, Bool.false_eq_true, if_false]
    by_cases h8 : u.width = 8
    · rw [if_pos h8] at hput
      obtain ⟨s1, hs1, hy⟩ := Res.bind_eq_ok.1 hput
      cases hy
      rw [append_inv hs1, h8]
      rfl
    · by_cases h16 : u.width = 16
      · rw [if_neg h8, if_pos h16] at hput
        obtain ⟨s1, hs1, hy⟩ := Res.bind_eq_ok.1 hput
        cases hy
        rw [(appendAll_inv hs1).1, if_pos h16]
      · rw [if_neg h8, if_neg h16] at hput
        cases hput
        rw [if_neg h16, if_neg h8, appended_nil]
  rw [hy, ← hbytes, ← outputBytes_appended]
  exact emitting_of_noneHeld _ us

/-- Every unit appends its field (R206). -/
theorem emitting_putUnit {x y : Emit} {second : Bool} {u : PyrUnit} {us : List PyrUnit} {out : List Byte}
    (h : Emitting x second (u :: us) out) (hput : putUnit u x = .ok y) :
    Emitting y (waitsAfter second u) us (out ++ unitField second u us) := by
  cases htok : u.isTok with
  | false => exact emitting_literal h htok hput
  | true =>
    by_cases hw : u.width = 12
    · cases second with
      | false => simpa [waitsAfter, htok, hw] using emitting_first h htok hw hput
      | true => simpa [waitsAfter, htok, hw] using emitting_second h htok hw hput
    · simpa [waitsAfter, htok, hw] using emitting_other h htok hw hput

/-- The same for units with their fields: `l` is still to come. -/
def EmitsNext (x : Emit) (l : List (PyrUnit × List Byte)) (out : List Byte) : Prop :=
  ∃ second us, withFields second us = l ∧ Emitting x second us out

theorem emitsNext_putUnits {pre post : List (PyrUnit × List Byte)} {x y : Emit} {out : List Byte}
    (h : EmitsNext x (pre ++ post) out) (hput : putUnits (pre.map Prod.fst) x = .ok y) :
    EmitsNext y post (out ++ (pre.map Prod.snd).flatten) := by
  induction pre generalizing x out with
  | nil =>
    cases hput
    simpa using h
  | cons p pre ih =>
    obtain ⟨second, us, hl, hx⟩ := h
    obtain ⟨vs, rfl, hp, hrest⟩ := withFields_eq_cons hl
    obtain ⟨z, hz, hput⟩ := Res.bind_eq_ok.1 hput
    have := ih ⟨_, vs, hrest, hp ▸ emitting_putUnit hx hz⟩ hput
    rwa [List.map_cons, List.flatten_cons, ← List.append_assoc]

theorem emitsNext_emitGroup {pre post : List (PyrUnit × List Byte)} {hdr : List Byte} {x y : Emit} {out : List Byte}
    (h : EmitsNext x (pre ++ post) out) (hput : emitGroup hdr (pre.map Prod.fst) x = .ok y) :
    EmitsNext y post (out ++ (hdr ++ (pre.map Prod.snd).flatten)) := by
  obtain ⟨s1, hs1, hput⟩ := Res.bind_eq_ok.1 hput
  obtain rfl := (appendAll_inv hs1).1
  obtain ⟨second, us, hl, hx⟩ := h
  rw [← List.append_assoc]
  exact emitsNext_putUnits ⟨second, us, hl, emitting_appended hx hdr⟩ hput

/-! ### Groups (R205) -/

theorem runLengths_units (l : List (PyrUnit × List Byte)) :
    runLengths (l.map Prod.fst) = ((l.takeWhile fun p => !p.1.isTok).length,
      ((l.drop (l.takeWhile fun p => !p.1.isTok).length).takeWhile fun p => p.1.isTok).length) := by
  simp only [runLengths, List.takeWhile_map, ← List.map_drop, List.length_map]
  rfl

theorem header0_eq (a b : Nat) : header0 a b = header0Bytes a b := by
  have ha : min a 15 = if a < 15 then a else 15 := by split_ifs <;> omega
  have hb : min b 7 * 16 = 16 * if b < 7 then b else 7 := by split_ifs <;> omega
  rw [header0, header0Bytes, ha, hb]
  by_cases h15 : a < 15 <;> by_cases h7 : b < 7 <;> simp [h15, h7, Nat.not_le.2, Nat.not_lt.1, extBytes, extensionBytes]

theorem maskOf_eq (j : Nat) (g : List PyrUnit) :
    maskOf j g = ((g.zipIdx j).map fun p => if p.1.isTok then 2 ^ (6 - p.2) else 0).sum := by
  induction g generalizing j with
  | nil => rfl
  | cons u g ih => rw [maskOf, ih, List.zipIdx_cons, List.map_cons, List.sum_cons]

theorem header1Byte_eq (g : List PyrUnit) : BitVec.ofNat 8 (128 + maskOf 0 g) = header1Byte g := by
  rw [header1Byte, maskOf_eq]

/-- The first group of a stream, and the rest (R205). -/
theorem groupStream_succ {l : List (PyrUnit × List Byte)} (n : Nat) (hl : l ≠ []) {a b : Nat}
    (hrun : runLengths (l.map Prod.fst) = (a, b)) : groupStream (n + 1) l =
      if 8 ≤ a + b then
        header0Bytes a b ++ ((l.take (a + b)).map Prod.snd).flatten ++ groupStream n (l.drop (a + b))
      else header1Byte ((l.take 7).map Prod.fst) :: ((l.take 7).map Prod.snd).flatten ++ groupStream n (l.drop 7) := by
  rw [runLengths_units] at hrun
  cases l with
  | nil => exact absurd rfl hl
  | cons p l =>
    cases hrun
    rfl

/-- Pass 2 appends the stream of its units. -/
theorem emitsNext_pass2 {n : Nat} {l : List (PyrUnit × List Byte)} {x y : Emit} {out : List Byte}
    (h : EmitsNext x l out) (hn : l.length ≤ n) (hput : pass2 n (l.map Prod.fst) x = .ok y) :
    EmitsNext y [] (out ++ groupStream n l) := by
  induction n generalizing l x out with
  | zero =>
    obtain rfl := List.length_eq_zero_iff.1 (Nat.le_zero.1 hn)
    cases hput
    rwa [groupStream, List.append_nil]
  | succ n ih =>
    by_cases hl : l = []
    · subst hl
      cases hput
      rwa [groupStream, List.append_nil]
    · have hpos := List.length_pos_iff.2 hl
      rw [pass2, if_neg (by simpa using hl)] at hput
      rcases hrun : runLengths (l.map Prod.fst) with ⟨a, b⟩
      rw [hrun] at hput
      simp only at hput
      have step : ∀ (k : Nat) (hdr : List Byte), 0 < k →
          ((emitGroup hdr ((l.map Prod.fst).take k) x).bind fun x1 => pass2 n ((l.map Prod.fst).drop k) x1) = .ok y →
          EmitsNext y [] (out ++ (hdr ++ ((l.take k).map Prod.snd).flatten ++ groupStream n (l.drop k))) := by
        intro k hdr hk hput
        obtain ⟨z, hz, hput⟩ := Res.bind_eq_ok.1 hput
        rw [← List.map_take] at hz
        rw [← List.map_drop] at hput
        rw [← List.append_assoc]
        exact ih (emitsNext_emitGroup (by rwa [List.take_append_drop]) hz) (by rw [List.length_drop]; omega) hput
      rw [groupStream_succ n hl hrun]
      split_ifs at hput ⊢ with h8
      · rw [header0_eq] at hput
        exact step (a + b) _ (by omega) hput
      · rw [← List.map_take, header1Byte_eq, List.map_take] at hput
        exact step 7 [header1Byte ((l.take 7).map Prod.fst)] (by omega) (by rwa [List.map_take])

/-- Pass 2 from an empty output writes the Pyr stream. -/
theorem pass2_stream {s : State} {us : List PyrUnit} {y : Emit} (hs : s.outLen = 0)
    (hput : pass2 us.length us { s := s, held := none } = .ok y) : outputBytes y.s = pyrStream us := by
  have hstart : EmitsNext { s := s, held := none } (withFields false us) [] := by
    have hout : outputBytes s = [] := List.length_eq_zero_iff.1 ((outputBytes_length s).trans hs)
    exact ⟨false, us, rfl, hout ▸ emitting_of_noneHeld s us⟩
  have hlen : (withFields false us).length = us.length := by
    rw [← List.length_map Prod.fst, withFields_units]
  obtain ⟨second, vs, hvs, hy⟩ := emitsNext_pass2 hstart hlen.le (by rwa [withFields_units])
  obtain rfl : vs = [] := by rw [← withFields_units second vs, hvs]; rfl
  have hbytes := hy.bytes
  rwa [show nextHighNibble [] = 0 from rfl, filled_zero] at hbytes

/-! ### `PYR.COMPRESS` (R201) -/

theorem unitsFrom_eq (s : State) (k n : Nat) :
    unitsFrom s k n = (List.range' k n).map fun j => wordUnit (wordRead s.unit j) := by
  induction n generalizing k with
  | zero => rfl
  | succ n ih => rw [unitsFrom, ih, List.range'_succ, List.map_cons]

theorem unitsOf_eq (s : State) : unitsOf s = (List.range s.unitLen).map fun k => wordUnit (wordRead s.unit k) := by
  rw [unitsOf, unitsFrom_eq, List.range_eq_range']

theorem unitsOf_length (s : State) : (unitsOf s).length = s.unitLen := by simp [unitsOf_eq]

/-- Units kept are units read again. -/
theorem unitsOf_congr {s t : State} (hlen : t.unitLen = s.unitLen)
    (h : ∀ k, k < s.unitLen → wordRead t.unit k = wordRead s.unit k) : unitsOf t = unitsOf s := by
  rw [unitsOf_eq, unitsOf_eq, hlen]
  exact List.map_congr_left fun k hk => congrArg wordUnit (h k (List.mem_range.1 hk))

/-- Nothing but `OUT` and its length differs. -/
def OnlyOut (s t : State) : Prop := t = { s with outb := t.outb, outLen := t.outLen }

/-- Whichever way a part ends, it has changed nothing but `OUT` and its length. -/
def WritesOut {α : Type} (s : State) (st : α → State) (r : Res α) : Prop :=
  r.All (fun a => OnlyOut s (st a)) fun _ _ t => OnlyOut s t

theorem OnlyOut.trans {s t u : State} (h : OnlyOut s t) (g : OnlyOut t u) : OnlyOut s u := by
  unfold OnlyOut at *
  rw [g, h]

theorem WritesOut.bind {α β : Type} {s : State} {st : α → State} {st' : β → State} {r : Res α} {f : α → Res β}
    (h : WritesOut s st r) (hf : ∀ a, WritesOut (st a) st' (f a)) : WritesOut s st' (r.bind f) :=
  Res.all_bind h fun a ha => Res.all_mono (hf a) (fun _ hb => ha.trans hb) fun _ _ _ hb => ha.trans hb

theorem append_writesOut (v : Byte) (s : State) : WritesOut s id (append v s) := by
  unfold append
  split_ifs <;> rfl

theorem appendAll_writesOut (l : List Byte) (s : State) : WritesOut s id (appendAll l s) := by
  induction l generalizing s with
  | nil => rfl
  | cons v l ih => exact (append_writesOut v s).bind fun s1 => ih s1

theorem putToken_writesOut (v w : Nat) (x : Emit) : WritesOut x.s Emit.s (putToken v w x) := by
  unfold putToken
  split_ifs
  · split
    · exact (appendAll_writesOut _ x.s).bind fun _ => rfl
    · exact (append_writesOut _ _).bind (st' := Emit.s) fun _ => rfl
  · exact (append_writesOut _ x.s).bind fun _ => rfl
  · exact (appendAll_writesOut _ x.s).bind fun _ => rfl
  · rfl

theorem putUnits_writesOut (us : List PyrUnit) (x : Emit) : WritesOut x.s Emit.s (putUnits us x) := by
  induction us generalizing x with
  | nil => rfl
  | cons u us ih =>
    refine WritesOut.bind (st := Emit.s) ?_ ih
    unfold putUnit
    split_ifs
    · exact putToken_writesOut _ _ x
    · exact (append_writesOut _ x.s).bind fun _ => rfl

theorem emitGroup_writesOut (hdr : List Byte) (us : List PyrUnit) (x : Emit) :
    WritesOut x.s Emit.s (emitGroup hdr us x) :=
  (appendAll_writesOut hdr x.s).bind fun _ => putUnits_writesOut us _

theorem pass2_writesOut (n : Nat) (us : List PyrUnit) (x : Emit) : WritesOut x.s Emit.s (pass2 n us x) := by
  induction n generalizing us x with
  | zero => rfl
  | succ n ih =>
    rw [pass2]
    by_cases hus : us = []
    · rw [if_pos hus]
      rfl
    · rw [if_neg hus]
      rcases runLengths us with ⟨a, b⟩
      by_cases h8 : 8 ≤ a + b
      · simp only [if_pos h8]
        exact (emitGroup_writesOut _ _ x).bind fun _ => ih _ _
      · simp only [if_neg h8]
        exact (emitGroup_writesOut _ _ x).bind fun _ => ih _ _

/-- `PYR.COMPRESS` leaves what pass 1 left, but for `OUT`, the results and the error state; and when it completes,
pass 2 has written `OUT`. -/
theorem pyrCompress_passes {s t : State} (hc : 0 < s.cfg.cap) (h : exec .pyrCompress s = .next t) :
    ∃ s1, pass1 s.inLen 0 0 (pyrStart .inSpace s) = .ok s1 ∧ Grows (pyrStart .inSpace s) s1 ∧ s1.outLen = 0 ∧
      s1.unitLen ≤ s.inLen ∧ t.dict = s1.dict ∧ t.unit = s1.unit ∧ t.unitLen = s1.unitLen ∧ t.pyrT12 = s1.pyrT12 ∧
      t.pyrT16 = s1.pyrT16 ∧
      (latched t = false → ∃ y, pass2 s1.unitLen (unitsOf s1) { s := s1, held := none } = .ok y ∧
        t = setRes y.s.outLen y.s.unitLen y.s ∧ OnlyOut s1 y.s) := by
  obtain ⟨s1, h1, hgrows, -, hout, hunits⟩ := pass1_spec s.inLen (pos := 0) (lit := 0) (s := pyrStart .inSpace s) rfl
    (empty_wf _ _) hc
  refine ⟨s1, h1, hgrows, hout, by simpa using hunits, ?_⟩
  have hrun : exec .pyrCompress s = finish (encode .pyrCompress) ((pass2 s1.unitLen (unitsOf s1)
      { s := s1, held := none }).bind fun x => .ok (setRes x.s.outLen x.s.unitLen x.s)) := by
    have hdef : exec .pyrCompress s = finish (encode .pyrCompress) (pyrCompress s) := rfl
    rw [hdef, pyrCompress, h1, Res.bind_ok]
  have hwrites := pass2_writesOut s1.unitLen (unitsOf s1) { s := s1, held := none }
  rw [h] at hrun
  cases hr : pass2 s1.unitLen (unitsOf s1) { s := s1, held := none } with
  | ok y =>
    rw [hr] at hrun hwrites
    have hy : OnlyOut s1 y.s := hwrites
    obtain rfl : t = setRes y.s.outLen y.s.unitLen y.s := Host.Outcome.next.inj hrun
    refine ⟨?_, ?_, ?_, ?_, ?_, fun _ => ⟨y, rfl, rfl, hy⟩⟩ <;> rw [hy] <;> rfl
  | raised e i u =>
    rw [hr] at hrun hwrites
    have hu : OnlyOut s1 u := hwrites
    obtain rfl : t = raise e i (encode .pyrCompress) u := Host.Outcome.next.inj hrun
    refine ⟨?_, ?_, ?_, ?_, ?_, fun hl => absurd hl (by rw [latched_raise]; decide)⟩ <;> rw [hu] <;> rfl

/-- Settles O36: pass 2 writes the stream of the units that pass 1 recorded. -/
theorem pyrCompressCompletes : Obligations.PyrCompressCompletes := by
  constructor
  · intro s hcfg hroom
    obtain ⟨t, hrun, u, rfl, hgrows, hunits, hout, -⟩ := (pyrCompress_ends s (cap_pos_of_wf hcfg)).completes
      (by rintro e i u ⟨-, -, -, -, -, hfull⟩; omega)
    refine ⟨_, hrun, rfl, rfl, hunits, hout, fun h0 => ?_, hgrows.dsel,
      (hgrows.dictKept (empty_wf _ _) (cap_pos_of_wf hcfg)).1, hgrows.outAbove, hgrows.unitAbove, ?_⟩
    · simp only [setRes_outLen, setRes_unitLen]
      omega
    · rw [setRes, hgrows.frame]
      rfl
  · intro s t hcfg hs hrun ht
    obtain ⟨s1, -, -, hout, -, -, hunit, hlen, -, -, hpass2⟩ := pyrCompress_passes (cap_pos_of_wf hcfg) hrun
    obtain ⟨y, hy, rfl, -⟩ := hpass2 ht
    rw [← unitsOf_eq, unitsOf_congr hlen fun k _ => by rw [hunit], ← unitsOf_length s1] at *
    exact pass2_stream hout hy

end Sys2Proof.Machine
end

section
/-! PROOFS. Pass 1 of `PYR.COMPRESS` as a function of the input (R202), tied to `Pass1()` and to the scan by `DICT`
commands; the unit record and the transition points it leaves (O37, O38). -/

namespace Sys2Proof.Machine

/-- What R8 says of a legal configuration. -/
theorem config_bounds {c : Config} (h : c.wf = true) :
    c.bufCap ≤ 2 ^ 28 ∧ 0 < c.t12 ∧ c.t12 ≤ 256 ∧ c.t12 < c.t16 ∧ c.t16 ≤ 4096 ∧ 0 < c.cap ∧ c.cap ≤ 65536 := by
  simp only [Config.wf, Bool.and_eq_true, decide_eq_true_eq] at h
  omega

/-! ### The unit record (R35, R203) -/

/-- The fields of a unit's word (R35). -/
theorem toNat_unitWord (u : PyrUnit) :
    (unitWord u).toNat = u.isTok.toNat * 2 ^ 31 + u.width % 32 * 2 ^ 16 + u.value % 65536 := by
  have hw : u.width % 2 ^ 5 < 2 ^ 5 := Nat.mod_lt _ (by decide)
  have hv : u.value % 2 ^ 16 < 2 ^ 16 := Nat.mod_lt _ (by decide)
  rw [unitWord]
  simp only [BitVec.toNat_append, BitVec.toNat_ofNat, BitVec.toNat_ofBool]
  rw [← Nat.shiftLeft_add_eq_or_of_lt hv, ← Nat.shiftLeft_add_eq_or_of_lt hw, Nat.zero_mod, Nat.or_zero]
  simp only [Nat.shiftLeft_eq]
  omega

theorem wordUnit_unitWord {u : PyrUnit} (hw : u.width < 32) (hv : u.value < 65536) : wordUnit (unitWord u) = u := by
  have h := toNat_unitWord u
  have htok : (unitWord u).getLsbD 31 = u.isTok := by
    rw [BitVec.getLsbD, Nat.testBit_eq_decide_div_mod_eq, h]
    cases u.isTok <;> simp <;> omega
  have hwidth : ((unitWord u).extractLsb' 16 5).toNat = u.width := by
    rw [BitVec.extractLsb'_toNat, Nat.shiftRight_eq_div_pow, h]
    cases u.isTok <;> simp <;> omega
  have hvalue : ((unitWord u).extractLsb' 0 16).toNat = u.value := by
    rw [BitVec.extractLsb'_toNat, Nat.shiftRight_eq_div_pow, h]
    cases u.isTok <;> simp <;> omega
  rw [wordUnit, htok, hwidth, hvalue]

theorem unitWord_litUnit (v : Byte) : unitWord (litUnit v) = 0x00080000#32 ||| v.setWidth 32 := by
  have hv := v.isLt
  apply BitVec.eq_of_toNat_eq
  rw [BitVec.toNat_or, BitVec.toNat_setWidth, Nat.mod_eq_of_lt (by omega), show (0x00080000#32).toNat = 8 <<< 16 from rfl,
    ← Nat.shiftLeft_add_eq_or_of_lt (by omega), Nat.shiftLeft_eq, toNat_unitWord]
  simp only [litUnit, Bool.toNat_false]
  omega

theorem firstAbove_append (limit : Nat) {counts : List Nat} (c : Nat) (hlen : counts.length < 2 ^ 32 - 1) :
    firstAbove limit (counts ++ [c]) =
      if limit < c ∧ firstAbove limit counts = none32 then toWord counts.length else firstAbove limit counts := by
  rw [firstAbove, firstAbove, List.findIdx?_append]
  cases h : counts.findIdx? fun c => decide (limit < c) with
  | some k =>
    have hk : k < counts.length := by
      rw [List.findIdx?_eq_some_iff_findIdx_eq] at h
      omega
    have hne : toWord k ≠ none32 := by
      intro he
      have := congrArg BitVec.toNat he
      simp [toWord] at this
      omega
    simp [hne]
  | none =>
    by_cases hc : limit < c <;> simp [hc, List.findIdx?_cons]

/-- What has been recorded: the units, each with the number of entries at its start, and the transition points
(R203). The points are told from `NONE32` while the units can be counted in 32 bits. -/
structure UnitLog (l : List (PyrUnit × Nat)) (s : State) : Prop where
  len : s.unitLen = l.length
  words : ∀ k p, l[k]? = some p → wordRead s.unit k = unitWord p.1
  points : l.length < 2 ^ 32 - 1 →
    s.pyrT12 = firstAbove s.cfg.t12 (l.map Prod.snd) ∧ s.pyrT16 = firstAbove s.cfg.t16 (l.map Prod.snd)

theorem UnitLog.start (sel : DataSel) (s : State) : UnitLog [] (pyrStart sel s) where
  len := rfl
  words := fun _ _ h => by cases h
  points := fun _ => ⟨rfl, rfl⟩

theorem UnitLog.congr {l : List (PyrUnit × Nat)} {s t : State} (h : UnitLog l s) (hcfg : t.cfg = s.cfg)
    (hunit : t.unit = s.unit) (hlen : t.unitLen = s.unitLen) (h12 : t.pyrT12 = s.pyrT12) (h16 : t.pyrT16 = s.pyrT16) :
    UnitLog l t where
  len := hlen.trans h.len
  words := fun k p hp => hunit ▸ h.words k p hp
  points := fun hl => by rw [hcfg, h12, h16]; exact h.points hl

@[simp] theorem startUnit_cfg (s : State) : (startUnit s).1.cfg = s.cfg := by rw [startUnit_eq]
@[simp] theorem startUnit_inb (s : State) : (startUnit s).1.inb = s.inb := by rw [startUnit_eq]
@[simp] theorem startUnit_inLen (s : State) : (startUnit s).1.inLen = s.inLen := by rw [startUnit_eq]
@[simp] theorem startUnit_outb (s : State) : (startUnit s).1.outb = s.outb := by rw [startUnit_eq]
@[simp] theorem startUnit_outLen (s : State) : (startUnit s).1.outLen = s.outLen := by rw [startUnit_eq]
@[simp] theorem startUnit_dict (s : State) : (startUnit s).1.dict = s.dict := by rw [startUnit_eq]
@[simp] theorem startUnit_unit (s : State) : (startUnit s).1.unit = s.unit := by rw [startUnit_eq]
@[simp] theorem startUnit_unitLen (s : State) : (startUnit s).1.unitLen = s.unitLen := by rw [startUnit_eq]

theorem widthNow_ge_twelve {s : State} : 12 ≤ widthNow s ↔ s.cfg.t12 < s.dict.count := by
  rw [widthNow, fieldWidth]
  split_ifs <;> omega

theorem widthNow_eq_sixteen {s : State} (h : s.cfg.t12 < s.cfg.t16) : widthNow s = 16 ↔ s.cfg.t16 < s.dict.count := by
  rw [widthNow, fieldWidth]
  split_ifs <;> omega

theorem startUnit_pyrT12 (s : State) : (startUnit s).1.pyrT12 =
    if s.cfg.t12 < s.dict.count ∧ s.pyrT12 = none32 then toWord s.unitLen else s.pyrT12 := by
  simp only [← widthNow_ge_twelve, startUnit]
  split_ifs <;> rfl

theorem startUnit_pyrT16 {s : State} (h : s.cfg.t12 < s.cfg.t16) : (startUnit s).1.pyrT16 =
    if s.cfg.t16 < s.dict.count ∧ s.pyrT16 = none32 then toWord s.unitLen else s.pyrT16 := by
  simp only [← widthNow_eq_sixteen h, startUnit]
  split_ifs <;> simp_all

/-- One more unit, recorded after `StartUnit()`. -/
theorem UnitLog.record {l : List (PyrUnit × Nat)} {s t : State} (h : UnitLog l s) (ht : s.cfg.t12 < s.cfg.t16)
    (u : PyrUnit) (hcfg : t.cfg = s.cfg) (hunit : t.unit = wordWrite s.unit s.unitLen (unitWord u))
    (hlen : t.unitLen = s.unitLen + 1) (h12 : t.pyrT12 = (startUnit s).1.pyrT12)
    (h16 : t.pyrT16 = (startUnit s).1.pyrT16) : UnitLog (l ++ [(u, s.dict.count)]) t where
  len := by rw [hlen, h.len, List.length_append, List.length_singleton]
  words := fun k p hp => by
    rw [hunit, h.len]
    rcases lt_trichotomy k l.length with hk | rfl | hk
    · rw [wordRead_wordWrite_other _ _ (by omega)]
      rw [List.getElem?_append_left hk] at hp
      exact h.words k p hp
    · rw [List.getElem?_append_right (le_refl _), Nat.sub_self] at hp
      cases hp
      exact wordRead_wordWrite_same _ _ _
    · rw [List.getElem?_eq_none (by rw [List.length_append, List.length_singleton]; omega)] at hp
      cases hp
  points := fun hl => by
    rw [List.length_append, List.length_singleton] at hl
    obtain ⟨p12, p16⟩ := h.points (by omega)
    have hcount : (l.map Prod.snd).length < 2 ^ 32 - 1 := by rw [List.length_map]; omega
    rw [hcfg, h12, h16, startUnit_pyrT12, startUnit_pyrT16 ht, List.map_append, List.map_cons, List.map_nil,
      firstAbove_append _ _ hcount, firstAbove_append _ _ hcount, p12, p16, h.len, List.length_map]
    exact ⟨rfl, rfl⟩

/-! ### The dictionary of a Pyr command (R202) -/

/-- The dictionary after `Insert(off, len)` of a string that lies whole in the data. -/
def withString (cap : Nat) (b : ByteBuf) (off len : Nat) (d : Dict) : Dict :=
  (dictInsert cap off (slice b off len) d).1

/-- The dictionary after the inserts of a match with `k`, `k + 1`, ... bytes in front (R202). -/
def withSuffixes (cap : Nat) (b : ByteBuf) (pos len : Nat) (k : Nat) : Nat → Dict → Dict
  | 0, d => d
  | n + 1, d => withSuffixes cap b pos len (k + 1) n (withString cap b (pos - k) (len + k) d)

/-- The dictionary after the insert of a literal run with the byte at `pos` (R202). -/
def withRun (cap : Nat) (b : ByteBuf) (pos lit : Nat) (d : Dict) : Dict :=
  if 1 ≤ lit then withString cap b (pos - lit) (lit + 1) d else d

/-- What holds of the dictionary between the parts of a Pyr command: it is well-formed, and no index is free, since an
index freed by an eviction is used by the same insert (R168). -/
structure DictOk (cap : Nat) (sel : DataSel) (d : Dict) : Prop where
  wf : dictWf cap d = true
  noFree : d.freeValid = false
  dsel : d.dsel = sel

theorem DictOk.empty (cap : Nat) (sel : DataSel) : DictOk cap sel (Dict.empty sel) := ⟨empty_wf cap sel, rfl, rfl⟩

theorem DictOk.trie {cap : Nat} {sel : DataSel} {d : Dict} (h : DictOk cap sel d) : trieWf d.roots = true :=
  ((dictWf_iff cap d).1 h.wf).1

theorem DictOk.touch {cap : Nat} {sel : DataSel} {d : Dict} (h : DictOk cap sel d) (str : List Byte) :
    DictOk cap sel (dictTouch str d) := ⟨dictTouch_wf str h.wf, h.noFree, h.dsel⟩

theorem slice_ne_nil (b : ByteBuf) (off : Nat) {len : Nat} (h : len ≠ 0) : slice b off len ≠ [] := by
  rw [← List.length_pos_iff, slice_length]
  omega

theorem DictOk.insert {cap : Nat} {sel : DataSel} {d : Dict} (h : DictOk cap sel d) (hc : 0 < cap) (off : Nat)
    {str : List Byte} (hs : str ≠ []) : DictOk cap sel (dictInsert cap off str d).1 where
  wf := dictInsert_wf h.wf hc off hs
  noFree := by
    rw [dictInsert_eq h.trie off hs]
    cases entryAt d.roots str with
    | some e => exact h.noFree
    | none =>
      obtain ⟨-, -, -, -, hfree, -⟩ := newIndex_spec h.wf hc
      exact hfree
  dsel := (dictInsert_dsel cap off str d).trans h.dsel

section
variable {cap : Nat} {sel : DataSel} {d : Dict} (h : DictOk cap sel d) (hc : 0 < cap) (b : ByteBuf)
include h hc

theorem withString_ok (off : Nat) {len : Nat} (hlen : len ≠ 0) :
    DictOk cap sel (withString cap b off len d) ∧ d.count ≤ (withString cap b off len d).count :=
  ⟨h.insert hc off (slice_ne_nil b off hlen), count_dictInsert h.wf hc off (slice_ne_nil b off hlen)⟩

theorem withRun_ok (pos lit : Nat) :
    DictOk cap sel (withRun cap b pos lit d) ∧ d.count ≤ (withRun cap b pos lit d).count := by
  unfold withRun
  split_ifs
  · exact withString_ok h hc b _ (Nat.succ_ne_zero lit)
  · exact ⟨h, le_refl _⟩

end

theorem withSuffixes_ok {cap : Nat} {sel : DataSel} {d : Dict} (h : DictOk cap sel d) (hc : 0 < cap) (b : ByteBuf)
    (pos : Nat) {len : Nat} (hlen : len ≠ 0) (k n : Nat) :
    DictOk cap sel (withSuffixes cap b pos len k n d) ∧ d.count ≤ (withSuffixes cap b pos len k n d).count := by
  induction n generalizing d k with
  | zero => exact ⟨h, le_refl _⟩
  | succ n ih =>
    obtain ⟨h1, hle⟩ := withString_ok h hc b (pos - k) (len := len + k) (by omega)
    obtain ⟨h2, hle'⟩ := ih h1 (k + 1)
    exact ⟨h2, hle.trans hle'⟩

/-! ### The inserts on the state -/

theorem dataLen_inSpace {s : State} (h : s.dict.dsel = .inSpace) : dataLen s = s.inLen := by rw [dataLen, h]
theorem dataBuf_inSpace {s : State} (h : s.dict.dsel = .inSpace) : dataBuf s = s.inb := by rw [dataBuf, h]
theorem dataLen_outSpace {s : State} (h : s.dict.dsel = .outSpace) : dataLen s = s.outLen := by rw [dataLen, h]
theorem dataBuf_outSpace {s : State} (h : s.dict.dsel = .outSpace) : dataBuf s = s.outb := by rw [dataBuf, h]

theorem insertAt_within {off len : Nat} {s : State} (hend : off + len ≤ dataLen s) (hlen : len ≠ 0) :
    insertAt off len s = .ok ({ s with dict := withString s.cfg.cap (dataBuf s) off len s.dict },
      (dictInsert s.cfg.cap off (slice (dataBuf s) off len) s.dict).2) := by
  rw [insertAt_eq, if_neg (by omega), Nat.min_eq_left (by omega)]
  rfl

theorem withString_dsel (cap : Nat) (b : ByteBuf) (off len : Nat) (d : Dict) :
    (withString cap b off len d).dsel = d.dsel := dictInsert_dsel _ _ _ _

theorem insertRun_within {pos lit : Nat} {s : State} (hpos : pos < dataLen s) (hlit : lit ≤ pos) :
    insertRun pos lit s = .ok { s with dict := withRun s.cfg.cap (dataBuf s) pos lit s.dict } := by
  unfold insertRun withRun
  split_ifs with h
  · rw [insertAt_within (by omega) (Nat.succ_ne_zero lit), Res.bind_ok]
  · rfl

theorem insertSuffixes_within {pos len k n : Nat} {s : State} (hend : pos + len ≤ dataLen s) (hlen : len ≠ 0)
    (hk : k + n ≤ pos + 1) :
    insertSuffixes pos len k n s = .ok { s with dict := withSuffixes s.cfg.cap (dataBuf s) pos len k n s.dict } := by
  induction n generalizing k s with
  | zero => rfl
  | succ n ih =>
    have hsel := withString_dsel s.cfg.cap (dataBuf s) (pos - k) (len + k) s.dict
    rw [insertSuffixes, insertAt_within (by omega) (by omega), Res.bind_ok, withSuffixes,
      ih (by rw [dataLen_dict hsel]; exact hend) (by omega), dataBuf_dict hsel]

/-! ### The scan (R202) -/

/-- A place in the scan: the position, the literals in a row before it, the dictionary. -/
structure ScanPos where
  pos : Nat
  lit : Nat
  dict : Dict

/-- The input from a position on, as `Find` sees it. -/
def ahead (s : State) (x : ScanPos) : List Byte := slice s.inb x.pos (s.inLen - x.pos)

/-- The token and the length `Find` answers (R175). -/
def found (s : State) (x : ScanPos) : Option (Nat × Nat) := lastIndexed (walk 0 x.dict.roots (ahead s x)).1

/-- The unit of one step of the scan of the input of `s`, and the place after it (R202). -/
def scanStep (s : State) (x : ScanPos) : PyrUnit × ScanPos :=
  match found s x with
  | none => (litUnit (bufRead s.inb x.pos),
      { pos := x.pos + 1, lit := x.lit + 1
        dict := withRun s.cfg.cap s.inb x.pos x.lit (dictTouch (ahead s x) x.dict) })
  | some (t, len) => (tokUnit t (fieldWidth s.cfg x.dict.count),
      { pos := x.pos + len, lit := 0
        dict := withSuffixes s.cfg.cap s.inb x.pos len 1 x.lit (dictTouch (ahead s x) x.dict) })

/-- At most `n` steps: the units, each with the number of entries at its start, and the dictionary left. -/
def scanFrom (s : State) : Nat → ScanPos → List (PyrUnit × Nat) × Dict
  | 0, x => ([], x.dict)
  | n + 1, x =>
    if s.inLen ≤ x.pos then ([], x.dict)
    else (((scanStep s x).1, x.dict.count) :: (scanFrom s n (scanStep s x).2).1, (scanFrom s n (scanStep s x).2).2)

theorem scanFrom_end {s : State} {x : ScanPos} (n : Nat) (h : s.inLen ≤ x.pos) : scanFrom s n x = ([], x.dict) := by
  cases n with
  | zero => rfl
  | succ n => rw [scanFrom, if_pos h]

theorem scanFrom_next {s : State} {x : ScanPos} (n : Nat) (h : x.pos < s.inLen) : scanFrom s (n + 1) x =
    (((scanStep s x).1, x.dict.count) :: (scanFrom s n (scanStep s x).2).1, (scanFrom s n (scanStep s x).2).2) := by
  rw [scanFrom, if_neg (by omega)]

theorem scanStep_literal {s : State} {x : ScanPos} (h : found s x = none) : scanStep s x =
    (litUnit (bufRead s.inb x.pos), { pos := x.pos + 1, lit := x.lit + 1
                                      dict := withRun s.cfg.cap s.inb x.pos x.lit (dictTouch (ahead s x) x.dict) }) := by
  rw [scanStep, h]

theorem scanStep_token {s : State} {x : ScanPos} {t len : Nat} (h : found s x = some (t, len)) : scanStep s x =
    (tokUnit t (fieldWidth s.cfg x.dict.count),
      { pos := x.pos + len, lit := 0
        dict := withSuffixes s.cfg.cap s.inb x.pos len 1 x.lit (dictTouch (ahead s x) x.dict) }) := by
  rw [scanStep, h]

/-- A place that a scan of the input of `s` reaches. -/
structure ScanOk (s : State) (x : ScanPos) : Prop where
  lit : x.lit ≤ x.pos
  pos : x.pos ≤ s.inLen
  dict : DictOk s.cfg.cap .inSpace x.dict

/-- The start of a scan (R201). -/
def scanStart : ScanPos := { pos := 0, lit := 0, dict := Dict.empty .inSpace }

theorem scanStart_ok (s : State) : ScanOk s scanStart := ⟨le_refl _, Nat.zero_le _, DictOk.empty _ _⟩

/-- What `Find` answers is an entry that stands at the position; no other entry there is longer (R175). -/
theorem found_some {s : State} {x : ScanPos} (hx : ScanOk s x) {t len : Nat} (h : found s x = some (t, len)) :
    ∃ q, (t, slice s.inb x.pos len, q) ∈ flat x.dict ∧ len ≠ 0 ∧ x.pos + len ≤ s.inLen ∧
      ∀ e ∈ flat x.dict, e.2.1 <+: ahead s x → e.2.1.length ≤ len := by
  obtain ⟨u, q, hne, hpre, hlen, hentry, hmax⟩ := (lastIndexed_walk hx.dict.trie 0 (ahead s x)).1 t len h
  rw [Nat.zero_add] at hlen
  have hle := hpre.length_le
  rw [ahead, slice_length] at hle
  have hu : u = slice s.inb x.pos len := by
    rw [List.prefix_iff_eq_take.1 hpre, ahead, slice_take _ _ _ _ hle, hlen]
  have hpos := List.length_pos_iff.2 hne
  have hin := hx.pos
  refine ⟨q, (mem_flat hx.dict.trie _ _ _).2 (hu ▸ hentry), by omega, by omega, ?_⟩
  rintro ⟨i, v, r⟩ he hv
  exact hlen ▸ hmax v _ hv ((mem_flat hx.dict.trie _ _ _).1 he)

theorem found_none {s : State} {x : ScanPos} (hx : ScanOk s x) (h : found s x = none) :
    ∀ e ∈ flat x.dict, ¬ e.2.1 <+: ahead s x := by
  rintro ⟨i, v, r⟩ he hv
  have := (lastIndexed_walk hx.dict.trie 0 (ahead s x)).2 h v hv
  rw [(mem_flat hx.dict.trie _ _ _).1 he] at this
  cases this

/-- The indices in use are below the count while none is free (R46 (b)). -/
theorem DictOk.index_lt {cap : Nat} {sel : DataSel} {d : Dict} (h : DictOk cap sel d) {e : Nat × List Byte × Nat}
    (he : e ∈ flat d) : e.1 < d.count := by
  obtain ⟨-, -, -, -, -, hdense, -⟩ := (dictWf_iff cap d).1 h.wf
  exact (hdense h.noFree).2 _ ((mem_indices h.trie _).2 ⟨_, _, (mem_flat h.trie _ _ _).1 he⟩)

theorem DictOk.count_le {cap : Nat} {sel : DataSel} {d : Dict} (h : DictOk cap sel d) : d.count ≤ cap := by
  obtain ⟨-, -, -, hle, -⟩ := (dictWf_iff cap d).1 h.wf
  exact hle

/-- A step goes on to a place further in the input, with no fewer entries. -/
theorem scanStep_ok {s : State} {x : ScanPos} (hx : ScanOk s x) (hc : 0 < s.cfg.cap) (h : x.pos < s.inLen) :
    ScanOk s (scanStep s x).2 ∧ x.pos < (scanStep s x).2.pos ∧ x.dict.count ≤ (scanStep s x).2.dict.count := by
  have htouch := hx.dict.touch (ahead s x)
  cases hf : found s x with
  | none =>
    obtain ⟨hd, hle⟩ := withRun_ok htouch hc s.inb x.pos x.lit
    have := hx.lit
    rw [scanStep_literal hf]
    exact ⟨⟨by simp only; omega, by simp only; omega, hd⟩, by simp, hle⟩
  | some e =>
    obtain ⟨t, len⟩ := e
    obtain ⟨q, -, hlen, hend, -⟩ := found_some hx hf
    obtain ⟨hd, hle⟩ := withSuffixes_ok htouch hc s.inb x.pos hlen 1 x.lit
    rw [scanStep_token hf]
    exact ⟨⟨Nat.zero_le _, hend, hd⟩, by simp only; omega, hle⟩

/-- What a unit started with `c` entries is like (R203, R204). -/
def unitFits (cfg : Config) (u : PyrUnit) (c : Nat) : Prop :=
  if u.isTok then u.width = fieldWidth cfg c ∧ u.value < c ∧ c ≤ cfg.cap else u.width = 8 ∧ u.value < 256

theorem scanStep_fits {s : State} {x : ScanPos} (hx : ScanOk s x) :
    unitFits s.cfg (scanStep s x).1 x.dict.count := by
  cases hf : found s x with
  | none =>
    rw [scanStep_literal hf]
    exact ⟨rfl, (bufRead s.inb x.pos).isLt⟩
  | some e =>
    obtain ⟨t, len⟩ := e
    obtain ⟨q, he, -⟩ := found_some hx hf
    rw [scanStep_token hf]
    exact ⟨rfl, hx.dict.index_lt he, hx.dict.count_le⟩

/-- The units of a scan fit, and the counts of entries rise from the first to the last (R204). -/
theorem scanFrom_counts {s : State} (hc : 0 < s.cfg.cap) (n : Nat) {x : ScanPos} (hx : ScanOk s x) :
    (∀ p ∈ (scanFrom s n x).1, unitFits s.cfg p.1 p.2 ∧ x.dict.count ≤ p.2 ∧ p.2 ≤ (scanFrom s n x).2.count) ∧
      ((scanFrom s n x).1.map Prod.snd).Pairwise (· ≤ ·) ∧ x.dict.count ≤ (scanFrom s n x).2.count := by
  induction n generalizing x with
  | zero => simp [scanFrom]
  | succ n ih =>
    rcases Nat.lt_or_ge x.pos s.inLen with h | h
    · obtain ⟨hok, -, hle⟩ := scanStep_ok hx hc h
      obtain ⟨hall, hsorted, hlast⟩ := ih hok
      rw [scanFrom_next n h]
      simp only [List.mem_cons, forall_eq_or_imp, List.map_cons, List.pairwise_cons, List.mem_map,
        forall_exists_index, and_imp, forall_apply_eq_imp_iff₂]
      refine ⟨⟨⟨scanStep_fits hx, le_refl _, hle.trans hlast⟩, fun p hp => ?_⟩, ⟨fun p hp => ?_, hsorted⟩, hle.trans hlast⟩
      · obtain ⟨h1, h2, h3⟩ := hall p hp
        exact ⟨h1, hle.trans h2, h3⟩
      · exact hle.trans (hall p hp).2.1
    · simp [scanFrom_end (n + 1) h]

/-! ### `Pass1()` is the scan -/

/-- `Pass1()` on the input of `s` at a place of the scan, with the units `l` recorded. -/
structure Pass1At (s : State) (x : ScanPos) (l : List (PyrUnit × Nat)) (u : State) : Prop where
  cfg : u.cfg = s.cfg
  inb : u.inb = s.inb
  inLen : u.inLen = s.inLen
  dict : u.dict = x.dict
  log : UnitLog l u

/-- `Find` at a place of the scan. -/
theorem findAt_ahead {s u : State} {x : ScanPos} (hsel : x.dict.dsel = .inSpace) (inb : u.inb = s.inb)
    (inLen : u.inLen = s.inLen) (dict : u.dict = x.dict) (h : x.pos < s.inLen) :
    findAt x.pos u = ({ u with dict := dictTouch (ahead s x) x.dict }, found s x) := by
  have husel : u.dict.dsel = .inSpace := dict ▸ hsel
  rw [findAt_eq, dataLen_inSpace husel, dataBuf_inSpace husel, inLen, inb, dict, if_neg (by omega)]
  rfl

/-- One turn of the loop. -/
theorem pass1_step {s u : State} {x : ScanPos} {l : List (PyrUnit × Nat)} (hcfg : s.cfg.wf = true) (hx : ScanOk s x)
    (hu : Pass1At s x l u) (h : x.pos < s.inLen) (n : Nat) :
    ∃ v, pass1 (n + 1) x.pos x.lit u = pass1 n (scanStep s x).2.pos (scanStep s x).2.lit v ∧
      Pass1At s (scanStep s x).2 (l ++ [((scanStep s x).1, x.dict.count)]) v := by
  have hpair : startUnit u = ((startUnit u).1, fieldWidth s.cfg x.dict.count) := by
    rw [← hu.cfg, ← hu.dict]
    rfl
  rw [pass1, if_neg (by rw [hu.inLen]; omega), hpair]
  simp only
  -- after `StartUnit()` and `Find`
  generalize hs1 : (startUnit u).1 = u1
  have inLen1 : u1.inLen = s.inLen := by rw [← hs1, startUnit_inLen, hu.inLen]
  have inb1 : u1.inb = s.inb := by rw [← hs1, startUnit_inb, hu.inb]
  have cfg1 : u1.cfg = s.cfg := by rw [← hs1, startUnit_cfg, hu.cfg]
  rw [findAt_ahead hx.dict.dsel inb1 inLen1 (by rw [← hs1, startUnit_dict, hu.dict]) h]
  generalize hs2 : ({ u1 with dict := dictTouch (ahead s x) x.dict } : State) = u2
  have cfg2 : u2.cfg = s.cfg := by rw [← hs2]; exact cfg1
  have inb2 : u2.inb = s.inb := by rw [← hs2]; exact inb1
  have inLen2 : u2.inLen = s.inLen := by rw [← hs2]; exact inLen1
  have dict2 : u2.dict = dictTouch (ahead s x) x.dict := by rw [← hs2]
  have hsel : u2.dict.dsel = .inSpace := by rw [dict2]; exact hx.dict.dsel
  have hrecord : ∀ (w : PyrUnit) (d : Dict),
      UnitLog (l ++ [(w, x.dict.count)]) { recordUnit w u2 with dict := d } := fun w d => by
    rw [← hu.dict]
    refine hu.log.record (by rw [hu.cfg]; exact (config_bounds hcfg).2.2.2.1) w (cfg2.trans hu.cfg.symm) ?_ ?_ ?_ ?_ <;>
      simp [← hs2, ← hs1]
  have hlit := hx.lit
  cases hf : found s x with
  | none =>
    simp only
    rw [insertRun_within (by rw [dataLen_inSpace hsel, inLen2]; exact h) hlit, Res.bind_ok, scanStep_literal hf,
      dataBuf_inSpace hsel]
    refine ⟨_, rfl, cfg2, inb2, inLen2, ?_, inb2 ▸ hrecord (litUnit (bufRead u2.inb x.pos)) _⟩
    rw [recordUnit_dict, cfg2, inb2, dict2]
  | some e =>
    obtain ⟨t, len⟩ := e
    obtain ⟨-, -, hlen, hend, -⟩ := found_some hx hf
    have hrecsel : (recordUnit (tokUnit t (fieldWidth s.cfg x.dict.count)) u2).dict.dsel = .inSpace := hsel
    simp only
    rw [insertSuffixes_within (by rw [dataLen_inSpace hrecsel]; exact hend.trans_eq inLen2.symm) hlen (by omega),
      Res.bind_ok, scanStep_token hf, dataBuf_inSpace hrecsel]
    refine ⟨_, rfl, cfg2, inb2, inLen2, ?_, hrecord _ _⟩
    simp only [recordUnit_dict, recordUnit_cfg, recordUnit_inb, cfg2, inb2, dict2]

/-- `Pass1()` records the units of the scan and leaves its dictionary. -/
theorem pass1_scan {s : State} (hcfg : s.cfg.wf = true) (n : Nat) {x : ScanPos} {l : List (PyrUnit × Nat)} {u : State}
    (hx : ScanOk s x) (hu : Pass1At s x l u) :
    ∃ t, pass1 n x.pos x.lit u = .ok t ∧ t.cfg = s.cfg ∧ t.dict = (scanFrom s n x).2 ∧
      UnitLog (l ++ (scanFrom s n x).1) t := by
  induction n generalizing x l u with
  | zero => exact ⟨u, rfl, hu.cfg, hu.dict, by simpa [scanFrom] using hu.log⟩
  | succ n ih =>
    rcases Nat.lt_or_ge x.pos s.inLen with h | h
    · obtain ⟨hok, -⟩ := scanStep_ok hx (config_bounds hcfg).2.2.2.2.2.1 h
      obtain ⟨v, hv, hat⟩ := pass1_step hcfg hx hu h n
      obtain ⟨t, ht, hdict, hlog⟩ := ih hok hat
      rw [scanFrom_next n h, hv]
      exact ⟨t, ht, hdict, by simpa using hlog⟩
    · rw [scanFrom_end _ h, pass1, if_pos (by rw [hu.inLen]; exact h)]
      exact ⟨u, rfl, hu.cfg, hu.dict, by simpa using hu.log⟩

/-- The scan of the whole input (R201): there are no more units than bytes. -/
def scanUnits (s : State) : List (PyrUnit × Nat) := (scanFrom s s.inLen scanStart).1

/-- The dictionary it leaves. -/
def scanDict (s : State) : Dict := (scanFrom s s.inLen scanStart).2

/-- However `PYR.COMPRESS` ends, it has recorded the units of the scan and leaves its dictionary. -/
theorem pyrCompress_scan {s t : State} (hcfg : s.cfg.wf = true) (h : exec .pyrCompress s = .next t) :
    t.dict = scanDict s ∧ UnitLog (scanUnits s) t ∧ t.cfg = s.cfg ∧ t.unitLen ≤ s.inLen := by
  obtain ⟨s1, h1, hgrows, -, hle, hdict, hunit, hlen, h12, h16, -⟩ := pyrCompress_passes (cap_pos_of_wf hcfg) h
  obtain ⟨t1, ht1, hcfg1, hd, hlog⟩ := pass1_scan hcfg s.inLen (scanStart_ok s)
    (u := pyrStart .inSpace s) ⟨rfl, rfl, rfl, rfl, UnitLog.start _ _⟩
  rw [show pass1 s.inLen scanStart.pos scanStart.lit (pyrStart .inSpace s) = .ok s1 from h1] at ht1
  cases ht1
  have hcfgt : t.cfg = s.cfg := (exec_sameHost (fun _ => cap_pos_of_wf hcfg) h).1
  exact ⟨hdict.trans hd, hlog.congr (hcfgt.trans hcfg1.symm) hunit hlen h12 h16, hcfgt, hlen.trans_le hle⟩

end Sys2Proof.Machine
end

section
/-! PROOFS. The scan of R202 by `DICT` commands is the scan `PYR.COMPRESS` makes, and what that says of the unit record
(O37, O38). -/

namespace Sys2Proof.Machine

/-! ### The scan by `DICT` commands (R202) -/

/-- A state with the input of `s` and the dictionary `d`, in which commands are accepted. -/
structure ScansWith (s : State) (d : Dict) (z : State) : Prop where
  cfg : z.cfg = s.cfg
  inb : z.inb = s.inb
  inLen : z.inLen = s.inLen
  dict : z.dict = d
  free : latched z = false

section
variable {s z : State} (hin : s.inLen < 2 ^ 32)
include hin

theorem toNat_toWord {n : Nat} (h : n ≤ s.inLen) : (toWord n).toNat = n := by
  rw [toWord, BitVec.toNat_ofNat, Nat.mod_eq_of_lt (by omega)]

/-- `DICT.INSERT` of a string of the input. -/
theorem insertString_scans {d : Dict} (hz : ScansWith s d z) (hsel : d.dsel = .inSpace) {off len : Nat}
    (hend : off + len ≤ s.inLen) (hlen : len ≠ 0) :
    ∃ y, insertString off len z = some y ∧ ScansWith s (withString s.cfg.cap s.inb off len d) y := by
  obtain ⟨cfg, inb, inLen, dict, free⟩ := hz
  have hzsel : z.dict.dsel = .inSpace := dict ▸ hsel
  have h0 : argNat0 { z with arg0 := toWord off, arg1 := toWord len } = off := toNat_toWord hin (by omega)
  have h1 : argNat1 { z with arg0 := toWord off, arg1 := toWord len } = len := toNat_toWord hin (by omega)
  have hdata : dataLen { z with arg0 := toWord off, arg1 := toWord len } = s.inLen := (dataLen_inSpace hzsel).trans inLen
  have hstr : dataSlice off len { z with arg0 := toWord off, arg1 := toWord len } = slice s.inb off len := by
    rw [dataSlice, hdata, Nat.min_eq_left (by omega), ← inb]
    exact congrArg (slice · off len) (dataBuf_inSpace hzsel)
  have hrun := dictInsert_completes (s := { z with arg0 := toWord off, arg1 := toWord len })
    (by rw [h0, hdata]; omega) (by rw [h1]; exact hlen)
  rw [h0, h1, hstr] at hrun
  refine ⟨_, (congrArg completed hrun).trans (completed_next (by exact free)), cfg, inb, inLen, ?_, free⟩
  rw [withString, ← cfg, ← dict]

/-- `DICT.INSERT` of the suffixes of a match. -/
theorem insertStrings_scans {d : Dict} (hz : ScansWith s d z) (hsel : d.dsel = .inSpace) {pos len k n : Nat}
    (hend : pos + len ≤ s.inLen) (hlen : len ≠ 0) (hk : k + n ≤ pos + 1) :
    ∃ y, insertStrings pos len (List.range' k n) z = some y ∧
      ScansWith s (withSuffixes s.cfg.cap s.inb pos len k n d) y := by
  induction n generalizing d z k with
  | zero => exact ⟨z, rfl, hz⟩
  | succ n ih =>
    obtain ⟨y, hy, hys⟩ := insertString_scans hin hz hsel (off := pos - k) (len := len + k) (by omega) (by omega)
    obtain ⟨w, hw, hws⟩ := ih hys ((withString_dsel _ _ _ _ _).trans hsel) (k := k + 1) (by omega)
    exact ⟨w, by rw [List.range'_succ, insertStrings, hy]; exact hw, hws⟩

/-- `DICT.FIND` at a place of the scan. -/
theorem dictFind_scans {x : ScanPos} (hx : ScanOk s x) (hz : ScansWith s x.dict z) (h : x.pos < s.inLen) :
    ∃ f, completed (exec .dictFind { z with arg0 := toWord x.pos }) = some f ∧
      ScansWith s (dictTouch (ahead s x) x.dict) f ∧
      (found s x = none → f.res0 = none32) ∧
      ∀ t len, found s x = some (t, len) → f.res0 = toWord t ∧ f.res1 = toWord len := by
  obtain ⟨cfg, inb, inLen, dict, free⟩ := hz
  have hzsel : z.dict.dsel = .inSpace := dict ▸ hx.dict.dsel
  have h0 : argNat0 { z with arg0 := toWord x.pos } = x.pos := toNat_toWord hin (by omega)
  have hdata : dataLen { z with arg0 := toWord x.pos } = s.inLen := (dataLen_inSpace hzsel).trans inLen
  have hstr : ahead s x = slice (dataBuf { z with arg0 := toWord x.pos }) (argNat0 { z with arg0 := toWord x.pos })
      (dataLen { z with arg0 := toWord x.pos } - argNat0 { z with arg0 := toWord x.pos }) := by
    rw [ahead, h0, hdata, ← inb]
    exact congrArg (slice · x.pos _) (dataBuf_inSpace hzsel).symm
  obtain ⟨hsome, hnone⟩ := dictFind_within (by rw [h0, hdata]; exact h) hstr
  have hroots : lastIndexed (walk 0 z.dict.roots (ahead s x)).1 = found s x := by rw [dict]; rfl
  rw [hroots] at hsome hnone
  cases hf : found s x with
  | none =>
    refine ⟨_, (congrArg completed (hnone hf)).trans (completed_next (by exact free)), ⟨cfg, inb, inLen, ?_, free⟩,
      fun _ => rfl, fun t len h => (by cases h)⟩
    rw [← dict]
  | some e =>
    obtain ⟨t, len⟩ := e
    refine ⟨_, (congrArg completed (hsome t len hf)).trans (completed_next (by exact free)), ⟨cfg, inb, inLen, ?_, free⟩,
      fun h => (by cases h), ?_⟩
    · rw [← dict]
    · rintro t' len' ⟨⟩
      exact ⟨rfl, rfl⟩

end

/-- The commands scan as `scanFrom` does. -/
theorem scanInput_scans {s : State} (hcfg : s.cfg.wf = true) (hin : s.inLen < 2 ^ 32) (n : Nat) {x : ScanPos} {z : State}
    (hx : ScanOk s x) (hz : ScansWith s x.dict z) :
    ∃ u, scanInput n x.pos x.lit z = some ((scanFrom s n x).1, u) ∧ u.dict = (scanFrom s n x).2 := by
  obtain ⟨-, -, -, -, -, hcap, hcap'⟩ := config_bounds hcfg
  induction n generalizing x z with
  | zero => exact ⟨z, rfl, hz.dict⟩
  | succ n ih =>
    rcases Nat.lt_or_ge x.pos s.inLen with h | h
    · obtain ⟨hok, -⟩ := scanStep_ok hx hcap h
      obtain ⟨f, hfind, hfs, hnone, hsome⟩ := dictFind_scans hin hx hz h
      have hlit := hx.lit
      have hsel : (dictTouch (ahead s x) x.dict).dsel = .inSpace := hx.dict.dsel
      rw [scanFrom_next n h, scanInput, if_neg (by rw [hz.inLen]; omega), hfind, Option.bind_some]
      cases hf : found s x with
      | none =>
        rw [scanStep_literal hf] at hok ⊢
        have hrun : ∃ g, (if x.lit = 0 then some f else insertString (x.pos - x.lit) (x.lit + 1) f) = some g ∧
            ScansWith s (withRun s.cfg.cap s.inb x.pos x.lit (dictTouch (ahead s x) x.dict)) g := by
          by_cases h0 : x.lit = 0
          · exact ⟨f, if_pos h0, by rw [withRun, if_neg (by omega)]; exact hfs⟩
          · rw [if_neg h0, withRun, if_pos (by omega)]
            exact insertString_scans hin hfs hsel (by omega) (Nat.succ_ne_zero _)
        obtain ⟨g, hg, hgs⟩ := hrun
        obtain ⟨u, hu, hud⟩ := ih hok hgs
        refine ⟨u, ?_, hud⟩
        rw [if_pos (hnone hf), hg, Option.bind_some, hu, Option.map_some, hz.inb, hz.dict]
        rfl
      | some e =>
        obtain ⟨t, len⟩ := e
        obtain ⟨q, he, hlen, hend, -⟩ := found_some hx hf
        obtain ⟨h0, h1⟩ := hsome t len hf
        have ht : f.res0.toNat = t := by
          have := hx.dict.index_lt he
          have := hx.dict.count_le
          rw [h0, toWord, BitVec.toNat_ofNat, Nat.mod_eq_of_lt (by omega)]
        have hne : f.res0 ≠ 0xFFFFFFFF#32 := by
          have := hx.dict.index_lt he
          have := hx.dict.count_le
          intro hne
          rw [hne] at ht
          simp at ht
          omega
        have hl : f.res1.toNat = len := by rw [h1]; exact toNat_toWord hin (by omega)
        rw [scanStep_token hf] at hok ⊢
        obtain ⟨g, hg, hgs⟩ := insertStrings_scans hin hfs hsel hend hlen (k := 1) (n := x.lit) (by omega)
        obtain ⟨u, hu, hud⟩ := ih hok hgs
        refine ⟨u, ?_, hud⟩
        rw [if_neg hne, ht, hl, hg, Option.bind_some, hu, Option.map_some, hz.cfg, hz.dict]
        rfl
    · rw [scanFrom_end _ h, scanInput, if_pos (by rw [hz.inLen]; exact h)]
      exact ⟨z, rfl, hz.dict⟩

/-- The whole scan, from the dictionary of `DICT.CLEAR 0`. -/
theorem scanAll_eq {s : State} (hcfg : s.cfg.wf = true) (hin : s.inLen < 2 ^ 32) (hs : latched s = false) :
    ∃ u, scanAll s = some (scanUnits s, u) ∧ u.dict = scanDict s := by
  obtain ⟨u, hu, hud⟩ := scanInput_scans hcfg hin s.inLen (scanStart_ok s)
    (z := { s with dict := Dict.empty .inSpace }) ⟨rfl, rfl, rfl, rfl, hs⟩
  refine ⟨u, ?_, hud⟩
  rw [scanAll, dictClear_completes (Nat.zero_le 1), completed_next (by exact hs)]
  exact hu

/-! ### The unit record and the transition points (R203, R204) -/

theorem fieldWidth_cases (c : Config) (n : Nat) : fieldWidth c n = 8 ∨ fieldWidth c n = 12 ∨ fieldWidth c n = 16 := by
  unfold fieldWidth
  split_ifs <;> simp

theorem unitFits.wordUnit {cfg : Config} (hcfg : cfg.wf = true) {u : PyrUnit} {c : Nat} (h : unitFits cfg u c) :
    wordUnit (unitWord u) = u := by
  obtain ⟨-, -, -, -, -, -, hcap⟩ := config_bounds hcfg
  unfold unitFits at h
  split_ifs at h with htok
  · obtain ⟨hw, hv, hle⟩ := h
    have := fieldWidth_cases cfg c
    exact wordUnit_unitWord (by omega) (by omega)
  · exact wordUnit_unitWord (by omega) (by omega)

/-- The record read back as units. -/
theorem UnitLog.unitsOf {cfg : Config} (hcfg : cfg.wf = true) {l : List (PyrUnit × Nat)} {t : State} (h : UnitLog l t)
    (hfits : ∀ p ∈ l, unitFits cfg p.1 p.2) : unitsOf t = l.map Prod.fst := by
  rw [unitsOf_eq, h.len]
  refine List.ext_getElem (by simp) fun k hk hk' => ?_
  rw [List.length_map] at hk'
  simp only [List.getElem_map, List.getElem_range]
  rw [h.words k l[k] (List.getElem?_eq_getElem hk'), (hfits l[k] (List.getElem_mem hk')).wordUnit hcfg]

/-- A register of a transition point parts the units: before it, those that start with few enough entries. -/
theorem lt_firstAbove_iff {limit : Nat} {counts : List Nat} (hsorted : counts.Pairwise (· ≤ ·))
    (hlen : counts.length < 2 ^ 32 - 1) {k c : Nat} (hk : counts[k]? = some c) :
    k < (firstAbove limit counts).toNat ↔ c ≤ limit := by
  obtain ⟨hlt, rfl⟩ := List.getElem?_eq_some_iff.1 hk
  rw [firstAbove]
  cases h : counts.findIdx? fun c => decide (limit < c) with
  | none =>
    have := List.findIdx?_eq_none_iff.1 h counts[k] (List.getElem_mem hlt)
    simp at this ⊢
    omega
  | some j =>
    obtain ⟨hj, hjl, hmin⟩ := List.findIdx?_eq_some_iff_getElem.1 h
    simp only [decide_eq_true_eq] at hjl hmin
    show k < (toWord j).toNat ↔ _
    rw [toWord, BitVec.toNat_ofNat, Nat.mod_eq_of_lt (by omega)]
    constructor
    · intro hkj
      have := hmin k hkj
      omega
    · intro hle
      by_contra hge
      rcases Nat.eq_or_lt_of_le (Nat.not_lt.1 hge) with rfl | hjk
      · omega
      · have := List.pairwise_iff_getElem.1 hsorted j k hj hlt hjk
        omega

theorem firstAbove_none {limit : Nat} {counts : List Nat} (h : ∀ c ∈ counts, c ≤ limit) :
    firstAbove limit counts = none32 := by
  rw [firstAbove, List.findIdx?_eq_none_iff.2 fun c hc => by simpa using h c hc]

theorem boundsWf_inLen {s : State} (h : boundsWf s = true) : s.inLen ≤ s.cfg.bufCap := by
  simp only [boundsWf, Bool.and_eq_true, decide_eq_true_eq] at h
  omega

/-- A token index below the count fits the width in force (R204). -/
theorem lt_two_pow_fieldWidth {c : Config} (hc : c.wf = true) {v n : Nat} (hv : v < n) (hn : n ≤ c.cap) :
    v < 2 ^ fieldWidth c n := by
  obtain ⟨-, -, h12, -, h16, -, hcap⟩ := config_bounds hc
  unfold fieldWidth
  split_ifs <;> omega

theorem scanUnits_counts {s : State} (hc : 0 < s.cfg.cap) :
    (∀ p ∈ scanUnits s, unitFits s.cfg p.1 p.2 ∧ p.2 ≤ (scanDict s).count) ∧
      ((scanUnits s).map Prod.snd).Pairwise (· ≤ ·) := by
  obtain ⟨hall, hsorted, -⟩ := scanFrom_counts hc s.inLen (scanStart_ok s)
  exact ⟨fun p hp => ⟨(hall p hp).1, (hall p hp).2.2⟩, hsorted⟩

/-- Settles O38: the counts of entries rise along the scan, so the registers part its units by width. -/
theorem pyrTransitionPoints : Obligations.PyrTransitionPoints := by
  intro s t hcfg hbounds hs hrun
  obtain ⟨hbuf, -, -, -, -, hcap, -⟩ := config_bounds hcfg
  have hin := boundsWf_inLen hbounds
  obtain ⟨hdict, hlog, hcfgt, hle⟩ := pyrCompress_scan hcfg hrun
  obtain ⟨hall, hsorted⟩ := scanUnits_counts hcap
  obtain ⟨u, hu, -⟩ := scanAll_eq hcfg (by omega) hs
  have hlen : (scanUnits s).length < 2 ^ 32 - 1 := by rw [← hlog.len]; omega
  have hlen' : ((scanUnits s).map Prod.snd).length < 2 ^ 32 - 1 := by rwa [List.length_map]
  obtain ⟨h12, h16⟩ := hlog.points hlen
  rw [hcfgt] at h12 h16
  have hlast : ∀ c ∈ (scanUnits s).map Prod.snd, c ≤ t.dict.count := fun c hc => by
    obtain ⟨p, hp, rfl⟩ := List.mem_map.1 hc
    exact hdict ▸ (hall p hp).2
  refine ⟨fun k hk => ?_, ⟨_, u, hu, hlog.len, h12, h16⟩, fun hfew => ?_, fun hfew => ?_⟩
  · rw [hlog.len] at hk
    have hget : (scanUnits s)[k]? = some (scanUnits s)[k] := List.getElem?_eq_getElem hk
    obtain ⟨hfits, -⟩ := hall _ (List.getElem_mem hk)
    have hcount : ((scanUnits s).map Prod.snd)[k]? = some (scanUnits s)[k].2 := by rw [List.getElem?_map, hget]; rfl
    rw [hlog.words k _ hget, hfits.wordUnit hcfg, h12, h16]
    have hbefore := fun limit => lt_firstAbove_iff (limit := limit) hsorted hlen' hcount
    unfold unitFits at hfits
    refine ⟨fun htok => ?_, fun htok => ?_⟩
    · rw [if_pos htok] at hfits
      obtain ⟨hw, hv, hc⟩ := hfits
      simp only [hbefore, hw]
      exact ⟨rfl, lt_two_pow_fieldWidth hcfg hv hc⟩
    · rwa [htok] at hfits
  · exact h12.trans (firstAbove_none fun c hc => (hlast c hc).trans hfew)
  · exact h16.trans (firstAbove_none fun c hc => (hlast c hc).trans hfew)

/-! ### The first units (R207) -/

theorem found_emptyDict (s : State) (pos lit : Nat) (sel : DataSel) :
    found s { pos := pos, lit := lit, dict := Dict.empty sel } = none := rfl

/-- The first byte is a literal, and nothing is inserted. -/
theorem scanStep_first (s : State) : scanStep s scanStart =
    (litUnit (bufRead s.inb 0), { pos := 1, lit := 1, dict := Dict.empty .inSpace }) :=
  scanStep_literal (found_emptyDict s 0 0 .inSpace)

/-- The dictionary with the entry of the first two bytes alone. -/
def seedDict (s : State) : Dict :=
  { roots := .node 0 [bufRead s.inb 0, bufRead s.inb 1] (some 0) 0 .nil .nil
    count := 1, prio := 1, freeValid := false, freeIdx := 0, dsel := .inSpace }

theorem mem_flat_seedDict {s : State} {e : Nat × List Byte × Nat} :
    e ∈ flat (seedDict s) ↔ e = (0, [bufRead s.inb 0, bufRead s.inb 1], 0) := List.mem_singleton

theorem trieWf_seedDict (s : State) : trieWf (seedDict s).roots = true := rfl

/-- The second byte is a literal, and the two bytes are inserted. -/
theorem scanStep_second {s : State} (hc : 0 < s.cfg.cap) :
    scanStep s { pos := 1, lit := 1, dict := Dict.empty .inSpace } =
      (litUnit (bufRead s.inb 1), { pos := 2, lit := 2, dict := seedDict s }) := by
  have hseed : withRun s.cfg.cap s.inb 1 1 (Dict.empty .inSpace) = seedDict s := by
    have hroom : ¬ 0 = s.cfg.cap := by omega
    have hnew : newIndex s.cfg.cap (Dict.empty .inSpace) = (Dict.empty .inSpace, 0) := by simp [newIndex, hroom]
    rw [withRun, if_pos (le_refl 1), withString, dictInsert_eq rfl _ (by simp [slice])]
    simp only [empty_roots, entryAt, insertNew_eq, hnew]
    rfl
  rw [scanStep_literal (found_emptyDict s 1 1 .inSpace), ← hseed]
  rfl

/-- The third unit is the token of that entry where the two bytes stand again, else a literal. -/
theorem scanStep_third (s : State) : (scanStep s { pos := 2, lit := 2, dict := seedDict s }).1 =
    if [bufRead s.inb 0, bufRead s.inb 1] <+: slice s.inb 2 (s.inLen - 2) then tokUnit 0 (fieldWidth s.cfg 1)
    else litUnit (bufRead s.inb 2) := by
  split_ifs with h
  · have hf : found s { pos := 2, lit := 2, dict := seedDict s } = some (0, 2) :=
      lastIndexed_of_longest (trieWf_seedDict s) (mem_flat_seedDict.2 rfl) h
        fun e he _ => by rw [mem_flat_seedDict.1 he]
    rw [scanStep_token hf]
    rfl
  · have hf : found s { pos := 2, lit := 2, dict := seedDict s } = none :=
      lastIndexed_of_noPrefix (trieWf_seedDict s) fun e he => by
        rw [mem_flat_seedDict.1 he]
        exact h
    rw [scanStep_literal hf]

theorem seed_prefix_iff {s : State} (h : 3 ≤ s.inLen) :
    [bufRead s.inb 0, bufRead s.inb 1] <+: slice s.inb 2 (s.inLen - 2) ↔
      4 ≤ s.inLen ∧ bufRead s.inb 2 = bufRead s.inb 0 ∧ bufRead s.inb 3 = bufRead s.inb 1 := by
  obtain ⟨k, hk⟩ : ∃ k, s.inLen = 3 + k := ⟨s.inLen - 3, by omega⟩
  rw [hk, show 3 + k - 2 = 1 + k by omega, slice_append]
  cases k with
  | zero => simp [slice]
  | succ k =>
    have h4 : 4 ≤ 3 + (k + 1) := by omega
    simp [slice, eq_comm, h4]

/-- The scan of an input of one byte, of two, of more. -/
theorem scan_one {s : State} (h : s.inLen = 1) :
    scanUnits s = [(litUnit (bufRead s.inb 0), 0)] ∧ scanDict s = Dict.empty .inSpace := by
  rw [scanUnits, scanDict, h, scanFrom_next 0 (by rw [h]; exact Nat.one_pos), scanStep_first]
  exact ⟨rfl, rfl⟩

theorem scan_two {s : State} (hc : 0 < s.cfg.cap) (h : s.inLen = 2) :
    scanUnits s = [(litUnit (bufRead s.inb 0), 0), (litUnit (bufRead s.inb 1), 0)] ∧ scanDict s = seedDict s := by
  rw [scanUnits, scanDict, h, scanFrom_next 1 (by rw [h]; exact Nat.two_pos), scanStep_first,
    scanFrom_next 0 (by rw [h]; exact Nat.one_lt_two), scanStep_second hc]
  exact ⟨rfl, rfl⟩

theorem scan_three {s : State} (hc : 0 < s.cfg.cap) (h : 3 ≤ s.inLen) :
    ∃ l, scanUnits s = (litUnit (bufRead s.inb 0), 0) :: (litUnit (bufRead s.inb 1), 0) ::
      ((scanStep s { pos := 2, lit := 2, dict := seedDict s }).1, 1) :: l := by
  obtain ⟨k, hk⟩ : ∃ k, s.inLen = k + 3 := ⟨s.inLen - 3, by omega⟩
  have h0 : scanStart.pos < s.inLen := by rw [hk]; exact Nat.succ_pos _
  rw [scanUnits, hk, scanFrom_next (k + 2) h0, scanStep_first, scanFrom_next (k + 1) (by simp only; omega),
    scanStep_second hc, scanFrom_next k (by simp only; omega)]
  exact ⟨_, rfl⟩

/-- Settles O37: the first turns of the scan, and the scan done with `DICT` commands. -/
theorem pyrFirstTwoLiterals : Obligations.PyrFirstTwoLiterals := by
  constructor
  · intro s t hcfg hs hrun ht
    obtain ⟨-, h12, -, -, -, hc, -⟩ := config_bounds hcfg
    obtain ⟨hdict, hlog, -⟩ := pyrCompress_scan hcfg hrun
    have hrecorded : ∀ k p, (scanUnits s)[k]? = some p → k + 1 ≤ t.unitLen ∧ wordRead t.unit k = unitWord p.1 :=
      fun k p hp => ⟨by rw [hlog.len]; exact (List.getElem?_eq_some_iff.1 hp).1, hlog.words k p hp⟩
    have hfirst : 1 ≤ s.inLen → (scanUnits s)[0]? = some (litUnit (bufRead s.inb 0), 0) := fun h => by
      rcases show s.inLen = 1 ∨ s.inLen = 2 ∨ 3 ≤ s.inLen by omega with h | h | h
      · rw [(scan_one h).1]; rfl
      · rw [(scan_two hc h).1]; rfl
      · obtain ⟨l, hl⟩ := scan_three hc h
        rw [hl]; rfl
    have hsecond : 2 ≤ s.inLen → (scanUnits s)[1]? = some (litUnit (bufRead s.inb 1), 0) := fun h => by
      rcases show s.inLen = 2 ∨ 3 ≤ s.inLen by omega with h | h
      · rw [(scan_two hc h).1]; rfl
      · obtain ⟨l, hl⟩ := scan_three hc h
        rw [hl]; rfl
    refine ⟨fun h => ?_, fun h => ?_, fun h => ?_, fun h => ?_, fun h => ?_⟩
    · obtain ⟨hlen, hword⟩ := hrecorded 0 _ (hfirst h)
      exact ⟨hlen, hword.trans (unitWord_litUnit _)⟩
    · obtain ⟨hlen, hword⟩ := hrecorded 1 _ (hsecond h)
      exact ⟨hlen, hword.trans (unitWord_litUnit _)⟩
    · rw [hdict, (scan_one h).2]
      rfl
    · rw [hdict, (scan_two hc h).2]
      exact ⟨0, rfl⟩
    · obtain ⟨l, hl⟩ := scan_three hc h
      obtain ⟨hlen, hword⟩ := hrecorded 2 _ (by rw [hl]; rfl)
      refine ⟨hlen, ?_⟩
      simp only [hword, scanStep_third, seed_prefix_iff h]
      have hwidth : fieldWidth s.cfg 1 = 8 := if_pos h12
      rw [hwidth]
      split_ifs
      · rfl
      · exact unitWord_litUnit _
  · intro s t hcfg hbounds hs hrun
    obtain ⟨hbuf, -, -, -, -, hc, -⟩ := config_bounds hcfg
    have hin := boundsWf_inLen hbounds
    obtain ⟨hdict, hlog, -⟩ := pyrCompress_scan hcfg hrun
    obtain ⟨u, hu, hud⟩ := scanAll_eq hcfg (by omega) hs
    refine ⟨_, u, hu, hdict.trans hud.symm, ?_⟩
    rw [← unitsOf_eq]
    exact hlog.unitsOf hcfg fun p hp => ((scanUnits_counts hc).1 p hp).1

end Sys2Proof.Machine
end

section
/-! PROOFS. How `PYR.EXPAND` reads its stream (R210, R211): bytes, counts, headers and literals; streams of literal
groups (O39) and the ends of a stream (O40). -/

namespace Sys2Proof.Machine

/-! ### The bytes still to be read -/

/-- The input of the reader from its position on is `l`. -/
structure Unread (x : Expander) (l : List Byte) : Prop where
  bytes : slice x.s.inb x.ip l.length = l
  upto : x.ip + l.length = x.s.inLen

/-- The reader `k` bytes on. -/
def skip (k : Nat) (x : Expander) : Expander := { x with ip := x.ip + k }

theorem Unread.congr {x y : Expander} {l : List Byte} (h : Unread x l) (inb : y.s.inb = x.s.inb)
    (inLen : y.s.inLen = x.s.inLen) (ip : y.ip = x.ip) : Unread y l :=
  ⟨by rw [inb, ip]; exact h.bytes, by rw [inLen, ip]; exact h.upto⟩

theorem Unread.append {x : Expander} {l m : List Byte} (h : Unread x (l ++ m)) : Unread (skip l.length x) m := by
  obtain ⟨hbytes, hend⟩ := h
  rw [List.length_append] at hbytes hend
  rw [slice_append] at hbytes
  obtain ⟨-, hm⟩ := List.append_inj hbytes (slice_length _ _ _)
  exact ⟨hm, by rw [skip]; simp only; omega⟩

theorem Unread.lt {x : Expander} {v : Byte} {l : List Byte} (h : Unread x (v :: l)) : x.ip < x.s.inLen := by
  have := h.upto
  rw [List.length_cons] at this
  omega

theorem Unread.done {x : Expander} (h : Unread x []) : x.s.inLen ≤ x.ip := h.upto.ge

/-- `Next()` reads the first of them. -/
theorem Unread.next {x : Expander} {v : Byte} {l : List Byte} (h : Unread x (v :: l)) :
    nextByte x = .ok (v, skip 1 x) ∧ Unread (skip 1 x) l := by
  have hv := (List.cons.inj h.bytes).1
  refine ⟨?_, Unread.append (l := [v]) h⟩
  rw [nextByte, if_neg (by have := h.lt; omega), hv]
  rfl

theorem skip_skip (j k : Nat) (x : Expander) : skip k (skip j x) = skip (j + k) x := by
  rw [skip, skip, skip]
  simp only [Nat.add_assoc]

/-! ### Counts and headers (R102, R103) -/

theorem extensionBytes_small {e : Nat} (h : e < 255) : extensionBytes e = [BitVec.ofNat 8 e] := by
  rw [extensionBytes, Nat.div_eq_of_lt h, Nat.mod_eq_of_lt h]
  rfl

theorem extensionBytes_large (e : Nat) : extensionBytes (e + 255) = 0xFF#8 :: extensionBytes e := by
  rw [extensionBytes, Nat.add_div_right _ (by omega), Nat.add_mod_right, List.replicate_succ]
  rfl

/-- `ReadExt()` reads a count extension. -/
theorem readExt_reads (n : Nat) {x : Expander} {e : Nat} {l : List Byte} (h : Unread x (extensionBytes e ++ l))
    (hn : e / 255 < n) : readExt n x = .ok (e, skip (extensionBytes e).length x) := by
  induction n generalizing x e with
  | zero => omega
  | succ n ih =>
    rcases Nat.lt_or_ge e 255 with he | he
    · rw [extensionBytes_small he] at h ⊢
      obtain ⟨hnext, -⟩ := Unread.next h
      have hval : (BitVec.ofNat 8 e).toNat = e := by rw [BitVec.toNat_ofNat, Nat.mod_eq_of_lt (by omega)]
      have hne : BitVec.ofNat 8 e ≠ 0xFF#8 := fun hff => by
        rw [hff] at hval
        simp at hval
        omega
      rw [readExt, hnext, Res.bind_ok, if_neg hne, hval]
      rfl
    · obtain ⟨d, rfl⟩ : ∃ d, e = d + 255 := ⟨e - 255, by omega⟩
      rw [extensionBytes_large] at h ⊢
      obtain ⟨hnext, hrest⟩ := Unread.next h
      rw [readExt, hnext, Res.bind_ok, if_pos rfl, ih hrest (by omega), Res.bind_ok, List.length_cons, skip_skip,
        Nat.add_comm 1, Nat.add_comm d]

/-- The extension of a count whose place in the header holds `limit` at most. -/
def countBytes (c limit : Nat) : List Byte := if c < limit then [] else extensionBytes (c - limit)

theorem readCount_reads {x : Expander} {c limit : Nat} {l : List Byte} (h : Unread x (countBytes c limit ++ l)) :
    readCount (if c < limit then c else limit) limit x = .ok (c, skip (countBytes c limit).length x) := by
  unfold countBytes at h ⊢
  rw [readCount]
  by_cases hc : c < limit
  · simp only [if_pos hc, if_neg hc.ne]
    rfl
  · simp only [if_neg hc, if_true] at h ⊢
    have hlen := h.upto
    have hext : (extensionBytes (c - limit)).length = (c - limit) / 255 + 1 := by simp [extensionBytes]
    rw [List.length_append] at hlen
    rw [readExt_reads _ h (by omega), Res.bind_ok, Nat.add_sub_cancel' (Nat.not_lt.1 hc)]

theorem header0Bytes_eq (a b : Nat) : header0Bytes a b =
    BitVec.ofNat 8 ((if a < 15 then a else 15) + 16 * if b < 7 then b else 7) :: (countBytes a 15 ++ countBytes b 7) := rfl

/-- The fields of a Header0 byte. -/
theorem header0_fields {m n : Nat} (hm : m < 16) (hn : n < 8) :
    (BitVec.ofNat 8 (m + 16 * n)).getLsbD 7 = false ∧ (BitVec.ofNat 8 (m + 16 * n)).toNat % 16 = m ∧
      (BitVec.ofNat 8 (m + 16 * n)).toNat / 16 % 8 = n := by
  have hval : (BitVec.ofNat 8 (m + 16 * n)).toNat = m + 16 * n := by
    rw [BitVec.toNat_ofNat, Nat.mod_eq_of_lt (by omega)]
  refine ⟨?_, by rw [hval]; omega, by rw [hval]; omega⟩
  rw [BitVec.getLsbD, hval]
  exact Nat.testBit_lt_two_pow (by omega)

/-- A Header0 group: its counts are read, then its literals, then its tokens (R210). -/
theorem expandGroup_header0 {x : Expander} {a b : Nat} {l : List Byte} (h : Unread x (header0Bytes a b ++ l)) :
    expandGroup x = (literalSteps a (skip (header0Bytes a b).length x)).bind fun y => tokenSteps b y := by
  rw [header0Bytes_eq, List.cons_append, List.append_assoc] at h
  obtain ⟨hnext, hcounts⟩ := h.next
  obtain ⟨hbit, ha, hb⟩ := header0_fields (m := if a < 15 then a else 15) (n := if b < 7 then b else 7)
    (by split_ifs <;> omega) (by split_ifs <;> omega)
  rw [expandGroup, hnext, Res.bind_ok]
  simp only [hbit, ha, hb, Bool.false_eq_true, if_false]
  rw [readCount_reads hcounts, Res.bind_ok, readCount_reads hcounts.append, Res.bind_ok, skip_skip, skip_skip,
    header0Bytes_eq, List.length_cons, List.length_append, Nat.add_comm _ 1, Nat.add_assoc]

/-! ### Literals (R211) -/

@[simp] theorem appended_inb (l : List Byte) (s : State) : (appended l s).inb = s.inb := rfl
@[simp] theorem appended_inLen (l : List Byte) (s : State) : (appended l s).inLen = s.inLen := rfl
@[simp] theorem appended_dict (l : List Byte) (s : State) : (appended l s).dict = s.dict := rfl
@[simp] theorem appended_unit (l : List Byte) (s : State) : (appended l s).unit = s.unit := rfl
@[simp] theorem appended_unitLen (l : List Byte) (s : State) : (appended l s).unitLen = s.unitLen := rfl
@[simp] theorem appended_pyrT12 (l : List Byte) (s : State) : (appended l s).pyrT12 = s.pyrT12 := rfl
@[simp] theorem appended_pyrT16 (l : List Byte) (s : State) : (appended l s).pyrT16 = s.pyrT16 := rfl

/-- The reader after a literal step that reads `v`. -/
def afterLiteral (v : Byte) (x : Expander) : Expander where
  s := { recordUnit (litUnit v) (appended [v] (startUnit x.s).1) with
    dict := withRun x.s.cfg.cap (appended [v] x.s).outb x.s.outLen x.lit x.s.dict }
  ip := x.ip + 1
  lit := x.lit + 1
  heldNib := x.heldNib

theorem afterLiteral_s (v : Byte) (x : Expander) : (afterLiteral v x).s =
    { recordUnit (litUnit v) (appended [v] (startUnit x.s).1) with
      dict := withRun x.s.cfg.cap (appended [v] x.s).outb x.s.outLen x.lit x.s.dict } := rfl

theorem afterLiteral_lit (v : Byte) (x : Expander) : (afterLiteral v x).lit = x.lit + 1 := rfl

theorem withRun_dsel (cap : Nat) (b : ByteBuf) (pos lit : Nat) (d : Dict) : (withRun cap b pos lit d).dsel = d.dsel := by
  unfold withRun
  split_ifs
  · exact withString_dsel _ _ _ _ _
  · rfl

theorem literalStep_reads {x : Expander} {v : Byte} {l : List Byte} (h : Unread x (v :: l))
    (hsel : x.s.dict.dsel = .outSpace) (hlit : x.lit ≤ x.s.outLen) (hroom : x.s.outLen + 1 ≤ x.s.cfg.bufCap) :
    literalStep x = .ok (afterLiteral v x) := by
  have hstart : Unread { x with s := (startUnit x.s).1 } (v :: l) :=
    h.congr (startUnit_inb x.s) (startUnit_inLen x.s) rfl
  have hrecsel : (recordUnit (litUnit v) (appended [v] (startUnit x.s).1)).dict.dsel = .outSpace := by
    simpa using hsel
  have hout : (recordUnit (litUnit v) (appended [v] (startUnit x.s).1)).outLen = x.s.outLen + 1 := by simp
  rw [literalStep, hstart.next.1]
  simp only [Res.bind_ok, skip]
  rw [append_ok (by simpa using hroom), Res.bind_ok, insertRun_within (by rw [dataLen_outSpace hrecsel]; omega) (by omega),
    Res.bind_ok, dataBuf_outSpace hrecsel, hout]
  simp [afterLiteral, appended]

theorem Unread.afterLiteral {x : Expander} {v : Byte} {l : List Byte} (h : Unread x (v :: l)) :
    Unread (afterLiteral v x) l :=
  h.next.2.congr (by simp [Machine.afterLiteral, skip]) (by simp [Machine.afterLiteral, skip]) rfl

/-! ### The reader between two units -/

/-- The reader on a block of the parameters `cfg`: it has written `out` and recorded the units `l`. -/
structure ExpandAt (cfg : Config) (out : List Byte) (l : List (PyrUnit × Nat)) (x : Expander) : Prop where
  cfg : x.s.cfg = cfg
  dsel : x.s.dict.dsel = .outSpace
  lit : x.lit ≤ out.length
  out : outputBytes x.s = out
  log : UnitLog l x.s

/-- The reader at the start of `PYR.EXPAND` (R210). -/
def expandStart (s : State) : Expander := { s := pyrStart .outSpace s, ip := 0, lit := 0, heldNib := none }

theorem expandStart_at (s : State) : ExpandAt s.cfg [] [] (expandStart s) where
  cfg := rfl
  dsel := rfl
  lit := le_refl _
  out := rfl
  log := UnitLog.start _ s

theorem expandStart_unread {s : State} {l : List Byte} (h : inputBytes s = l) : Unread (expandStart s) l := by
  have hlen : l.length = s.inLen := by rw [← h]; exact slice_length _ _ _
  exact ⟨by rw [hlen]; exact h, by rw [hlen]; exact Nat.zero_add _⟩

section
variable {cfg : Config} {out : List Byte} {l : List (PyrUnit × Nat)} {x : Expander} (h : ExpandAt cfg out l x)
include h

theorem ExpandAt.outLen : x.s.outLen = out.length := by rw [← h.out, outputBytes_length]

/-- A literal (R211). -/
theorem ExpandAt.literal (hcfg : cfg.wf = true) {v : Byte} {m : List Byte} (hin : Unread x (v :: m))
    (hroom : out.length + 1 ≤ cfg.bufCap) :
    literalStep x = .ok (afterLiteral v x) ∧ Unread (afterLiteral v x) m ∧
      ExpandAt cfg (out ++ [v]) (l ++ [(litUnit v, x.s.dict.count)]) (afterLiteral v x) := by
  have hlen := h.outLen
  refine ⟨literalStep_reads hin h.dsel (hlen ▸ h.lit) (by rw [hlen, h.cfg]; exact hroom), hin.afterLiteral, ?_⟩
  have hs := afterLiteral_s v x
  generalize hd : withRun x.s.cfg.cap (appended [v] x.s).outb x.s.outLen x.lit x.s.dict = d at hs
  refine ⟨by rw [hs]; simpa using h.cfg, ?_, ?_, ?_, ?_⟩
  · rw [hs, ← h.dsel, ← hd]
    exact withRun_dsel _ _ _ _ _
  · rw [List.length_append, afterLiteral_lit]
    exact Nat.succ_le_succ h.lit
  · rw [hs, ← h.out, ← outputBytes_appended]
    simp [outputBytes]
  · refine h.log.record (by rw [h.cfg]; exact (config_bounds hcfg).2.2.2.1) _ ?_ ?_ ?_ ?_ ?_ <;> simp [hs]

end

/-! ### Streams of literal groups (O39) -/

/-- The reader has turned literals into `out`, and `m` is still to come. -/
def ReadsLiterals (cfg : Config) (out m : List Byte) (x : Expander) : Prop :=
  Unread x m ∧ ∃ l, ExpandAt cfg out l x ∧ l.map Prod.fst = out.map litUnit

theorem literalSteps_readsLiterals {cfg : Config} (hcfg : cfg.wf = true) {g out m : List Byte} {x : Expander}
    (h : ReadsLiterals cfg out (g ++ m) x) (hroom : (out ++ g).length ≤ cfg.bufCap) :
    ∃ y, literalSteps g.length x = .ok y ∧ ReadsLiterals cfg (out ++ g) m y := by
  induction g generalizing out x with
  | nil => exact ⟨x, rfl, by rwa [List.append_nil]⟩
  | cons v g ih =>
    obtain ⟨hin, l, hx, hl⟩ := h
    rw [List.length_append, List.length_cons] at hroom
    obtain ⟨hstep, hin', hx'⟩ := hx.literal hcfg hin (by omega)
    rw [List.append_cons, List.length_cons, literalSteps, hstep, Res.bind_ok]
    exact ih ⟨hin', _, hx', by simp [hl]⟩ (by simpa using (by omega))

/-- The stream of a literal group: its length, then its bytes. -/
theorem literalGroup_eq {g : List Byte} (hg : g.length ≤ 14) (m : List Byte) :
    BitVec.ofNat 8 g.length :: g ++ m = header0Bytes g.length 0 ++ (g ++ m) := by
  have h15 : g.length < 15 := by omega
  rw [header0Bytes_eq, countBytes, countBytes, if_pos h15, if_pos h15, if_pos (by omega), if_pos (by omega)]
  rfl

theorem expandGroup_readsLiterals {cfg : Config} (hcfg : cfg.wf = true) {g out m : List Byte} {x : Expander}
    (hg : g.length ≤ 14) (h : ReadsLiterals cfg out (BitVec.ofNat 8 g.length :: g ++ m) x)
    (hroom : (out ++ g).length ≤ cfg.bufCap) :
    ∃ y, expandGroup x = .ok y ∧ ReadsLiterals cfg (out ++ g) m y := by
  obtain ⟨hin, l, hx, hl⟩ := h
  rw [literalGroup_eq hg] at hin
  obtain ⟨y, hy, hread⟩ := literalSteps_readsLiterals hcfg (x := skip (header0Bytes g.length 0).length x)
    ⟨hin.append, l, ⟨hx.cfg, hx.dsel, hx.lit, hx.out, hx.log⟩, hl⟩ hroom
  refine ⟨y, ?_, hread⟩
  rw [expandGroup_header0 hin, hy]
  rfl

theorem expandLoop_end {x : Expander} (h : Unread x []) (n : Nat) : expandLoop n x = .ok x := by
  cases n with
  | zero => rfl
  | succ n => rw [expandLoop, if_pos h.done]

theorem expandLoop_next {x : Expander} {v : Byte} {l : List Byte} (h : Unread x (v :: l)) (n : Nat) :
    expandLoop (n + 1) x = (expandGroup x).bind fun y => expandLoop n y := by
  rw [expandLoop, if_neg (by have := h.lt; omega)]

theorem expandLoop_readsLiterals {cfg : Config} (hcfg : cfg.wf = true) (gs : List (List Byte)) {out : List Byte}
    {x : Expander} (hgs : ∀ g ∈ gs, g.length ≤ 14)
    (h : ReadsLiterals cfg out (gs.map fun g => BitVec.ofNat 8 g.length :: g).flatten x)
    (hroom : (out ++ gs.flatten).length ≤ cfg.bufCap) {n : Nat} (hn : gs.length ≤ n) :
    ∃ y, expandLoop n x = .ok y ∧ ReadsLiterals cfg (out ++ gs.flatten) [] y := by
  induction gs generalizing out x n with
  | nil => exact ⟨x, expandLoop_end h.1 n, by simpa using h⟩
  | cons g gs ih =>
    obtain ⟨n, rfl⟩ : ∃ k, n = k + 1 := ⟨n - 1, by rw [List.length_cons] at hn; omega⟩
    rw [List.flatten_cons, ← List.append_assoc] at hroom ⊢
    rw [List.map_cons, List.flatten_cons] at h
    obtain ⟨z, hz, hread⟩ := expandGroup_readsLiterals hcfg (hgs g List.mem_cons_self) h
      (by rw [List.length_append] at hroom; omega)
    obtain ⟨y, hy, hend⟩ := ih (fun g' hg' => hgs g' (List.mem_cons_of_mem g hg')) hread hroom (Nat.le_of_succ_le_succ hn)
    refine ⟨y, ?_, hend⟩
    rw [expandLoop_next h.1, hz, Res.bind_ok, hy]

/-! ### `PYR.EXPAND` (R210, R216) -/

/-- The command completes when the loop does, and changes what the loop changes. -/
theorem pyrExpand_completes {s : State} (hc : 0 < s.cfg.cap) {x : Expander}
    (h : expandLoop s.inLen (expandStart s) = .ok x) :
    exec .pyrExpand s = .next (setRes x.s.outLen x.s.unitLen x.s) ∧ Grows (pyrStart .outSpace s) x.s := by
  have hok : ExpOk (expandStart s) := ⟨rfl, empty_wf _ _, hc, Nat.zero_le _, Nat.zero_le _, Nat.zero_le _⟩
  have hgrows := expandLoop_expands s.inLen hok
  rw [h] at hgrows
  refine ⟨?_, hgrows.2.1.grows⟩
  have hdef : exec .pyrExpand s = finish (encode .pyrExpand)
      ((expandLoop s.inLen (expandStart s)).bind fun x => .ok (setRes x.s.outLen x.s.unitLen x.s)) := rfl
  rw [hdef, h]
  rfl

/-- It raises what the loop raises. -/
theorem pyrExpand_raises {s t : State} {e : ErrKind} {i : Nat}
    (h : expandLoop s.inLen (expandStart s) = .raised e i t) :
    exec .pyrExpand s = .next (raise e i 0x31000000 t) := by
  have hdef : exec .pyrExpand s = finish (encode .pyrExpand)
      ((expandLoop s.inLen (expandStart s)).bind fun x => .ok (setRes x.s.outLen x.s.unitLen x.s)) := rfl
  rw [hdef, h]
  rfl

theorem length_le_stream (gs : List (List Byte)) :
    gs.length ≤ (gs.map fun g => BitVec.ofNat 8 g.length :: g).flatten.length := by
  induction gs with
  | nil => exact le_refl _
  | cons g gs ih =>
    rw [List.map_cons, List.flatten_cons, List.length_append, List.length_cons, List.length_cons]
    omega

/-- Settles O39: each group is a Header0 group without tokens. -/
theorem pyrExpandLiteralGroups : Obligations.PyrExpandLiteralGroups := by
  intro s gs hcfg hgs hin hroom
  have hinLen : gs.length ≤ s.inLen := by
    rw [← slice_length s.inb 0 s.inLen, ← inputBytes, hin]
    exact length_le_stream gs
  obtain ⟨x, hx, -, l, hat, hl⟩ := expandLoop_readsLiterals hcfg gs hgs
    ⟨expandStart_unread hin, [], expandStart_at s, rfl⟩ hroom hinLen
  rw [List.nil_append] at hat hl
  obtain ⟨hrun, hgrows⟩ := pyrExpand_completes (cap_pos_of_wf hcfg) hx
  have hlen : l.length = gs.flatten.length := by rw [← List.length_map Prod.fst, hl, List.length_map]
  have hunits : x.s.unitLen = x.s.outLen := by rw [hat.log.len, hat.outLen, hlen]
  refine ⟨_, hrun, hat.out, hat.outLen, rfl, rfl, hunits, fun k hk => ?_, hat.dsel, hgrows.outAbove, hgrows.unitAbove, ?_⟩
  · rw [setRes_unitLen, hat.log.len] at hk
    have hbyte : gs.flatten[k]? = some (bufRead x.s.outb k) := by
      rw [← hat.out, outputBytes, slice_getElem?, if_pos (by rw [hat.outLen]; omega), Nat.zero_add]
    have hunit : l[k].1 = litUnit (bufRead x.s.outb k) := by
      have hfst : (l.map Prod.fst)[k]? = some (litUnit (bufRead x.s.outb k)) := by
        rw [hl, List.getElem?_map, hbyte, Option.map_some]
      rw [List.getElem?_map, List.getElem?_eq_getElem hk] at hfst
      exact Option.some.inj hfst
    rw [setRes_unit, setRes_outb, hat.log.words k _ (List.getElem?_eq_getElem hk), hunit, unitWord_litUnit]
  · rw [setRes, hgrows.frame]
    rfl

/-! ### The ends of a stream (O40) -/

/-- At the start with some input, the loop reads a header byte. -/
theorem expandLoop_start {s : State} {n : Nat} (h : s.inLen = n + 1) :
    expandLoop s.inLen (expandStart s) = (if (bufRead s.inb 0).getLsbD 7 then
        maskUnits (byteBits (bufRead s.inb 0) 7) (skip 1 (expandStart s))
      else (readCount ((bufRead s.inb 0).toNat % 16) 15 (skip 1 (expandStart s))).bind fun a =>
        (readCount ((bufRead s.inb 0).toNat / 16 % 8) 7 a.2).bind fun b =>
          (literalSteps a.1 b.2).bind fun x => tokenSteps b.1 x).bind fun y => expandLoop n y := by
  have hlt : ¬ (expandStart s).s.inLen ≤ (expandStart s).ip := by
    show ¬ s.inLen ≤ 0
    omega
  rw [h, expandLoop, if_neg hlt, expandGroup, nextByte, if_neg hlt]
  rfl

theorem nextByte_end {x : Expander} (h : x.s.inLen ≤ x.ip) : nextByte x = .raised .unexpectedEnd x.ip x.s := by
  rw [nextByte, if_pos h]

theorem readCount_end {x : Expander} (h : x.s.inLen ≤ x.ip) (direct limit : Nat) :
    readCount direct limit x = .ok (direct, x) ∨ readCount direct limit x = .raised .unexpectedEnd x.ip x.s := by
  rw [readCount]
  split_ifs
  · rw [readExt, nextByte_end h]
    exact .inr rfl
  · exact .inl rfl

theorem literalStep_end {x : Expander} (h : x.s.inLen ≤ x.ip) :
    literalStep x = .raised .unexpectedEnd x.ip (startUnit x.s).1 := by
  rw [literalStep, nextByte_end (by simpa using h)]
  rfl

/-- The counts and the literals of a Header0 group that has literals and no byte after its header. -/
theorem header0_end {x : Expander} (h : x.s.inLen ≤ x.ip) {a : Nat} (ha : a ≠ 0) (b : Nat)
    (k : Nat × Expander → Nat × Expander → Expander → Res Expander) :
    ∃ t, ((readCount a 15 x).bind fun p => (readCount b 7 p.2).bind fun q => (literalSteps p.1 q.2).bind (k p q)) =
      .raised .unexpectedEnd x.ip t ∧ t.outLen = x.s.outLen := by
  obtain ⟨a, rfl⟩ : ∃ c, a = c + 1 := ⟨a - 1, by omega⟩
  rcases readCount_end h (a + 1) 15 with ha | ha <;> rw [ha]
  · rw [Res.bind_ok]
    rcases readCount_end h b 7 with hb | hb <;> rw [hb]
    · rw [Res.bind_ok, literalSteps, literalStep_end h]
      exact ⟨_, rfl, startUnit_outLen x.s⟩
    · exact ⟨_, rfl, rfl⟩
  · exact ⟨_, rfl, rfl⟩

/-- A token before any index is assigned (R216). -/
theorem tokenStep_emptyDict {x : Expander} (hdict : x.s.dict = Dict.empty .outSpace) (hin : x.ip < x.s.inLen) :
    tokenStep x = .raised .data x.ip (startUnit x.s).1 := by
  have hwidth : (startUnit x.s).2 = 8 := by
    rw [startUnit_width, widthNow, hdict]
    exact if_pos (Nat.zero_le _)
  have hread : readToken 8 { x with s := (startUnit x.s).1 } =
      .ok ((bufRead (startUnit x.s).1.inb x.ip).toNat,
        { s := (startUnit x.s).1, ip := x.ip + 1, lit := x.lit, heldNib := none }) := by
    rw [readToken, if_neg (by decide), if_pos rfl, nextByte, if_neg (by simpa using hin)]
    rfl
  have hnone : ∀ t, lookupToken t (startUnit x.s).1.dict = none := fun t => by
    rw [startUnit_dict, hdict]
    rfl
  rw [tokenStep, ← Prod.mk.eta (p := startUnit x.s)]
  simp only [hwidth, hread, Res.bind_ok, hnone]

/-- Settles O40: the first group ends the command, or the loop ends after its header. -/
theorem pyrExpandStreamEnds : Obligations.PyrExpandStreamEnds := by
  intro s h hcfg
  refine ⟨fun hlen hh htok => ?_, fun hlen hh hbit hlits => ?_, fun hlen hh hbit => ?_⟩
  · obtain ⟨n, hn⟩ : ∃ n, s.inLen = n + 1 := ⟨s.inLen - 1, by omega⟩
    have h7 : h.getLsbD 7 = true := by have := congrArg (·.getLsbD 1) htok; simpa using this
    have h6 : h.getLsbD 6 = true := by have := congrArg (·.getLsbD 0) htok; simpa using this
    have hlt : (skip 1 (expandStart s)).ip < (skip 1 (expandStart s)).s.inLen := hlen
    have hrun := expandLoop_start hn
    rw [hh, if_pos h7, byteBits, maskUnits, if_neg (Nat.not_le.2 hlt), h6, if_pos rfl,
      tokenStep_emptyDict rfl hlt] at hrun
    refine ⟨_, pyrExpand_raises hrun, fun _ => ?_, startUnit_outLen _⟩
    simp [isClassD, errorCode, toWord, skip, expandStart]
  · have hrun := expandLoop_start hlen
    have ha : h.toNat % 16 ≠ 0 := fun h0 => hlits (BitVec.eq_of_toNat_eq (by simpa using h0))
    obtain ⟨t, ht, hout⟩ := header0_end (x := skip 1 (expandStart s)) hlen.le ha (h.toNat / 16 % 8)
      fun _ q y => tokenSteps q.1 y
    rw [hh, if_neg (by rw [hbit]; decide), ht] at hrun
    refine ⟨_, pyrExpand_raises hrun, fun _ => ?_, hout⟩
    simp [isClassD, errorCode, toWord, skip, expandStart]
  · have hend : (skip 1 (expandStart s)).s.inLen ≤ (skip 1 (expandStart s)).ip := hlen.le
    have hrun := expandLoop_start hlen
    rw [hh, if_pos hbit, byteBits, maskUnits, if_pos hend] at hrun
    obtain ⟨hnext, -⟩ := pyrExpand_completes (cap_pos_of_wf hcfg) hrun
    exact ⟨_, hnext, ⟨rfl, rfl, rfl, rfl, rfl⟩, rfl, rfl, rfl⟩

end Sys2Proof.Machine
end

section
/-! PROOFS. Two dictionaries that have the same entries in the same order of priority stay so under the same touches and
inserts (R163 to R171, R187). The two codecs' dictionaries are such a pair (R215). -/

namespace Sys2Proof.Machine

/-! ### Entries in the order of their priorities -/

/-- The string has an entry, of some index and priority. -/
def hasEntry (d : Dict) (u : List Byte) : Prop := ∃ i q, (i, u, q) ∈ flat d

/-- Both strings have entries, and the first was touched before the second. -/
def older (d : Dict) (u v : List Byte) : Prop := ∃ i p j q, (i, u, p) ∈ flat d ∧ (j, v, q) ∈ flat d ∧ p < q

theorem older.left {d : Dict} {u v : List Byte} (h : older d u v) : hasEntry d u := by
  obtain ⟨i, p, j, q, hu, -⟩ := h
  exact ⟨i, p, hu⟩

theorem older.right {d : Dict} {u v : List Byte} (h : older d u v) : hasEntry d v := by
  obtain ⟨i, p, j, q, -, hv, -⟩ := h
  exact ⟨j, q, hv⟩

/-- A string has one entry at most. -/
theorem entry_unique {d : Dict} (hd : trieWf d.roots = true) {i j p q : Nat} {u : List Byte} (h : (i, u, p) ∈ flat d)
    (g : (j, u, q) ∈ flat d) : i = j ∧ p = q := by
  rw [mem_flat hd] at h g
  rw [h] at g
  cases g
  exact ⟨rfl, rfl⟩

theorem older_iff_lt {d : Dict} (hd : trieWf d.roots = true) {i j p q : Nat} {u v : List Byte} (hu : (i, u, p) ∈ flat d)
    (hv : (j, v, q) ∈ flat d) : older d u v ↔ p < q := by
  refine ⟨?_, fun h => ⟨i, p, j, q, hu, hv, h⟩⟩
  rintro ⟨i', p', j', q', hu', hv', h⟩
  rwa [(entry_unique hd hu hu').2, (entry_unique hd hv hv').2]

theorem sameEntry.hasEntry_iff {c d : Dict} {u : List Byte} (h : sameEntry c d u) : hasEntry d u ↔ hasEntry c u :=
  exists_congr fun i => exists_congr fun q => h i q

theorem sameIndex.hasEntry_iff {c d : Dict} {u : List Byte} (h : sameIndex c d u) : hasEntry d u ↔ hasEntry c u :=
  exists_congr h

theorem sameEntry.older_iff {c d : Dict} {u v : List Byte} (hu : sameEntry c d u) (hv : sameEntry c d v) :
    older d u v ↔ older c u v := by
  simp only [older, hu _ _, hv _ _]

/-- The order in `d` is that of `c` after the prefixes of a string were touched, and maybe an entry for it made: they
are the youngest, the longer the younger (R163, R187). -/
def TouchedOver (c d : Dict) (str : List Byte) : Prop :=
  ∀ u v, older d u v ↔ hasEntry d u ∧ hasEntry d v ∧
    if v <+: str then u <+: str → u <+: v ∧ u ≠ v else ¬ u <+: str ∧ older c u v

theorem touchedFrom.over {c d : Dict} {str : List Byte} {p : Nat} (hd : trieWf d.roots = true)
    (hlow : ∀ e ∈ flat c, e.2.2 < p) (hkept : ∀ u, ¬ u <+: str → sameEntry c d u) (htouched : touchedFrom p str d) :
    TouchedOver c d str := by
  intro u v
  obtain ⟨hfresh, horder⟩ := htouched
  constructor
  · intro h
    refine ⟨h.left, h.right, ?_⟩
    obtain ⟨i, q, j, r, hu, hv, hlt⟩ := h
    split_ifs with hvs
    · intro hus
      have hne : u ≠ v := by
        rintro rfl
        have := (entry_unique hd hu hv).2
        omega
      refine ⟨(List.prefix_or_prefix_of_prefix hus hvs).resolve_right fun hvu => ?_, hne⟩
      have := horder _ _ _ _ _ _ hv hu hvu hus hne.symm
      omega
    · have hvc := (hkept v hvs j r).1 hv
      have hus : ¬ u <+: str := fun hus => by
        have := hfresh _ _ _ hu hus
        have := hlow _ hvc
        simp only at this
        omega
      exact ⟨hus, i, q, j, r, (hkept u hus i q).1 hu, hvc, hlt⟩
  · rintro ⟨⟨i, q, hu⟩, ⟨j, r, hv⟩, h⟩
    refine (older_iff_lt hd hu hv).2 ?_
    split_ifs at h with hvs
    · by_cases hus : u <+: str
      · obtain ⟨huv, hne⟩ := h hus
        exact horder _ _ _ _ _ _ hu hv huv hvs hne
      · exact lt_of_lt_of_le (hlow _ ((hkept u hus i q).1 hu)) (hfresh _ _ _ hv hvs)
    · obtain ⟨hus, h⟩ := h
      rwa [← older_iff_lt hd hu hv, (hkept u hus).older_iff (hkept v hvs)]

/-! ### Alike dictionaries -/

/-- The same strings have entries, with the same indices and in the same order of priority. -/
structure Alike (d e : Dict) : Prop where
  count : e.count = d.count
  index : ∀ u, sameIndex d e u
  order : ∀ u v, older e u v ↔ older d u v

theorem Alike.refl (d : Dict) : Alike d d := ⟨rfl, fun _ _ => Iff.rfl, fun _ _ => Iff.rfl⟩

theorem Alike.symm {d e : Dict} (h : Alike d e) : Alike e d :=
  ⟨h.count.symm, fun u i => (h.index u i).symm, fun u v => (h.order u v).symm⟩

theorem Alike.trans {c d e : Dict} (h : Alike c d) (g : Alike d e) : Alike c e :=
  ⟨g.count.trans h.count, fun u => (h.index u).trans (g.index u), fun u v => (g.order u v).trans (h.order u v)⟩

theorem alike_empty (sel sel' : DataSel) : Alike (Dict.empty sel) (Dict.empty sel') :=
  ⟨rfl, fun _ _ => Iff.rfl, fun _ _ => Iff.rfl⟩

theorem Alike.hasEntry_iff {d e : Dict} (h : Alike d e) (u : List Byte) : hasEntry e u ↔ hasEntry d u :=
  (h.index u).hasEntry_iff

theorem DictOk.prios_lt {cap : Nat} {sel : DataSel} {d : Dict} (h : DictOk cap sel d) : ∀ e ∈ flat d, e.2.2 < d.prio := by
  obtain ⟨htrie, -, -, -, -, -, -, hlow⟩ := (dictWf_iff cap d).1 h.wf
  rintro ⟨i, u, q⟩ he
  exact hlow q (mem_prios htrie ((mem_flat htrie _ _ _).1 he))

/-- Where the same was touched over the same order, the order is the same. -/
theorem Alike.of_touched {c d c' d' : Dict} {str str' : List Byte} (h : ∀ u v, older d u v ↔ older c u v)
    (hcount : d'.count = c'.count) (hindex : ∀ u, sameIndex c' d' u)
    (hpre : ∀ u, hasEntry c' u → (u <+: str' ↔ u <+: str)) (hc : TouchedOver c c' str) (hd : TouchedOver d d' str') :
    Alike c' d' where
  count := hcount
  index := hindex
  order := fun u v => by
    rw [hc, hd, (hindex u).hasEntry_iff, (hindex v).hasEntry_iff]
    refine and_congr_right fun hu => and_congr_right fun hv => ?_
    simp only [hpre u hu, hpre v hv, h]

section
variable {cap : Nat} {sel sel' : DataSel} {d e : Dict} (hd : DictOk cap sel d) (he : DictOk cap sel' e) (h : Alike d e)

include hd in
theorem touchedOver_dictTouch (str : List Byte) : TouchedOver d (dictTouch str d) str := by
  obtain ⟨-, hkept, htouched⟩ := dictTouch_flat hd.trie str
  exact htouched.over (hd.touch str).trie hd.prios_lt hkept

include hd in
/-- Touching a string that begins with no entry changes no entry. -/
theorem alike_dictTouch_none {str : List Byte} (hnone : ∀ u, hasEntry d u → ¬ u <+: str) : Alike d (dictTouch str d) := by
  obtain ⟨hindex, hkept, -⟩ := dictTouch_flat hd.trie str
  have hsame : ∀ u, hasEntry d u → sameEntry d (dictTouch str d) u := fun u hu => hkept u (hnone u hu)
  refine ⟨rfl, hindex, fun u v => ⟨fun g => ?_, fun g => ?_⟩⟩
  · have hu := (hindex u).hasEntry_iff.1 g.left
    have hv := (hindex v).hasEntry_iff.1 g.right
    exact ((hsame u hu).older_iff (hsame v hv)).1 g
  · exact ((hsame u g.left).older_iff (hsame v g.right)).2 g

include hd he h

/-- Touching strings with the same entries as prefixes. -/
theorem Alike.touch {str str' : List Byte} (hpre : ∀ u, hasEntry d u → (u <+: str' ↔ u <+: str)) :
    Alike (dictTouch str d) (dictTouch str' e) := by
  obtain ⟨hdindex, -⟩ := dictTouch_flat hd.trie str
  obtain ⟨heindex, -⟩ := dictTouch_flat he.trie str'
  have hindex : ∀ u, sameIndex (dictTouch str d) (dictTouch str' e) u := fun u i =>
    (heindex u i).trans ((h.index u i).trans (hdindex u i).symm)
  exact Alike.of_touched h.order h.count hindex (fun u hu => hpre u ((hdindex u).hasEntry_iff.1 hu))
    (touchedOver_dictTouch hd str) (touchedOver_dictTouch he str')

end

/-! ### Evicting and allocating alike (R168, R181 to R184) -/

/-- A string with an entry that no other entry's string extends (R187). -/
def hasLeaf (d : Dict) (v : List Byte) : Prop := hasEntry d v ∧ ∀ z, hasEntry d z → v <+: z → z = v

/-- The victim told by the order alone. -/
theorem victimEntry_iff {d : Dict} (hd : trieWf d.roots = true) (f : Nat) (v : List Byte) : victimEntry d f v ↔
    ∃ w, hasEntry d w ∧ (∀ z, ¬ older d z w) ∧ w <+: v ∧ (∃ r, (f, v, r) ∈ flat d) ∧ hasLeaf d v ∧
      ∀ v', w <+: v' → hasLeaf d v' → ¬ older d v' v := by
  have hleaf : ∀ f v r, leafEntry d f v r ↔ (f, v, r) ∈ flat d ∧ hasLeaf d v := by
    intro f v r
    refine and_congr_right fun hv => ⟨fun h => ⟨⟨f, r, hv⟩, ?_⟩, fun h e he => h.2 e.2.1 ⟨e.1, e.2.2, he⟩⟩
    rintro z ⟨i, q, hz⟩
    exact h _ hz
  constructor
  · rintro ⟨w, r, ⟨m, q, hw, hlow⟩, hwv, hv, hmin⟩
    obtain ⟨hv, hvleaf⟩ := (hleaf f v r).1 hv
    refine ⟨w, ⟨m, q, hw⟩, ?_, hwv, ⟨r, hv⟩, hvleaf, ?_⟩
    · rintro z hz
      obtain ⟨i, p, hzp⟩ := hz.left
      have := hlow _ hzp
      rw [older_iff_lt hd hzp hw] at hz
      simp only at this
      omega
    · rintro v' hwv' hv' hz
      obtain ⟨i, p, hvp⟩ := hz.left
      have := hmin i v' p hwv' ((hleaf _ _ _).2 ⟨hvp, hv'⟩)
      rw [older_iff_lt hd hvp hv] at hz
      omega
  · rintro ⟨w, ⟨m, q, hw⟩, hlow, hwv, ⟨r, hv⟩, hvleaf, hmin⟩
    refine ⟨w, r, ⟨m, q, hw, ?_⟩, hwv, (hleaf _ _ _).2 ⟨hv, hvleaf⟩, ?_⟩
    · rintro ⟨i, z, p⟩ hz
      exact Nat.not_lt.1 fun hlt => hlow z ((older_iff_lt hd hz hw).2 hlt)
    · intro f' v' r' hwv' hv'
      obtain ⟨hv', hleaf'⟩ := (hleaf _ _ _).1 hv'
      exact Nat.not_lt.1 fun hlt => hmin v' hwv' hleaf' ((older_iff_lt hd hv' hv).2 hlt)

theorem insertNew_touchedOver {cap : Nat} {sel : DataSel} {d : Dict} (hd : DictOk cap sel d) (hc : 0 < cap)
    {str : List Byte} (hs : str ≠ []) (hnew : ¬ hasEntry d str) (off : Nat) {i q : Nat}
    (ha : Allocates (newIndex cap d).1 (insertNew cap off str d).1 str i q) :
    TouchedOver (newIndex cap d).1 (insertNew cap off str d).1 str := by
  obtain ⟨htrie, -, -, -, -, -, -, -, hlow, -⟩ := newIndex_spec hd.wf hc
  have hnone : entryAt d.roots str = none :=
    (entryAt_eq_none_iff hd.trie str).2 fun x hx hxs => hnew ⟨x.1, x.2.2, by rw [← hxs]; exact hx⟩
  have hwf := ((dictWf_iff _ _).1 (insertNew_wf hd.wf hc off hs hnone).1).1
  refine ha.touched.over hwf ?_ ha.kept
  rintro ⟨j, u, p⟩ hp
  exact hlow p (mem_prios htrie ((mem_flat htrie _ _ _).1 hp))

section
variable {cap : Nat} {sel sel' : DataSel} {d e : Dict} (hd : DictOk cap sel d) (he : DictOk cap sel' e) (h : Alike d e)
include hd he h

theorem Alike.victimEntry {f : Nat} {v : List Byte} (hv : Machine.victimEntry d f v) : Machine.victimEntry e f v := by
  rw [victimEntry_iff hd.trie] at hv
  rw [victimEntry_iff he.trie]
  simp only [hasLeaf, h.hasEntry_iff, h.order, h.index v f]
  exact hv

/-- The same index is allocated, after the same eviction. -/
theorem Alike.newIndex (hc : 0 < cap) : (Machine.newIndex cap e).2 = (Machine.newIndex cap d).2 ∧
    Alike (Machine.newIndex cap d).1 (Machine.newIndex cap e).1 := by
  obtain ⟨-, -, -, -, -, -, -, -, -, -, -, hdcount, -⟩ := newIndex_spec hd.wf hc
  obtain ⟨-, -, -, -, -, -, -, -, -, -, -, hecount, -⟩ := newIndex_spec he.wf hc
  have hcount : (Machine.newIndex cap e).1.count = (Machine.newIndex cap d).1.count := by rw [hdcount, hecount, h.count]
  rcases Nat.lt_or_ge d.count cap with hroom | hfull
  · have hd' := newIndex_room hd.wf hroom
    have he' := newIndex_room he.wf (h.count.trans_lt hroom)
    rw [hd', he', hd.noFree, he.noFree]
    exact ⟨h.count, h.count, h.index, h.order⟩
  · have hfull := le_antisymm hd.count_le hfull
    obtain ⟨f, v, -, hv, -⟩ := freeIndex_flat hd.wf (hfull ▸ hc)
    obtain ⟨hd2, hdflat⟩ := newIndex_full hd.wf hc hfull hv
    obtain ⟨he2, heflat⟩ := newIndex_full he.wf hc (h.count.trans hfull) (h.victimEntry hd he hv)
    refine ⟨he2.trans hd2.symm, hcount, fun u i => ?_, fun u w => ?_⟩
    · simp only [hdflat, heflat, exists_and_right, h.index u i]
    · have hwithout : ∀ {c c' : Dict}, (∀ x, x ∈ flat c' ↔ x ∈ flat c ∧ x.2.1 ≠ v) →
          (older c' u w ↔ older c u w ∧ u ≠ v ∧ w ≠ v) := fun hflat => by
        simp only [older, hflat]
        grind
      rw [hwithout hdflat, hwithout heflat, h.order]

/-- An insert of a string without an entry. -/
theorem Alike.insertNew (hc : 0 < cap) {str : List Byte} (hs : str ≠ []) (hnew : ¬ hasEntry d str) (off off' : Nat) :
    Alike (Machine.insertNew cap off str d).1 (Machine.insertNew cap off' str e).1 := by
  obtain ⟨hidx, hnext⟩ := h.newIndex hd he hc
  obtain ⟨q, hda⟩ := insertNew_allocates hd.wf hc hs off
  obtain ⟨r, hea⟩ := insertNew_allocates he.wf hc hs off'
  have hnew' : ¬ hasEntry e str := fun hn => hnew ((h.hasEntry_iff str).1 hn)
  refine Alike.of_touched hnext.order (congrArg (· + 1) hnext.count) (fun u => ?_) (fun u _ => Iff.rfl)
    (insertNew_touchedOver hd hc hs hnew off hda) (insertNew_touchedOver he hc hs hnew' off' hea)
  by_cases hu : u = str
  · have hindex : ∀ {c c' : Dict} {i p : Nat}, Allocates c c' str i p → ∀ j, (∃ p, (j, str, p) ∈ flat c') ↔ j = i :=
      fun ha j => ⟨fun ⟨p, hp⟩ => by cases ha.unique _ hp rfl; rfl, fun hj => ⟨_, hj ▸ ha.entry⟩⟩
    intro j
    rw [hu, hindex hda, hindex hea, hidx]
  · exact fun j => (hea.index u hu j).trans ((hnext.index u j).trans (hda.index u hu j).symm)

/-- An insert of the same string (R165). -/
theorem Alike.insert (hc : 0 < cap) {str : List Byte} (hs : str ≠ []) (off off' : Nat) :
    Alike (dictInsert cap off str d).1 (dictInsert cap off' str e).1 := by
  have hentry : ∀ {sel : DataSel} {c : Dict}, DictOk cap sel c →
      (hasEntry c str ↔ ∃ a, entryAt c.roots str = some a) := fun {_ c} hok =>
    ⟨fun ⟨i, q, hq⟩ => ⟨_, (mem_flat hok.trie _ _ _).1 hq⟩, fun ⟨a, ha⟩ => ⟨a.1, a.2, (mem_flat hok.trie _ _ _).2 ha⟩⟩
  rw [dictInsert_eq hd.trie off hs, dictInsert_eq he.trie off' hs]
  by_cases hstr : hasEntry d str
  · obtain ⟨a, ha⟩ := (hentry hd).1 hstr
    obtain ⟨b, hb⟩ := (hentry he).1 ((h.hasEntry_iff str).2 hstr)
    rw [ha, hb]
    exact h.touch hd he fun _ _ => Iff.rfl
  · have ha : entryAt d.roots str = none :=
      Option.eq_none_iff_forall_ne_some.2 fun a ha => hstr ((hentry hd).2 ⟨a, ha⟩)
    have hb : entryAt e.roots str = none :=
      Option.eq_none_iff_forall_ne_some.2 fun b hb => hstr ((h.hasEntry_iff str).1 ((hentry he).2 ⟨b, hb⟩))
    rw [ha, hb]
    exact h.insertNew hd he hc hs hstr off off'

/-! ### The inserts of the two codecs (R202, R211, R212) -/

theorem Alike.withString (hc : 0 < cap) {b b' : ByteBuf} {off len : Nat} (hlen : len ≠ 0)
    (hb : slice b' off len = slice b off len) :
    Alike (Machine.withString cap b off len d) (Machine.withString cap b' off len e) := by
  unfold Machine.withString
  rw [hb]
  exact h.insert hd he hc (slice_ne_nil b off hlen) off off

/-- The buffers show the same bytes up to `n`. -/
theorem Alike.withRun (hc : 0 < cap) {b b' : ByteBuf} {pos lit n : Nat} (hb : ∀ a, a < n → bufRead b' a = bufRead b a)
    (hn : pos < n) (hlit : lit ≤ pos) : Alike (Machine.withRun cap b pos lit d) (Machine.withRun cap b' pos lit e) := by
  unfold Machine.withRun
  split_ifs
  · exact h.withString hd he hc (Nat.succ_ne_zero lit) (slice_congr fun a _ ha => hb a (by omega))
  · exact h

end

theorem Alike.withSuffixes {cap : Nat} {sel sel' : DataSel} {d e : Dict} (hd : DictOk cap sel d) (he : DictOk cap sel' e)
    (h : Alike d e) (hc : 0 < cap) {b b' : ByteBuf} {pos len n : Nat} (hb : ∀ a, a < n → bufRead b' a = bufRead b a)
    (hn : pos + len ≤ n) (hlen : len ≠ 0) (k m : Nat) (hk : k + m ≤ pos + 1) :
    Alike (Machine.withSuffixes cap b pos len k m d) (Machine.withSuffixes cap b' pos len k m e) := by
  induction m generalizing k d e with
  | zero => exact h
  | succ m ih =>
    have hlen' : len + k ≠ 0 := by omega
    have hslice : slice b' (pos - k) (len + k) = slice b (pos - k) (len + k) := slice_congr fun a _ ha => hb a (by omega)
    exact ih (withString_ok hd hc b _ hlen').1 (withString_ok he hc b' _ hlen').1
      (h.withString hd he hc hlen' hslice) (k + 1) (by omega)

end Sys2Proof.Machine
end

section
/-! PROOFS. How `PYR.EXPAND` reads a token (R212, R213), and a unit of a Pyr stream at a time (R101, R102, R110). -/

namespace Sys2Proof.Machine

/-! ### Token fields (R106 to R109, R213) -/

/-- The nibble the reader holds before the units `us` when `second` says that one field of a pair was read. -/
def nibbleFor (second : Bool) (us : List PyrUnit) : Option Nat := if second then some (nextHighNibble us) else none

theorem nibbleFor_literal {second : Bool} {u : PyrUnit} (h : u.isTok = false) (us : List PyrUnit) :
    nibbleFor second (u :: us) = nibbleFor (waitsAfter second u) us := by
  rw [nibbleFor, nibbleFor, nextHighNibble_literal h, waitsAfter, h]
  rfl

/-- The reader further on, with another nibble. -/
def tokenRead (k : Nat) (nib : Option Nat) (x : Expander) : Expander := { x with ip := x.ip + k, heldNib := nib }

theorem nextByte_noNibble {x : Expander} {v : Byte} {l : List Byte} (h : Unread x (v :: l)) :
    nextByte { x with heldNib := none } = .ok (v, tokenRead 1 none x) := by
  obtain ⟨hnext, -⟩ := Unread.next (x := { x with heldNib := none }) (h.congr rfl rfl rfl)
  exact hnext

theorem toNat_byte {n : Nat} (h : n < 256) : (BitVec.ofNat 8 n).toNat = n := by
  rw [BitVec.toNat_ofNat, Nat.mod_eq_of_lt h]

section
variable {u : PyrUnit} (htok : u.isTok = true)
include htok

theorem unitField_eight (hw : u.width = 8) (second : Bool) (us : List PyrUnit) :
    unitField second u us = [BitVec.ofNat 8 u.value] ∧ waitsAfter second u = false := by
  simp [unitField, waitsAfter, htok, hw]

theorem unitField_sixteen (hw : u.width = 16) (second : Bool) (us : List PyrUnit) :
    unitField second u us = [BitVec.ofNat 8 (u.value / 256), BitVec.ofNat 8 (u.value % 256)] ∧
      waitsAfter second u = false := by
  simp [unitField, waitsAfter, htok, hw]

theorem unitField_first (hw : u.width = 12) (us : List PyrUnit) : unitField false u us =
    [BitVec.ofNat 8 (u.value / 16), BitVec.ofNat 8 (u.value % 16 * 16 + nextHighNibble us)] ∧
      waitsAfter false u = true := by
  simp [unitField, waitsAfter, htok, hw]

theorem unitField_second (hw : u.width = 12) (us : List PyrUnit) :
    unitField true u us = [BitVec.ofNat 8 (u.value % 256)] ∧ waitsAfter true u = false := by
  simp [unitField, waitsAfter, htok, hw]

/-- `ReadToken` reads the field of a token. -/
theorem readToken_reads {x : Expander} {second : Bool} {us : List PyrUnit} {m : List Byte}
    (h : Unread x (unitField second u us ++ m)) (hwidth : u.width = 8 ∨ u.width = 12 ∨ u.width = 16)
    (hvalue : u.value < 2 ^ u.width) (hnib : x.heldNib = nibbleFor second (u :: us)) :
    readToken u.width x =
      .ok (u.value, tokenRead (unitField second u us).length (nibbleFor (waitsAfter second u) us) x) := by
  have hlow := nextHighNibble_lt us
  rcases hwidth with hw | hw | hw <;> rw [hw] at hvalue
  · obtain ⟨hfield, hwaits⟩ := unitField_eight htok hw second us
    rw [hfield] at h ⊢
    rw [hwaits, readToken, hw, if_neg (by decide), if_pos rfl, nextByte_noNibble h, Res.bind_ok, toNat_byte hvalue]
    rfl
  · cases second with
    | true =>
      obtain ⟨hfield, hwaits⟩ := unitField_second htok hw us
      rw [nibbleFor, nextHighNibble_token htok, if_pos hw, if_pos rfl] at hnib
      rw [hfield] at h ⊢
      have hval : u.value / 256 % 16 * 256 + u.value % 256 = u.value := by omega
      rw [hwaits, readToken, hw, if_pos rfl, hnib]
      simp only
      rw [h.next.1, Res.bind_ok, toNat_byte (by omega), hval]
      rfl
    | false =>
      obtain ⟨hfield, hwaits⟩ := unitField_first htok hw us
      have hnone : x.heldNib = none := hnib
      rw [hfield] at h ⊢
      have hval : u.value / 16 * 16 + (u.value % 16 * 16 + nextHighNibble us) / 16 = u.value := by omega
      have hnext : (u.value % 16 * 16 + nextHighNibble us) % 16 = nextHighNibble us := by omega
      rw [hwaits, readToken, hw, if_pos rfl, hnone]
      simp only
      rw [h.next.1, Res.bind_ok, h.next.2.next.1, Res.bind_ok, toNat_byte (by omega), toNat_byte (by omega), hval, hnext]
      rfl
  · obtain ⟨hfield, hwaits⟩ := unitField_sixteen htok hw second us
    rw [hfield] at h ⊢
    have hrest : Unread (tokenRead 1 none x) (BitVec.ofNat 8 (u.value % 256) :: m) := h.next.2.congr rfl rfl rfl
    have hval : u.value / 256 * 256 + u.value % 256 = u.value := by omega
    rw [hwaits, readToken, hw, if_neg (by decide), if_neg (by decide), nextByte_noNibble h, Res.bind_ok, hrest.next.1,
      Res.bind_ok, toNat_byte (by omega), toNat_byte (by omega), hval]
    rfl

end

/-! ### Tokens (R212) -/

/-- `LookupToken` answers the string of an entry (R188). -/
theorem lookupToken_entry {cap : Nat} {sel : DataSel} {d : Dict} (hd : DictOk cap sel d) {t q : Nat} {str : List Byte}
    (h : (t, str, q) ∈ flat d) : lookupToken t d = some (dictTouch str d, str) := by
  obtain ⟨htrie, hnodup, -⟩ := (dictWf_iff cap d).1 hd.wf
  rw [lookupToken, (pathOf_eq_some htrie hnodup t str).2 ⟨q, (mem_flat htrie _ _ _).1 h⟩]
  rfl

/-- The reader after a token step that reads the token `t` of `str` in `k` bytes. -/
def afterToken (t : Nat) (str : List Byte) (k : Nat) (nib : Option Nat) (x : Expander) : Expander where
  s := { recordUnit (tokUnit t (widthNow x.s)) (appended str { (startUnit x.s).1 with dict := dictTouch str x.s.dict }) with
    dict := withSuffixes x.s.cfg.cap (appended str x.s).outb x.s.outLen str.length 1 x.lit (dictTouch str x.s.dict) }
  ip := x.ip + k
  lit := 0
  heldNib := nib

theorem afterToken_s (t : Nat) (str : List Byte) (k : Nat) (nib : Option Nat) (x : Expander) :
    (afterToken t str k nib x).s = { recordUnit (tokUnit t (widthNow x.s))
        (appended str { (startUnit x.s).1 with dict := dictTouch str x.s.dict }) with
      dict := withSuffixes x.s.cfg.cap (appended str x.s).outb x.s.outLen str.length 1 x.lit (dictTouch str x.s.dict) } := rfl

theorem withSuffixes_dsel (cap : Nat) (b : ByteBuf) (pos len k n : Nat) (d : Dict) :
    (withSuffixes cap b pos len k n d).dsel = d.dsel := by
  induction n generalizing k d with
  | zero => rfl
  | succ n ih => rw [withSuffixes, ih, withString_dsel]


theorem tokenStep_reads {x : Expander} {t k q cap : Nat} {nib : Option Nat} {str : List Byte}
    (hread : readToken (widthNow x.s) { x with s := (startUnit x.s).1 } =
      .ok (t, tokenRead k nib { x with s := (startUnit x.s).1 }))
    (hd : DictOk cap .outSpace x.s.dict) (hentry : (t, str, q) ∈ flat x.s.dict) (hlit : x.lit ≤ x.s.outLen)
    (hroom : x.s.outLen + str.length ≤ x.s.cfg.bufCap) : tokenStep x = .ok (afterToken t str k nib x) := by
  have hne : str.length ≠ 0 := by
    have := entryAt_ne_nil hd.trie ((mem_flat hd.trie _ _ _).1 hentry)
    rwa [Ne, List.length_eq_zero_iff]
  have hlookup := lookupToken_entry hd hentry
  have htouchsel : (dictTouch str x.s.dict).dsel = .outSpace := hd.dsel
  rw [tokenStep, ← Prod.mk.eta (p := startUnit x.s)]
  simp only [startUnit_width, hread, Res.bind_ok, tokenRead, startUnit_dict, hlookup]
  generalize hd1 : dictTouch str x.s.dict = d1 at htouchsel
  rw [appendAll_ok (by simpa using hroom), Res.bind_ok,
    insertSuffixes_within (by simp [dataLen, htouchsel]) hne (by simp; omega)]
  simp [afterToken, hd1, dataBuf, htouchsel]

section
variable {cfg : Config} {out : List Byte} {l : List (PyrUnit × Nat)} {x : Expander} (h : ExpandAt cfg out l x)
include h

/-- A token. -/
theorem ExpandAt.token (hcfg : cfg.wf = true) (t : Nat) (str : List Byte) (k : Nat) (nib : Option Nat) :
    ExpandAt cfg (out ++ str) (l ++ [(tokUnit t (widthNow x.s), x.s.dict.count)]) (afterToken t str k nib x) := by
  have hs := afterToken_s t str k nib x
  generalize hd : withSuffixes x.s.cfg.cap (appended str x.s).outb x.s.outLen str.length 1 x.lit (dictTouch str x.s.dict) = d
    at hs
  refine ⟨by rw [hs]; simpa using h.cfg, ?_, Nat.zero_le _, ?_, ?_⟩
  · rw [hs, ← h.dsel, ← hd]
    exact withSuffixes_dsel _ _ _ _ _ _ _
  · rw [hs, ← h.out, ← outputBytes_appended]
    simp [outputBytes]
  · refine h.log.record (by rw [h.cfg]; exact (config_bounds hcfg).2.2.2.1) _ ?_ ?_ ?_ ?_ ?_ <;> simp [hs]

end

theorem Unread.afterToken {x : Expander} {f m : List Byte} (h : Unread x (f ++ m)) (t : Nat) (str : List Byte)
    (nib : Option Nat) : Unread (afterToken t str f.length nib x) m :=
  h.append.congr (by simp [afterToken_s, skip]) (by simp [afterToken_s, skip]) rfl

/-! ### Units and groups (R101, R102, R110) -/

/-- The step of one unit. -/
def unitStep (tok : Bool) (x : Expander) : Res Expander := if tok then tokenStep x else literalStep x

/-- The steps of units in order. -/
def unitSteps : List Bool → Expander → Res Expander
  | [], x => .ok x
  | b :: bs, x => (unitStep b x).bind fun y => unitSteps bs y

theorem unitSteps_append (bs cs : List Bool) (x : Expander) :
    unitSteps (bs ++ cs) x = (unitSteps bs x).bind fun y => unitSteps cs y := by
  induction bs generalizing x with
  | nil => rfl
  | cons b bs ih => simp only [List.cons_append, unitSteps, Res.bind_assoc, ih]

theorem literalSteps_eq (n : Nat) (x : Expander) : literalSteps n x = unitSteps (List.replicate n false) x := by
  induction n generalizing x with
  | zero => rfl
  | succ n ih => simp only [literalSteps, List.replicate_succ, unitSteps, unitStep, Bool.false_eq_true, if_false, ih]

theorem tokenSteps_eq (n : Nat) (x : Expander) : tokenSteps n x = unitSteps (List.replicate n true) x := by
  induction n generalizing x with
  | zero => rfl
  | succ n ih => simp only [tokenSteps, List.replicate_succ, unitSteps, unitStep, if_true, ih]

/-- Each unit of the mask has a bit of its own, below those of the units before it. -/
theorem maskOf_lt {j n : Nat} {g : List PyrUnit} (hg : g.length ≤ n) (hj : j + n = 7) : maskOf j g < 2 ^ n := by
  induction g generalizing j n with
  | nil => exact Nat.two_pow_pos n
  | cons u g ih =>
    obtain ⟨n, rfl⟩ : ∃ k, n = k + 1 := ⟨n - 1, by rw [List.length_cons] at hg; omega⟩
    have hrest := ih (j := j + 1) (Nat.le_of_succ_le_succ hg) (by omega)
    rw [maskOf, show 6 - j = n by omega, pow_succ]
    split_ifs <;> omega

/-- The bits of a mask are the kinds of the units, and 0 after them (R101). -/
theorem byteBits_mask {h : Byte} {j n : Nat} {g : List PyrUnit} (hg : g.length ≤ n) (hj : j + n = 7)
    (hh : h.toNat % 2 ^ n = maskOf j g) :
    byteBits h n = g.map (·.isTok) ++ List.replicate (n - g.length) false := by
  induction n generalizing j g with
  | zero =>
    obtain rfl := List.length_eq_zero_iff.1 (Nat.le_zero.1 hg)
    rfl
  | succ n ih =>
    rw [Nat.mod_pow_succ] at hh
    have hlow : h.toNat % 2 ^ n < 2 ^ n := Nat.mod_lt _ (Nat.two_pow_pos n)
    have hbit : h.getLsbD n = decide (h.toNat / 2 ^ n % 2 = 1) := by rw [BitVec.getLsbD, Nat.testBit_eq_decide_div_mod_eq]
    have hbits := Nat.mod_two_eq_zero_or_one (h.toNat / 2 ^ n)
    cases g with
    | nil =>
      have hzero : h.toNat / 2 ^ n % 2 = 0 ∧ h.toNat % 2 ^ n = 0 := by
        rw [maskOf] at hh
        rcases hbits with h2 | h2 <;> rw [h2] at hh <;> omega
      rw [byteBits, hbit, hzero.1, ih (j := j + 1) (g := []) (Nat.zero_le n) (by omega) hzero.2]
      rfl
    | cons u g =>
      have hrest := maskOf_lt (j := j + 1) (g := g) (Nat.le_of_succ_le_succ hg) (by omega)
      rw [maskOf, show 6 - j = n by omega] at hh
      have hsplit : (h.toNat / 2 ^ n % 2 = 1 ↔ u.isTok = true) ∧ h.toNat % 2 ^ n = maskOf (j + 1) g := by
        rcases hbits with h2 | h2 <;> rw [h2] at hh ⊢ <;> split_ifs at hh with htok <;> simp [htok] <;> omega
      rw [byteBits, hbit, ih (Nat.le_of_succ_le_succ hg) (by omega) hsplit.2]
      simp [hsplit.1]

/-- The header of a Header1 group (R101). -/
theorem header1Byte_bits {g : List PyrUnit} (hg : g.length ≤ 7) : (header1Byte g).getLsbD 7 = true ∧
    byteBits (header1Byte g) 7 = g.map (·.isTok) ++ List.replicate (7 - g.length) false := by
  have hlt := maskOf_lt (j := 0) hg rfl
  have hval : (header1Byte g).toNat = 128 + maskOf 0 g := by rw [← header1Byte_eq, toNat_byte (by omega)]
  refine ⟨?_, byteBits_mask (j := 0) hg rfl (by rw [hval]; omega)⟩
  rw [BitVec.getLsbD, Nat.testBit_eq_decide_div_mod_eq, hval, decide_eq_true_eq]
  omega

/-- A Header1 group: its units, while input is left. -/
theorem expandGroup_header1 {x : Expander} {g : List PyrUnit} {m : List Byte} (hg : g.length ≤ 7)
    (h : Unread x (header1Byte g :: m)) :
    expandGroup x = maskUnits (g.map (·.isTok) ++ List.replicate (7 - g.length) false) (skip 1 x) := by
  obtain ⟨hbit, hbits⟩ := header1Byte_bits hg
  rw [expandGroup, h.next.1, Res.bind_ok]
  simp only [hbit, if_true, hbits]

theorem maskUnits_next {x : Expander} (h : x.ip < x.s.inLen) (b : Bool) (bs : List Bool) :
    maskUnits (b :: bs) x = (unitStep b x).bind fun y => maskUnits bs y := by
  rw [maskUnits, if_neg (by omega), unitStep]

theorem maskUnits_end {x : Expander} (h : x.s.inLen ≤ x.ip) (bs : List Bool) : maskUnits bs x = .ok x := by
  cases bs with
  | nil => rfl
  | cons b bs => rw [maskUnits, if_pos h]

end Sys2Proof.Machine
end

section
/-! PROOFS. `PYR.EXPAND` follows the scan of `PYR.COMPRESS` unit for unit, with an alike dictionary (R215, O41). -/

namespace Sys2Proof.Machine

/-! ### The reader at a place of the scan -/

/-- The reader has written the input of `s` up to a place of its scan, and recorded the units `l` on the way. -/
structure Mirror (s : State) (p : ScanPos) (l : List (PyrUnit × Nat)) (x : Expander) : Prop where
  reader : ExpandAt s.cfg (slice s.inb 0 p.pos) l x
  lit : x.lit = p.lit
  dict : DictOk s.cfg.cap .outSpace x.s.dict
  alike : Alike p.dict x.s.dict

theorem mirror_start {s t : State} (hcfg : t.cfg = s.cfg) : Mirror s scanStart [] (expandStart t) where
  reader := hcfg ▸ expandStart_at t
  lit := rfl
  dict := DictOk.empty _ _
  alike := alike_empty _ _

theorem bufRead_of_slice {b c : ByteBuf} {n : Nat} (h : slice b 0 n = slice c 0 n) :
    ∀ a, a < n → bufRead b a = bufRead c a := by
  intro a ha
  have hget := congrArg (·[a]?) h
  simp only [slice_getElem?, if_pos ha, Nat.zero_add] at hget
  exact Option.some.inj hget

section
variable {s : State} {p : ScanPos} {l : List (PyrUnit × Nat)} {x : Expander} (h : Mirror s p l x)
include h

theorem Mirror.outLen : x.s.outLen = p.pos := by rw [h.reader.outLen, slice_length]

/-- `OUT` shows the input up to the end of a string that is appended at its place. -/
theorem Mirror.appended_bytes (n : Nat) :
    ∀ a, a < p.pos + n → bufRead (appended (slice s.inb p.pos n) x.s).outb a = bufRead s.inb a := by
  have hout : outputBytes (appended (slice s.inb p.pos n) x.s) = slice s.inb 0 (p.pos + n) := by
    rw [outputBytes_appended, h.reader.out, slice_append, Nat.zero_add]
  rw [outputBytes, appended_outLen, slice_length, h.outLen] at hout
  exact bufRead_of_slice hout

variable (hcfg : s.cfg.wf = true) (hin : s.inLen ≤ s.cfg.bufCap) (hp : ScanOk s p) (hpos : p.pos < s.inLen)
include hcfg hin hp hpos

/-- A literal of the scan. -/
theorem Mirror.literal (hf : found s p = none) {m : List Byte} (hread : Unread x (bufRead s.inb p.pos :: m)) :
    ∃ y, literalStep x = .ok y ∧ Unread y m ∧ y.heldNib = x.heldNib ∧
      Mirror s (scanStep s p).2 (l ++ [((scanStep s p).1, p.dict.count)]) y := by
  obtain ⟨-, -, -, -, -, hc, -⟩ := config_bounds hcfg
  obtain ⟨hstep, hrest, hat⟩ := h.reader.literal hcfg hread (by rw [slice_length]; omega)
  have hbytes := h.appended_bytes 1
  have hone : slice s.inb p.pos 1 = [bufRead s.inb p.pos] := rfl
  rw [hone] at hbytes
  have hnone : ∀ u, hasEntry p.dict u → ¬ u <+: ahead s p := fun u ⟨i, q, hu⟩ => found_none hp hf _ hu
  have hdict : (Machine.afterLiteral (bufRead s.inb p.pos) x).s.dict =
      withRun s.cfg.cap (appended [bufRead s.inb p.pos] x.s).outb p.pos p.lit x.s.dict := by
    rw [afterLiteral_s, h.reader.cfg, h.outLen, h.lit]
  refine ⟨_, hstep, hrest, rfl, ?_⟩
  rw [scanStep_literal hf, ← h.alike.count]
  refine ⟨?_, ?_, ?_, ?_⟩
  · simpa only [slice_append, hone, Nat.zero_add] using hat
  · rw [afterLiteral_lit, h.lit]
  · rw [hdict]
    exact (withRun_ok h.dict hc _ _ _).1
  · rw [hdict]
    have halike := (alike_dictTouch_none hp.dict hnone).symm.trans h.alike
    exact halike.withRun (hp.dict.touch _) h.dict hc hbytes (Nat.lt_succ_self _) hp.lit

/-- A token of the scan. -/
theorem Mirror.token {t len k : Nat} (hf : found s p = some (t, len)) {nib : Option Nat}
    (hread : readToken (widthNow x.s) { x with s := (startUnit x.s).1 } = .ok (t, tokenRead k nib { x with s := (startUnit x.s).1 })) :
    ∃ str, tokenStep x = .ok (afterToken t str k nib x) ∧
      Mirror s (scanStep s p).2 (l ++ [((scanStep s p).1, p.dict.count)]) (afterToken t str k nib x) := by
  obtain ⟨-, -, -, -, -, hc, -⟩ := config_bounds hcfg
  obtain ⟨q, hentry, hlen, hend, hmax⟩ := found_some hp hf
  obtain ⟨q', hentry'⟩ := (h.alike.index _ t).2 ⟨q, hentry⟩
  have hbytes := h.appended_bytes len
  have hwidth : widthNow x.s = fieldWidth s.cfg p.dict.count := by rw [widthNow, h.reader.cfg, h.alike.count]
  have hpre : ∀ u, hasEntry p.dict u → (u <+: slice s.inb p.pos len ↔ u <+: ahead s p) := by
    have hstr : slice s.inb p.pos len <+: ahead s p := by
      rw [ahead, ← slice_take s.inb p.pos len (s.inLen - p.pos) (by omega)]
      exact List.take_prefix _ _
    rintro u ⟨i, r, hu⟩
    refine ⟨fun g => g.trans hstr, fun g => List.prefix_of_prefix_length_le g hstr ?_⟩
    rw [slice_length]
    exact hmax _ hu g
  have hlit : x.lit ≤ x.s.outLen := by rw [h.lit, h.outLen]; exact hp.lit
  have hroom : x.s.outLen + (slice s.inb p.pos len).length ≤ x.s.cfg.bufCap := by
    rw [h.outLen, slice_length, h.reader.cfg]
    omega
  refine ⟨slice s.inb p.pos len, tokenStep_reads hread h.dict hentry' hlit hroom, ?_⟩
  have hat := h.reader.token hcfg t (slice s.inb p.pos len) k nib
  have hdict : (afterToken t (slice s.inb p.pos len) k nib x).s.dict =
      withSuffixes s.cfg.cap (appended (slice s.inb p.pos len) x.s).outb p.pos len 1 p.lit
        (dictTouch (slice s.inb p.pos len) x.s.dict) := by
    rw [afterToken_s, h.reader.cfg, h.outLen, h.lit, slice_length]
  have htouch := h.dict.touch (slice s.inb p.pos len)
  have hlit := hp.lit
  rw [scanStep_token hf, ← hwidth]
  refine ⟨?_, rfl, ?_, ?_⟩
  · simpa only [slice_append, Nat.zero_add, h.alike.count] using hat
  · rw [hdict]
    exact (withSuffixes_ok htouch hc _ _ hlen 1 _).1
  · rw [hdict]
    exact (h.alike.touch hp.dict h.dict hpre).withSuffixes (hp.dict.touch _) htouch hc hbytes (le_refl _) hlen 1 _ (by omega)

/-- A unit of the scan, from its field in the stream. -/
theorem Mirror.unit {second : Bool} {us : List PyrUnit} {m : List Byte}
    (hread : Unread x (unitField second (scanStep s p).1 us ++ m))
    (hnib : x.heldNib = nibbleFor second ((scanStep s p).1 :: us)) :
    x.ip < x.s.inLen ∧ ∃ y, unitStep (scanStep s p).1.isTok x = .ok y ∧ Unread y m ∧
      y.heldNib = nibbleFor (waitsAfter second (scanStep s p).1) us ∧
      Mirror s (scanStep s p).2 (l ++ [((scanStep s p).1, p.dict.count)]) y := by
  cases hf : found s p with
  | none =>
    have hu : (scanStep s p).1 = litUnit (bufRead s.inb p.pos) := by rw [scanStep_literal hf]
    rw [hu] at hread hnib ⊢
    have hfield : unitField second (litUnit (bufRead s.inb p.pos)) us = [bufRead s.inb p.pos] := by
      simp [unitField, litUnit]
    rw [hfield] at hread
    obtain ⟨y, hy, hrest, hkeep, hm⟩ := h.literal hcfg hin hp hpos hf hread
    exact ⟨hread.lt, y, hy, hrest, by rw [hkeep, hnib, nibbleFor_literal rfl], hu ▸ hm⟩
  | some e =>
    obtain ⟨t, len⟩ := e
    have hu : (scanStep s p).1 = tokUnit t (fieldWidth s.cfg p.dict.count) := by rw [scanStep_token hf]
    have hfits := scanStep_fits hp
    have hw : widthNow x.s = fieldWidth s.cfg p.dict.count := by rw [widthNow, h.reader.cfg, h.alike.count]
    rw [hu] at hread hnib hfits ⊢
    rw [← hw] at hread hnib hfits ⊢
    obtain ⟨-, hvalue, hcount⟩ := hfits
    have hread' : Unread { x with s := (startUnit x.s).1 } (unitField second (tokUnit t (widthNow x.s)) us ++ m) :=
      hread.congr (startUnit_inb _) (startUnit_inLen _) rfl
    have htoken := readToken_reads rfl hread' (hw ▸ fieldWidth_cases _ _) (hw ▸ lt_two_pow_fieldWidth hcfg hvalue hcount)
      hnib
    obtain ⟨str, hy, hm⟩ := h.token hcfg hin hp hpos hf htoken
    rw [hu, ← hw] at hm
    refine ⟨readToken_ok_ip htoken |>.trans_eq (startUnit_inLen _), _, hy, hread.afterToken _ _ _, rfl, hm⟩

end

/-! ### The units still to come -/

/-- The reader is at a place of the scan of the input of `s`, and `fs` are the units from there on, with their fields. -/
def Resumes (s : State) (fs : List (PyrUnit × List Byte)) (x : Expander) : Prop :=
  ∃ (p : ScanPos) (n : Nat) (l : List (PyrUnit × Nat)) (second : Bool),
    ScanOk s p ∧ Mirror s p l x ∧ s.inLen ≤ p.pos + n ∧ l ++ (scanFrom s n p).1 = scanUnits s ∧
      withFields second ((scanFrom s n p).1.map Prod.fst) = fs ∧
      x.heldNib = nibbleFor second ((scanFrom s n p).1.map Prod.fst)

theorem resumes_start {s t : State} (hcfg : t.cfg = s.cfg) :
    Resumes s (withFields false ((scanUnits s).map Prod.fst)) (expandStart t) :=
  ⟨scanStart, s.inLen, [], false, scanStart_ok s, mirror_start hcfg, (Nat.zero_add _).ge, rfl, rfl, rfl⟩

theorem Resumes.skip {s : State} {fs : List (PyrUnit × List Byte)} {x : Expander} (h : Resumes s fs x) (k : Nat) :
    Resumes s fs (Machine.skip k x) := by
  obtain ⟨p, n, l, second, hp, hm, hrest⟩ := h
  exact ⟨p, n, l, second, hp, ⟨⟨hm.reader.cfg, hm.reader.dsel, hm.reader.lit, hm.reader.out, hm.reader.log⟩, hm.lit, hm.dict,
    hm.alike⟩, hrest⟩

/-- With no unit to come, the whole input is in `OUT`, and all units are recorded. -/
theorem Resumes.end {s : State} {x : Expander} (h : Resumes s [] x) :
    outputBytes x.s = inputBytes s ∧ UnitLog (scanUnits s) x.s ∧ x.s.cfg = s.cfg := by
  obtain ⟨p, n, l, second, hp, hm, hn, hl, hfs, -⟩ := h
  have hnone : (scanFrom s n p).1 = [] := by
    rw [← List.map_eq_nil_iff (f := Prod.fst), ← withFields_units second (List.map _ _), hfs]
    rfl
  have hpos : p.pos = s.inLen := by
    refine le_antisymm hp.pos (Nat.not_lt.1 fun hlt => ?_)
    obtain ⟨n, rfl⟩ : ∃ k, n = k + 1 := ⟨n - 1, by omega⟩
    rw [scanFrom_next n hlt] at hnone
    cases hnone
  rw [hnone, List.append_nil] at hl
  exact ⟨by rw [hm.reader.out, hpos]; rfl, hl ▸ hm.reader.log, hm.reader.cfg⟩

/-- The kinds of the units of a run (R205). -/
theorem runLengths_kinds {fs : List (PyrUnit × List Byte)} {a b : Nat} (h : runLengths (fs.map Prod.fst) = (a, b)) :
    (fs.take (a + b)).map (fun f => f.1.isTok) = List.replicate a false ++ List.replicate b true := by
  rw [runLengths_units] at h
  obtain ⟨ha, hb⟩ := Prod.mk.inj h
  rw [ha] at hb
  have hlits := List.prefix_iff_eq_take.1 (List.takeWhile_prefix (l := fs) fun f => !f.1.isTok)
  have htoks := List.prefix_iff_eq_take.1 (List.takeWhile_prefix (l := fs.drop a) fun f => f.1.isTok)
  have hall : ∀ (q : PyrUnit × List Byte → Bool) (l : List (PyrUnit × List Byte)), ∀ f ∈ l.takeWhile q, q f = true :=
    fun q l f hf => List.mem_takeWhile_imp hf
  rw [ha] at hlits
  rw [hb] at htoks
  rw [List.take_add, List.map_append, ← hlits, ← htoks]
  congr 1
  · rw [List.eq_replicate_iff, List.length_map, ha]
    refine ⟨rfl, fun c hc => ?_⟩
    obtain ⟨f, hf, rfl⟩ := List.mem_map.1 hc
    simpa using hall _ _ f hf
  · rw [List.eq_replicate_iff, List.length_map, hb]
    refine ⟨rfl, fun c hc => ?_⟩
    obtain ⟨f, hf, rfl⟩ := List.mem_map.1 hc
    exact hall _ _ f hf

section
variable {s : State} (hcfg : s.cfg.wf = true) (hin : s.inLen ≤ s.cfg.bufCap)
include hcfg hin

theorem Resumes.unit {f : PyrUnit × List Byte} {fs : List (PyrUnit × List Byte)} {x : Expander} {m : List Byte}
    (h : Resumes s (f :: fs) x) (hread : Unread x (f.2 ++ m)) :
    x.ip < x.s.inLen ∧ ∃ y, unitStep f.1.isTok x = .ok y ∧ Unread y m ∧ Resumes s fs y := by
  obtain ⟨p, n, l, second, hp, hm, hn, hl, hfs, hnib⟩ := h
  obtain ⟨-, -, -, -, -, hc, -⟩ := config_bounds hcfg
  have hlt : p.pos < s.inLen := by
    refine Nat.not_le.1 fun hle => ?_
    rw [scanFrom_end n hle] at hfs
    cases hfs
  obtain ⟨hok, hmore, -⟩ := scanStep_ok hp hc hlt
  obtain ⟨n, rfl⟩ : ∃ k, n = k + 1 := ⟨n - 1, by omega⟩
  rw [scanFrom_next n hlt] at hl hfs hnib
  rw [List.map_cons, withFields_cons] at hfs
  rw [List.map_cons] at hnib
  cases hfs
  obtain ⟨hip, y, hy, hrest, hnib', hm'⟩ := hm.unit hcfg hin hp hlt hread hnib
  refine ⟨hip, y, hy, hrest, _, n, _, _, hok, hm', by omega, ?_, rfl, hnib'⟩
  rw [List.append_assoc]
  exact hl

/-- The steps of units read their fields. -/
theorem Resumes.units (pre : List (PyrUnit × List Byte)) {post : List (PyrUnit × List Byte)} {x : Expander} {m : List Byte}
    (h : Resumes s (pre ++ post) x) (hread : Unread x ((pre.map Prod.snd).flatten ++ m)) :
    ∃ y, unitSteps (pre.map fun f => f.1.isTok) x = .ok y ∧ Unread y m ∧ Resumes s post y := by
  induction pre generalizing x with
  | nil => exact ⟨x, rfl, hread, h⟩
  | cons f pre ih =>
    rw [List.map_cons, List.flatten_cons, List.append_assoc] at hread
    obtain ⟨-, z, hz, hrest, hres⟩ := Resumes.unit hcfg hin h hread
    obtain ⟨y, hy, hend⟩ := ih hres hrest
    refine ⟨y, ?_, hend⟩
    rw [List.map_cons, unitSteps, hz, Res.bind_ok, hy]

/-- The units of a Header1 group; bits without a unit stand only where the input ends (R110). -/
theorem Resumes.mask (pre : List (PyrUnit × List Byte)) {post : List (PyrUnit × List Byte)} {x : Expander} {m : List Byte}
    {k : Nat} (hk : k = 0 ∨ m = []) (h : Resumes s (pre ++ post) x)
    (hread : Unread x ((pre.map Prod.snd).flatten ++ m)) :
    ∃ y, maskUnits (pre.map (fun f => f.1.isTok) ++ List.replicate k false) x = .ok y ∧ Unread y m ∧ Resumes s post y := by
  induction pre generalizing x with
  | nil =>
    refine ⟨x, ?_, hread, h⟩
    rcases hk with rfl | rfl
    · rfl
    · exact maskUnits_end hread.done _
  | cons f pre ih =>
    rw [List.map_cons, List.flatten_cons, List.append_assoc] at hread
    obtain ⟨hip, z, hz, hrest, hres⟩ := Resumes.unit hcfg hin h hread
    obtain ⟨y, hy, hend⟩ := ih hres hrest
    refine ⟨y, ?_, hend⟩
    rw [List.map_cons, List.cons_append, maskUnits_next hip, hz, Res.bind_ok, hy]

/-- A group of the stream. -/
theorem Resumes.group {n : Nat} {fs : List (PyrUnit × List Byte)} {x : Expander} (hfs : fs ≠ []) (h : Resumes s fs x)
    (hread : Unread x (groupStream (n + 1) fs)) (hn : fs.length ≤ n + 1) :
    ∃ y gs, expandGroup x = .ok y ∧ gs.length ≤ n ∧ Unread y (groupStream n gs) ∧ Resumes s gs y ∧
      (groupStream n gs).length < (groupStream (n + 1) fs).length := by
  have hpos := List.length_pos_iff.2 hfs
  rcases hrun : runLengths (fs.map Prod.fst) with ⟨a, b⟩
  have hstream := groupStream_succ n hfs hrun
  by_cases h8 : 8 ≤ a + b
  · rw [if_pos h8, List.append_assoc] at hstream
    rw [hstream] at hread ⊢
    obtain ⟨y, hy, hrest, hres⟩ := Resumes.units hcfg hin (fs.take (a + b)) (post := fs.drop (a + b))
      (by rw [List.take_append_drop]; exact h.skip _) hread.append
    refine ⟨y, fs.drop (a + b), ?_, by rw [List.length_drop]; omega, hrest, hres, ?_⟩
    · rw [expandGroup_header0 hread, literalSteps_eq]
      simp only [tokenSteps_eq]
      rw [← unitSteps_append, ← runLengths_kinds hrun, hy]
    · rw [header0Bytes_eq]
      simp only [List.length_append, List.length_cons]
      omega
  · rw [if_neg h8] at hstream
    rw [hstream] at hread ⊢
    have hlast : 7 - (fs.take 7).length = 0 ∨ groupStream n (fs.drop 7) = [] := by
      rcases Nat.lt_or_ge fs.length 7 with hlt | hge
      · right
        rw [List.drop_eq_nil_of_le hlt.le]
        cases n <;> rfl
      · left
        rw [List.length_take]
        omega
    obtain ⟨y, hy, hrest, hres⟩ := Resumes.mask hcfg hin (fs.take 7) hlast (post := fs.drop 7)
      (by rw [List.take_append_drop]; exact h.skip 1) (Unread.append (l := [_]) hread)
    refine ⟨y, fs.drop 7, ?_, by rw [List.length_drop]; omega, hrest, hres, ?_⟩
    · rw [expandGroup_header1 (by rw [List.length_map, List.length_take]; omega) hread, ← hy, List.map_map, List.length_map]
      rfl
    · simp only [List.length_append, List.length_cons]
      omega

/-- The stream of the units brings the reader to the end of the scan. -/
theorem Resumes.stream {n k : Nat} {fs : List (PyrUnit × List Byte)} {x : Expander} (h : Resumes s fs x)
    (hread : Unread x (groupStream n fs)) (hn : fs.length ≤ n) (hk : (groupStream n fs).length ≤ k) :
    ∃ y, expandLoop k x = .ok y ∧ Resumes s [] y := by
  induction n generalizing fs x k with
  | zero =>
    obtain rfl := List.length_eq_zero_iff.1 (Nat.le_zero.1 hn)
    exact ⟨x, expandLoop_end hread k, h⟩
  | succ n ih =>
    by_cases hfs : fs = []
    · subst hfs
      exact ⟨x, expandLoop_end hread k, h⟩
    · obtain ⟨z, gs, hz, hgs, hrest, hres, hless⟩ := Resumes.group hcfg hin hfs h hread hn
      obtain ⟨k, rfl⟩ : ∃ j, k = j + 1 := ⟨k - 1, by omega⟩
      obtain ⟨y, hy, hend⟩ := ih hres hrest hgs (k := k) (by omega)
      obtain ⟨v, m, hstream⟩ := List.exists_cons_of_length_pos (Nat.zero_lt_of_lt hless)
      rw [hstream] at hread
      exact ⟨y, by rw [expandLoop_next hread, hz, Res.bind_ok, hy], hend⟩

end

/-- `PYR.EXPAND` of the stream of the scan's units. -/
theorem expandLoop_roundTrip {s t : State} (hcfg : s.cfg.wf = true) (hin : s.inLen ≤ s.cfg.bufCap) (ht : t.cfg = s.cfg)
    (hstream : inputBytes t = pyrStream ((scanUnits s).map Prod.fst)) :
    ∃ y, expandLoop t.inLen (expandStart t) = .ok y ∧ outputBytes y.s = inputBytes s ∧ UnitLog (scanUnits s) y.s ∧
      y.s.cfg = s.cfg := by
  have hlen : (withFields false ((scanUnits s).map Prod.fst)).length = ((scanUnits s).map Prod.fst).length := by
    rw [← List.length_map Prod.fst, withFields_units]
  have hinLen : (pyrStream ((scanUnits s).map Prod.fst)).length = t.inLen := by
    rw [← hstream]
    exact slice_length _ _ _
  obtain ⟨y, hy, hend⟩ := (resumes_start ht).stream hcfg hin (expandStart_unread hstream) hlen.le hinLen.le
  exact ⟨y, hy, hend.end⟩

/-- Settles O41: the reader makes the scan's places its own one by one, since its dictionary stays alike and so shows it
the same token strings and widths. -/
theorem pyrRoundTrip : Obligations.PyrRoundTrip := by
  intro s t u hcfg hbounds hs hcompress ht hxchg
  obtain ⟨hbuf, -, -, -, -, hc, -⟩ := config_bounds hcfg
  have hin := boundsWf_inLen hbounds
  obtain ⟨-, hlog, hcfgt, hunits⟩ := pyrCompress_scan hcfg hcompress
  have hfits := (scanUnits_counts hc).1
  have hout : outputBytes t = pyrStream ((scanUnits s).map Prod.fst) := by
    rw [← hlog.unitsOf hcfg fun p hp => (hfits p hp).1, unitsOf_eq]
    exact pyrCompressCompletes.2 s t hcfg hs hcompress ht
  obtain rfl := ((sysXchg_ends t).cases hxchg).resolve_right (by simp)
  obtain ⟨y, hy, hbytes, hlogy, hcfgy⟩ := expandLoop_roundTrip hcfg hin (t := { t with
    inb := t.outb, inLen := t.outLen, outb := t.inb, outLen := t.inLen, dict := Dict.empty .inSpace }) hcfgt hout
  obtain ⟨hrun, hgrows⟩ := pyrExpand_completes (by rw [hcfgt]; exact hc) hy
  have hcount : (scanUnits s).length < 2 ^ 32 - 1 := by rw [← hlog.len]; omega
  obtain ⟨h12, h16⟩ := hlog.points hcount
  obtain ⟨h12y, h16y⟩ := hlogy.points hcount
  refine ⟨_, hrun, ?_, hbytes, hlogy.len.trans hlog.len.symm, ?_, ?_, fun k hk => ?_⟩
  · rw [← ht]
    simp only [latched, setRes_err, setRes_halt]
    rw [hgrows.frame]
    rfl
  · rw [setRes_pyrT12, h12y, h12, hcfgy, hcfgt]
  · rw [setRes_pyrT16, h16y, h16, hcfgy, hcfgt]
  · rw [hlog.len] at hk
    have hget := List.getElem?_eq_getElem hk
    exact (hlogy.words k _ hget).trans (hlog.words k _ hget).symm

end Sys2Proof.Machine
end

section
/-! PROOFS. `HUF.BUILD`: the checks of the extra symbols (O46), the tree and the codes of a build that completes (O45),
and that no code begins another (O47). -/

namespace Sys2Proof.Machine

/-! ### The checks (R253) -/

/-- The check of a list looks at its first part, then at the rest with the first part seen. -/
theorem badExtra_append (i : Nat) (seen l m : List Nat) :
    badExtra i seen (l ++ m) = (badExtra i seen l).or (badExtra (i + l.length) (l.reverse ++ seen) m) := by
  induction l generalizing i seen with
  | nil => rfl
  | cons v vs ih =>
    rw [List.cons_append, badExtra, badExtra]
    split_ifs
    · rfl
    · rw [ih, List.length_cons, List.reverse_cons, List.append_assoc, Nat.add_assoc, Nat.add_comm 1]
      rfl

/-- The first bad entry behind a legal list is the one reported. -/
theorem badExtra_first {l m : List Nat} {v : Nat} (hl : badExtra 0 [] l = none)
    (hv : v ≤ 255 ∨ Config.maxSymbol < v ∨ v ∈ l) : badExtra 0 [] (l ++ v :: m) = some l.length := by
  rw [badExtra_append, hl, Option.none_or, badExtra, if_pos (by simpa using hv), Nat.zero_add]

theorem xsymValues_append (x : WordBuf) (i m n : Nat) :
    xsymValues x i (m + n) = xsymValues x i m ++ xsymValues x (i + m) n := by
  simp only [xsymValues_eq, ← List.map_append, List.range'_append_1]

/-- Entries that differ pairwise have values that do. -/
theorem nodup_xsymValues {x : WordBuf} {n : Nat} (h : ∀ i j, i < j → j < n → wordRead x i ≠ wordRead x j) :
    (xsymValues x 0 n).Nodup := by
  rw [xsymValues_eq, ← List.range_eq_range']
  refine List.Nodup.map_on (fun i hi j hj hij => ?_) List.nodup_range
  have heq := BitVec.eq_of_toNat_eq hij
  rcases Nat.lt_trichotomy i j with hlt | rfl | hlt
  · exact absurd heq (h i j hlt (List.mem_range.1 hj))
  · rfl
  · exact absurd heq.symm (h j i hlt (List.mem_range.1 hi))

theorem mem_xsymValues {x : WordBuf} {n v : Nat} : v ∈ xsymValues x 0 n ↔ ∃ i, i < n ∧ (wordRead x i).toNat = v := by
  simp [xsymValues_eq, ← List.range_eq_range']

/-- A legal list of `n` entries, as the host wrote it (R253). -/
theorem badExtra_xsymValues_none {x : WordBuf} {n : Nat}
    (hrange : ∀ i, i < n → 255 < (wordRead x i).toNat ∧ (wordRead x i).toNat ≤ 65535)
    (hdistinct : ∀ i j, i < j → j < n → wordRead x i ≠ wordRead x j) : badExtra 0 [] (xsymValues x 0 n) = none := by
  refine badExtra_none.2 ⟨fun v hv => ?_, nodup_xsymValues hdistinct⟩
  obtain ⟨i, hi, rfl⟩ := mem_xsymValues.1 hv
  exact ⟨(hrange i hi).1, (hrange i hi).2, List.not_mem_nil⟩

theorem checkExtras_of_le {s : State} (h : s.hufNx.toNat ≤ s.cfg.hufXmax) :
    checkExtras s = badExtra 0 [] (xsymValues s.xsym 0 s.hufNx.toNat) := if_neg (Nat.not_lt.2 h)

theorem hufBuild_raises {s : State} {i : Nat} (h : checkExtras s = some i) :
    exec .hufBuild s = .next (raise .invalidArgument i 0x40000000 s) := by
  obtain ⟨e, n, ht, rfl, hn⟩ := (hufBuild_ends s).raises (by rintro t ⟨hx, -⟩; rw [h] at hx; cases hx)
  rw [h] at hn
  cases hn
  exact ht

/-- Settles O46: the list is legal up to the entry, which is then the first bad one. -/
theorem hufBuildChecks : Obligations.HufBuildChecks := by
  refine fun s => ⟨fun hmax => hufBuild_raises (if_pos hmax), fun i hmax hi hbad hgood => hufBuild_raises ?_⟩
  obtain ⟨k, hk⟩ : ∃ k, s.hufNx.toNat = i + (k + 1) := ⟨s.hufNx.toNat - i - 1, by omega⟩
  have hbefore : badExtra 0 [] (xsymValues s.xsym 0 i) = none :=
    badExtra_xsymValues_none (fun j hj => ⟨(hgood j hj).1, (hgood j hj).2.1⟩) fun j k hjk hk => (hgood k hk).2.2 j hjk
  have hfirst : badExtra 0 [] (xsymValues s.xsym 0 i ++ xsymValues s.xsym i (k + 1)) = some i := by
    refine (badExtra_first hbefore ?_).trans (by rw [xsymValues_length])
    refine hbad.imp_right (Or.imp_right ?_)
    rintro ⟨j, hj, hji⟩
    exact mem_xsymValues.2 ⟨j, hj, congrArg BitVec.toNat hji⟩
  rw [checkExtras_of_le hmax, hk, xsymValues_append, Nat.zero_add, hfirst]

/-! ### The codes of a tree (R256) -/

/-- The leaves of a state's tree with their codes. -/
def codesOf (s : State) : List (Nat × List Bool) := s.hroot.elim [] (treeCodes [])

/-- The symbols of a state's tree. -/
def symbolsOf (s : State) : List Nat := s.hroot.elim [] treeSymbols

theorem mem_codesOf {s : State} {e : Nat × List Bool} :
    e ∈ codesOf s ↔ ∃ r, s.hroot = some r ∧ e ∈ treeCodes [] r := by
  cases h : s.hroot <;> simp [codesOf, h]

/-- In a whole Huffman state the table lists the codes of the tree (R50, R51). -/
theorem code_iff_mem_codesOf {s : State} (h : hufWf s = true) (v : Nat) (c : List Bool) :
    cellGet? s.hcode v = some c ↔ (v, c) ∈ codesOf s := by
  cases hr : s.hroot with
  | none =>
    simp only [hufWf, hr, Bool.and_eq_true, List.isEmpty_iff] at h
    simp [codesOf, hr, h.1, cellGet?]
  | some r =>
    simp only [hufWf, hr, Bool.and_eq_true, decide_eq_true_eq] at h
    obtain ⟨⟨⟨hnodup, -⟩, hcode⟩, -⟩ := h
    rw [hcode, code_of_symbol hnodup, codesOf, hr]
    rfl

theorem isSome_code_iff_mem_symbolsOf {s : State} (h : hufWf s = true) (v : Nat) :
    (cellGet? s.hcode v).isSome = true ↔ v ∈ symbolsOf s := by
  have hfst : (codesOf s).map Prod.fst = symbolsOf s := by
    cases hr : s.hroot with
    | none => simp [codesOf, symbolsOf, hr]
    | some r => simpa [codesOf, symbolsOf, hr] using treeCodes_map_fst r []
  simp [Option.isSome_iff_exists, code_iff_mem_codesOf h, ← hfst]

/-- A leaf of a tree is no deeper than the number of the other leaves. -/
theorem code_length_lt {t : HufTree} {pre c : List Bool} {v : Nat} (h : (v, c) ∈ treeCodes pre t) :
    c.length < pre.length + (treeSymbols t).length := by
  induction t generalizing pre with
  | leaf w f =>
    simp only [treeCodes, List.mem_singleton, Prod.mk.injEq] at h
    simp [h.2, treeSymbols]
  | inner f l r ihl ihr =>
    have hl := List.length_pos_of_ne_nil (treeSymbols_ne_nil l)
    have hr := List.length_pos_of_ne_nil (treeSymbols_ne_nil r)
    rw [treeSymbols, List.length_append]
    rcases List.mem_append.1 h with h | h
    · have := ihl h
      rw [List.length_append, List.length_singleton] at this
      omega
    · have := ihr h
      rw [List.length_append, List.length_singleton] at this
      omega

/-- A string does not go both left and right from one node. -/
theorem not_both_branches {pre c d : List Bool} {b : Bool} (hc : pre ++ [b] <+: c) (hd : pre ++ [!b] <+: d) :
    ¬ c <+: d := by
  intro hcd
  have heq := (List.prefix_of_prefix_length_le (hc.trans hcd) hd (by simp)).eq_of_length (by simp)
  simp at heq

/-- A code of a tree that begins another is the same leaf's (R260). -/
theorem treeCodes_prefixFree {t : HufTree} {pre : List Bool} {x y : Nat × List Bool} (hx : x ∈ treeCodes pre t)
    (hy : y ∈ treeCodes pre t) (h : x.2 <+: y.2) : x = y := by
  induction t generalizing pre with
  | leaf w f => exact (List.mem_singleton.1 hx).trans (List.mem_singleton.1 hy).symm
  | inner f l r ihl ihr =>
    rcases List.mem_append.1 hx with hx | hx <;> rcases List.mem_append.1 hy with hy | hy
    · exact ihl hx hy
    · exact absurd h (not_both_branches (treeCodes_prefix hx) (treeCodes_prefix hy))
    · exact absurd h (not_both_branches (treeCodes_prefix hx) (treeCodes_prefix hy))
    · exact ihr hx hy

theorem codesOf_prefixFree {s : State} {x y : Nat × List Bool} (hx : x ∈ codesOf s) (hy : y ∈ codesOf s)
    (h : x.2 <+: y.2) : x = y := by
  obtain ⟨r, hr, hx⟩ := mem_codesOf.1 hx
  obtain ⟨r', hr', hy⟩ := mem_codesOf.1 hy
  cases hr.symm.trans hr'
  exact treeCodes_prefixFree hx hy h

/-! ### A build that completes (R251) -/

/-- What a build leaves when its list of extra symbols is legal. -/
structure Built (s t : State) : Prop where
  wf : hufWf t = true
  root : t.hroot = mergeAll (hufLeaves s).length (hufLeaves s)
  symbols : (symbolsOf t).Perm (listSymbols (hufLeaves s))
  res0 : t.res0 = toWord (hufLeaves s).length
  info : t.hufInfo = hufInfoWord (hufLeaves s).length
  frame : t = { s with res0 := t.res0, hroot := t.hroot, hcode := t.hcode, hufInfo := t.hufInfo }

theorem hufBuild_root {s t : State} (hx : checkExtras s = none) (ht : exec .hufBuild s = .next t) :
    t.hroot = mergeAll (hufLeaves s).length (hufLeaves s) := by
  have hrun : exec .hufBuild s = finish (encode .hufBuild) (hufBuild s) := rfl
  rw [hrun, hufBuild, hx] at ht
  cases ht
  rfl

theorem hufBuild_built {s t : State} (hx : checkExtras s = none) (ht : exec .hufBuild s = .next t) : Built s t := by
  have hroot := hufBuild_root hx ht
  rcases (hufBuild_ends s).cases ht with ⟨-, ⟨hnil, rfl⟩ | ⟨r, hperm, hlen, rfl⟩⟩ | ⟨e, n, u, -, -, -, hsome⟩
  · exact ⟨hufWf_none rfl rfl rfl, hroot, by rw [hnil]; exact .refl _, by rw [hnil]; rfl, by rw [hnil]; rfl, rfl⟩
  · obtain ⟨-, hnodup, -, hle, -⟩ := hufLeaves_symbols hx
    exact ⟨hufWf_some rfl (hperm.nodup_iff.2 hnodup) (fun v hv => hle v (hperm.mem_iff.1 hv)) rfl (by rw [hlen]; rfl),
      hroot, hperm, rfl, rfl, rfl⟩
  · rw [hx] at hsome
    cases hsome

/-- A build that ends with nothing latched had a legal list. -/
theorem checkExtras_of_completed {s t : State} (ht : exec .hufBuild s = .next t) (hl : latched t = false) :
    checkExtras s = none :=
  ((hufBuild_ends s).of_completed (by rw [ht]; exact completed_next hl)).1

/-- Settles O47: both codes are root paths of the tree the build leaves. -/
theorem hufPrefixFree : Obligations.HufPrefixFree := by
  intro s t a b c d _ ht hl hc hd hab hcd
  have hwf := (hufBuild_built (checkExtras_of_completed ht hl) ht).wf
  rw [code_iff_mem_codesOf hwf] at hc hd
  exact hab (congrArg Prod.fst (codesOf_prefixFree hc hd hcd))

/-! ### The tree and the codes of a build (R250 to R257) -/

/-- With more than 2^16 symbols one would be above 65535: the count of leaves fits its field (R31). -/
theorem hufLeaves_length_le {s : State} (hx : checkExtras s = none) : (hufLeaves s).length ≤ 65536 := by
  obtain ⟨-, hnodup, hlen, hle, -⟩ := hufLeaves_symbols hx
  have hsub : listSymbols (hufLeaves s) ⊆ List.range 65536 := fun v hv => List.mem_range.2 (Nat.lt_succ_of_le (hle v hv))
  simpa [hlen] using (hnodup.subperm hsub).length_le

/-- `HUF_INFO` as a number: the count, and bit 31 where there is a tree (R31). -/
theorem hufInfoWord_eq {n : Nat} (h : n < 2 ^ 17) : hufInfoWord n = toWord (n + if 1 ≤ n then 2 ^ 31 else 0) := by
  apply BitVec.eq_of_toNat_eq
  rw [hufInfoWord]
  simp only [BitVec.toNat_append, BitVec.toNat_ofNat, BitVec.toNat_ofBool]
  rw [← Nat.shiftLeft_add_eq_or_of_lt (by omega), ← Nat.shiftLeft_add_eq_or_of_lt (by omega)]
  simp only [Nat.shiftLeft_eq]
  by_cases hn : 1 ≤ n
  · simp only [hn, decide_true, Bool.toNat_true, if_true]; omega
  · simp only [hn, decide_false, Bool.toNat_false, if_false]; omega

/-- One leaf for every byte with a count and one for every extra symbol (R252). -/
theorem hufLeaves_length {s : State} : (hufLeaves s).length =
    ((List.range 256).filter fun b => decide (freqRead s.freq b ≠ 0)).length + s.hufNx.toNat := by
  rw [hufLeaves_eq, (sortByFreq_perm _).length_eq, List.length_append, List.length_map, List.length_map, List.length_range]

theorem mem_hufLeaves_symbols {s : State} (hx : checkExtras s = none) (v : Nat) : v ∈ listSymbols (hufLeaves s) ↔
    (v < 256 ∧ freqRead s.freq v ≠ 0) ∨ ∃ i, i < s.hufNx.toNat ∧ (wordRead s.xsym i).toNat = v := by
  rw [(hufLeaves_symbols hx).1, extraSymbols, mem_xsymValues]

theorem Built.symbols_length {s t : State} (h : Built s t) (hx : checkExtras s = none) :
    (symbolsOf t).length = (hufLeaves s).length := by
  rw [h.symbols.length_eq, (hufLeaves_symbols hx).2.2.1]

/-- No code is longer than the number of leaves minus one (R256). -/
theorem Built.code_length_lt {s t : State} (h : Built s t) (hx : checkExtras s = none) {v : Nat} {c : List Bool}
    (hc : cellGet? t.hcode v = some c) : c.length < (hufLeaves s).length := by
  obtain ⟨r, hr, hmem⟩ := mem_codesOf.1 ((code_iff_mem_codesOf h.wf v c).1 hc)
  have hlen := h.symbols_length hx
  rw [symbolsOf, hr, Option.elim_some] at hlen
  simpa [hlen] using Machine.code_length_lt hmem

/-- The tree is the merges of the stably sorted leaves (R254, R255). -/
theorem Built.mergesTo {s t : State} (h : Built s t) {sequence : List HufTree}
    (hseq : hufLeaves s = sortByFreq sequence) : ∃ leaves, stablySorted sequence leaves ∧ MergesTo leaves t.hroot := by
  have hsorted := sortByFreq_stable sequence
  rw [← hseq] at hsorted
  exact ⟨_, hsorted, h.root ▸ mergeAll_mergesTo _ _ le_rfl hsorted.1⟩

/-- Without a leaf there is no tree (R257). -/
theorem Built.root_none {s t : State} (h : Built s t) (hnil : (hufLeaves s).length = 0) : t.hroot = none := by
  rw [h.root, List.length_eq_zero_iff.1 hnil]
  rfl

/-- Settles O45: a build that completes leaves the merges of the sorted leaves and their codes (`Built`). -/
theorem hufBuildCodes : Obligations.HufBuildCodes := by
  intro s hmax hrange hdistinct
  have hx : checkExtras s = none := (checkExtras_of_le hmax).trans (badExtra_xsymValues_none hrange hdistinct)
  obtain ⟨t, ht, -⟩ := (hufBuild_ends s).completes (by rintro e i u ⟨-, -, hi⟩; rw [hx] at hi; cases hi)
  have hb := hufBuild_built hx ht
  have hle := hufLeaves_length_le hx
  refine ⟨t, (hufLeaves s).length, ht, hufLeaves_length, hb.res0, hb.info.trans (hufInfoWord_eq (by omega)),
    fun v => ?_, hb.root_none, fun v c hn hc => ?_, fun v c _ hc => ?_, fun sequence hseq => ?_, fun v c => ?_, hb.frame⟩
  · rw [isSome_code_iff_mem_symbolsOf hb.wf, hb.symbols.mem_iff, mem_hufLeaves_symbols hx]
  · have := hb.code_length_lt hx hc
    exact List.length_eq_zero_iff.1 (by omega)
  · have := hb.code_length_lt hx hc
    omega
  · exact hb.mergesTo (by rw [hseq, hufLeaves_eq])
  · rw [code_iff_mem_codesOf hb.wf, mem_codesOf]

end Sys2Proof.Machine
end

section
/-! PROOFS. `HUF.ENCODE` and `HUF.DECODE`: what each answers (O48, O49), and that encoded symbols are decoded again
(O50). -/

namespace Sys2Proof.Machine

/-! ### Encoding (R258) -/

theorem hufEncode_completes {s : State} {c : List Bool} (hv : s.arg0.toNat ≤ 65535)
    (hc : cellGet? s.hcode s.arg0.toNat = some c) (hfits : bitPos s + c.length ≤ 8 * s.cfg.bufCap) :
    exec .hufEncode s = .next (setRes0 c.length (bitsWritten c s)) := by
  obtain ⟨t, ht, d, rfl, -, hd, -⟩ := (hufEncode_ends s).completes (by
    rintro e i u ⟨-, ⟨-, -, hlt | hnone⟩ | ⟨-, -, -, d, hd, hlt⟩⟩
    · exact absurd hlt (Nat.not_lt.2 hv)
    · cases hc.symm.trans hnone
    · cases hc.symm.trans hd
      exact absurd hlt (Nat.not_lt.2 hfits))
  cases hc.symm.trans hd
  exact ht

theorem hufEncode_noCode {s : State} (h : 65535 < s.arg0.toNat ∨ cellGet? s.hcode s.arg0.toNat = none) :
    exec .hufEncode s = .next (raise .invalidArgument s.arg0.toNat 0x41000000 s) := by
  obtain ⟨e, i, ht, ⟨rfl, rfl, -⟩ | ⟨-, -, hle, d, hd, -⟩⟩ := (hufEncode_ends s).raises (by
    rintro t ⟨d, -, hle, hd, -⟩
    rcases h with hlt | hnone
    · exact absurd hlt (Nat.not_lt.2 hle)
    · cases hnone.symm.trans hd)
  · exact ht
  · rcases h with hlt | hnone
    · exact absurd hlt (Nat.not_lt.2 hle)
    · cases hnone.symm.trans hd

theorem hufEncode_full {s : State} {c : List Bool} (hv : s.arg0.toNat ≤ 65535)
    (hc : cellGet? s.hcode s.arg0.toNat = some c) (hfull : 8 * s.cfg.bufCap < bitPos s + c.length) :
    exec .hufEncode s = .next (raise .capacity (bitPos s) 0x41000000 s) := by
  obtain ⟨e, i, ht, ⟨-, -, hlt | hnone⟩ | ⟨rfl, rfl, -⟩⟩ := (hufEncode_ends s).raises (by
    rintro t ⟨d, -, -, hd, hle⟩
    cases hc.symm.trans hd
    exact absurd hfull (Nat.not_lt.2 hle))
  · exact absurd hlt (Nat.not_lt.2 hv)
  · cases hc.symm.trans hnone
  · exact ht

/-- The length after a write: as before where there was no bit, else grown to the byte of the last one. -/
theorem bsLen_bitsWritten_eq_max (c : List Bool) (s : State) : (bitsWritten c s).bsLen =
    if c = [] then s.bsLen else max s.bsLen ((bitPos s + c.length + 7) / 8) := by
  split_ifs with hc
  · rw [hc]; rfl
  · exact (bitsWritten_stream_of_ne c s hc).1

/-- Settles O48. -/
theorem hufEncodeWrites : Obligations.HufEncodeWrites := by
  refine ⟨rfl, fun s => ⟨fun c hv hc hfits => ?_, hufEncode_noCode, fun c => hufEncode_full⟩⟩
  obtain ⟨-, -, hfield, hother⟩ := bitsWritten_stream c s
  exact ⟨_, hufEncode_completes hv hc hfits, rfl, bitPos_bitsWritten c s, bsLen_bitsWritten_eq_max c s, hfield, hother,
    bufRead_bitsWritten_above c s, congrArg (setRes0 c.length) (bitsWritten_frame c s)⟩

/-! ### Decoding (R259) -/

theorem hufDecode_noTree {s : State} (h : s.hroot = none) :
    exec .hufDecode s = .next { s with res0 := none32, res1 := 0 } := by
  obtain ⟨t, ht, ⟨-, rfl⟩ | ⟨r, hr, -⟩⟩ := (hufDecode_ends s).completes (fun _ _ _ => id)
  · exact ht
  · cases h.symm.trans hr

/-- A walk that reaches a leaf answers its symbol and moves past the bits read. -/
theorem hufDecode_symbol {s : State} {r : HufTree} {v p : Nat} (hr : s.hroot = some r)
    (hw : hufWalk s r (bitPos s) = (some v, p)) :
    exec .hufDecode s = .next (setRes v (p - bitPos s) (setPos p s)) := by
  obtain ⟨t, ht, ⟨hn, -⟩ | ⟨r', hr', hres⟩⟩ := (hufDecode_ends s).completes (fun _ _ _ => id)
  · cases hr.symm.trans hn
  · cases hr.symm.trans hr'
    rw [ht, hres, hw]

/-- A walk that runs out of bits answers `NO_VALUE`; the bits stay read. -/
theorem hufDecode_exhausted {s : State} {r : HufTree} {p : Nat} (hr : s.hroot = some r)
    (hw : hufWalk s r (bitPos s) = (none, p)) :
    exec .hufDecode s = .next { setPos p s with res0 := none32, res1 := toWord (p - bitPos s) } := by
  obtain ⟨t, ht, ⟨hn, -⟩ | ⟨r', hr', hres⟩⟩ := (hufDecode_ends s).completes (fun _ _ _ => id)
  · cases hr.symm.trans hn
  · cases hr.symm.trans hr'
    rw [ht, hres, hw]

/-- Only a root that is a leaf has the empty code (R257). -/
theorem eq_leaf_of_empty_code {t : HufTree} {pre : List Bool} {v : Nat} (h : (v, pre) ∈ treeCodes pre t) :
    ∃ w, t = .leaf v w := by
  cases t with
  | leaf u w =>
    cases List.mem_singleton.1 h
    exact ⟨w, rfl⟩
  | inner w l r =>
    rcases List.mem_append.1 h with h | h
    · simpa using (treeCodes_prefix h).length_le
    · simpa using (treeCodes_prefix h).length_le

/-- Where the stream at the position holds the code of a symbol, `HUF.DECODE` answers the symbol and moves past the
code; the empty code stands at every position. -/
theorem hufDecode_code {s : State} {v : Nat} {c : List Bool} (hwf : hufWf s = true) (hc : cellGet? s.hcode v = some c)
    (hlen : c ≠ [] → bitPos s + c.length ≤ 8 * s.bsLen)
    (hbits : ∀ k, k < c.length → (c)[k]? = some (getBit s (bitPos s + k))) :
    exec .hufDecode s = .next (setRes v c.length (setPos (bitPos s + c.length) s)) := by
  obtain ⟨r, hr, hmem⟩ := mem_codesOf.1 ((code_iff_mem_codesOf hwf v c).1 hc)
  have hw : hufWalk s r (bitPos s) = (some v, bitPos s + c.length) := by
    by_cases hnil : c = []
    · subst hnil
      obtain ⟨w, rfl⟩ := eq_leaf_of_empty_code hmem
      rfl
    · exact hufWalk_code (pre := []) hmem (hlen hnil) hbits
  rw [hufDecode_symbol hr hw, Nat.add_sub_cancel_left]

/-- The stream from `p` on begins with the bits `c`. -/
def holdsAt (s : State) (p : Nat) (c : List Bool) : Prop :=
  p + c.length ≤ 8 * s.bsLen ∧ ∀ k, k < c.length → (c)[k]? = some (getBit s (p + k))

theorem holdsAt_cons {s : State} {p : Nat} {c : List Bool} (h : holdsAt s (p + 1) c) :
    holdsAt s p (getBit s p :: c) := by
  obtain ⟨hlen, hbits⟩ := h
  refine ⟨by rw [List.length_cons]; omega, fun k hk => ?_⟩
  cases k with
  | zero => rfl
  | succ k =>
    rw [List.getElem?_cons_succ, hbits k (Nat.lt_of_succ_lt_succ hk), Nat.add_assoc, Nat.add_comm 1]

/-- A walk with no code of the tree under its position runs to the end of the stream. -/
theorem hufWalk_exhausted {s : State} {t : HufTree} {pre : List Bool} {p : Nat} (hp : p ≤ 8 * s.bsLen)
    (h : ∀ v c, (v, pre ++ c) ∈ treeCodes pre t → ¬ holdsAt s p c) : hufWalk s t p = (none, 8 * s.bsLen) := by
  induction t generalizing pre p with
  | leaf v w =>
    have hcode : (v, pre ++ []) ∈ treeCodes pre (.leaf v w) := by simp [treeCodes]
    exact absurd ⟨hp, fun k hk => absurd hk (Nat.not_lt_zero k)⟩ (h v [] hcode)
  | inner w l r ihl ihr =>
    rw [hufWalk]
    split_ifs with hend hbit
    · rw [Nat.le_antisymm hp hend]
    · refine ihr (pre := pre ++ [true]) (by omega) fun v c hc hc' => ?_
      rw [List.append_assoc] at hc
      exact h v (true :: c) (List.mem_append_right _ hc) (hbit ▸ holdsAt_cons hc')
    · refine ihl (pre := pre ++ [false]) (by omega) fun v c hc hc' => ?_
      rw [List.append_assoc] at hc
      exact h v (false :: c) (List.mem_append_left _ hc) (Bool.eq_false_of_not_eq_true hbit ▸ holdsAt_cons hc')

/-- Where the stream at the position holds no whole code, `HUF.DECODE` reads it to its end. -/
theorem hufDecode_noCode {s : State} (hwf : hufWf s = true) (hroot : s.hroot ≠ none) (hp : bitPos s ≤ 8 * s.bsLen)
    (h : ∀ v c, cellGet? s.hcode v = some c → ¬ holdsAt s (bitPos s) c) : exec .hufDecode s =
      .next { setPos (8 * s.bsLen) s with res0 := none32, res1 := toWord (8 * s.bsLen - bitPos s) } := by
  obtain ⟨r, hr⟩ := Option.ne_none_iff_exists'.1 hroot
  refine hufDecode_exhausted hr (hufWalk_exhausted (pre := []) hp fun v c hc => h v c ?_)
  exact (code_iff_mem_codesOf hwf v c).2 (mem_codesOf.2 ⟨r, hr, hc⟩)

/-- At or beyond the end of the data an inner root cannot be left (R354). -/
theorem hufDecode_atEnd {s : State} {w : Nat} {l r : HufTree} (hr : s.hroot = some (.inner w l r)) (hbit : s.bsBit < 8)
    (hend : 8 * s.bsLen ≤ bitPos s) : exec .hufDecode s = .next { s with res0 := none32, res1 := 0 } := by
  rw [hufDecode_exhausted hr (if_pos hend), setPos_bitPos hbit, Nat.sub_self]
  rfl

/-- A tree of one leaf answers its symbol without reading a bit (R257). -/
theorem hufDecode_leaf {s : State} {v w : Nat} (hr : s.hroot = some (.leaf v w)) (hbit : s.bsBit < 8) :
    exec .hufDecode s = .next { s with res0 := toWord v, res1 := 0 } := by
  rw [hufDecode_symbol hr rfl, setPos_bitPos hbit, Nat.sub_self]
  rfl

/-- Settles O49. -/
theorem hufDecodeResult : Obligations.HufDecodeResult := by
  refine fun s => ⟨hufDecode_noTree, fun v c hwf _ hc hlen hbits => hufDecode_code hwf hc (fun _ => hlen) hbits,
    fun hwf _ hroot hp hno => ?_, fun w l r hr hbit hend => hufDecode_atEnd hr hbit hend,
    fun v w hr hbit => hufDecode_leaf hr hbit⟩
  have hbyte : 8 * s.bsLen / 8 = s.bsLen := by omega
  have hbit : 8 * s.bsLen % 8 = 0 := by omega
  have hnone : ∀ v c, cellGet? s.hcode v = some c → ¬ holdsAt s (bitPos s) c := by
    rintro v c hc ⟨hlen, hbits⟩
    obtain ⟨k, hk, hne⟩ := hno v c hc hlen
    exact hne (hbits k hk)
  rw [hufDecode_noCode hwf hroot hp hnone, setPos, hbyte, hbit]
  rfl

/-! ### Round trip (R261) -/

/-- From position `p` on the stream is the bits `w`, then zeros. -/
structure StreamFrom (p : Nat) (w : List Bool) (s : State) : Prop where
  fits : w ≠ [] → p + w.length ≤ 8 * s.bsLen
  bits : ∀ k, bitAt s (p + k) = w[k]?.getD false

/-- A clean target (R351): no bit is set from the position on. -/
theorem StreamFrom.clean {s : State} (h : ∀ q, bitPos s ≤ q → bitAt s q = false) : StreamFrom (bitPos s) [] s where
  fits h := absurd rfl h
  bits k := h _ (Nat.le_add_right _ k)

/-- The stream is what `BSB` and `BS_LEN` hold. -/
theorem StreamFrom.congr {p : Nat} {w : List Bool} {s t : State} (h : StreamFrom p w s) (hb : t.bsb = s.bsb)
    (hl : t.bsLen = s.bsLen) : StreamFrom p w t where
  fits := hl ▸ h.fits
  bits k := by rw [← h.bits k, bitAt, bitAt, getBit, getBit, hb, hl]

/-- Bits written at the end are appended. -/
theorem StreamFrom.bitsWritten {p : Nat} {w c : List Bool} {s : State} (h : StreamFrom p w s)
    (hp : bitPos s = p + w.length) : StreamFrom p (w ++ c) (bitsWritten c s) := by
  obtain ⟨hlen, hpos, hfield, hother⟩ := bitsWritten_stream c s
  constructor
  · intro hne
    by_cases hc : c = []
    · subst hc
      rw [List.append_nil] at hne ⊢
      exact h.fits hne
    · have := hpos hc
      rw [List.length_append]; omega
  · intro k
    by_cases hk : w.length ≤ k ∧ k < w.length + c.length
    · obtain ⟨j, rfl⟩ := Nat.exists_eq_add_of_le hk.1
      rw [← Nat.add_assoc, ← hp, hfield j (by omega), hp, Nat.add_assoc, h.bits,
        List.getElem?_append_right (Nat.le_add_right _ _), List.getElem?_eq_none (Nat.le_add_right _ _),
        Nat.add_sub_cancel_left]
      simp
    · rw [hother (p + k) (by omega), h.bits]
      rcases Nat.lt_or_ge k w.length with hlt | hge
      · rw [List.getElem?_append_left hlt]
      · rw [List.getElem?_eq_none hge, List.getElem?_eq_none (by rw [List.length_append]; omega)]

/-- The first bits of a stream stand at its start. -/
theorem StreamFrom.holdsAt {p : Nat} {c post : List Bool} {s : State} (h : StreamFrom p (c ++ post) s) (hc : c ≠ []) :
    holdsAt s p c := by
  have hfits := h.fits (List.append_ne_nil_of_left_ne_nil hc post)
  rw [List.length_append] at hfits
  refine ⟨by omega, fun k hk => ?_⟩
  have hbit := h.bits k
  have hin : p + k < 8 * s.bsLen := by omega
  rw [List.getElem?_append_left hk, List.getElem?_eq_getElem hk] at hbit
  rw [List.getElem?_eq_getElem hk]
  simpa [bitAt, hin] using hbit.symm

/-- Behind its first bits stand the others. -/
theorem StreamFrom.drop {p : Nat} {c post : List Bool} {s : State} (h : StreamFrom p (c ++ post) s) :
    StreamFrom (p + c.length) post s where
  fits hne := by
    have := h.fits (List.append_ne_nil_of_right_ne_nil c hne)
    rw [List.length_append] at this
    omega
  bits k := by
    rw [Nat.add_assoc, h.bits, List.getElem?_append_right (Nat.le_add_right _ _), Nat.add_sub_cancel_left]

/-- What `l` stands for in a code table: symbols with codes, and the codes one behind the other. -/
inductive Encoding (table : List (Nat × List Bool)) : List Nat → List Bool → Prop where
  | nil : Encoding table [] []
  | cons {v : Nat} {l : List Nat} {c w : List Bool} :
      cellGet? table (toWord v).toNat = some c → Encoding table l w → Encoding table (v :: l) (c ++ w)

/-- Encoding symbols appends their codes to the stream and keeps the tree. -/
theorem StreamFrom.encodeSymbols {l : List Nat} {p : Nat} {w : List Bool} {s t : State} (h : StreamFrom p w s)
    (hp : bitPos s = p + w.length) (hs : latched s = false) (ht : encodeSymbols l s = some t) :
    ∃ x, Encoding s.hcode l x ∧ StreamFrom p (w ++ x) t ∧ bitPos t = p + (w ++ x).length ∧ latched t = false ∧
      sameHufTree s t := by
  induction l generalizing w s with
  | nil =>
    cases ht
    exact ⟨[], .nil, by rwa [List.append_nil], by rwa [List.append_nil], hs, rfl, rfl, rfl⟩
  | cons v l ih =>
    obtain ⟨u, hu, hrest⟩ := Option.bind_eq_some_iff.1 ht
    have hrun := (completed_eq_some hu).1
    obtain ⟨hroot, hcode, hinfo⟩ := exec_sameHufTree (by simp) (by simp) (by simp) hrun
    obtain ⟨c, rfl, -, hc, -⟩ := (hufEncode_ends _).of_completed hu
    have harg : StreamFrom p w { s with arg0 := toWord v } := h.congr rfl rfl
    have hstream := (harg.bitsWritten (c := c) hp).congr (t := setRes0 c.length (Machine.bitsWritten c _)) rfl rfl
    obtain ⟨x, hx, hend, hpos, hlatch, hroot', hcode', hinfo'⟩ := ih hstream
      ((bitPos_bitsWritten c _).trans (by rw [List.length_append, ← Nat.add_assoc, ← hp]; rfl))
      ((latched_bitsWritten c _).trans hs) hrest
    rw [hcode] at hx
    rw [List.append_assoc] at hend hpos
    exact ⟨c ++ x, .cons hc hx, hend, hpos, hlatch, hroot'.trans hroot, hcode'.trans hcode, hinfo'.trans hinfo⟩

/-- `HUF.DECODE` at the start of a code answers its symbol and moves to the next one. -/
theorem StreamFrom.hufDecode {v : Nat} {c post : List Bool} {s : State} (h : StreamFrom (bitPos s) (c ++ post) s)
    (hwf : hufWf s = true) (hs : latched s = false) (hc : cellGet? s.hcode (toWord v).toNat = some c) :
    ∃ t, completed (exec .hufDecode s) = some t ∧ t.res0 = toWord v ∧ bitPos t = bitPos s + c.length ∧
      StreamFrom (bitPos s + c.length) post t ∧ sameHufTree s t ∧ latched t = false := by
  have hbits : ∀ k, k < c.length → (c)[k]? = some (getBit s (bitPos s + k)) := fun k hk =>
    (h.holdsAt (List.ne_nil_of_length_pos (Nat.zero_lt_of_lt hk))).2 k hk
  refine ⟨setRes (toWord v).toNat c.length (setPos (bitPos s + c.length) s), ?_, toWord_toNat _, bitPos_setPos _ s,
    h.drop.congr rfl rfl, ⟨rfl, rfl, rfl⟩, hs⟩
  rw [hufDecode_code hwf hc (fun hne => (h.holdsAt hne).1) hbits]
  exact completed_next hs

/-- Decoding a stream of codes answers the symbols in order and ends behind them. -/
theorem StreamFrom.decodeSymbols {l : List Nat} {x : List Bool} {s : State} (hx : Encoding s.hcode l x)
    (h : StreamFrom (bitPos s) x s) (hwf : hufWf s = true) (hs : latched s = false) :
    ∃ u, decodeSymbols l.length s = some (l.map toWord, u) ∧ bitPos u = bitPos s + x.length := by
  induction l generalizing x s with
  | nil =>
    cases hx
    exact ⟨s, rfl, rfl⟩
  | cons v l ih =>
    obtain _ | @⟨_, _, c, x, hc, hx⟩ := hx
    obtain ⟨t, ht, hres, hpos, hstream, htree, hlatch⟩ := h.hufDecode hwf hs hc
    obtain ⟨u, hu, hend⟩ := ih (htree.2.1 ▸ hx) (hpos ▸ hstream) ((hufWf_congr htree).trans hwf) hlatch
    refine ⟨u, ?_, by rw [hend, hpos, List.length_append, Nat.add_assoc]⟩
    rw [List.length_cons, Machine.decodeSymbols, ht, Option.bind_some, hu, Option.map_some, hres, List.map_cons]

/-- Settles O50: encoding appends the codes of the symbols, and decoding takes the stream apart code by code. -/
theorem hufRoundTrip : Obligations.HufRoundTrip := by
  intro s t l hwf _ hs hclean ht
  obtain ⟨x, hx, hstream, hpos, hlatch, htree⟩ := (StreamFrom.clean hclean).encodeSymbols rfl hs ht
  rw [← htree.2.1] at hx
  obtain ⟨u, hu, hend⟩ := StreamFrom.decodeSymbols (s := setPos (bitPos s) t) hx
    ((bitPos_setPos (bitPos s) t).symm ▸ hstream.congr rfl rfl) ((hufWf_congr htree).trans hwf) hlatch
  exact ⟨u, hu, by rw [hend, hpos, bitPos_setPos]; rfl⟩

end Sys2Proof.Machine
end

section
/-! PROOFS. `RLE0.COMPRESS` and `RLE0.DECOMPRESS`: what each answers (O51, O52), and that the compressed form is decoded
to the input again (O53). -/

namespace Sys2Proof.Machine

/-! ### A command that writes `OUT` from its start (R280, R281) -/

/-- The command completes with `OUT` holding `l`, its length in `RES0`, and everything else as before. -/
def CompletesWith (i : Instr) (s : State) (l : List Byte) : Prop :=
  ∃ t, exec i s = .next t ∧ outputBytes t = l ∧ t.outLen = l.length ∧ t.res0 = toWord l.length ∧
    (∀ a, t.outLen ≤ a → bufRead t.outb a = bufRead s.outb a) ∧
    t = { s with res0 := t.res0, outb := t.outb, outLen := t.outLen }

/-- The command raises `e` with `info` once `OUT` holds `l`, and everything else is as before. -/
def RaisesAfter (i : Instr) (s : State) (e : ErrKind) (info : Nat) (l : List Byte) : Prop :=
  ∃ t, exec i s = .next (raise e info (encode i) t) ∧ outputBytes t = l ∧
    t = { s with outb := t.outb, outLen := l.length }

/-- Appending to an emptied `OUT` makes it the appended bytes. -/
theorem outputBytes_appended_emptied (l : List Byte) (s : State) :
    outputBytes (appended l { s with outLen := 0 }) = l :=
  outputBytes_appended l _

theorem appended_emptied_frame (l : List Byte) (s : State) : appended l { s with outLen := 0 } =
    { s with outb := (appended l { s with outLen := 0 }).outb, outLen := l.length } := by
  simp [appended]

theorem bufRead_appended_emptied_above {l : List Byte} (s : State) {a : Nat} (h : l.length ≤ a) :
    bufRead (appended l { s with outLen := 0 }).outb a = bufRead s.outb a :=
  bufRead_storeAll_above _ _ _ (by simpa using h)

theorem CompletesWith.of_exec {i : Instr} {s : State} {l : List Byte}
    (h : exec i s = .next (setRes0 l.length (appended l { s with outLen := 0 }))) : CompletesWith i s l := by
  have hlen : (appended l { s with outLen := 0 }).outLen = l.length := Nat.zero_add _
  refine ⟨_, h, outputBytes_appended_emptied l s, hlen, rfl,
    fun a ha => bufRead_appended_emptied_above s (hlen ▸ ha), ?_⟩
  rw [setRes0, appended_emptied_frame]

theorem RaisesAfter.of_exec {i : Instr} {s : State} {e : ErrKind} {info : Nat} {l : List Byte}
    (h : exec i s = .next (raise e info (encode i) (appended l { s with outLen := 0 }))) : RaisesAfter i s e info l :=
  ⟨_, h, outputBytes_appended_emptied l s, appended_emptied_frame l s⟩

/-- `OUT` is full where `Capacity` is raised. -/
theorem RaisesAfter.full {i : Instr} {s : State} {e : ErrKind} {info n : Nat} {l : List Byte}
    (h : RaisesAfter i s e info (l.take n)) (hn : n < l.length) :
    ∃ t, exec i s = .next (raise e info (encode i) t) ∧ outputBytes t = l.take n ∧
      t = { s with outb := t.outb, outLen := n } := by
  rwa [RaisesAfter, List.length_take_of_le hn.le] at h

/-- A run that completes keeps the error state. -/
theorem CompletesWith.keeps_latched {i : Instr} {s : State} {l : List Byte} (h : CompletesWith i s l) :
    ∃ t, exec i s = .next t ∧ latched t = latched s ∧ outputBytes t = l := by
  obtain ⟨t, hrun, hout, -, -, -, hframe⟩ := h
  exact ⟨t, hrun, by rw [hframe]; rfl, hout⟩

/-! ### `RLE0.COMPRESS` (R280) -/

theorem exec_rle0Compress (s : State) :
    exec .rle0Compress s = finish (encode .rle0Compress) (rle0Compress s) := rfl

theorem rle0Compress_completes {s : State} {l : List Byte} (hl : rleEncode 0 (inputBytes s) = l)
    (hfits : l.length ≤ s.cfg.bufCap) : CompletesWith .rle0Compress s l := by
  refine .of_exec ?_
  rw [exec_rle0Compress, rle0Compress_eq, hl, if_pos hfits]
  rfl

theorem rle0Compress_full {s : State} {l : List Byte} (hl : rleEncode 0 (inputBytes s) = l)
    (hfull : s.cfg.bufCap < l.length) :
    RaisesAfter .rle0Compress s .capacity s.cfg.bufCap (l.take s.cfg.bufCap) := by
  refine .of_exec ?_
  rw [exec_rle0Compress, rle0Compress_eq, hl, if_neg (Nat.not_le.2 hfull)]
  rfl

/-- Settles O51: `pairs` is the model's `zeroPairs`, so the output is the encoding of the runs. -/
theorem rleCompressOutput : Obligations.RleCompressOutput := by
  refine ⟨rfl, ?_⟩
  rintro s runs z pairs out hpairs hruns hin rfl
  obtain rfl : pairs = zeroPairs := funext hpairs
  have henc := (congrArg (rleEncode 0) hin).trans (rleEncode_runs runs z hruns)
  exact ⟨rle0Compress_completes henc, fun hfull => (rle0Compress_full henc hfull).full hfull⟩

/-! ### `RLE0.DECOMPRESS` (R281) -/

theorem exec_rle0Decompress (s : State) :
    exec .rle0Decompress s = finish (encode .rle0Decompress) (rle0Decompress s) := rfl

theorem rle0Decompress_completes {s : State} {l : List Byte} (hl : rleDecode (inputBytes s) = (l, false))
    (hfits : l.length ≤ s.cfg.bufCap) : CompletesWith .rle0Decompress s l := by
  refine .of_exec ?_
  rw [exec_rle0Decompress, rle0Decompress_eq, hl, if_pos hfits]
  rfl

theorem rle0Decompress_cut {s : State} {l : List Byte} (hl : rleDecode (inputBytes s) = (l, true))
    (hfits : l.length ≤ s.cfg.bufCap) : RaisesAfter .rle0Decompress s .unexpectedEnd s.inLen l := by
  refine .of_exec ?_
  rw [exec_rle0Decompress, rle0Decompress_eq, hl, if_pos hfits]
  rfl

theorem rle0Decompress_full {s : State} {l : List Byte} (hl : (rleDecode (inputBytes s)).1 = l)
    (hfull : s.cfg.bufCap < l.length) :
    RaisesAfter .rle0Decompress s .capacity s.cfg.bufCap (l.take s.cfg.bufCap) := by
  refine .of_exec ?_
  rw [exec_rle0Decompress, rle0Decompress_eq, hl, if_neg (Nat.not_le.2 hfull)]
  rfl

/-- Settles O52: the items decode one by one, and a lone `0x00` after them adds no byte. -/
theorem rleDecompressOutput : Obligations.RleDecompressOutput := by
  refine ⟨rfl, ?_⟩
  intro s items enc dec hlit henc hdec
  have hitems (rest : List Byte) :
      rleDecode (enc ++ rest) = (dec ++ (rleDecode rest).1, (rleDecode rest).2) := by
    rw [henc, hdec]
    exact rleDecode_items items rest hlit
  have hwhole : rleDecode enc = (dec, false) := by simpa [rleDecode] using hitems []
  have hcut : rleDecode (enc ++ [0#8]) = (dec, true) := by simpa [rleDecode] using hitems [0#8]
  refine ⟨fun hfits hin => rle0Decompress_completes (hin ▸ hwhole) hfits,
    fun hfits hin => rle0Decompress_cut (hin ▸ hcut) hfits, fun hfull hin => ?_⟩
  have hout : (rleDecode (inputBytes s)).1 = dec := by
    obtain h | h := hin
    · rw [h, hwhole]
    · rw [h, hcut]
  exact (rle0Decompress_full hout hfull).full hfull

/-! ### Round trip (R282) -/

/-- The compressed form decodes to the zeros already passed and the rest of the input, and never ends on a lone
`0x00`. -/
theorem rleDecode_rleEncode (r : Nat) (l : List Byte) :
    rleDecode (rleEncode r l) = (List.replicate r 0#8 ++ l, false) := by
  induction l generalizing r with
  | nil =>
    have hpairs := rleDecode_zeroPairs r []
    rwa [List.append_nil] at hpairs
  | cons b l ih =>
    rw [rleEncode]
    split_ifs with hb
    · rw [ih, hb, List.replicate_succ', List.append_assoc]
      rfl
    · rw [rleDecode_zeroPairs, rleDecode_cons hb, ih]
      rfl

/-- A run of `RLE0.COMPRESS` that ends with nothing latched has written the compressed form. -/
theorem rle0Compress_output {s t : State} (hrun : exec .rle0Compress s = .next t) (ht : latched t = false) :
    outputBytes t = rleEncode 0 (inputBytes s) ∧ t.cfg = s.cfg := by
  obtain ⟨l, hl, rfl, -⟩ := (rle0Compress_ends s).of_completed (hrun ▸ completed_next ht)
  exact ⟨(outputBytes_appended_emptied l s).trans hl, rfl⟩

/-- Settles O53: the input of the decoder is the compressed form, which decodes to the original input. -/
theorem rleRoundTrip : Obligations.RleRoundTrip := by
  intro s t u hbounds _ hcompress ht hxchg
  obtain ⟨hout, hcfg⟩ := rle0Compress_output hcompress ht
  obtain rfl := ((sysXchg_ends t).cases hxchg).resolve_right (by simp)
  have hdec : rleDecode (outputBytes t) = (inputBytes s, false) := by rw [hout, rleDecode_rleEncode]; rfl
  have hfits : (inputBytes s).length ≤ t.cfg.bufCap := by
    rw [inputBytes, slice_length, hcfg]
    exact boundsWf_inLen hbounds
  have hcompletes := rle0Decompress_completes (s := { t with
    inb := t.outb, inLen := t.outLen, outb := t.inb, outLen := t.inLen, dict := Dict.empty .inSpace }) hdec hfits
  obtain ⟨v, hv, hlatched, hbytes⟩ := hcompletes.keeps_latched
  exact ⟨v, hv, hlatched.trans ht, hbytes⟩

end Sys2Proof.Machine
end

section
/-! PROOFS. The system commands that reset nothing: `SYS.NOP` and `SYS.CLRERR` (O20), `SYS.XCHG` (O21). -/

namespace Sys2Proof.Machine

/-! ### `SYS.CLRERR` (R291) -/

theorem exec_sysClrerr (s : State) : exec .sysClrerr s = .next (if s.halt then s else clearError s) := by
  obtain ⟨t, ht, rfl⟩ := (sysClrerr_ends s).completes (by simp)
  exact ht

/-- With no error recorded there is nothing to clear. -/
theorem clearError_eq_self {s : State} (herr : s.err = false) (hcode : s.errCode = 0) : clearError s = s := by
  rw [clearError, ← herr, ← hcode]

/-- Settles O20. -/
theorem sysNopAndClrerr : Obligations.SysNopAndClrerr := by
  refine ⟨rfl, fun _ => rfl, rfl, fun s hhalt => ?_, fun s hhalt => ?_, fun s hlatch hcode => ?_⟩
  · rw [exec_sysClrerr, if_pos hhalt]
  · rw [exec_sysClrerr, if_neg (Bool.eq_false_iff.1 hhalt), clearError]
  · obtain ⟨herr, -⟩ := latched_eq_false.1 hlatch
    rw [exec_sysClrerr, clearError_eq_self herr hcode, ite_self]

/-! ### `SYS.XCHG` (R293) -/

/-- The state with `IN` and `OUT` swapped and the dictionary emptied. -/
def exchanged (s : State) : State :=
  { s with inb := s.outb, inLen := s.outLen, outb := s.inb, outLen := s.inLen, dict := Dict.empty .inSpace }

theorem exec_sysXchg (s : State) : exec .sysXchg s = .next (exchanged s) := by
  obtain ⟨t, ht, rfl⟩ := (sysXchg_ends s).completes (by simp)
  exact ht

/-- Swapping twice restores the buffers, and the dictionary stays empty. -/
theorem exchanged_exchanged (s : State) : exchanged (exchanged s) = { s with dict := Dict.empty .inSpace } := rfl

/-- Settles O21: the first exchange leaves `exchanged s`, the second undoes all of it but the emptied dictionary. -/
theorem sysXchgSwaps : Obligations.SysXchgSwaps := by
  refine ⟨rfl, fun s => ⟨exchanged s, exec_sysXchg s, fun _ => ⟨rfl, rfl⟩, rfl, rfl, rfl, rfl, ?_⟩⟩
  exact ⟨_, exec_sysXchg (exchanged s), by rw [exchanged_exchanged]⟩

end Sys2Proof.Machine
end

section
/-! PROOFS. Errors: what raising one does (O13), that every command ends (O14) and which errors it can raise,
with what it has changed by then (O15, O17); illegal and refused words (O5, O6), and the `HALT` state (O7). -/

namespace Sys2Proof.Machine

/-! ### Raising an error (R301, R302, R310) -/

theorem sameError_refl (s : State) : sameError s s := ⟨rfl, rfl, rfl, rfl, rfl⟩

/-- With nothing latched before, exactly the class of the error is latched. -/
theorem raise_of_unlatched {s : State} (hl : latched s = false) (e : ErrKind) (n : Nat) (w : Word) :
    raise e n w s = raisedIn e n w s := by
  obtain ⟨herr, hhalt⟩ := latched_eq_false.1 hl
  simp [raise, raisedIn, herr, hhalt]

/-- Settles O13: the code and the class of each error are those of R302. -/
theorem raiseEffect : Obligations.RaiseEffect := by
  intro e info w s hinfo hl
  refine ⟨raisedIn e info w s, ?_, ?_, rfl, ?_, rfl⟩
  · rw [finish_raised, raise_of_unlatched hl]
  · exact (BitVec.toNat_ofNat info 32).trans (Nat.mod_eq_of_lt hinfo)
  · cases e <;> rfl

/-! ### Every command ends (R300) -/

theorem finish_next (w : Word) (r : Res State) : ∃ t, finish w r = .next t := by
  cases r with
  | ok s => exact ⟨s, rfl⟩
  | raised e n s => exact ⟨raise e n w s, rfl⟩

theorem Ends.next {i : Instr} {s : State} {P : State → Prop} {Q : ErrKind → Nat → State → Prop} (h : Ends i s P Q) :
    ∃ t, exec i s = .next t := by
  obtain ⟨t, ht, -⟩ | ⟨e, n, u, ht, -⟩ := h
  · exact ⟨t, ht⟩
  · exact ⟨_, ht⟩

/-- Settles O14: a command that can raise ends through `finish`; the others only complete. -/
theorem everyCommandEnds : Obligations.EveryCommandEnds := by
  intro i s
  cases i
  case sysNop | sysClrerr | sysReset | sysXchg | bsClear | bsGetpos | bsAlign => exact ⟨_, rfl⟩
  case dictFind => exact (dictFind_ends s).next
  case hufDecode => exact (hufDecode_ends s).next
  all_goals exact finish_next _ _

/-! ### The errors of each command (R304, R313) -/

/-- What holds of an error a command raises in the state `u`: R304 lists it for the command, and the command has
changed at most what its unit owns (R313), a precise one nothing. -/
structure ListedError (i : Instr) (s : State) (e : ErrKind) (u : State) : Prop where
  listed : e ∈ mayRaise i
  frame : u = takeOwn i s u
  precise : isPartial i = false → u = s

/-- A command completes with the error state it found, or raises an error R304 lists for it. -/
def EndsListed (i : Instr) (s : State) : Prop := Ends i s (sameError s) fun e _ u => ListedError i s e u

theorem Ends.listed {i : Instr} {s : State} {P : State → Prop} {Q : ErrKind → Nat → State → Prop} (h : Ends i s P Q)
    (hP : ∀ t, P t → sameError s t) (hQ : ∀ e n u, Q e n u → ListedError i s e u) : EndsListed i s := by
  obtain ⟨t, ht, hp⟩ | ⟨e, n, u, ht, hq⟩ := h
  · exact .inl ⟨t, ht, hP t hp⟩
  · exact .inr ⟨e, n, u, ht, hQ e n u hq⟩

theorem ListedError.of_precise {i : Instr} {s u : State} {Q : ErrKind → Nat → Prop} {e : ErrKind} {n : Nat}
    (h : Precise s Q e n u) (he : e ∈ mayRaise i) : ListedError i s e u := ⟨he, h.takeOwn, fun _ => h.1⟩

theorem Ends.listed_of_precise {i : Instr} {s : State} {P : State → Prop} {Q : ErrKind → Nat → Prop}
    (h : Ends i s P (Precise s Q)) (hP : ∀ t, P t → sameError s t) (hQ : ∀ e n, Q e n → e ∈ mayRaise i) :
    EndsListed i s :=
  h.listed hP fun e n _ hq => .of_precise hq (hQ e n hq.2)

theorem Ends.listed_of_noError {i : Instr} {s : State} {P : State → Prop} (h : Ends i s P fun _ _ _ => False)
    (hP : ∀ t, P t → sameError s t) : EndsListed i s :=
  h.listed hP fun _ _ _ => False.elim

/-- A codec pass leaves the error state. -/
theorem Grows.sameError_of_pyrStart {sel : DataSel} {s u : State} (h : Grows (pyrStart sel s) u) : sameError s u := by
  rw [h.fields_of_pyrStart]; exact sameError_refl s

theorem sameError_bitsWritten (l : List Bool) (s : State) : sameError s (bitsWritten l s) := by
  rw [bitsWritten_frame]; exact sameError_refl s

theorem fetchErr_listed {n i : Nat} {s : State} {e : ErrKind} (h : fetchErr n s e i) :
    e = .invalidArgument ∨ e = .unexpectedEnd :=
  h.imp And.left And.left

/-- R304, said once for every command but the two that own the error state. -/
theorem exec_listed {i : Instr} (hc : i ≠ .sysClrerr) (hr : i ≠ .sysReset) (s : State)
    (hw : i = .pyrCompress ∨ i = .pyrExpand → 0 < s.cfg.cap) : EndsListed i s := by
  have hs := sameError_refl s
  cases i with
  | sysNop => exact (sysNop_ends s).listed_of_noError fun t h => h ▸ hs
  | sysClrerr => exact absurd rfl hc
  | sysReset => exact absurd rfl hr
  | sysXchg => exact (sysXchg_ends s).listed_of_noError fun t h => h ▸ hs
  | bsClear => exact (bsClear_ends s).listed_of_noError fun t h => h ▸ hs
  | bsGetpos => exact (bsGetpos_ends s).listed_of_noError fun t h => h ▸ hs
  | bsSetpos =>
    refine (bsSetpos_ends s).listed_of_precise (fun t h => h.1 ▸ hs) fun e n h => ?_
    simp [mayRaise, h.1]
  | bsRead k =>
    refine (bsRead_ends k s).listed_of_precise (fun t h => h.1 ▸ hs) fun e n h => ?_
    simpa [mayRaise] using fetchErr_listed h
  | bsPeek k =>
    refine (bsPeek_ends k s).listed_of_precise (fun t h => h.1 ▸ hs) fun e n h => ?_
    simpa [mayRaise] using fetchErr_listed h
  | bsWrite k =>
    refine (bsWrite_ends k s).listed_of_precise (fun t h => h.1 ▸ sameError_bitsWritten _ s) fun e n h => ?_
    simpa [mayRaise] using h.imp And.left And.left
  | bsAlign =>
    refine (bsAlign_ends s).listed_of_noError fun t h => ?_
    rw [h]; split_ifs <;> exact hs
  | bsReadbyte =>
    refine (bsReadbyte_ends s).listed_of_precise (fun t h => h.1 ▸ hs) fun e n h => ?_
    simp [mayRaise, h.1]
  | bsWritebyte =>
    refine (bsWritebyte_ends s).listed_of_precise (fun t h => h.1 ▸ sameError_bitsWritten _ (setPos _ s))
      fun e n h => ?_
    simp [mayRaise, h.1]
  | dictClear sel =>
    refine (dictClear_ends sel s).listed_of_precise (fun t h => h.1 ▸ hs) fun e n h => ?_
    simp [mayRaise, h.1]
  | dictInsert =>
    refine (dictInsert_ends s).listed_of_precise (fun t h => h.1 ▸ hs) fun e n h => ?_
    simp [mayRaise, h.1]
  | dictFind =>
    refine (dictFind_ends s).listed_of_noError fun t h => ?_
    rw [(findAt_frame (argNat0 s) s).1] at h
    rw [h]; split <;> exact hs
  | dictFree =>
    refine (dictFree_ends s).listed_of_precise (fun t h => h.1 ▸ hs) fun e n h => ?_
    simp [mayRaise, h.1]
  | pyrCompress =>
    refine (pyrCompress_ends s (hw (.inl rfl))).listed ?_ ?_
    · rintro t ⟨u, rfl, hg, -⟩; exact hg.sameError_of_pyrStart
    · rintro e n u ⟨rfl, -, hg, -⟩
      exact ⟨by simp [mayRaise], hg.fields_of_pyrStart, nofun⟩
  | pyrExpand =>
    refine (pyrExpand_ends s (hw (.inr rfl))).listed ?_ ?_
    · rintro t ⟨u, rfl, hg, -⟩; exact hg.sameError_of_pyrStart
    · rintro e n u ⟨hg, -, -, he⟩
      refine ⟨?_, hg.fields_of_pyrStart, nofun⟩
      simpa [mayRaise] using he.imp And.left (Or.imp And.left And.left)
  | pyrMatchdec =>
    refine (pyrMatchdec_ends s).listed ?_ ?_
    · rintro t ⟨l, ip, rfl, -⟩; exact hs
    · rintro e n u (⟨rfl, rfl, -⟩ | ⟨l, rfl, -, -, he⟩)
      · exact ⟨by simp [mayRaise], (takeOwn_self _ _).symm, nofun⟩
      · exact ⟨by simpa [mayRaise] using .inr (he.imp And.left And.left), rfl, nofun⟩
  | hufBuild =>
    refine (hufBuild_ends s).listed_of_precise ?_ fun e n h => ?_
    · rintro t ⟨-, ⟨-, rfl⟩ | ⟨r, -, -, rfl⟩⟩ <;> exact hs
    · simp [mayRaise, h.1]
  | hufEncode =>
    refine (hufEncode_ends s).listed_of_precise ?_ fun e n h => ?_
    · rintro t ⟨c, rfl, -⟩; exact sameError_bitsWritten c s
    · simpa [mayRaise] using h.imp And.left And.left
  | hufDecode =>
    refine (hufDecode_ends s).listed_of_noError ?_
    rintro t (⟨-, rfl⟩ | ⟨r, -, rfl⟩)
    · exact hs
    · split <;> exact hs
  | rle0Compress =>
    refine (rle0Compress_ends s).listed ?_ ?_
    · rintro t ⟨l, -, rfl, -⟩; exact hs
    · rintro e n u ⟨l, -, rfl, -, rfl, -⟩
      exact ⟨by simp [mayRaise], rfl, nofun⟩
  | rle0Decompress =>
    refine (rle0Decompress_ends s).listed ?_ ?_
    · rintro t ⟨l, -, rfl, -⟩; exact hs
    · rintro e n u (⟨l, -, rfl, -, rfl, -⟩ | ⟨l, -, rfl, -, rfl, -⟩)
      · exact ⟨by simp [mayRaise], rfl, nofun⟩
      · exact ⟨by simp [mayRaise], rfl, nofun⟩

/-- The state an error is raised in has the error state of the first. -/
theorem ListedError.sameError {i : Instr} {s u : State} {e : ErrKind} (h : ListedError i s e u)
    (hc : i ≠ .sysClrerr) (hr : i ≠ .sysReset) : sameError s u := by
  rw [h.frame]; exact sameError_takeOwn hc hr u (sameError_refl s)

theorem sameError.halt_eq {s t : State} (h : sameError s t) : t.halt = s.halt := by
  obtain ⟨-, hhalt, -⟩ := h
  exact hhalt

theorem sameError.latched_eq {s t : State} (h : sameError s t) : latched t = latched s := by
  obtain ⟨herr, hhalt, -⟩ := h
  rw [latched, latched, herr, hhalt]

/-- Settles O15. -/
theorem onlyListedErrors : Obligations.OnlyListedErrors := by
  intro i s t hc hr hcfg hl ht
  obtain hsame | ⟨e, n, u, rfl, hu⟩ := (exec_listed hc hr s fun _ => cap_pos_of_wf hcfg).cases ht
  · exact .inl hsame
  · have hlu : latched u = false := (hu.sameError hc hr).latched_eq.trans hl
    rw [raise_of_unlatched hlu]
    exact .inr ⟨e, hu.listed, rfl, rfl, rfl, rfl⟩

/-! ### What a raising command has changed (R313) -/

/-- From a state with nothing latched the two commands that own the error state leave nothing latched. -/
theorem latched_of_sysClrerr_or_sysReset {i : Instr} {s t : State} (hi : i = .sysClrerr ∨ i = .sysReset)
    (hl : latched s = false) (ht : exec i s = .next t) : latched t = false := by
  obtain ⟨herr, hhalt⟩ := latched_eq_false.1 hl
  obtain rfl | rfl := hi
  · obtain rfl := ((sysClrerr_ends s).cases ht).resolve_right (by simp)
    rw [hhalt]; exact hhalt
  · obtain rfl := ((sysReset_ends s).cases ht).resolve_right (by simp)
    rw [hhalt]; rfl

/-- A command that ends with an error it did not find has raised one of its list. -/
theorem exec_raises {i : Instr} {s t : State} (hcfg : s.cfg.wf = true) (hl : latched s = false)
    (ht : exec i s = .next t) (hlt : latched t = true) :
    ∃ e n u, t = raise e n (encode i) u ∧ ListedError i s e u := by
  have hsys : ¬ (i = .sysClrerr ∨ i = .sysReset) := fun hi => by
    rw [latched_of_sysClrerr_or_sysReset hi hl ht] at hlt; cases hlt
  obtain ⟨hc, hr⟩ := not_or.1 hsys
  refine ((exec_listed hc hr s fun _ => cap_pos_of_wf hcfg).cases ht).resolve_left fun hsame => ?_
  rw [hsame.latched_eq, hl] at hlt
  cases hlt

/-- The partial commands that use neither units nor dictionary. -/
theorem byteCodec_of_isPartial {i : Instr} (hp : isPartial i = true) (hcomp : i ≠ .pyrCompress)
    (hexp : i ≠ .pyrExpand) : i = .pyrMatchdec ∨ i = .rle0Compress ∨ i = .rle0Decompress := by
  cases i
  case pyrCompress => exact absurd rfl hcomp
  case pyrExpand => exact absurd rfl hexp
  case pyrMatchdec | rle0Compress | rle0Decompress => simp
  all_goals cases hp

/-- Settles O17: the error is raised in a state that differs from the first in what the unit owns, or, where the command
is precise, in nothing. -/
theorem preciseAndPartial : Obligations.PreciseAndPartial := by
  intro i s t hcfg hl ht hlt
  obtain ⟨e, n, u, rfl, hu⟩ := exec_raises hcfg hl ht hlt
  refine ⟨fun hp => ?_, fun hp => ?_, fun hcomp hexp => ?_⟩
  · rw [hu.precise hp]; rfl
  · cases i
    case pyrCompress | pyrExpand | pyrMatchdec | rle0Compress | rle0Decompress => rw [hu.frame]; rfl
    all_goals cases hp
  · cases hp : isPartial i with
    | false => rw [hu.precise hp]; exact ⟨⟨rfl, rfl, rfl, rfl⟩, rfl⟩
    | true => exact (byteCodec_keeps (byteCodec_of_isPartial hp hcomp hexp) ht).symm

/-! ### Illegal words (R85, R305) -/

theorem commandOf_eq_none {w : Word} (h : ∀ i : Instr, i.wellFormed = true → encode i ≠ w) : commandOf w = none := by
  unfold commandOf
  split
  · next i hi =>
    obtain ⟨hwf, henc⟩ := decode_eq_ok_iff.1 hi
    exact absurd henc (h i hwf)
  · rfl

theorem accepted_of_unlatched {s : State} (hl : latched s = false) (w : Word) : accepted w s = true := by
  obtain ⟨herr, hhalt⟩ := latched_eq_false.1 hl
  simp [accepted, herr, hhalt]

theorem issue_illegal {s : State} {w : Word} (hl : latched s = false) (hw : commandOf w = none) :
    issue w s = .next (raisedIn .illegalCommand w.toNat w s) := by
  rw [issue, if_pos (accepted_of_unlatched hl w), hw, ← raise_of_unlatched hl]

/-- Settles O5: `ERRINFO0` shows the illegal word itself. -/
theorem illegalWordRaises : Obligations.IllegalWordRaises := by
  intro s w rest hp hl hw
  rw [step_of_cmdWrite hp, issue_illegal (s := { s with pending := rest }) hl (commandOf_eq_none hw), raisedIn,
    toWord_toNat]
  rfl

/-! ### Refused words (R311) -/

theorem issue_of_halt {s : State} (h : s.halt = true) (w : Word) : issue w s = .next s := by
  simp [issue, accepted, h]

theorem issue_of_err {s : State} {w : Word} (h : s.err = true) (hc : w ≠ encode .sysClrerr)
    (hr : w ≠ encode .sysReset) : issue w s = .next s := by
  have hacc : accepted w s = false := by simp [accepted, h, hc, hr]
  rw [issue, hacc]; rfl

/-- A halted block discards every word (R311, R316). -/
theorem step_cmdWrite_of_halt {s : State} {w : Word} {rest : List HostMove} (hp : s.pending = .regWrite 0 w :: rest)
    (hhalt : s.halt = true) : step s = .next { s with pending := rest } :=
  (step_of_cmdWrite hp).trans (issue_of_halt (s := { s with pending := rest }) hhalt w)

/-- Settles O6: what a host access does depends on no error state. -/
theorem refusedWhileLatched : Obligations.RefusedWhileLatched := by
  refine ⟨fun s w rest hp herr hc hr => ?_, fun s w rest hp hhalt => ?_, fun s rest _ => ⟨fun n hp => ?_,
    fun n v hn hp => ?_, fun sp a ha hp => ?_, fun sp a v ha hp => ?_, fun sp a ha hp => ?_, fun sp a v ha hp => ?_,
    fun a v hp => ?_, fun a v hp => ?_, fun sym hle hp => ?_, fun sym v hp => ?_⟩⟩
  · exact (step_of_cmdWrite hp).trans (issue_of_err (s := { s with pending := rest }) herr hc hr)
  · exact step_cmdWrite_of_halt hp hhalt
  · exact step_of_pending hp
  · rw [step_of_pending hp, hostMove, if_neg hn]
  · rw [step_of_pending hp]
    cases sp <;> exact atCell_of_lt ha
  · exact (step_of_pending hp).trans (hostMove_byteWrite sp v ha)
  · rw [step_of_pending hp]
    cases sp <;> exact atCell_of_lt ha
  · refine (step_of_pending hp).trans (hostMove_wordWrite sp v ?_)
    cases sp <;> exact ha
  · exact step_of_pending hp
  · exact step_of_pending hp
  · rw [step_of_pending hp, hostMove, if_pos hle]
  · exact step_of_pending hp

/-! ### The `HALT` state (R316) -/

theorem sameError_writeReg (n : Nat) (v : Word) (s : State) : sameError s (writeReg n v s) := by
  rw [writeReg_frame]; exact sameError_refl s

/-- No host move but hardware reset touches the error state of a halted block. -/
theorem hostMove_sameError {m : HostMove} {s t : State} (hhalt : s.halt = true) (hm : m ≠ .hardReset)
    (ht : hostMove m s = .next t) : sameError s t := by
  have hs := sameError_refl s
  cases m with
  | regWrite n v =>
    rw [hostMove] at ht
    split_ifs at ht
    · rw [issue_of_halt hhalt] at ht
      cases ht; exact hs
    · cases ht; exact sameError_writeReg n v s
  | regRead n => cases ht; exact hs
  | byteWrite sp a v =>
    rw [hostMove] at ht
    split_ifs at ht
    · cases ht; exact hs
    · obtain ⟨-, rfl⟩ := atCell_next ht
      rw [hostByteWrite_frame]; exact hs
  | byteRead sp a => obtain ⟨-, rfl⟩ := atCell_next ht; exact hs
  | wordWrite sp a v =>
    rw [hostMove] at ht
    split_ifs at ht
    · cases ht; exact hs
    · obtain ⟨-, rfl⟩ := atCell_next ht
      rw [hostWordWrite_frame]; exact hs
  | wordRead sp a => obtain ⟨-, rfl⟩ := atCell_next ht; exact hs
  | hcodeWrite sym v => cases ht; exact hs
  | hcodeRead sym => cases ht; exact hs
  | hardReset => exact absurd rfl hm

/-- Settles O7: hardware reset is the only move of which `hostMove_sameError` does not speak. -/
theorem onlyResetLeavesHalt : Obligations.OnlyResetLeavesHalt := by
  refine ⟨fun e info w s he => ?_, fun s rest hhalt => ⟨fun w hp => ?_, fun n hp => ?_, fun m t hp hm ht => ?_,
    fun hp => ⟨_, step_of_pending hp, rfl⟩⟩⟩
  · rw [raise_halt, he, Bool.not_false, Bool.or_true]
  · exact step_cmdWrite_of_halt hp hhalt
  · exact step_of_pending hp
  · rw [step_of_pending hp] at ht
    have hsame : sameError s t := hostMove_sameError (s := { s with pending := rest }) hhalt hm ht
    exact ⟨hsame.halt_eq.trans hhalt, hsame⟩

end Sys2Proof.Machine
end

section
/-! PROOFS. The two resets complete (O19). -/

namespace Sys2Proof.Machine

/-! ### What a reset leaves: nothing latched, the host's own fields as they were (R54, log 12) -/

theorem latched_resetBlock (s : State) : latched (resetBlock s) = false := latched_eq_false.2 ⟨rfl, rfl⟩

theorem sameHost_resetBlock (s : State) : sameHost s (resetBlock s) := ⟨rfl, rfl, rfl⟩

/-! ### Hardware reset (R340) and `SYS.RESET` (R292) -/

/-- Hardware reset asks nothing of the state: it is performed in `HALT` too. -/
theorem step_hardReset {s : State} {rest : List HostMove} (hp : s.pending = .hardReset :: rest) :
    step s = .next (resetBlock { s with pending := rest }) := by
  rw [step_of_pending hp, hostMove]

theorem exec_sysReset (s : State) : exec .sysReset s = .next (if s.halt then s else resetBlock s) := by
  obtain ⟨t, ht, rfl⟩ := (sysReset_ends s).completes (by simp)
  exact ht

/-- Settles O19: only `SYS.RESET` looks at `HALT`; what either leaves is a `resetBlock`. -/
theorem resetsComplete : Obligations.ResetsComplete := by
  refine ⟨fun s rest hp => ?_, fun s hhalt => ?_, fun s hhalt => ?_⟩
  · obtain ⟨hcfg, hpending, hreply⟩ := sameHost_resetBlock { s with pending := rest }
    exact ⟨_, step_hardReset hp, hpending, hreply, hcfg, latched_resetBlock _⟩
  · have hreset : exec .sysReset s = .next (resetBlock s) := by
      rw [exec_sysReset, if_neg (Bool.eq_false_iff.1 hhalt)]
    exact ⟨_, hreset, sameHost_resetBlock s, latched_resetBlock s⟩
  · rw [exec_sysReset, if_pos hhalt]

end Sys2Proof.Machine
end
